-- ==== Sys2Proof/Word.lean ====
section
/-! DEFINITION. The word types of the Opyar-256 and their plainest arithmetic. -/

namespace Sys2Proof

/-- A 64-bit scalar word. -/
abbrev Word := BitVec 64
/-- A byte of any memory. -/
abbrev Byte := BitVec 8
/-- One 1024-bit vector register (R131). -/
abbrev Vec := BitVec 1024
/-- A capability with its tag: bit 128 is the tag, bits 127..0 are the fields of R90. -/
abbrev CapWord := BitVec 129
/-- A 224-bit engine command (R75, R76). -/
abbrev CmdWord := BitVec 224

end Sys2Proof
end

