-- ==== Sys2Proof/Syntax.lean ====
section
/-! DEFINITION. Abstract syntax: one constructor per row of spec/opcode_table.json.
Quarter syllables carry raw register fields of their encoded width (R64, R65); `WellFormed` says which
values the spec admits.  Engine commands carry their header and operand fields (R76), reserved fields
included, because a nonzero reserved field has a fate of its own (R81).  Events, which have no encoding,
carry what the agent outside the instruction stream decides. -/

namespace Sys2Proof

/-- A 7-bit register field of a syllable (R64, R65). -/
abbrev Reg := BitVec 7
/-- A guard: `none` is G = 0, `some p` is G = 1 with GP = p (R65, R67). -/
abbrev Guard := Option (BitVec 6)

/-- The immediate of a form B instruction: IMM8 of the short form or IMM16 of the image (R68, R101). -/
inductive Imm
  | short (v : BitVec 8)
  | long (v : BitVec 16)
  deriving DecidableEq, Repr

/-- Access sizes of LD and ST, Q[1:0] (R232). -/
inductive Size | d | w | h | b
  deriving DecidableEq, Repr

/-- Scopes of R215, in code order. -/
inductive Scope | strand | core | device | system
  deriving DecidableEq, Repr

/-- Synchronisation qualifier of loads, Q[5:2] (R232). -/
inductive LdSync | none | acq (s : Scope) | fe | fec
  deriving DecidableEq, Repr

/-- Synchronisation qualifier of stores, Q[5:2] (R232). -/
inductive StSync | none | rel (s : Scope) | sf
  deriving DecidableEq, Repr

/-- Conditions of CMP and CMPI, Q[3:0] (R103). -/
inductive Cond | eq | ne | lt | ge | le | gt | ltu | geu | leu | gtu
  deriving DecidableEq, Repr

/-- Combining rule of CMP and CMPI, Q[5:4] (R103). -/
inductive Comb | set | and | or
  deriving DecidableEq, Repr

/-- Field selected by CGET, Q (R107). -/
inductive CapField | base | len | perm | space | ver | tag
  deriving DecidableEq, Repr

/-- Element types formed from Q[1:0] and M (R134). -/
inductive ElType | f32 | bf16 | f16 | s32 | s16 | z32 | z16
  deriving DecidableEq, Repr

/-- Rounding modes of R48, codes 0 to 4. -/
inductive Rm | rne | rtz | rup | rdn | sr
  deriving DecidableEq, Repr

/-- Types of VCVT, codes 0 to 4 (R139). -/
inductive CvtType | f32 | bf16 | f16 | s32 | z32
  deriving DecidableEq, Repr

/-- Types of VCMP, Q[5:4] (R141). -/
inductive VCmpType | f32 | bf16 | f16 | s32
  deriving DecidableEq, Repr

/-- Conditions of VCMP, Q[3:0] (R141). -/
inductive VCond | eq | ne | lt | le | gt | ge | un | nan | nonfin
  deriving DecidableEq, Repr

/-- Kinds of VDOT4, Q[1:0] (R138). -/
inductive DotKind | ss | zs | zz
  deriving DecidableEq, Repr

/-- Patterns of VSHUF, Q[1:0] (R143). -/
inductive ShufPat | lo | hi | even | odd
  deriving DecidableEq, Repr

/-- The amount of VSLIDE: a scalar register or IMM16 (R143). -/
inductive SlideAmt | reg (b : Reg) | imm (k : BitVec 16)
  deriving DecidableEq, Repr

/-- Operations of VRED and VSCAN, Q[3:2] (R145). -/
inductive RedOp | add | max | min
  deriving DecidableEq, Repr

/-- Operations of VAMO, Q[2:0] (R243). -/
inductive AmoOp | add | min | max | and | or | xchg | cas
  deriving DecidableEq, Repr

/-- Element formats of engine operands and of ACCCVT, codes 0 to 11 of R80. -/
inductive Fmt | bf16 | f16 | e4m3 | e5m2 | int8 | uint8 | td8 | e3m2 | e2m3 | e2m1 | int4 | fp32
  deriving DecidableEq, Repr

/-- Item selected by ACCPOISON (R172). -/
inductive PoisSel | pois | spois | flg
  deriving DecidableEq, Repr

/-- Register file named by TAPEREC and TAPEPOP (R263). -/
inductive TapeFile | s | v | p
  deriving DecidableEq, Repr

/-- The five engines of a core, in TCUT order (R178). -/
inductive Eng | ce | me | ni | tape | cmu
  deriving DecidableEq, Repr

/-- The header of an engine command (R76), the opcode apart. -/
structure CmdHdr where
  /-- reserved bits [15:13] -/
  rsvA : BitVec 3
  wc : Bool
  s : Bool
  f : Bool
  se : Bool
  we : Bool
  widx : BitVec 8
  wthr : BitVec 16
  sidx : BitVec 8
  sinc : BitVec 8
  scope : BitVec 2
  cq : BitVec 2
  /-- reserved bits [63:60] -/
  rsvB : BitVec 4
  deriving DecidableEq, Repr

/-- Bits [95:64] shared by COPY, COPY2D, COPY3D and FILL (R245). -/
structure CeCommon where
  cs : BitVec 4
  cd : BitVec 4
  swe : Bool
  sw : BitVec 5
  be : Bool
  bidx : BitVec 11
  rsv : BitVec 6
  deriving DecidableEq, Repr

/-- COPY (R245). -/
structure CopyOp where
  c : CeCommon
  soff : BitVec 48
  doff : BitVec 48
  len : BitVec 32
  deriving DecidableEq, Repr

/-- COPY2D (R245). -/
structure Copy2dOp where
  c : CeCommon
  soff : BitVec 32
  doff : BitVec 32
  rowb : BitVec 16
  nrow : BitVec 16
  sstr : BitVec 16
  dstr : BitVec 16
  deriving DecidableEq, Repr

/-- COPY3D (R245). -/
structure Copy3dOp where
  c : CeCommon
  soff : BitVec 28
  doff : BitVec 28
  rowb : BitVec 12
  nrow : BitVec 8
  npl : BitVec 8
  sstr : BitVec 10
  dstr : BitVec 10
  sps : BitVec 12
  dps : BitVec 12
  deriving DecidableEq, Repr

/-- FILL (R245). -/
structure FillOp where
  c : CeCommon
  doff : BitVec 48
  len : BitVec 32
  pat : BitVec 32
  rsv : BitVec 16
  deriving DecidableEq, Repr

/-- MCCOPY, TGATH and TSCAT (R248). -/
structure TileOp where
  cb : BitVec 4
  cl : BitVec 4
  cs : BitVec 4
  swe : Bool
  sw : BitVec 5
  be : Bool
  bidx : BitVec 11
  rsvA : BitVec 2
  layer : BitVec 6
  slot : Bool
  rsvB : BitVec 1
  rpoff : BitVec 24
  enoff : BitVec 24
  first : BitVec 16
  count : BitVec 16
  modes : BitVec 4
  halo : BitVec 3
  rsvC : BitVec 1
  soff : BitVec 24
  rsvD : BitVec 8
  deriving DecidableEq, Repr

/-- Bits [95:64] shared by RREAD, RWRITE and RSEND (R253). -/
structure NiCommon where
  cl : BitVec 4
  cr : BitVec 4
  cx : BitVec 4
  be : Bool
  bidx : BitVec 11
  esz : BitVec 2
  rsv : BitVec 6
  deriving DecidableEq, Repr

/-- RREAD and RWRITE (R253). -/
structure RrwOp where
  c : NiCommon
  loff : BitVec 32
  roff : BitVec 32
  xoff : BitVec 24
  count : BitVec 16
  rsv : BitVec 24
  deriving DecidableEq, Repr

/-- RSEND (R253). -/
structure RsendOp where
  c : NiCommon
  loff : BitVec 32
  roff : BitVec 32
  len : BitVec 20
  rbe : Bool
  rbidx : BitVec 11
  rse : Bool
  rsidx : BitVec 8
  rsinc : BitVec 8
  rsv : BitVec 15
  deriving DecidableEq, Repr

/-- TAPEREV (R268). -/
structure TaperevOp where
  ct : BitVec 4
  cd : BitVec 4
  be : Bool
  bidx : BitVec 11
  rsvA : BitVec 12
  seg : BitVec 8
  doff : BitVec 24
  len : BitVec 32
  rsvB : BitVec 64
  deriving DecidableEq, Repr

/-- CMSCAN, CMRESET and CMSTAT (R331). -/
structure CmuOp where
  cf : BitVec 4
  cc : BitVec 4
  cl : BitVec 4
  slot : BitVec 8
  grp : BitVec 4
  foff : BitVec 20
  coff : BitVec 20
  rpoff : BitVec 20
  enoff : BitVec 20
  sumoff : BitVec 20
  maxent : BitVec 16
  row0 : BitVec 12
  nd : Bool
  rsv : BitVec 7
  deriving DecidableEq, Repr

/-- ACCZ, ACCLD and ACCST (R164), with the unlisted bits, which are reserved. -/
structure AccOp where
  acc : BitVec 3
  rsvA : BitVec 1
  lfmt : BitVec 2
  ty : Bool
  rsvB : BitVec 1
  ca : BitVec 4
  rsvC : BitVec 8
  swa : BitVec 5
  swae : Bool
  rsvD : BitVec 6
  offa : BitVec 24
  rsvE : BitVec 24
  stra : BitVec 16
  rsvF : BitVec 64
  deriving DecidableEq, Repr

/-- The operand field of an MMA-family command (R156), with the format and shape of its opcode (R80).
`bfmt` is the raw code, whose admissible values R158 gives. -/
structure MmaOp where
  /-- OP[5:2], the raw format code of A -/
  fmt : BitVec 4
  /-- OP[1:0], the raw shape code -/
  shape : BitVec 2
  acc : BitVec 3
  row0 : Bool
  bfmt : BitVec 4
  ca : BitVec 4
  cb : BitVec 4
  cx : BitVec 4
  swa : BitVec 5
  swae : Bool
  swb : BitVec 5
  swbe : Bool
  offa : BitVec 24
  offb : BitVec 24
  stra : BitVec 16
  strb : BitVec 16
  offx : BitVec 24
  strx : BitVec 16
  zpre : Bool
  pb : Bool
  rsv : BitVec 6
  deriving DecidableEq, Repr

/-- An access that reaches a target core's network interface from another core (R254, R255). -/
inductive Inbound
  | read (addr len : Nat)
  | write (addr : Nat) (bytes : List Byte)
  | decrement (bidx : Nat) (len : Nat)
  | signal (sem : Nat) (inc : Nat)
  deriving DecidableEq, Repr

/-- What a codec engine has decoded of one 16 by 16 block (R291): whether it got so far, whether any part of it is
intra-coded, and the dequantised luma coefficients. -/
structure DecodedBlock where
  decoded : Bool
  intra : Bool
  coefs : List Int
  deriving DecidableEq, Repr

/-- A motion vector in quarter-pel luma, and the signed distance in output order from the picture to its reference (R291). -/
structure MotionVec where
  dx : Int
  dy : Int
  dist : Int
  deriving DecidableEq, Repr

/-- A prediction unit of a decoded picture: the luma samples it covers, and its vectors of list 0 and list 1 (R291). -/
structure PredUnit where
  x : Nat
  y : Nat
  w : Nat
  h : Nat
  list0 : Option MotionVec
  list1 : Option MotionVec
  deriving DecidableEq, Repr

/-- What a codec engine has decoded for one frame-queue entry (R290 to R293): the bitstream standards
are outside the spec, so the decoded values are the engine's input.  `pic` holds H luma rows of W bytes, then
ceil(H / 2) interleaved chroma rows of W bytes, as far as blocks have been decoded; `blocks` has one element for each, and
`units` holds the prediction units. -/
structure DecodedFrame where
  w : BitVec 16
  h : BitVec 16
  /-- the stream has ended: the entry is its EOS -/
  eos : Bool
  /-- the chunk its data begins in, counted among those taken and not used up -/
  chunk : Nat
  /-- every part of it is intra-coded -/
  intra : Bool
  /-- it is a random-access picture -/
  key : Bool
  /-- the reference that missing blocks are copied from, counted from the picture decoded last -/
  ref : Option Nat
  pic : List Byte
  blocks : List DecodedBlock
  units : List PredUnit
  deriving DecidableEq, Repr

/-- What the boot ROM finds in one firmware image slot of the board flash (R347). -/
structure FlashImage where
  readable : Bool
  version : BitVec 16
  floor : BitVec 16
  /-- bytes of the image and of the configuration blob, the vendor key that comes with them, and their signatures -/
  image : List Byte
  config : List Byte
  vendorKey : List Byte
  imageSig : List Byte
  configSig : List Byte
  qtBase : BitVec 64
  rcbBase : BitVec 64
  dsched : BitVec 64
  wdog : BitVec 32
  /-- power limit in W -/
  plimit : BitVec 16
  peers : List (BitVec 64)
  deriving DecidableEq, Repr

/-- A byte address outside the device: in a peer's memory or in the host's (R13, R247). -/
structure OuterAddr where
  peer : Bool
  off : Nat
  deriving DecidableEq, Repr

/-- What the board's sensors read: power in W and hotspot temperature in degrees (R355). -/
structure Reading where
  watts : BitVec 16
  celsius : BitVec 8
  deriving DecidableEq, Repr

/-- The instructions, commands and events of the opcode table. -/
inductive Instr
  -- scalar, form A (R98)
  | add (g : Guard) (d a b : Reg) (w : Bool)
  | sub (g : Guard) (d a b : Reg) (w : Bool)
  | mul (g : Guard) (d a b : Reg) (w : Bool)
  | mulh (g : Guard) (d a b : Reg)
  | mulhu (g : Guard) (d a b : Reg)
  | div (g : Guard) (d a b : Reg) (w : Bool)
  | divu (g : Guard) (d a b : Reg) (w : Bool)
  | rem (g : Guard) (d a b : Reg) (w : Bool)
  | remu (g : Guard) (d a b : Reg) (w : Bool)
  | and (g : Guard) (d a b : Reg)
  | or (g : Guard) (d a b : Reg)
  | xor (g : Guard) (d a b : Reg)
  | andn (g : Guard) (d a b : Reg)
  | shl (g : Guard) (d a b : Reg) (w : Bool)
  | shr (g : Guard) (d a b : Reg) (w : Bool)
  | sra (g : Guard) (d a b : Reg) (w : Bool)
  | rot (g : Guard) (d a b : Reg) (w : Bool)
  | min (g : Guard) (d a b : Reg)
  | max (g : Guard) (d a b : Reg)
  | minu (g : Guard) (d a b : Reg)
  | maxu (g : Guard) (d a b : Reg)
  | clz (g : Guard) (d a : Reg)
  | ctz (g : Guard) (d a : Reg)
  | popc (g : Guard) (d a : Reg)
  | sext (g : Guard) (d a b : Reg)
  | zext (g : Guard) (d a b : Reg)
  | mov (g : Guard) (d a : Reg)
  | movFromPredicate (g : Guard) (d a : Reg)
  | sel (g : Guard) (d a b : Reg) (inv : Bool)
  | cmp (g : Guard) (d a b : Reg) (w : Bool) (c : Cond) (k : Comb)
  | pand (g : Guard) (d a b : Reg)
  | por (g : Guard) (d a b : Reg)
  | pxor (g : Guard) (d a b : Reg)
  | pandn (g : Guard) (d a b : Reg)
  | pnot (g : Guard) (d a : Reg)
  | pmov (g : Guard) (d a : Reg)
  | pmovFromScalar (g : Guard) (d a : Reg)
  | cand (g : Guard) (d a b : Reg)
  | candLen (g : Guard) (d a b : Reg)
  | cget (g : Guard) (d a : Reg) (f : CapField)
  | cmove (g : Guard) (d a : Reg)
  | cmoveInc (g : Guard) (d a b : Reg)
  | ctag (g : Guard) (d a b : Reg)
  | ctagClr (g : Guard) (d a : Reg)
  -- control, form A (R116)
  | ptbr (g : Guard) (d a : Reg)
  | ptbrRd (g : Guard) (d a : Reg)
  | br (g : Guard) (a b : Reg) (inv rcd : Bool)
  | brUnconditional (g : Guard) (a : Reg)
  | brl (g : Guard) (a b : Reg) (inv : Bool)
  | brlUnconditional (g : Guard) (a : Reg)
  | lend (g : Guard) (a : Reg) (rot : Bool)
  | lbreak (g : Guard) (a b : Reg)
  | join (g : Guard) (a : Reg)
  | halt (g : Guard)
  | nop (g : Guard)
  | yield (g : Guard)
  -- scalar, form B (R101)
  | addi (g : Guard) (d a : Reg) (i : Imm)
  | andi (g : Guard) (d a : Reg) (i : Imm)
  | ori (g : Guard) (d a : Reg) (i : Imm)
  | xori (g : Guard) (d a : Reg) (i : Imm)
  | shli (g : Guard) (d a : Reg) (i : Imm)
  | shri (g : Guard) (d a : Reg) (i : Imm)
  | srai (g : Guard) (d a : Reg) (i : Imm)
  | movi (g : Guard) (d : Reg) (i : Imm)
  | cmpi (g : Guard) (d a : Reg) (i : Imm) (c : Cond) (k : Comb)
  | bfx (g : Guard) (d a : Reg) (i : Imm)
  | bfxu (g : Guard) (d a : Reg) (i : Imm)
  | bfi (g : Guard) (d a : Reg) (i : Imm)
  | cinc (g : Guard) (d a : Reg) (i : Imm)
  | csetb (g : Guard) (d a : Reg) (i : Imm)
  | mfs (g : Guard) (d : Reg) (i : Imm)
  | mts (g : Guard) (a : Reg) (i : Imm)
  | ptb (g : Guard) (d : Reg) (i : Imm)
  | larm (g : Guard) (d a : Reg) (i : Imm)
  | lstream (g : Guard) (d a : Reg) (i : Imm)
  | fork (g : Guard) (a : Reg) (i : Imm)
  | role (g : Guard) (i : Imm)
  | semwait (g : Guard) (d a : Reg) (i : Imm) (cons : Bool)
  | semsig (g : Guard) (a : Reg) (i : Imm)
  | semadd (g : Guard) (d a : Reg) (i : Imm)
  | semrd (g : Guard) (d : Reg) (i : Imm)
  | bararrive (g : Guard) (d a : Reg) (i : Imm)
  | barwait (g : Guard) (a : Reg)
  | fenceAcq (g : Guard) (sc : Scope)
  | fenceRel (g : Guard) (sc : Scope)
  | fenceFull (g : Guard) (sc : Scope)
  | fenceSettle (g : Guard)
  | trap (g : Guard) (a : Reg) (i : Imm)
  | taperec (g : Guard) (f : TapeFile) (a : Reg)
  | tread (g : Guard) (d : Reg) (i : Imm)
  -- memory, form A (R232)
  | ld (g : Guard) (d a b : Reg) (sz : Size) (sync : LdSync) (m : Bool)
  | st (g : Guard) (d a b : Reg) (sz : Size) (sync : StSync) (m : Bool)
  | vld (g : Guard) (d a b : Reg) (sync : LdSync)
  | vst (g : Guard) (d a b : Reg) (sync : StSync)
  -- vector, form A (R135)
  | vadd (g : Guard) (d a b : Reg) (t : ElType) (rm : Rm)
  | vsub (g : Guard) (d a b : Reg) (t : ElType) (rm : Rm)
  | vmul (g : Guard) (d a b : Reg) (t : ElType) (rm : Rm)
  | vfma (g : Guard) (d a b : Reg) (t : ElType) (rm : Rm)
  | vfms (g : Guard) (d a b : Reg) (t : ElType) (rm : Rm)
  | vmin (g : Guard) (d a b : Reg) (t : ElType)
  | vmax (g : Guard) (d a b : Reg) (t : ElType)
  | viadd (g : Guard) (d a b : Reg) (h : Bool)
  | visub (g : Guard) (d a b : Reg) (h : Bool)
  | vand (g : Guard) (d a b : Reg)
  | vsel (g : Guard) (d a b : Reg) (inv : Bool)
  | vmov (g : Guard) (d a : Reg)
  -- prefixes (R72)
  | ext (x : BitVec 20)
  | capx (ci : BitVec 4)
  -- inline commands (R74)
  | cmdCe (g : Guard) (cmd : CmdWord)
  | cmdMe (g : Guard) (cmd : CmdWord)
  | cmdNi (g : Guard) (cmd : CmdWord)
  | cmdTape (g : Guard) (cmd : CmdWord)
  | cmdCmu (g : Guard) (cmd : CmdWord)
  -- trap and context (R186)
  | rte (g : Guard)
  | trapen (g : Guard)
  | trapdis (g : Guard)
  | ckpt (g : Guard) (d : Reg)
  | ctxsave (g : Guard) (a : Reg)
  | ctxload (g : Guard) (a : Reg)
  | scrub (g : Guard) (mask : BitVec 16)
  -- vector, form L (R135)
  | vor (g : Guard) (d a b : Reg)
  | vxor (g : Guard) (d a b : Reg)
  | vcmp (g : Guard) (d a b : Reg) (t : VCmpType) (c : VCond) (hi : Bool)
  | vimul (g : Guard) (d a b : Reg) (t : ElType) (hi : Bool)
  | vabs (g : Guard) (d a : Reg) (t : ElType)
  | vneg (g : Guard) (d a : Reg) (t : ElType)
  | vrcp (g : Guard) (d a : Reg) (t : ElType)
  | vrsq (g : Guard) (d a : Reg) (t : ElType)
  | vexp2 (g : Guard) (d a : Reg) (t : ElType)
  | vlog2 (g : Guard) (d a : Reg) (t : ElType)
  | vtanh (g : Guard) (d a : Reg) (t : ElType)
  | vcvt (g : Guard) (d a : Reg) (dst src : CvtType) (half : Bool) (rm : Rm) (ovs : Bool)
  | vrand (g : Guard) (d : Reg)
  | vprune (g : Guard) (d a b : Reg)
  | vshl (g : Guard) (d a b : Reg) (h : Bool)
  | vshr (g : Guard) (d a b : Reg) (h : Bool)
  | vsra (g : Guard) (d a b : Reg) (h : Bool)
  | vimin (g : Guard) (d a b : Reg) (t : ElType)
  | vimax (g : Guard) (d a b : Reg) (t : ElType)
  | vadds (g : Guard) (d a b : Reg) (t : ElType) (sub : Bool)
  | vdot4 (g : Guard) (d a b : Reg) (k : DotKind) (sat : Bool)
  | vbcast (g : Guard) (d a : Reg) (h : Bool)
  | vbcastV (g : Guard) (d a : Reg) (k : BitVec 16) (h : Bool)
  | vmovs (g : Guard) (d a b : Reg)
  | vmovsFrom (g : Guard) (d a b : Reg)
  | vperm (g : Guard) (d a b : Reg) (h : Bool)
  | vshuf (g : Guard) (d a b : Reg) (pat : ShufPat) (h : Bool)
  | vslide (g : Guard) (d a : Reg) (amt : SlideAmt) (rot up : Bool)
  | vred (g : Guard) (d a : Reg) (t : ElType) (op : RedOp) (rm : Rm)
  | vscan (g : Guard) (d a : Reg) (t : ElType) (op : RedOp) (excl : Bool) (rm : Rm)
  | vcompact (g : Guard) (d a b : Reg)
  | vexpand (g : Guard) (d a b : Reg)
  -- memory, form L (R238)
  | vlds (g : Guard) (d a b c : Reg) (h : Bool)
  | vsts (g : Guard) (d a b c : Reg) (h : Bool)
  | vgath (g : Guard) (d a b c : Reg) (x : Bool)
  | vscat (g : Guard) (d a b c : Reg) (x : Bool)
  | pref (g : Guard) (a b c : Reg) (l2 : Bool)
  | clean (g : Guard) (a b c : Reg)
  | inval (g : Guard) (a b c : Reg)
  | pin (g : Guard) (d a b c : Reg)
  | unpin (g : Guard) (d a b c : Reg)
  | vamo (g : Guard) (d a b c : Reg) (op : AmoOp) (u nr : Bool)
  -- accumulators (R168)
  | accrd (g : Guard) (d a b : Reg) (s : Bool)
  | accwr (g : Guard) (d a b : Reg)
  | acccvt (g : Guard) (d a b c : Reg) (fmt : Fmt) (s : Bool) (rm : Rm) (ovs : Bool)
  | acccommit (g : Guard) (d a : Reg)
  | accdiscard (g : Guard) (d : Reg)
  | accpoison (g : Guard) (d a b : Reg) (sel : PoisSel) (clr : Bool)
  -- tape (R263)
  | tapeonRec (g : Guard) (a b : Reg) (ring : Bool)
  | tapeonRep (g : Guard) (a b : Reg)
  | tapeoff (g : Guard)
  | tapemark (g : Guard)
  | tapepop (g : Guard) (f : TapeFile) (d : Reg)
  | brtape (g : Guard) (a : Reg)
  | tapestat (g : Guard) (d : Reg) (sel : BitVec 16)
  -- queues (R277)
  | submit (g : Guard) (d a b : Reg)
  | qclaim (g : Guard) (d a b : Reg) (head : Bool)
  | qpublish (g : Guard) (d a b c : Reg) (head : Bool)
  | qstat (g : Guard) (d a : Reg) (sel : BitVec 16)
  | qstatReload (g : Guard) (d a : Reg)
  | qstatDisable (g : Guard) (d a : Reg)
  | link (g : Guard) (d b : Reg) (e : Eng)
  | kick (g : Guard) (d a b : Reg) (e : Eng)
  | chainstat (g : Guard) (d : Reg) (sel : BitVec 16) (e : Eng)
  -- tables (R300)
  | tlbinv (g : Guard) (d a b c : Reg) (force : Bool)
  | tlbprobe (g : Guard) (d a b : Reg)
  | keyprobe (g : Guard) (d a : Reg) (sel : BitVec 16)
  | swzset (g : Guard) (a : Reg)
  | thrset (g : Guard) (d a b : Reg) (rd : Bool)
  | dltload (g : Guard) (d a b : Reg)
  | rcbsetLoad (g : Guard) (d a : Reg)
  | rcbsetFail (g : Guard) (d a b : Reg)
  -- counters (R323)
  | seminit (g : Guard) (a : Reg) (i : BitVec 16)
  | semcas (g : Guard) (d a : Reg) (i : BitVec 16)
  | barinit (g : Guard) (a b c : Reg)
  | barexp (g : Guard) (a b : Reg)
  | tsync (g : Guard) (d a : Reg)
  | tsyncStep (g : Guard) (d a : Reg)
  | tsyncPtm (g : Guard) (d : Reg)
  | pmcrd (g : Guard) (d : Reg) (sel : BitVec 16)
  -- engine commands (R79, R80)
  | copy (h : CmdHdr) (o : CopyOp)
  | copy2d (h : CmdHdr) (o : Copy2dOp)
  | copy3d (h : CmdHdr) (o : Copy3dOp)
  | fill (h : CmdHdr) (o : FillOp)
  | mccopy (h : CmdHdr) (o : TileOp)
  | tgath (h : CmdHdr) (o : TileOp)
  | tscat (h : CmdHdr) (o : TileOp)
  | rread (h : CmdHdr) (o : RrwOp)
  | rwrite (h : CmdHdr) (o : RrwOp)
  | rsend (h : CmdHdr) (o : RsendOp)
  | taperev (h : CmdHdr) (o : TaperevOp)
  | cmscan (h : CmdHdr) (o : CmuOp)
  | cmreset (h : CmdHdr) (o : CmuOp)
  | cmstat (h : CmdHdr) (o : CmuOp)
  | accz (h : CmdHdr) (o : AccOp)
  | accld (h : CmdHdr) (o : AccOp)
  | accst (h : CmdHdr) (o : AccOp)
  | mma (h : CmdHdr) (o : MmaOp)
  | mmaSp (h : CmdHdr) (o : MmaOp)
  | mmaD (h : CmdHdr) (o : MmaOp)
  -- events that carry what an outside agent decides
  | engineCommandComplete (e : Eng)
  | reservedEngineOpcode (e : Eng) (h : CmdHdr) (op : BitVec 8)
  | chainFetch (e : Eng)
  | niInboundAccess (target : Nat) (fromKs : BitVec 8) (a : Inbound)
  | tapeDrain (q : BitVec 2)
  | waitlong (q : BitVec 2)
  | mcheck (unit synd : Word)
  | cardRead (qid : Nat)
  | dispatchCore (n : Nat)
  | checkpoint (n : Nat)
  | kill (n : Nat)
  | hostTailWrite (off : Nat) (v : BitVec 32)
  | bar2Write (addr : Nat) (bytes : List Byte)
  | codecInputChunk (slot : Nat)
  | codecFramePost (slot : Nat) (f : DecodedFrame)
  | distillerLaneEntry (k : Nat)
  | distillerLaneCompletion (k : Nat)
  | pageWalk (rcb : Nat) (va : Nat) (kind : BitVec 2) (agent core : Nat)
  | bootRom (a b : FlashImage)
  | fwifWrite (v : BitVec 32)
  | poolLayoutWrite (n : BitVec 8) (v : Word)
  | tcutAccess (e : Eng)
  | modeWrite (v : Word)
  | registerWrite (off : Nat) (v : Word)
  | bar2Read (addr len : Nat)
  | rreadReply (elem : Nat) (bytes : List Byte) (poisoned : Bool)
  | hostReadTimeout (addr : OuterAddr) (len : Nat)
  | tapeReplayPrefetch (q : BitVec 2)
  | strandPromotion (q : BitVec 2)
  | keyReservation (qid ctr : Nat)
  | tokenRefill (rcb cycles : Nat)
  | queueCounterWriteback (qid : Nat)
  | clockThrottle (r : Reading)
  | timeAdvance (ns : Nat)
  | preemptionDecision (qid ctr : Nat)
  | drainTimeout (n : Nat)
  -- the two prefixes without fields (R72)
  | spec
  | tape
  -- events without fields
  | latencyModeSwitch
  | trapEntry
  | dispatchRound
  | runEnd
  | pageQueueEntry
  | coldReset
  | modeChange
  | mailboxAttest
  | mailboxKeyprov
  | mailboxKeyrevoke
  | mailboxUnknownOp
  | thermalShutdown
  | d3hotEntry
  | resultDelivery
  | d3hotExit
  | d3coldEntry
  | reservedEncoding
  deriving DecidableEq, Repr

end Sys2Proof
end

