-- ==== Sys2Proof/WellFormed.lean ====
section
/-! DEFINITION. Which abstract instructions the spec admits: register files and their counts (R66),
immediates within their limits (R101, R102, R142, R143, R263, R277, R300, R323), element types, rounding
modes and qualifiers as each chapter's encoding table gives them (R81). -/

namespace Sys2Proof

/-- s0 to s63 (R87). -/
def Reg.isS (r : Reg) : Bool := r.toNat < 64
/-- p0 to p63. -/
def Reg.isP (r : Reg) : Bool := r.toNat < 64
/-- c0 to c15. -/
def Reg.isC (r : Reg) : Bool := r.toNat < 16
/-- b0 to b7 (R112). -/
def Reg.isB (r : Reg) : Bool := r.toNat < 8
/-- l0 to l3 (R113). -/
def Reg.isL (r : Reg) : Bool := r.toNat < 4
/-- acc0 to acc7 (R148). -/
def Reg.isAcc (r : Reg) : Bool := r.toNat < 8

/-- The unextended immediate as a number. -/
def Imm.raw : Imm → Nat
  | .short v => v.toNat
  | .long v => v.toNat

/-- A guarded or qualified form B instruction exists only as an image (R68). -/
def Imm.fits (i : Imm) (g : Guard) : Bool :=
  match i with
  | .short _ => g.isNone
  | .long _ => true

/-- The immediate is that of the image. -/
def Imm.isLong : Imm → Bool
  | .short _ => false
  | .long _ => true

/-- The limits on a bit-field descriptor (R102). -/
def bfDescOk (n : Nat) : Bool := n < 4096 && n % 64 + (n / 64 + 1) ≤ 64

/-- FP32, BF16 or FP16. -/
def ElType.isFloat : ElType → Bool
  | .f32 => true
  | .bf16 => true
  | .f16 => true
  | _ => false

/-- 32-bit or 16-bit integer types. -/
def ElType.isInt (t : ElType) : Bool := !t.isFloat

/-- A rounding mode every quarter syllable that rounds may carry (R48). -/
def Rm.plain : Rm → Bool
  | .sr => false
  | _ => true

/-- .u or .c of LD: M = 1 with .w, .h, .b is .u; with .d it is .c; every combination has a meaning (R232). -/
def ldModeOk (_sz : Size) (_m : Bool) : Bool := true

/-- M = 1 of ST only with .d, where it is .c (R232). -/
def stModeOk (sz : Size) (m : Bool) : Bool := !m || sz == .d

/-- VCVT is 16-bit on that side (R139). -/
def CvtType.is16 : CvtType → Bool
  | .bf16 => true
  | .f16 => true
  | _ => false

/-- The admitted forms of VCVT (R139): types differ, M only when exactly one side is 16-bit, stochastic
rounding only to BF16 from FP32. -/
def vcvtOk (dst src : CvtType) (half : Bool) (rm : Rm) : Bool :=
  dst != src && (!half || dst.is16 != src.is16) && (rm.plain || (dst == .bf16 && src == .f32))

/-- Targets of ACCCVT that take scales (R170). -/
def Fmt.scaled : Fmt → Bool
  | .e4m3 => true
  | .e5m2 => true
  | .td8 => true
  | .e3m2 => true
  | .e2m3 => true
  | .e2m1 => true
  | _ => false

/-- The field limits of ACCCVT (R170). -/
def acccvtOk (c : Reg) (fmt : Fmt) (rm : Rm) : Bool :=
  fmt != .fp32 && c.isS && (fmt.scaled || c == 0) && (rm.plain || fmt == .bf16)

/-- The ME opcodes R80 admits in the MMA family; `fam` is 1 for MMA, 2 for MMA.SP and 3 for MMA.D. -/
def mmaAdmitted (fam fmt shape : Nat) : Bool :=
  match fam with
  | 1 => (fmt ≤ 11 && shape ≤ 1) || (shape == 2 && 2 ≤ fmt && fmt ≤ 4)
  | 2 => fmt ≤ 5 && shape ≤ 1
  | 3 => fmt == 6 && shape ≤ 1
  | _ => false

/-- Well-formed instructions. Commands with reserved bits set are well formed as syntax: their fate is a
COMMAND fault when the engine takes them (R81). -/
def Instr.wf : Instr → Bool
  | .add _ d a b _ | .sub _ d a b _ | .mul _ d a b _ | .div _ d a b _ | .divu _ d a b _
  | .rem _ d a b _ | .remu _ d a b _ | .shl _ d a b _ | .shr _ d a b _ | .sra _ d a b _
  | .rot _ d a b _ => d.isS && a.isS && b.isS
  | .mulh _ d a b | .mulhu _ d a b | .and _ d a b | .or _ d a b | .xor _ d a b | .andn _ d a b
  | .min _ d a b | .max _ d a b | .minu _ d a b | .maxu _ d a b | .sext _ d a b | .zext _ d a b =>
    d.isS && a.isS && b.isS
  | .clz _ d a | .ctz _ d a | .popc _ d a | .mov _ d a => d.isS && a.isS
  | .movFromPredicate _ d a => d.isS && a.isP
  | .sel _ d a b _ => d.isS && a.isP && b.isS
  | .cmp _ d a b _ _ _ => d.isP && a.isS && b.isS
  | .pand _ d a b | .por _ d a b | .pxor _ d a b | .pandn _ d a b => d.isP && a.isP && b.isP
  | .pnot _ d a | .pmov _ d a => d.isP && a.isP
  | .pmovFromScalar _ d a => d.isP && a.isS
  | .cand _ d a b | .candLen _ d a b | .cmoveInc _ d a b => d.isC && a.isC && b.isS
  | .cget _ d a _ => d.isS && a.isC
  | .cmove _ d a | .ctagClr _ d a => d.isC && a.isC
  | .ctag _ d a b => d.isC && a.isC && b.isC
  | .ptbr _ d a => d.isB && a.isS
  | .ptbrRd _ d a => d.isS && a.isB
  | .br _ a b _ _ => a.isB && b.isP
  | .brUnconditional _ a | .brlUnconditional _ a | .join _ a | .brtape _ a => a.isB
  | .brl _ a b _ => a.isB && b.isP
  | .lend _ a _ => a.isL
  | .lbreak _ a b => a.isL && b.isB
  | .halt _ | .nop _ | .yield _ => true
  | .addi g d a i | .andi g d a i | .ori g d a i | .xori g d a i => d.isS && a.isS && i.fits g
  | .shli g d a i | .shri g d a i | .srai g d a i => d.isS && a.isS && i.fits g && i.raw ≤ 63
  | .movi g d i => d.isS && i.fits g
  | .cmpi g d a i c k =>
    d.isP && a.isS && i.fits g && (i.isLong || (c == .eq && k == .set))
  | .bfx g d a i | .bfxu g d a i | .bfi g d a i => d.isS && a.isS && i.fits g && bfDescOk i.raw
  | .cinc g d a i | .csetb g d a i => d.isC && a.isC && i.fits g
  | .mfs g d i => d.isS && i.fits g && i.raw ≤ 255
  | .mts g a i => a.isS && i.fits g && i.raw ≤ 255
  | .ptb g d i => d.isB && i.fits g
  | .larm g d a i => d.isL && a.isS && i.fits g
  | .lstream g d a i => d.isL && a.isC && i.fits g
  | .fork g a i => a.isB && i.fits g
  | .role g i => i.fits g
  | .semwait g d a i c => d.isS && a.isS && i.fits g && (i.isLong || !c) && i.raw ≤ 255
  | .semsig g a i => a.isS && i.fits g && i.raw ≤ 255
  | .semadd g d a i => d.isS && a.isS && i.fits g && i.raw ≤ 255
  | .semrd g d i => d.isS && i.fits g && i.raw ≤ 255
  | .bararrive g d a i => d.isS && a.isS && i.fits g
  | .barwait _ a => a.isS
  | .fenceAcq _ _ | .fenceRel _ _ | .fenceFull _ _ | .fenceSettle _ => true
  | .trap g a i => a.isS && i.fits g
  | .taperec _ f a => match f with | .s => a.isS | .v => true | .p => a.isP
  | .tread g d i => d.isS && i.fits g && i.raw ≤ 2
  | .ld _ d a b sz _ m =>
    (if sz == .d && m then d.isC else d.isS) && a.isC && b.isS && ldModeOk sz m
  | .st _ d a b sz _ m =>
    (if sz == .d && m then d.isC else d.isS) && a.isC && b.isS && stModeOk sz m
  | .vld _ _ a b _ => a.isC && b.isS
  | .vst _ _ a b _ => a.isC && b.isS
  | .vadd _ _ _ _ t rm | .vsub _ _ _ _ t rm | .vmul _ _ _ _ t rm | .vfma _ _ _ _ t rm
  | .vfms _ _ _ _ t rm => t.isFloat && rm.plain
  | .vmin _ _ _ _ t | .vmax _ _ _ _ t => t.isFloat
  | .viadd .. | .visub .. | .vand .. | .vmov .. => true
  | .vsel _ _ a _ _ => a.isP
  | .ext _ | .capx _ | .spec | .tape => true
  | .cmdCe .. | .cmdMe .. | .cmdNi .. | .cmdTape .. | .cmdCmu .. => true
  | .rte _ | .trapen _ | .trapdis _ => true
  | .ckpt _ d => d.isS
  | .ctxsave _ a | .ctxload _ a => a.isC
  | .scrub _ m => m.toNat < 32
  | .vor .. | .vxor .. => true
  | .vcmp _ d _ b t c hi =>
    d.isP && (match c with | .nan => b == 0 | .nonfin => b == 0 | _ => true)
      && (match c with | .un => t != .s32 | .nan => t != .s32 | .nonfin => t != .s32 | _ => true)
      && (!hi || t == .bf16 || t == .f16)
  | .vimul _ _ _ _ t _ | .vimin _ _ _ _ t | .vimax _ _ _ _ t | .vadds _ _ _ _ t _ => t.isInt
  | .vabs _ _ _ t | .vneg _ _ _ t => t != .z32 && t != .z16
  | .vrcp _ _ _ t | .vrsq _ _ _ t | .vexp2 _ _ _ t | .vlog2 _ _ _ t | .vtanh _ _ _ t =>
    t == .f32 || t == .bf16
  | .vcvt _ _ _ dst src half rm _ => vcvtOk dst src half rm
  | .vrand .. => true
  | .vprune _ _ _ b => b.isS
  | .vshl .. | .vshr .. | .vsra .. | .vdot4 .. => true
  | .vbcast _ _ a _ => a.isS
  | .vbcastV _ _ _ k h => k.toNat ≤ if h then 63 else 31
  | .vmovs _ _ a b => a.isS && b.isS
  | .vmovsFrom _ d _ b => d.isS && b.isS
  | .vperm .. | .vshuf .. => true
  | .vslide _ _ _ amt _ _ => match amt with | .reg b => b.isS | .imm k => k.toNat ≤ 31
  | .vred _ d _ t op rm => d.isS && rm.plain && (rm == .rne || (op == .add && t.isFloat))
  | .vscan _ _ _ t op _ rm => rm.plain && (rm == .rne || (op == .add && t.isFloat))
  | .vcompact _ _ _ b | .vexpand _ _ _ b => b.isP
  | .vlds _ _ a b c _ | .vsts _ _ a b c _ => a.isC && b.isS && c.isS
  | .vgath _ _ a _ c _ | .vscat _ _ a _ c _ => a.isC && c.isS
  | .pref _ a b c _ | .clean _ a b c | .inval _ a b c => a.isC && b.isS && c.isS
  | .pin _ d a b c | .unpin _ d a b c => d.isS && a.isC && b.isS && c.isS
  | .vamo _ _ a _ _ op u _ => a.isC && (!u || op == .min || op == .max)
  | .accrd _ _ a b _ => a.isAcc && b.isS
  | .accwr _ d _ b => d.isAcc && b.isS
  | .acccvt _ _ a b c fmt _ rm _ => a.isAcc && b.isS && acccvtOk c fmt rm
  | .acccommit _ d a => d.isAcc && a.isP
  | .accdiscard _ d => d.isAcc
  | .accpoison _ d a b _ clr => d.isS && a.isAcc && b.isS && (clr || b == 0)
  | .tapeonRec _ a b _ | .tapeonRep _ a b => a.isC && b.isS
  | .tapeoff _ | .tapemark _ => true
  | .tapepop _ f d => match f with | .s => d.isS | .v => true | .p => d.isP
  | .tapestat _ d n => d.isS && n.toNat ≤ 7
  | .submit _ d a b => d.isS && a.isC && b.isS
  | .qclaim _ d a b _ => d.isS && a.isS && b.isS
  | .qpublish _ d a b c _ => d.isS && a.isS && b.isS && c.isS
  | .qstat _ d a n => d.isS && a.isS && n.toNat ≤ 5
  | .qstatReload _ d a | .qstatDisable _ d a => d.isS && a.isS
  | .link _ d b _ => d.isS && b.isS
  | .kick _ d a b _ => d.isS && a.isC && b.isS
  | .chainstat _ d n _ => d.isS && n.toNat ≤ 3
  | .tlbinv _ d a b c _ => d.isS && a.isS && b.isS && c.isS
  | .tlbprobe _ d a b => d.isS && a.isS && b.isS
  | .keyprobe _ d a n => d.isS && a.isS && n.toNat ≤ 2
  | .swzset _ a => a.isS
  | .thrset _ d a b rd => d.isS && a.isS && b.isS && (!rd || b == 0)
  | .dltload _ d a b => d.isS && a.isC && b.isS
  | .rcbsetLoad _ d a => d.isS && a.isS
  | .rcbsetFail _ d a b => d.isS && a.isS && b.isS
  | .seminit _ a i => a.isS && i.toNat ≤ 255
  | .semcas _ d a i => d.isS && a.isS && i.toNat ≤ 255
  | .barinit _ a b c => a.isC && b.isS && c.isS
  | .barexp _ a b => a.isS && b.isS
  | .tsync _ d a | .tsyncStep _ d a => d.isS && a.isS
  | .tsyncPtm _ d => d.isS
  | .pmcrd _ d n => d.isS && (n.toNat ≤ 15 || n.toNat == 32)
  | .copy .. | .copy2d .. | .copy3d .. | .fill .. | .mccopy .. | .tgath .. | .tscat .. => true
  | .rread .. | .rwrite .. | .rsend .. | .taperev .. | .cmscan .. | .cmreset .. | .cmstat .. => true
  | .accz .. | .accld .. | .accst .. => true
  | .mma _ o => mmaAdmitted 1 o.fmt.toNat o.shape.toNat
  | .mmaSp _ o => mmaAdmitted 2 o.fmt.toNat o.shape.toNat
  | .mmaD _ o => mmaAdmitted 3 o.fmt.toNat o.shape.toNat
  | .engineCommandComplete .. | .chainFetch .. | .rreadReply .. | .niInboundAccess ..
  | .hostReadTimeout .. | .tapeDrain .. | .tapeReplayPrefetch .. | .latencyModeSwitch
  | .strandPromotion .. | .trapEntry | .waitlong .. | .mcheck .. | .cardRead .. | .dispatchRound
  | .keyReservation .. | .dispatchCore .. | .runEnd | .preemptionDecision .. | .drainTimeout ..
  | .checkpoint .. | .kill .. | .tokenRefill .. | .queueCounterWriteback .. | .hostTailWrite ..
  | .bar2Write .. | .bar2Read .. | .codecInputChunk .. | .codecFramePost .. | .distillerLaneEntry ..
  | .distillerLaneCompletion .. | .pageWalk .. | .pageQueueEntry | .coldReset | .bootRom ..
  | .fwifWrite .. | .poolLayoutWrite .. | .tcutAccess .. | .modeWrite .. | .modeChange
  | .mailboxAttest .. | .mailboxKeyprov .. | .mailboxKeyrevoke .. | .mailboxUnknownOp ..
  | .registerWrite .. | .clockThrottle .. | .thermalShutdown | .d3hotEntry | .resultDelivery
  | .timeAdvance .. | .d3hotExit | .d3coldEntry | .reservedEncoding | .reservedEngineOpcode .. => true

/-- Rows that are prefix syllables (R72). -/
def Instr.isPrefix : Instr → Bool
  | .ext _ => true
  | .capx _ => true
  | .spec => true
  | .tape => true
  | _ => false

/-- Rows that no bits encode: events of agents outside the instruction stream, the two reserved-encoding rows among
them. -/
def Instr.isEvent : Instr → Bool
  | .engineCommandComplete .. | .chainFetch .. | .rreadReply .. | .niInboundAccess ..
  | .hostReadTimeout .. | .tapeDrain .. | .tapeReplayPrefetch .. | .latencyModeSwitch
  | .strandPromotion .. | .trapEntry | .waitlong .. | .mcheck .. | .cardRead .. | .dispatchRound
  | .keyReservation .. | .dispatchCore .. | .runEnd | .preemptionDecision .. | .drainTimeout ..
  | .checkpoint .. | .kill .. | .tokenRefill .. | .queueCounterWriteback .. | .hostTailWrite ..
  | .bar2Write .. | .bar2Read .. | .codecInputChunk .. | .codecFramePost .. | .distillerLaneEntry ..
  | .distillerLaneCompletion .. | .pageWalk .. | .pageQueueEntry | .coldReset | .bootRom ..
  | .fwifWrite .. | .poolLayoutWrite .. | .tcutAccess .. | .modeWrite .. | .modeChange
  | .mailboxAttest .. | .mailboxKeyprov .. | .mailboxKeyrevoke .. | .mailboxUnknownOp ..
  | .registerWrite .. | .clockThrottle .. | .thermalShutdown | .d3hotEntry | .resultDelivery
  | .timeAdvance .. | .d3hotExit | .d3coldEntry | .reservedEncoding | .reservedEngineOpcode .. => true
  | _ => false

/-- Redirecting syllables of R117, with TRAP (R186), RTE and CKPT (R186) and BRTAPE (R263). -/
def Instr.redirects : Instr → Bool
  | .br .. | .brUnconditional .. | .brl .. | .brlUnconditional .. | .lend .. | .lbreak .. | .larm ..
  | .lstream .. | .fork .. | .halt .. | .trap .. | .rte .. | .ckpt .. | .brtape .. => true
  | _ => false

/-- Syllables that must be the only group of their bundle (R71, R186). -/
def Instr.alone : Instr → Bool
  | .vamo .. => true
  | .rte .. => true
  | .ckpt .. => true
  | _ => false

end Sys2Proof
end

