-- ==== Sys2Proof/Decode.lean ====
section
/-! DEFINITION. Decoding and encoding (04_encoding_and_assembly).  Both go through one intermediate form,
`Raw`: the fields of a form A, B, L, CMD or prefix syllable (R64, R65, R68, R72, R74).  Fields are taken from
the least significant end of a number one after the other and put back in the same way. -/

namespace Sys2Proof

/-! ### Field packing -/

/-- The low `w` bits of `n`, and the rest. -/
def takeBv (w n : Nat) : BitVec w × Nat := (BitVec.ofNat w n, n / 2 ^ w)
/-- `v` placed below `n`. -/
def pushBv {w : Nat} (v : BitVec w) (n : Nat) : Nat := v.toNat + 2 ^ w * n
/-- The low bit of `n`, and the rest. -/
def takeB (n : Nat) : Bool × Nat := (n % 2 == 1, n / 2)
/-- A bit placed below `n`. -/
def pushB (b : Bool) (n : Nat) : Nat := b.toNat + 2 * n

/-! ### Codes -/

def Scope.code : Scope → BitVec 2
  | .strand => 0
  | .core => 1
  | .device => 2
  | .system => 3
def Scope.ofCode (c : BitVec 2) : Scope :=
  match c.toNat with
  | 0 => .strand
  | 1 => .core
  | 2 => .device
  | _ => .system

def Size.code : Size → BitVec 2
  | .d => 0
  | .w => 1
  | .h => 2
  | .b => 3
def Size.ofCode (c : BitVec 2) : Size :=
  match c.toNat with
  | 0 => .d
  | 1 => .w
  | 2 => .h
  | _ => .b

/-- Q[5:2] of a load: scope above the synchronisation code (R232). -/
def LdSync.code : LdSync → BitVec 4
  | .none => 0
  | .acq s => s.code ++ 1#2
  | .fe => 2
  | .fec => 3
def LdSync.ofCode (c : BitVec 4) : Option LdSync :=
  match (c.extractLsb' 0 2).toNat with
  | 1 => some (.acq (Scope.ofCode (c.extractLsb' 2 2)))
  | k => if c.extractLsb' 2 2 ≠ 0 then none else
    match k with
    | 0 => some .none
    | 2 => some .fe
    | _ => some .fec

/-- Q[5:2] of a store (R232). -/
def StSync.code : StSync → BitVec 4
  | .none => 0
  | .rel s => s.code ++ 1#2
  | .sf => 2
def StSync.ofCode (c : BitVec 4) : Option StSync :=
  match (c.extractLsb' 0 2).toNat with
  | 1 => some (.rel (Scope.ofCode (c.extractLsb' 2 2)))
  | 0 => if c.extractLsb' 2 2 ≠ 0 then none else some .none
  | 2 => if c.extractLsb' 2 2 ≠ 0 then none else some .sf
  | _ => none

def Cond.code : Cond → BitVec 4
  | .eq => 0
  | .ne => 1
  | .lt => 2
  | .ge => 3
  | .le => 4
  | .gt => 5
  | .ltu => 6
  | .geu => 7
  | .leu => 8
  | .gtu => 9
def Cond.ofCode (c : BitVec 4) : Option Cond :=
  match c.toNat with
  | 0 => some .eq
  | 1 => some .ne
  | 2 => some .lt
  | 3 => some .ge
  | 4 => some .le
  | 5 => some .gt
  | 6 => some .ltu
  | 7 => some .geu
  | 8 => some .leu
  | 9 => some .gtu
  | _ => none

def Comb.code : Comb → BitVec 2
  | .set => 0
  | .and => 1
  | .or => 2
def Comb.ofCode (c : BitVec 2) : Option Comb :=
  match c.toNat with
  | 0 => some .set
  | 1 => some .and
  | 2 => some .or
  | _ => none

def CapField.code : CapField → BitVec 6
  | .base => 0
  | .len => 1
  | .perm => 2
  | .space => 3
  | .ver => 4
  | .tag => 5
def CapField.ofCode (c : BitVec 6) : Option CapField :=
  match c.toNat with
  | 0 => some .base
  | 1 => some .len
  | 2 => some .perm
  | 3 => some .space
  | 4 => some .ver
  | 5 => some .tag
  | _ => none

/-- Q[1:0] of an element type (R134). -/
def ElType.q : ElType → BitVec 2
  | .f32 => 0
  | .bf16 => 0
  | .f16 => 1
  | .s32 => 2
  | .s16 => 2
  | .z32 => 3
  | .z16 => 3
/-- M of an element type (R134). -/
def ElType.m : ElType → Bool
  | .bf16 => true
  | .s16 => true
  | .z16 => true
  | _ => false
def ElType.ofCode (q : BitVec 2) (m : Bool) : Option ElType :=
  match q.toNat, m with
  | 0, false => some .f32
  | 0, true => some .bf16
  | 1, false => some .f16
  | 1, true => none
  | 2, false => some .s32
  | 2, true => some .s16
  | _, false => some .z32
  | _, true => some .z16

def Rm.code : Rm → BitVec 3
  | .rne => 0
  | .rtz => 1
  | .rup => 2
  | .rdn => 3
  | .sr => 4
def Rm.ofCode (c : BitVec 3) : Option Rm :=
  match c.toNat with
  | 0 => some .rne
  | 1 => some .rtz
  | 2 => some .rup
  | 3 => some .rdn
  | 4 => some .sr
  | _ => none

def CvtType.code : CvtType → BitVec 3
  | .f32 => 0
  | .bf16 => 1
  | .f16 => 2
  | .s32 => 3
  | .z32 => 4
def CvtType.ofCode (c : BitVec 3) : Option CvtType :=
  match c.toNat with
  | 0 => some .f32
  | 1 => some .bf16
  | 2 => some .f16
  | 3 => some .s32
  | 4 => some .z32
  | _ => none

def VCmpType.code : VCmpType → BitVec 2
  | .f32 => 0
  | .bf16 => 1
  | .f16 => 2
  | .s32 => 3
def VCmpType.ofCode (c : BitVec 2) : VCmpType :=
  match c.toNat with
  | 0 => .f32
  | 1 => .bf16
  | 2 => .f16
  | _ => .s32

def VCond.code : VCond → BitVec 4
  | .eq => 0
  | .ne => 1
  | .lt => 2
  | .le => 3
  | .gt => 4
  | .ge => 5
  | .un => 6
  | .nan => 7
  | .nonfin => 8
def VCond.ofCode (c : BitVec 4) : Option VCond :=
  match c.toNat with
  | 0 => some .eq
  | 1 => some .ne
  | 2 => some .lt
  | 3 => some .le
  | 4 => some .gt
  | 5 => some .ge
  | 6 => some .un
  | 7 => some .nan
  | 8 => some .nonfin
  | _ => none

def DotKind.code : DotKind → BitVec 2
  | .ss => 0
  | .zs => 1
  | .zz => 2
def DotKind.ofCode (c : BitVec 2) : Option DotKind :=
  match c.toNat with
  | 0 => some .ss
  | 1 => some .zs
  | 2 => some .zz
  | _ => none

def ShufPat.code : ShufPat → BitVec 2
  | .lo => 0
  | .hi => 1
  | .even => 2
  | .odd => 3
def ShufPat.ofCode (c : BitVec 2) : ShufPat :=
  match c.toNat with
  | 0 => .lo
  | 1 => .hi
  | 2 => .even
  | _ => .odd

def RedOp.code : RedOp → BitVec 2
  | .add => 0
  | .max => 1
  | .min => 2
def RedOp.ofCode (c : BitVec 2) : Option RedOp :=
  match c.toNat with
  | 0 => some .add
  | 1 => some .max
  | 2 => some .min
  | _ => none

def AmoOp.code : AmoOp → BitVec 3
  | .add => 0
  | .min => 1
  | .max => 2
  | .and => 3
  | .or => 4
  | .xchg => 5
  | .cas => 6
def AmoOp.ofCode (c : BitVec 3) : Option AmoOp :=
  match c.toNat with
  | 0 => some .add
  | 1 => some .min
  | 2 => some .max
  | 3 => some .and
  | 4 => some .or
  | 5 => some .xchg
  | 6 => some .cas
  | _ => none

def Fmt.code : Fmt → BitVec 4
  | .bf16 => 0
  | .f16 => 1
  | .e4m3 => 2
  | .e5m2 => 3
  | .int8 => 4
  | .uint8 => 5
  | .td8 => 6
  | .e3m2 => 7
  | .e2m3 => 8
  | .e2m1 => 9
  | .int4 => 10
  | .fp32 => 11
def Fmt.ofCode (c : BitVec 4) : Option Fmt :=
  match c.toNat with
  | 0 => some .bf16
  | 1 => some .f16
  | 2 => some .e4m3
  | 3 => some .e5m2
  | 4 => some .int8
  | 5 => some .uint8
  | 6 => some .td8
  | 7 => some .e3m2
  | 8 => some .e2m3
  | 9 => some .e2m1
  | 10 => some .int4
  | 11 => some .fp32
  | _ => none

def PoisSel.code : PoisSel → BitVec 2
  | .pois => 0
  | .spois => 1
  | .flg => 2
def PoisSel.ofCode (c : BitVec 2) : Option PoisSel :=
  match c.toNat with
  | 0 => some .pois
  | 1 => some .spois
  | 2 => some .flg
  | _ => none

def TapeFile.code : TapeFile → BitVec 2
  | .s => 0
  | .v => 1
  | .p => 2
def TapeFile.ofCode (c : BitVec 2) : Option TapeFile :=
  match c.toNat with
  | 0 => some .s
  | 1 => some .v
  | 2 => some .p
  | _ => none

def Eng.code : Eng → BitVec 3
  | .ce => 0
  | .me => 1
  | .ni => 2
  | .tape => 3
  | .cmu => 4
def Eng.ofCode (c : BitVec 3) : Option Eng :=
  match c.toNat with
  | 0 => some .ce
  | 1 => some .me
  | 2 => some .ni
  | 3 => some .tape
  | 4 => some .cmu
  | _ => none

/-! ### The intermediate form -/

/-- The fields of one syllable, STOP and SLOT apart. -/
inductive Raw
  /-- form A, short or image (R64, R68) -/
  | a (major : Nat) (g : Guard) (q : BitVec 6) (rm : BitVec 3) (rd ra rb : Reg) (m : Bool)
  /-- form B, short or image -/
  | b (major : Nat) (g : Guard) (q : BitVec 6) (rd ra : Reg) (i : Imm)
  /-- form L of majors 0x70 to 0x77; `imm` overlays RB, RC and the reserved bits [3:2] (R65) -/
  | l (major : Nat) (fn : BitVec 6) (g : Guard) (q : BitVec 6) (rm : BitVec 3) (rd ra : Reg)
      (imm : BitVec 16) (ovs m : Bool)
  /-- CMD of majors 0x60 to 0x64 (R74) -/
  | cmd (major : Nat) (g : Guard) (c : CmdWord)
  /-- prefix of majors 0x6C to 0x6F (R72) -/
  | pre (major : Nat) (x : BitVec 22)
  deriving DecidableEq, Repr

/-- RB and RC placed in the 16 bits they share with IMM16. -/
def rbrc (b c : Reg) : BitVec 16 := b ++ c ++ 0#2
/-- RB of the shared field. -/
def rbOf (i : BitVec 16) : Reg := i.extractLsb' 9 7
/-- RC of the shared field. -/
def rcOf (i : BitVec 16) : Reg := i.extractLsb' 2 7
/-- One Q bit. -/
def q1 (b : Bool) : BitVec 6 := if b then 1 else 0

/-- The encoding tables of R98, R101, R116, R135, R168, R186, R232, R238, R263, R277, R300 and R323. Commands
of engines and events are no syllables. -/
def Instr.toRaw : Instr → Option Raw
  | .add g d a b w => some (.a 0x00 g 0 0 d a b w)
  | .sub g d a b w => some (.a 0x01 g 0 0 d a b w)
  | .mul g d a b w => some (.a 0x02 g 0 0 d a b w)
  | .mulh g d a b => some (.a 0x03 g 0 0 d a b false)
  | .mulhu g d a b => some (.a 0x04 g 0 0 d a b false)
  | .div g d a b w => some (.a 0x05 g 0 0 d a b w)
  | .divu g d a b w => some (.a 0x06 g 0 0 d a b w)
  | .rem g d a b w => some (.a 0x07 g 0 0 d a b w)
  | .remu g d a b w => some (.a 0x08 g 0 0 d a b w)
  | .and g d a b => some (.a 0x09 g 0 0 d a b false)
  | .or g d a b => some (.a 0x0A g 0 0 d a b false)
  | .xor g d a b => some (.a 0x0B g 0 0 d a b false)
  | .andn g d a b => some (.a 0x0C g 0 0 d a b false)
  | .shl g d a b w => some (.a 0x0D g 0 0 d a b w)
  | .shr g d a b w => some (.a 0x0E g 0 0 d a b w)
  | .sra g d a b w => some (.a 0x0F g 0 0 d a b w)
  | .rot g d a b w => some (.a 0x10 g 0 0 d a b w)
  | .min g d a b => some (.a 0x11 g 0 0 d a b false)
  | .max g d a b => some (.a 0x12 g 0 0 d a b false)
  | .minu g d a b => some (.a 0x13 g 0 0 d a b false)
  | .maxu g d a b => some (.a 0x14 g 0 0 d a b false)
  | .clz g d a => some (.a 0x15 g 0 0 d a 0 false)
  | .ctz g d a => some (.a 0x16 g 0 0 d a 0 false)
  | .popc g d a => some (.a 0x17 g 0 0 d a 0 false)
  | .sext g d a b => some (.a 0x18 g 0 0 d a b false)
  | .zext g d a b => some (.a 0x19 g 0 0 d a b false)
  | .mov g d a => some (.a 0x1A g 0 0 d a 0 false)
  | .movFromPredicate g d a => some (.a 0x1A g 0 0 d a 0 true)
  | .sel g d a b inv => some (.a 0x1B g 0 0 d a b inv)
  | .cmp g d a b w c k => some (.a 0x1C g (k.code ++ c.code) 0 d a b w)
  | .pand g d a b => some (.a 0x1D g 0 0 d a b false)
  | .por g d a b => some (.a 0x1E g 0 0 d a b false)
  | .pxor g d a b => some (.a 0x1F g 0 0 d a b false)
  | .pandn g d a b => some (.a 0x20 g 0 0 d a b false)
  | .pnot g d a => some (.a 0x21 g 0 0 d a 0 false)
  | .pmov g d a => some (.a 0x22 g 0 0 d a 0 false)
  | .pmovFromScalar g d a => some (.a 0x22 g 0 0 d a 0 true)
  | .cand g d a b => some (.a 0x23 g 0 0 d a b false)
  | .candLen g d a b => some (.a 0x23 g 0 0 d a b true)
  | .cget g d a f => some (.a 0x24 g f.code 0 d a 0 false)
  | .cmove g d a => some (.a 0x25 g 0 0 d a 0 false)
  | .cmoveInc g d a b => some (.a 0x25 g 0 0 d a b true)
  | .ctag g d a b => some (.a 0x26 g 0 0 d a b false)
  | .ctagClr g d a => some (.a 0x26 g 0 0 d a 0 true)
  | .ptbr g d a => some (.a 0x27 g 0 0 d a 0 false)
  | .ptbrRd g d a => some (.a 0x27 g 0 0 d a 0 true)
  | .br g a b inv r => some (.a 0x28 g (0#4 ++ (BitVec.ofBool r) ++ (BitVec.ofBool inv)) 0 0 a b false)
  | .brUnconditional g a => some (.a 0x28 g 0 0 0 a 0 true)
  | .brl g a b inv => some (.a 0x29 g (q1 inv) 0 0 a b false)
  | .brlUnconditional g a => some (.a 0x29 g 0 0 0 a 0 true)
  | .lend g a r => some (.a 0x2A g 0 0 0 a 0 r)
  | .lbreak g a b => some (.a 0x2B g 0 0 0 a b false)
  | .join g a => some (.a 0x2C g 0 0 0 a 0 false)
  | .halt g => some (.a 0x2D g 0 0 0 0 0 false)
  | .nop g => some (.a 0x2E g 0 0 0 0 0 false)
  | .yield g => some (.a 0x2F g 0 0 0 0 0 false)
  | .addi g d a i => some (.b 0x30 g 0 d a i)
  | .andi g d a i => some (.b 0x31 g 0 d a i)
  | .ori g d a i => some (.b 0x32 g 0 d a i)
  | .xori g d a i => some (.b 0x33 g 0 d a i)
  | .shli g d a i => some (.b 0x34 g 0 d a i)
  | .shri g d a i => some (.b 0x35 g 0 d a i)
  | .srai g d a i => some (.b 0x36 g 0 d a i)
  | .movi g d i => some (.b 0x37 g 0 d 0 i)
  | .cmpi g d a i c k => some (.b 0x38 g (k.code ++ c.code) d a i)
  | .bfx g d a i => some (.b 0x39 g 0 d a i)
  | .bfxu g d a i => some (.b 0x3A g 0 d a i)
  | .bfi g d a i => some (.b 0x3B g 0 d a i)
  | .cinc g d a i => some (.b 0x3C g 0 d a i)
  | .csetb g d a i => some (.b 0x3D g 0 d a i)
  | .mfs g d i => some (.b 0x3E g 0 d 0 i)
  | .mts g a i => some (.b 0x3F g 0 0 a i)
  | .ptb g d i => some (.b 0x40 g 0 d 0 i)
  | .larm g d a i => some (.b 0x41 g 0 d a i)
  | .lstream g d a i => some (.b 0x42 g 0 d a i)
  | .fork g a i => some (.b 0x43 g 0 0 a i)
  | .role g i => some (.b 0x44 g 0 0 0 i)
  | .semwait g d a i c => some (.b 0x45 g (q1 c) d a i)
  | .semsig g a i => some (.b 0x46 g 0 0 a i)
  | .semadd g d a i => some (.b 0x47 g 0 d a i)
  | .semrd g d i => some (.b 0x48 g 0 d 0 i)
  | .bararrive g d a i => some (.b 0x49 g 0 d a i)
  | .barwait g a => some (.b 0x4A g 0 0 a (fixedImm g 0))
  | .fenceSettle g => some (.b 0x4B g 0 0 0 (fixedImm g 1))
  | .fenceAcq g s => some (.b 0x4B g 0 0 0 (fixedImm g (1#6 ++ s.code)))
  | .fenceRel g s => some (.b 0x4B g 0 0 0 (fixedImm g (2#6 ++ s.code)))
  | .fenceFull g s => some (.b 0x4B g 0 0 0 (fixedImm g (3#6 ++ s.code)))
  | .trap g a i => some (.b 0x4C g 0 0 a i)
  | .taperec g f a => some (.b 0x4D g 0 0 a (fixedImm g (0#6 ++ f.code)))
  | .tread g d i => some (.b 0x4E g 0 d 0 i)
  | .ld g d a b sz sy m => some (.a 0x50 g (sy.code ++ sz.code) 0 d a b m)
  | .st g d a b sz sy m => some (.a 0x51 g (sy.code ++ sz.code) 0 d a b m)
  | .vld g d a b sy => some (.a 0x52 g (sy.code ++ 0#2) 0 d a b false)
  | .vst g d a b sy => some (.a 0x53 g (sy.code ++ 0#2) 0 d a b false)
  | .vadd g d a b t rm => some (.a 0x54 g (0#4 ++ t.q) rm.code d a b t.m)
  | .vsub g d a b t rm => some (.a 0x55 g (0#4 ++ t.q) rm.code d a b t.m)
  | .vmul g d a b t rm => some (.a 0x56 g (0#4 ++ t.q) rm.code d a b t.m)
  | .vfma g d a b t rm => some (.a 0x57 g (0#4 ++ t.q) rm.code d a b t.m)
  | .vfms g d a b t rm => some (.a 0x58 g (0#4 ++ t.q) rm.code d a b t.m)
  | .vmin g d a b t => some (.a 0x59 g (0#4 ++ t.q) 0 d a b t.m)
  | .vmax g d a b t => some (.a 0x5A g (0#4 ++ t.q) 0 d a b t.m)
  | .viadd g d a b h => some (.a 0x5B g 0 0 d a b h)
  | .visub g d a b h => some (.a 0x5C g 0 0 d a b h)
  | .vand g d a b => some (.a 0x5D g 0 0 d a b false)
  | .vsel g d a b inv => some (.a 0x5E g 0 0 d a b inv)
  | .vmov g d a => some (.a 0x5F g 0 0 d a 0 false)
  | .ext x => some (.pre 0x6C (0#2 ++ x))
  | .capx ci => some (.pre 0x6D (0#18 ++ ci))
  | .spec => some (.pre 0x6E 0)
  | .tape => some (.pre 0x6F 0)
  | .cmdCe g c => some (.cmd 0x60 g c)
  | .cmdMe g c => some (.cmd 0x61 g c)
  | .cmdNi g c => some (.cmd 0x62 g c)
  | .cmdTape g c => some (.cmd 0x63 g c)
  | .cmdCmu g c => some (.cmd 0x64 g c)
  | .rte g => some (.l 0x70 0 g 0 0 0 0 0 false false)
  | .trapen g => some (.l 0x70 1 g 0 0 0 0 0 false false)
  | .trapdis g => some (.l 0x70 2 g 0 0 0 0 0 false false)
  | .ckpt g d => some (.l 0x70 3 g 0 0 d 0 0 false false)
  | .ctxsave g a => some (.l 0x70 4 g 0 0 0 a 0 false false)
  | .ctxload g a => some (.l 0x70 5 g 0 0 0 a 0 false false)
  | .scrub g m => some (.l 0x70 6 g 0 0 0 0 m false false)
  | .vor g d a b => some (.l 0x71 0 g 0 0 d a (rbrc b 0) false false)
  | .vxor g d a b => some (.l 0x71 1 g 0 0 d a (rbrc b 0) false false)
  | .vcmp g d a b t c hi => some (.l 0x71 2 g (t.code ++ c.code) 0 d a (rbrc b 0) false hi)
  | .vimul g d a b t hi => some (.l 0x71 3 g (0#3 ++ BitVec.ofBool hi ++ t.q) 0 d a (rbrc b 0) false t.m)
  | .vabs g d a t => some (.l 0x71 4 g (0#4 ++ t.q) 0 d a 0 false t.m)
  | .vneg g d a t => some (.l 0x71 5 g (0#4 ++ t.q) 0 d a 0 false t.m)
  | .vrcp g d a t => some (.l 0x71 6 g (0#4 ++ t.q) 0 d a 0 false t.m)
  | .vrsq g d a t => some (.l 0x71 7 g (0#4 ++ t.q) 0 d a 0 false t.m)
  | .vexp2 g d a t => some (.l 0x71 8 g (0#4 ++ t.q) 0 d a 0 false t.m)
  | .vlog2 g d a t => some (.l 0x71 9 g (0#4 ++ t.q) 0 d a 0 false t.m)
  | .vtanh g d a t => some (.l 0x71 10 g (0#4 ++ t.q) 0 d a 0 false t.m)
  | .vcvt g d a dst src half rm ovs => some (.l 0x71 11 g (dst.code ++ src.code) rm.code d a 0 ovs half)
  | .vrand g d => some (.l 0x71 12 g 0 0 d 0 0 false false)
  | .vprune g d a b => some (.l 0x71 13 g 0 0 d a (rbrc b 0) false false)
  | .vshl g d a b h => some (.l 0x71 14 g 0 0 d a (rbrc b 0) false h)
  | .vshr g d a b h => some (.l 0x71 15 g 0 0 d a (rbrc b 0) false h)
  | .vsra g d a b h => some (.l 0x71 16 g 0 0 d a (rbrc b 0) false h)
  | .vimin g d a b t => some (.l 0x71 17 g (0#4 ++ t.q) 0 d a (rbrc b 0) false t.m)
  | .vimax g d a b t => some (.l 0x71 18 g (0#4 ++ t.q) 0 d a (rbrc b 0) false t.m)
  | .vadds g d a b t s => some (.l 0x71 19 g (0#3 ++ BitVec.ofBool s ++ t.q) 0 d a (rbrc b 0) false t.m)
  | .vdot4 g d a b k s => some (.l 0x71 20 g (0#3 ++ BitVec.ofBool s ++ k.code) 0 d a (rbrc b 0) false false)
  | .vbcast g d a h => some (.l 0x71 21 g 0 0 d a 0 false h)
  | .vbcastV g d a k h => some (.l 0x71 21 g 1 0 d a k false h)
  | .vmovs g d a b => some (.l 0x71 22 g 0 0 d a (rbrc b 0) false false)
  | .vmovsFrom g d a b => some (.l 0x71 22 g 0 0 d a (rbrc b 0) false true)
  | .vperm g d a b h => some (.l 0x71 23 g 0 0 d a (rbrc b 0) false h)
  | .vshuf g d a b pat h => some (.l 0x71 24 g (0#4 ++ pat.code) 0 d a (rbrc b 0) false h)
  | .vslide g d a (.reg b) r up =>
    some (.l 0x71 25 g (0#4 ++ BitVec.ofBool r ++ BitVec.ofBool up) 0 d a (rbrc b 0) false false)
  | .vslide g d a (.imm k) r up =>
    some (.l 0x71 25 g (1#4 ++ BitVec.ofBool r ++ BitVec.ofBool up) 0 d a k false false)
  | .vred g d a t op rm => some (.l 0x71 26 g (0#2 ++ op.code ++ t.q) rm.code d a 0 false t.m)
  | .vscan g d a t op e rm =>
    some (.l 0x71 27 g (0#1 ++ BitVec.ofBool e ++ op.code ++ t.q) rm.code d a 0 false t.m)
  | .vcompact g d a b => some (.l 0x71 28 g 0 0 d a (rbrc b 0) false false)
  | .vexpand g d a b => some (.l 0x71 29 g 0 0 d a (rbrc b 0) false false)
  | .vlds g d a b c h => some (.l 0x72 0 g (q1 h) 0 d a (rbrc b c) false false)
  | .vsts g d a b c h => some (.l 0x72 1 g (q1 h) 0 d a (rbrc b c) false false)
  | .vgath g d a b c x => some (.l 0x72 2 g (q1 x) 0 d a (rbrc b c) false false)
  | .vscat g d a b c x => some (.l 0x72 3 g (q1 x) 0 d a (rbrc b c) false false)
  | .pref g a b c l2 => some (.l 0x72 4 g (q1 l2) 0 0 a (rbrc b c) false false)
  | .clean g a b c => some (.l 0x72 5 g 0 0 0 a (rbrc b c) false false)
  | .inval g a b c => some (.l 0x72 6 g 0 0 0 a (rbrc b c) false false)
  | .pin g d a b c => some (.l 0x72 7 g 0 0 d a (rbrc b c) false false)
  | .unpin g d a b c => some (.l 0x72 8 g 0 0 d a (rbrc b c) false false)
  | .vamo g d a b c op u nr =>
    some (.l 0x72 9 g (0#1 ++ BitVec.ofBool nr ++ BitVec.ofBool u ++ op.code) 0 d a (rbrc b c) false false)
  | .accrd g d a b s => some (.l 0x73 0 g (q1 s) 0 d a (rbrc b 0) false false)
  | .accwr g d a b => some (.l 0x73 1 g 0 0 d a (rbrc b 0) false false)
  | .acccvt g d a b c fmt s rm ovs =>
    some (.l 0x73 2 g (0#1 ++ BitVec.ofBool s ++ fmt.code) rm.code d a (rbrc b c) ovs false)
  | .acccommit g d a => some (.l 0x73 3 g 0 0 d a 0 false false)
  | .accdiscard g d => some (.l 0x73 4 g 0 0 d 0 0 false false)
  | .accpoison g d a b k clr =>
    some (.l 0x73 5 g (0#3 ++ BitVec.ofBool clr ++ k.code) 0 d a (rbrc b 0) false false)
  | .tapeonRec g a b ring => some (.l 0x74 0 g (0#4 ++ BitVec.ofBool ring ++ 0#1) 0 0 a (rbrc b 0) false false)
  | .tapeonRep g a b => some (.l 0x74 0 g 1 0 0 a (rbrc b 0) false false)
  | .tapeoff g => some (.l 0x74 1 g 0 0 0 0 0 false false)
  | .tapemark g => some (.l 0x74 2 g 0 0 0 0 0 false false)
  | .tapepop g f d => some (.l 0x74 3 g (0#4 ++ f.code) 0 d 0 0 false false)
  | .brtape g a => some (.l 0x74 4 g 0 0 0 a 0 false false)
  | .tapestat g d n => some (.l 0x74 5 g 0 0 d 0 n false false)
  | .submit g d a b => some (.l 0x75 0 g 0 0 d a (rbrc b 0) false false)
  | .qclaim g d a b h => some (.l 0x75 1 g (q1 h) 0 d a (rbrc b 0) false false)
  | .qpublish g d a b c h => some (.l 0x75 2 g (q1 h) 0 d a (rbrc b c) false false)
  | .qstat g d a n => some (.l 0x75 3 g 0 0 d a n false false)
  | .qstatReload g d a => some (.l 0x75 3 g 0 0 d a 6 false false)
  | .qstatDisable g d a => some (.l 0x75 3 g 0 0 d a 7 false false)
  | .link g d b e => some (.l 0x75 4 g (0#3 ++ e.code) 0 d 0 (rbrc b 0) false false)
  | .kick g d a b e => some (.l 0x75 5 g (0#3 ++ e.code) 0 d a (rbrc b 0) false false)
  | .chainstat g d n e => some (.l 0x75 6 g (0#3 ++ e.code) 0 d 0 n false false)
  | .tlbinv g d a b c f => some (.l 0x76 0 g (q1 f) 0 d a (rbrc b c) false false)
  | .tlbprobe g d a b => some (.l 0x76 1 g 0 0 d a (rbrc b 0) false false)
  | .keyprobe g d a n => some (.l 0x76 2 g 0 0 d a n false false)
  | .swzset g a => some (.l 0x76 3 g 0 0 0 a 0 false false)
  | .thrset g d a b r => some (.l 0x76 4 g (q1 r) 0 d a (rbrc b 0) false false)
  | .dltload g d a b => some (.l 0x76 5 g 0 0 d a (rbrc b 0) false false)
  | .rcbsetLoad g d a => some (.l 0x76 6 g 0 0 d a 0 false false)
  | .rcbsetFail g d a b => some (.l 0x76 6 g 1 0 d a (rbrc b 0) false false)
  | .seminit g a i => some (.l 0x77 0 g 0 0 0 a i false false)
  | .semcas g d a i => some (.l 0x77 1 g 0 0 d a i false false)
  | .barinit g a b c => some (.l 0x77 2 g 0 0 0 a (rbrc b c) false false)
  | .barexp g a b => some (.l 0x77 3 g 0 0 0 a (rbrc b 0) false false)
  | .tsync g d a => some (.l 0x77 4 g 0 0 d a 0 false false)
  | .tsyncStep g d a => some (.l 0x77 4 g 1 0 d a 0 false false)
  | .tsyncPtm g d => some (.l 0x77 4 g 2 0 d 0 0 false false)
  | .pmcrd g d n => some (.l 0x77 5 g 0 0 d 0 n false false)
  | _ => none
where
  /-- An immediate whose value the instruction fixes: short unless a guard forces the image (R221). -/
  fixedImm (g : Guard) (v : BitVec 8) : Imm := if g.isNone then .short v else .long (0#8 ++ v)

/-- Bit `n` of Q. -/
def qb (q : BitVec 6) (n : Nat) : Bool := q.getLsbD n

/-- The slide amount of VSLIDE by Q[2] (R143). -/
def slideOf (q : BitVec 6) (i : BitVec 16) : SlideAmt := if qb q 2 then .imm i else .reg (rbOf i)

/-- The instruction a form A syllable may be; `ofRaw` then holds it against its encoding. -/
def candA (major : Nat) (g : Guard) (q : BitVec 6) (rm : BitVec 3) (d a b : Reg) (m : Bool) :
    Option Instr :=
  match major with
  | 0x00 => some (.add g d a b m)
  | 0x01 => some (.sub g d a b m)
  | 0x02 => some (.mul g d a b m)
  | 0x03 => some (.mulh g d a b)
  | 0x04 => some (.mulhu g d a b)
  | 0x05 => some (.div g d a b m)
  | 0x06 => some (.divu g d a b m)
  | 0x07 => some (.rem g d a b m)
  | 0x08 => some (.remu g d a b m)
  | 0x09 => some (.and g d a b)
  | 0x0A => some (.or g d a b)
  | 0x0B => some (.xor g d a b)
  | 0x0C => some (.andn g d a b)
  | 0x0D => some (.shl g d a b m)
  | 0x0E => some (.shr g d a b m)
  | 0x0F => some (.sra g d a b m)
  | 0x10 => some (.rot g d a b m)
  | 0x11 => some (.min g d a b)
  | 0x12 => some (.max g d a b)
  | 0x13 => some (.minu g d a b)
  | 0x14 => some (.maxu g d a b)
  | 0x15 => some (.clz g d a)
  | 0x16 => some (.ctz g d a)
  | 0x17 => some (.popc g d a)
  | 0x18 => some (.sext g d a b)
  | 0x19 => some (.zext g d a b)
  | 0x1A => some (if m then .movFromPredicate g d a else .mov g d a)
  | 0x1B => some (.sel g d a b m)
  | 0x1C => do
    let c ← Cond.ofCode (q.extractLsb' 0 4)
    let k ← Comb.ofCode (q.extractLsb' 4 2)
    some (.cmp g d a b m c k)
  | 0x1D => some (.pand g d a b)
  | 0x1E => some (.por g d a b)
  | 0x1F => some (.pxor g d a b)
  | 0x20 => some (.pandn g d a b)
  | 0x21 => some (.pnot g d a)
  | 0x22 => some (if m then .pmovFromScalar g d a else .pmov g d a)
  | 0x23 => some (if m then .candLen g d a b else .cand g d a b)
  | 0x24 => (CapField.ofCode q).map (.cget g d a ·)
  | 0x25 => some (if m then .cmoveInc g d a b else .cmove g d a)
  | 0x26 => some (if m then .ctagClr g d a else .ctag g d a b)
  | 0x27 => some (if m then .ptbrRd g d a else .ptbr g d a)
  | 0x28 => some (if m then .brUnconditional g a else .br g a b (qb q 0) (qb q 1))
  | 0x29 => some (if m then .brlUnconditional g a else .brl g a b (qb q 0))
  | 0x2A => some (.lend g a m)
  | 0x2B => some (.lbreak g a b)
  | 0x2C => some (.join g a)
  | 0x2D => some (.halt g)
  | 0x2E => some (.nop g)
  | 0x2F => some (.yield g)
  | 0x50 => (LdSync.ofCode (q.extractLsb' 2 4)).map (.ld g d a b (Size.ofCode (q.extractLsb' 0 2)) · m)
  | 0x51 => (StSync.ofCode (q.extractLsb' 2 4)).map (.st g d a b (Size.ofCode (q.extractLsb' 0 2)) · m)
  | 0x52 => (LdSync.ofCode (q.extractLsb' 2 4)).map (.vld g d a b ·)
  | 0x53 => (StSync.ofCode (q.extractLsb' 2 4)).map (.vst g d a b ·)
  | 0x54 => candF (.vadd g d a b · ·)
  | 0x55 => candF (.vsub g d a b · ·)
  | 0x56 => candF (.vmul g d a b · ·)
  | 0x57 => candF (.vfma g d a b · ·)
  | 0x58 => candF (.vfms g d a b · ·)
  | 0x59 => (ElType.ofCode (q.extractLsb' 0 2) m).map (.vmin g d a b ·)
  | 0x5A => (ElType.ofCode (q.extractLsb' 0 2) m).map (.vmax g d a b ·)
  | 0x5B => some (.viadd g d a b m)
  | 0x5C => some (.visub g d a b m)
  | 0x5D => some (.vand g d a b)
  | 0x5E => some (.vsel g d a b m)
  | 0x5F => some (.vmov g d a)
  | _ => none
where
  candF (f : ElType → Rm → Instr) : Option Instr := do
    let t ← ElType.ofCode (q.extractLsb' 0 2) m
    let r ← Rm.ofCode rm
    some (f t r)

/-- The instruction a form B syllable may be. -/
def candB (major : Nat) (g : Guard) (q : BitVec 6) (d a : Reg) (i : Imm) : Option Instr :=
  match major with
  | 0x30 => some (.addi g d a i)
  | 0x31 => some (.andi g d a i)
  | 0x32 => some (.ori g d a i)
  | 0x33 => some (.xori g d a i)
  | 0x34 => some (.shli g d a i)
  | 0x35 => some (.shri g d a i)
  | 0x36 => some (.srai g d a i)
  | 0x37 => some (.movi g d i)
  | 0x38 => do
    let c ← Cond.ofCode (q.extractLsb' 0 4)
    let k ← Comb.ofCode (q.extractLsb' 4 2)
    some (.cmpi g d a i c k)
  | 0x39 => some (.bfx g d a i)
  | 0x3A => some (.bfxu g d a i)
  | 0x3B => some (.bfi g d a i)
  | 0x3C => some (.cinc g d a i)
  | 0x3D => some (.csetb g d a i)
  | 0x3E => some (.mfs g d i)
  | 0x3F => some (.mts g a i)
  | 0x40 => some (.ptb g d i)
  | 0x41 => some (.larm g d a i)
  | 0x42 => some (.lstream g d a i)
  | 0x43 => some (.fork g a i)
  | 0x44 => some (.role g i)
  | 0x45 => some (.semwait g d a i (qb q 0))
  | 0x46 => some (.semsig g a i)
  | 0x47 => some (.semadd g d a i)
  | 0x48 => some (.semrd g d i)
  | 0x49 => some (.bararrive g d a i)
  | 0x4A => some (.barwait g a)
  | 0x4B =>
    match i.raw / 4 with
    | 0 => some (.fenceSettle g)
    | 1 => some (.fenceAcq g (Scope.ofCode (BitVec.ofNat 2 i.raw)))
    | 2 => some (.fenceRel g (Scope.ofCode (BitVec.ofNat 2 i.raw)))
    | 3 => some (.fenceFull g (Scope.ofCode (BitVec.ofNat 2 i.raw)))
    | _ => none
  | 0x4C => some (.trap g a i)
  | 0x4D => (TapeFile.ofCode (BitVec.ofNat 2 i.raw)).map (.taperec g · a)
  | 0x4E => some (.tread g d i)
  | _ => none

/-- The instruction a form L syllable of majors 0x70 to 0x77 may be. -/
def candL (major : Nat) (fn : Nat) (g : Guard) (q : BitVec 6) (rm : BitVec 3) (d a : Reg)
    (i : BitVec 16) (ovs m : Bool) : Option Instr :=
  let b := rbOf i
  let c := rcOf i
  let ty (f : ElType → Instr) : Option Instr := (ElType.ofCode (q.extractLsb' 0 2) m).map f
  let en (f : Eng → Instr) : Option Instr := (Eng.ofCode (q.extractLsb' 0 3)).map f
  match major, fn with
  | 0x70, 0 => some (.rte g)
  | 0x70, 1 => some (.trapen g)
  | 0x70, 2 => some (.trapdis g)
  | 0x70, 3 => some (.ckpt g d)
  | 0x70, 4 => some (.ctxsave g a)
  | 0x70, 5 => some (.ctxload g a)
  | 0x70, 6 => some (.scrub g i)
  | 0x71, 0 => some (.vor g d a b)
  | 0x71, 1 => some (.vxor g d a b)
  | 0x71, 2 => (VCond.ofCode (q.extractLsb' 0 4)).map (.vcmp g d a b (VCmpType.ofCode (q.extractLsb' 4 2)) · m)
  | 0x71, 3 => ty (.vimul g d a b · (qb q 2))
  | 0x71, 4 => ty (.vabs g d a ·)
  | 0x71, 5 => ty (.vneg g d a ·)
  | 0x71, 6 => ty (.vrcp g d a ·)
  | 0x71, 7 => ty (.vrsq g d a ·)
  | 0x71, 8 => ty (.vexp2 g d a ·)
  | 0x71, 9 => ty (.vlog2 g d a ·)
  | 0x71, 10 => ty (.vtanh g d a ·)
  | 0x71, 11 => do
    let dst ← CvtType.ofCode (q.extractLsb' 3 3)
    let src ← CvtType.ofCode (q.extractLsb' 0 3)
    let r ← Rm.ofCode rm
    some (.vcvt g d a dst src m r ovs)
  | 0x71, 12 => some (.vrand g d)
  | 0x71, 13 => some (.vprune g d a b)
  | 0x71, 14 => some (.vshl g d a b m)
  | 0x71, 15 => some (.vshr g d a b m)
  | 0x71, 16 => some (.vsra g d a b m)
  | 0x71, 17 => ty (.vimin g d a b ·)
  | 0x71, 18 => ty (.vimax g d a b ·)
  | 0x71, 19 => ty (.vadds g d a b · (qb q 2))
  | 0x71, 20 => (DotKind.ofCode (q.extractLsb' 0 2)).map (.vdot4 g d a b · (qb q 2))
  | 0x71, 21 => some (if qb q 0 then .vbcastV g d a i m else .vbcast g d a m)
  | 0x71, 22 => some (if m then .vmovsFrom g d a b else .vmovs g d a b)
  | 0x71, 23 => some (.vperm g d a b m)
  | 0x71, 24 => some (.vshuf g d a b (ShufPat.ofCode (q.extractLsb' 0 2)) m)
  | 0x71, 25 => some (.vslide g d a (slideOf q i) (qb q 1) (qb q 0))
  | 0x71, 26 => do
    let t ← ElType.ofCode (q.extractLsb' 0 2) m
    let o ← RedOp.ofCode (q.extractLsb' 2 2)
    let r ← Rm.ofCode rm
    some (.vred g d a t o r)
  | 0x71, 27 => do
    let t ← ElType.ofCode (q.extractLsb' 0 2) m
    let o ← RedOp.ofCode (q.extractLsb' 2 2)
    let r ← Rm.ofCode rm
    some (.vscan g d a t o (qb q 4) r)
  | 0x71, 28 => some (.vcompact g d a b)
  | 0x71, 29 => some (.vexpand g d a b)
  | 0x72, 0 => some (.vlds g d a b c (qb q 0))
  | 0x72, 1 => some (.vsts g d a b c (qb q 0))
  | 0x72, 2 => some (.vgath g d a b c (qb q 0))
  | 0x72, 3 => some (.vscat g d a b c (qb q 0))
  | 0x72, 4 => some (.pref g a b c (qb q 0))
  | 0x72, 5 => some (.clean g a b c)
  | 0x72, 6 => some (.inval g a b c)
  | 0x72, 7 => some (.pin g d a b c)
  | 0x72, 8 => some (.unpin g d a b c)
  | 0x72, 9 => (AmoOp.ofCode (q.extractLsb' 0 3)).map (.vamo g d a b c · (qb q 3) (qb q 4))
  | 0x73, 0 => some (.accrd g d a b (qb q 0))
  | 0x73, 1 => some (.accwr g d a b)
  | 0x73, 2 => do
    let f ← Fmt.ofCode (q.extractLsb' 0 4)
    let r ← Rm.ofCode rm
    some (.acccvt g d a b c f (qb q 4) r ovs)
  | 0x73, 3 => some (.acccommit g d a)
  | 0x73, 4 => some (.accdiscard g d)
  | 0x73, 5 => (PoisSel.ofCode (q.extractLsb' 0 2)).map (.accpoison g d a b · (qb q 2))
  | 0x74, 0 => some (if qb q 0 then .tapeonRep g a b else .tapeonRec g a b (qb q 1))
  | 0x74, 1 => some (.tapeoff g)
  | 0x74, 2 => some (.tapemark g)
  | 0x74, 3 => (TapeFile.ofCode (q.extractLsb' 0 2)).map (.tapepop g · d)
  | 0x74, 4 => some (.brtape g a)
  | 0x74, 5 => some (.tapestat g d i)
  | 0x75, 0 => some (.submit g d a b)
  | 0x75, 1 => some (.qclaim g d a b (qb q 0))
  | 0x75, 2 => some (.qpublish g d a b c (qb q 0))
  | 0x75, 3 => some (if i = 6 then .qstatReload g d a else if i = 7 then .qstatDisable g d a else .qstat g d a i)
  | 0x75, 4 => en (.link g d b ·)
  | 0x75, 5 => en (.kick g d a b ·)
  | 0x75, 6 => en (.chainstat g d i ·)
  | 0x76, 0 => some (.tlbinv g d a b c (qb q 0))
  | 0x76, 1 => some (.tlbprobe g d a b)
  | 0x76, 2 => some (.keyprobe g d a i)
  | 0x76, 3 => some (.swzset g a)
  | 0x76, 4 => some (.thrset g d a b (qb q 0))
  | 0x76, 5 => some (.dltload g d a b)
  | 0x76, 6 => some (if qb q 0 then .rcbsetFail g d a b else .rcbsetLoad g d a)
  | 0x77, 0 => some (.seminit g a i)
  | 0x77, 1 => some (.semcas g d a i)
  | 0x77, 2 => some (.barinit g a b c)
  | 0x77, 3 => some (.barexp g a b)
  | 0x77, 4 =>
    match (q.extractLsb' 0 2).toNat with
    | 0 => some (.tsync g d a)
    | 1 => some (.tsyncStep g d a)
    | 2 => some (.tsyncPtm g d)
    | _ => none
  | 0x77, 5 => some (.pmcrd g d i)
  | _, _ => none

/-- The instruction a raw syllable may be. -/
def cand : Raw → Option Instr
  | .a major g q rm d a b m => candA major g q rm d a b m
  | .b major g q d a i => candB major g q d a i
  | .l major fn g q rm d a i ovs m => candL major fn.toNat g q rm d a i ovs m
  | .cmd 0x60 g c => some (.cmdCe g c)
  | .cmd 0x61 g c => some (.cmdMe g c)
  | .cmd 0x62 g c => some (.cmdNi g c)
  | .cmd 0x63 g c => some (.cmdTape g c)
  | .cmd 0x64 g c => some (.cmdCmu g c)
  | .pre 0x6C x => some (.ext (x.setWidth 20))
  | .pre 0x6D x => some (.capx (x.setWidth 4))
  | .pre 0x6E _ => some .spec
  | .pre 0x6F _ => some .tape
  | _ => none

/-- BARWAIT, FENCE and TAPEREC fix their immediate, so their short form and an unguarded image are one
instruction (R68). -/
def normRaw : Raw → Raw
  | .b major g q d a (.long v) =>
    if g.isNone && (major == 0x4A || major == 0x4B || major == 0x4D) && v.toNat < 256
    then .b major g q d a (.short (v.setWidth 8)) else .b major g q d a (.long v)
  | r => r

/-- Why a syllable is no instruction; each is ILLEGAL by R81. -/
inductive DecodeError
  /-- no such major (R78, R81) -/
  | reservedMajor
  /-- no such FN under a form L major (R78, R81) -/
  | reservedFn
  /-- a register index, qualifier, rounding mode, immediate or unused field the instruction does not admit -/
  | badField
  /-- the words end inside the syllable -/
  | truncated
  deriving DecidableEq, Repr

/-- The instruction of a raw syllable: the candidate, when it is well formed and the syllable is its own
encoding bit for bit, so that no reserved or unused field is ignored (R66, R81). -/
def ofRaw (r : Raw) : Except DecodeError Instr :=
  match cand (normRaw r) with
  | none => .error (match r with | .l .. => .reservedFn | _ => .reservedMajor)
  | some i => if i.wf && i.toRaw == some (normRaw r) then .ok i else .error .badField

/-! ### Words -/

/-- Low 22 bits of a form A word. -/
def lowA (rd ra rb : Reg) (m : Bool) : Nat := pushB m (pushBv rb (pushBv ra (pushBv rd 0)))
/-- Low 22 bits of a form B word. -/
def lowB (rd ra : Reg) (v : BitVec 8) : Nat := pushBv v (pushBv ra (pushBv rd 0))
/-- G and GP as fields, least significant first: GP, then G (R65). -/
def guardBits (g : Guard) (n : Nat) : Nat :=
  match g with
  | none => pushBv 0#6 (pushB false n)
  | some p => pushBv p (pushB true n)
/-- G and GP read back; a nonzero GP with G = 0 is refused (R65, R74). -/
def takeGuard (n : Nat) : Option Guard × Nat :=
  let (p, n1) := takeBv 6 n
  let (g, n2) := takeB n1
  (if g then some (some p) else if p = 0 then some none else none, n2)
/-- Low 22 bits of word 0 of form L. -/
def lowL (fn q : BitVec 6) (g : Guard) (rm : BitVec 3) : Nat :=
  pushBv rm (guardBits g (pushBv q (pushBv fn 0)))
/-- Word 1 of form L. -/
def highL (rd ra : Reg) (imm : BitVec 16) (ovs m : Bool) : Nat :=
  pushB m (pushB ovs (pushBv imm (pushBv ra (pushBv rd 0))))
/-- A first word: 22 low bits, MAJOR, SLOT and STOP (R64). -/
def word0 (low major : Nat) (slot : BitVec 2) (stop : Bool) : BitVec 32 :=
  BitVec.ofNat 32 (low + 2 ^ 22 * (major + 2 ^ 7 * pushBv slot (pushB stop 0)))
/-- Two words of form L. -/
def wordsL (major : Nat) (fn q : BitVec 6) (g : Guard) (rm : BitVec 3) (rd ra : Reg) (imm : BitVec 16)
    (ovs m : Bool) (slot : BitVec 2) (stop : Bool) : List (BitVec 32) :=
  [word0 (lowL fn q g rm) major slot stop, BitVec.ofNat 32 (highL rd ra imm ovs m)]
/-- The major that images a short major, and the FN it takes (R68). -/
def imageOf (major : Nat) : Nat × BitVec 6 :=
  if major < 0x40 then (0x7E, BitVec.ofNat 6 major) else (0x7F, BitVec.ofNat 6 (major - 0x40))
/-- The seven command words of a CMD target, word k holding bits [32k - 1 : 32k - 32] (R74). -/
def cmdWords (c : CmdWord) : List (BitVec 32) := (List.range 7).map fun k => c.extractLsb' (32 * k) 32
/-- The command of seven words. -/
def cmdOfWords : List (BitVec 32) → CmdWord
  | [a, b, c, d, e, f, g] => g ++ f ++ e ++ d ++ c ++ b ++ a
  | _ => 0

/-- The words of a raw syllable. -/
def rawWords (r : Raw) (slot : BitVec 2) (stop : Bool) : List (BitVec 32) :=
  match r with
  | .a major g q rm rd ra rb m =>
    if g.isNone && q == 0 && rm == 0 then [word0 (lowA rd ra rb m) major slot stop]
    else wordsL (imageOf major).1 (imageOf major).2 q g rm rd ra (rbrc rb 0) false m slot stop
  | .b major g q rd ra i =>
    match i with
    | .short v => [word0 (lowB rd ra v) major slot stop]
    | .long v => wordsL (imageOf major).1 (imageOf major).2 q g 0 rd ra v false false slot stop
  | .l major fn g q rm rd ra imm ovs m => wordsL major fn q g rm rd ra imm ovs m slot stop
  | .cmd major g c => word0 (pushBv 0#15 (guardBits g 0)) major slot stop :: cmdWords c
  | .pre major x => [word0 x.toNat major slot stop]

/-- A decoded syllable. -/
structure Syllable where
  instr : Instr
  slot : BitVec 2
  stop : Bool
  /-- words taken: 1, 2 or 8 (R64) -/
  len : Nat
  deriving DecidableEq, Repr

/-- MAJOR of a first word. -/
def majorOf (w : BitVec 32) : Nat := (w.extractLsb' 22 7).toNat
/-- SLOT of a first word. -/
def slotOf (w : BitVec 32) : BitVec 2 := w.extractLsb' 29 2
/-- STOP of a first word. -/
def stopOf (w : BitVec 32) : Bool := w.getLsbD 31

/-- Word 1 of form L taken apart. -/
def takeHighL (w : BitVec 32) : Reg × Reg × BitVec 16 × Bool × Bool :=
  let (m, n1) := takeB w.toNat
  let (ovs, n2) := takeB n1
  let (imm, n3) := takeBv 16 n2
  let (ra, n4) := takeBv 7 n3
  let (rd, _) := takeBv 7 n4
  (rd, ra, imm, ovs, m)

/-- The raw syllable of form L words; images give back their form A or B fields (R68). -/
def rawL (major : Nat) (w0 w1 : BitVec 32) : Except DecodeError Raw :=
  let (rm, n1) := takeBv 3 w0.toNat
  let (g?, n2) := takeGuard n1
  let (q, n3) := takeBv 6 n2
  let (fn, _) := takeBv 6 n3
  let (rd, ra, imm, ovs, m) := takeHighL w1
  match g? with
  | none => .error .badField
  | some g =>
    if major < 0x78 then .ok (.l major fn g q rm rd ra imm ovs m)
    else
      let sm := if major = 0x7E then fn.toNat else fn.toNat + 0x40
      if sm < 0x30 || (0x50 ≤ sm && sm < 0x60) then
        if rcOf imm = 0 && imm.extractLsb' 0 2 = 0 && !ovs then .ok (.a sm g q rm rd ra (rbOf imm) m)
        else .error .badField
      else if sm < 0x4F then
        if rm = 0 && !ovs && !m then .ok (.b sm g q rd ra (.long imm)) else .error .badField
      else .error .reservedFn

/-- The raw syllable at the head of a list of words, and how many words it takes (R64 to R69, R74). -/
def decodeRaw (ws : List (BitVec 32)) : Except DecodeError (Raw × Nat) :=
  match ws with
  | [] => .error .truncated
  | w :: rest =>
    let mj := majorOf w
    if mj < 0x30 || (0x50 ≤ mj && mj < 0x60) then
      let (m, n1) := takeB w.toNat
      let (rb, n2) := takeBv 7 n1
      let (ra, n3) := takeBv 7 n2
      let (rd, _) := takeBv 7 n3
      .ok (.a mj none 0 0 rd ra rb m, 1)
    else if mj < 0x4F then
      let (v, n1) := takeBv 8 w.toNat
      let (ra, n2) := takeBv 7 n1
      let (rd, _) := takeBv 7 n2
      .ok (.b mj none 0 rd ra (.short v), 1)
    else if 0x60 ≤ mj && mj < 0x65 then
      let (z, n1) := takeBv 15 w.toNat
      let (g?, _) := takeGuard n1
      match g? with
      | none => .error .badField
      | some g =>
        if z ≠ 0 then .error .badField
        else if rest.length < 7 then .error .truncated
        else .ok (.cmd mj g (cmdOfWords (rest.take 7)), 8)
    else if 0x6C ≤ mj && mj < 0x70 then .ok (.pre mj (w.setWidth 22), 1)
    else if (0x70 ≤ mj && mj < 0x78) || 0x7E ≤ mj then
      match rest with
      | [] => .error .truncated
      | w1 :: _ => (rawL mj w w1).map (·, 2)
    else .error .reservedMajor

/-- Decoding of the syllable at the head of a list of words: total, and refusing by name. -/
def decodeSyllable (ws : List (BitVec 32)) : Except DecodeError Syllable := do
  let (r, n) ← decodeRaw ws
  let i ← ofRaw r
  .ok ⟨i, slotOf (ws.headD 0), stopOf (ws.headD 0), n⟩

/-- Encoding: the words of a syllable, in the shortest form (R84). -/
def encode (i : Instr) (slot : BitVec 2) (stop : Bool) : List (BitVec 32) :=
  match i.toRaw with
  | none => []
  | some r => rawWords r slot stop

/-- The words of an instruction whose bits are `w`, every bit above `nbits` being 0. -/
def tableWords (nbits w : Nat) : List (BitVec 32) :=
  (List.range 8).map fun k => BitVec.ofNat 32 (w % 2 ^ nbits / 2 ^ (32 * k))

/-- What the decoder reads from an instruction whose bits are `w`, numbered as the opcode table numbers
them. -/
def decodeTableWord (nbits w : Nat) : Option Instr :=
  match decodeSyllable (tableWords nbits w) with
  | .ok s => some s.instr
  | .error _ => none

/-! ### Engine commands (R75 to R80) -/

/-- The fields of CmdHdr (R76) taken in ascending bit order. -/
def takeCmdHdr (n : Nat) : CmdHdr × Nat :=
  let (we, n1) := takeB n
  let (se, n2) := takeB n1
  let (f, n3) := takeB n2
  let (s, n4) := takeB n3
  let (wc, n5) := takeB n4
  let (rsvA, n6) := takeBv 3 n5
  let (widx, n7) := takeBv 8 n6
  let (wthr, n8) := takeBv 16 n7
  let (sidx, n9) := takeBv 8 n8
  let (sinc, n10) := takeBv 8 n9
  let (scope, n11) := takeBv 2 n10
  let (cq, n12) := takeBv 2 n11
  let (rsvB, n13) := takeBv 4 n12
  ({ we := we, se := se, f := f, s := s, wc := wc, rsvA := rsvA, widx := widx, wthr := wthr, sidx := sidx, sinc := sinc, scope := scope, cq := cq, rsvB := rsvB }, n13)
/-- The same fields put back. -/
def pushCmdHdr (o : CmdHdr) (n : Nat) : Nat :=
  pushB o.we (pushB o.se (pushB o.f (pushB o.s (pushB o.wc (pushBv o.rsvA (pushBv o.widx (pushBv o.wthr (pushBv o.sidx (pushBv o.sinc (pushBv o.scope (pushBv o.cq (pushBv o.rsvB n))))))))))))

/-- The fields of CeCommon (R245) taken in ascending bit order. -/
def takeCeCommon (n : Nat) : CeCommon × Nat :=
  let (cs, n1) := takeBv 4 n
  let (cd, n2) := takeBv 4 n1
  let (swe, n3) := takeB n2
  let (sw, n4) := takeBv 5 n3
  let (be, n5) := takeB n4
  let (bidx, n6) := takeBv 11 n5
  let (rsv, n7) := takeBv 6 n6
  ({ cs := cs, cd := cd, swe := swe, sw := sw, be := be, bidx := bidx, rsv := rsv }, n7)
/-- The same fields put back. -/
def pushCeCommon (o : CeCommon) (n : Nat) : Nat :=
  pushBv o.cs (pushBv o.cd (pushB o.swe (pushBv o.sw (pushB o.be (pushBv o.bidx (pushBv o.rsv n))))))

/-- The fields of CopyOp (R245) taken in ascending bit order. -/
def takeCopyOp (n : Nat) : CopyOp × Nat :=
  let (c, n1) := takeCeCommon n
  let (soff, n2) := takeBv 48 n1
  let (doff, n3) := takeBv 48 n2
  let (len, n4) := takeBv 32 n3
  ({ c := c, soff := soff, doff := doff, len := len }, n4)
/-- The same fields put back. -/
def pushCopyOp (o : CopyOp) (n : Nat) : Nat :=
  pushCeCommon o.c (pushBv o.soff (pushBv o.doff (pushBv o.len n)))

/-- The fields of Copy2dOp (R245) taken in ascending bit order. -/
def takeCopy2dOp (n : Nat) : Copy2dOp × Nat :=
  let (c, n1) := takeCeCommon n
  let (soff, n2) := takeBv 32 n1
  let (doff, n3) := takeBv 32 n2
  let (rowb, n4) := takeBv 16 n3
  let (nrow, n5) := takeBv 16 n4
  let (sstr, n6) := takeBv 16 n5
  let (dstr, n7) := takeBv 16 n6
  ({ c := c, soff := soff, doff := doff, rowb := rowb, nrow := nrow, sstr := sstr, dstr := dstr }, n7)
/-- The same fields put back. -/
def pushCopy2dOp (o : Copy2dOp) (n : Nat) : Nat :=
  pushCeCommon o.c (pushBv o.soff (pushBv o.doff (pushBv o.rowb (pushBv o.nrow (pushBv o.sstr (pushBv o.dstr n))))))

/-- The fields of Copy3dOp (R245) taken in ascending bit order. -/
def takeCopy3dOp (n : Nat) : Copy3dOp × Nat :=
  let (c, n1) := takeCeCommon n
  let (soff, n2) := takeBv 28 n1
  let (doff, n3) := takeBv 28 n2
  let (rowb, n4) := takeBv 12 n3
  let (nrow, n5) := takeBv 8 n4
  let (npl, n6) := takeBv 8 n5
  let (sstr, n7) := takeBv 10 n6
  let (dstr, n8) := takeBv 10 n7
  let (sps, n9) := takeBv 12 n8
  let (dps, n10) := takeBv 12 n9
  ({ c := c, soff := soff, doff := doff, rowb := rowb, nrow := nrow, npl := npl, sstr := sstr, dstr := dstr, sps := sps, dps := dps }, n10)
/-- The same fields put back. -/
def pushCopy3dOp (o : Copy3dOp) (n : Nat) : Nat :=
  pushCeCommon o.c (pushBv o.soff (pushBv o.doff (pushBv o.rowb (pushBv o.nrow (pushBv o.npl (pushBv o.sstr (pushBv o.dstr (pushBv o.sps (pushBv o.dps n)))))))))

/-- The fields of FillOp (R245) taken in ascending bit order. -/
def takeFillOp (n : Nat) : FillOp × Nat :=
  let (c, n1) := takeCeCommon n
  let (doff, n2) := takeBv 48 n1
  let (len, n3) := takeBv 32 n2
  let (pat, n4) := takeBv 32 n3
  let (rsv, n5) := takeBv 16 n4
  ({ c := c, doff := doff, len := len, pat := pat, rsv := rsv }, n5)
/-- The same fields put back. -/
def pushFillOp (o : FillOp) (n : Nat) : Nat :=
  pushCeCommon o.c (pushBv o.doff (pushBv o.len (pushBv o.pat (pushBv o.rsv n))))

/-- The fields of TileOp (R248) taken in ascending bit order. -/
def takeTileOp (n : Nat) : TileOp × Nat :=
  let (cb, n1) := takeBv 4 n
  let (cl, n2) := takeBv 4 n1
  let (cs, n3) := takeBv 4 n2
  let (swe, n4) := takeB n3
  let (sw, n5) := takeBv 5 n4
  let (be, n6) := takeB n5
  let (bidx, n7) := takeBv 11 n6
  let (rsvA, n8) := takeBv 2 n7
  let (layer, n9) := takeBv 6 n8
  let (slot, n10) := takeB n9
  let (rsvB, n11) := takeBv 1 n10
  let (rpoff, n12) := takeBv 24 n11
  let (enoff, n13) := takeBv 24 n12
  let (first, n14) := takeBv 16 n13
  let (count, n15) := takeBv 16 n14
  let (modes, n16) := takeBv 4 n15
  let (halo, n17) := takeBv 3 n16
  let (rsvC, n18) := takeBv 1 n17
  let (soff, n19) := takeBv 24 n18
  let (rsvD, n20) := takeBv 8 n19
  ({ cb := cb, cl := cl, cs := cs, swe := swe, sw := sw, be := be, bidx := bidx, rsvA := rsvA, layer := layer, slot := slot, rsvB := rsvB, rpoff := rpoff, enoff := enoff, first := first, count := count, modes := modes, halo := halo, rsvC := rsvC, soff := soff, rsvD := rsvD }, n20)
/-- The same fields put back. -/
def pushTileOp (o : TileOp) (n : Nat) : Nat :=
  pushBv o.cb (pushBv o.cl (pushBv o.cs (pushB o.swe (pushBv o.sw (pushB o.be (pushBv o.bidx (pushBv o.rsvA (pushBv o.layer (pushB o.slot (pushBv o.rsvB (pushBv o.rpoff (pushBv o.enoff (pushBv o.first (pushBv o.count (pushBv o.modes (pushBv o.halo (pushBv o.rsvC (pushBv o.soff (pushBv o.rsvD n)))))))))))))))))))

/-- The fields of NiCommon (R253) taken in ascending bit order. -/
def takeNiCommon (n : Nat) : NiCommon × Nat :=
  let (cl, n1) := takeBv 4 n
  let (cr, n2) := takeBv 4 n1
  let (cx, n3) := takeBv 4 n2
  let (be, n4) := takeB n3
  let (bidx, n5) := takeBv 11 n4
  let (esz, n6) := takeBv 2 n5
  let (rsv, n7) := takeBv 6 n6
  ({ cl := cl, cr := cr, cx := cx, be := be, bidx := bidx, esz := esz, rsv := rsv }, n7)
/-- The same fields put back. -/
def pushNiCommon (o : NiCommon) (n : Nat) : Nat :=
  pushBv o.cl (pushBv o.cr (pushBv o.cx (pushB o.be (pushBv o.bidx (pushBv o.esz (pushBv o.rsv n))))))

/-- The fields of RrwOp (R253) taken in ascending bit order. -/
def takeRrwOp (n : Nat) : RrwOp × Nat :=
  let (c, n1) := takeNiCommon n
  let (loff, n2) := takeBv 32 n1
  let (roff, n3) := takeBv 32 n2
  let (xoff, n4) := takeBv 24 n3
  let (count, n5) := takeBv 16 n4
  let (rsv, n6) := takeBv 24 n5
  ({ c := c, loff := loff, roff := roff, xoff := xoff, count := count, rsv := rsv }, n6)
/-- The same fields put back. -/
def pushRrwOp (o : RrwOp) (n : Nat) : Nat :=
  pushNiCommon o.c (pushBv o.loff (pushBv o.roff (pushBv o.xoff (pushBv o.count (pushBv o.rsv n)))))

/-- The fields of RsendOp (R253) taken in ascending bit order. -/
def takeRsendOp (n : Nat) : RsendOp × Nat :=
  let (c, n1) := takeNiCommon n
  let (loff, n2) := takeBv 32 n1
  let (roff, n3) := takeBv 32 n2
  let (len, n4) := takeBv 20 n3
  let (rbe, n5) := takeB n4
  let (rbidx, n6) := takeBv 11 n5
  let (rse, n7) := takeB n6
  let (rsidx, n8) := takeBv 8 n7
  let (rsinc, n9) := takeBv 8 n8
  let (rsv, n10) := takeBv 15 n9
  ({ c := c, loff := loff, roff := roff, len := len, rbe := rbe, rbidx := rbidx, rse := rse, rsidx := rsidx, rsinc := rsinc, rsv := rsv }, n10)
/-- The same fields put back. -/
def pushRsendOp (o : RsendOp) (n : Nat) : Nat :=
  pushNiCommon o.c (pushBv o.loff (pushBv o.roff (pushBv o.len (pushB o.rbe (pushBv o.rbidx (pushB o.rse (pushBv o.rsidx (pushBv o.rsinc (pushBv o.rsv n)))))))))

/-- The fields of TaperevOp (R268) taken in ascending bit order. -/
def takeTaperevOp (n : Nat) : TaperevOp × Nat :=
  let (ct, n1) := takeBv 4 n
  let (cd, n2) := takeBv 4 n1
  let (be, n3) := takeB n2
  let (bidx, n4) := takeBv 11 n3
  let (rsvA, n5) := takeBv 12 n4
  let (seg, n6) := takeBv 8 n5
  let (doff, n7) := takeBv 24 n6
  let (len, n8) := takeBv 32 n7
  let (rsvB, n9) := takeBv 64 n8
  ({ ct := ct, cd := cd, be := be, bidx := bidx, rsvA := rsvA, seg := seg, doff := doff, len := len, rsvB := rsvB }, n9)
/-- The same fields put back. -/
def pushTaperevOp (o : TaperevOp) (n : Nat) : Nat :=
  pushBv o.ct (pushBv o.cd (pushB o.be (pushBv o.bidx (pushBv o.rsvA (pushBv o.seg (pushBv o.doff (pushBv o.len (pushBv o.rsvB n))))))))

/-- The fields of CmuOp (R331) taken in ascending bit order. -/
def takeCmuOp (n : Nat) : CmuOp × Nat :=
  let (cf, n1) := takeBv 4 n
  let (cc, n2) := takeBv 4 n1
  let (cl, n3) := takeBv 4 n2
  let (slot, n4) := takeBv 8 n3
  let (grp, n5) := takeBv 4 n4
  let (foff, n6) := takeBv 20 n5
  let (coff, n7) := takeBv 20 n6
  let (rpoff, n8) := takeBv 20 n7
  let (enoff, n9) := takeBv 20 n8
  let (sumoff, n10) := takeBv 20 n9
  let (maxent, n11) := takeBv 16 n10
  let (row0, n12) := takeBv 12 n11
  let (nd, n13) := takeB n12
  let (rsv, n14) := takeBv 7 n13
  ({ cf := cf, cc := cc, cl := cl, slot := slot, grp := grp, foff := foff, coff := coff, rpoff := rpoff, enoff := enoff, sumoff := sumoff, maxent := maxent, row0 := row0, nd := nd, rsv := rsv }, n14)
/-- The same fields put back. -/
def pushCmuOp (o : CmuOp) (n : Nat) : Nat :=
  pushBv o.cf (pushBv o.cc (pushBv o.cl (pushBv o.slot (pushBv o.grp (pushBv o.foff (pushBv o.coff (pushBv o.rpoff (pushBv o.enoff (pushBv o.sumoff (pushBv o.maxent (pushBv o.row0 (pushB o.nd (pushBv o.rsv n)))))))))))))

/-- The fields of AccOp (R164) taken in ascending bit order. -/
def takeAccOp (n : Nat) : AccOp × Nat :=
  let (acc, n1) := takeBv 3 n
  let (rsvA, n2) := takeBv 1 n1
  let (lfmt, n3) := takeBv 2 n2
  let (ty, n4) := takeB n3
  let (rsvB, n5) := takeBv 1 n4
  let (ca, n6) := takeBv 4 n5
  let (rsvC, n7) := takeBv 8 n6
  let (swa, n8) := takeBv 5 n7
  let (swae, n9) := takeB n8
  let (rsvD, n10) := takeBv 6 n9
  let (offa, n11) := takeBv 24 n10
  let (rsvE, n12) := takeBv 24 n11
  let (stra, n13) := takeBv 16 n12
  let (rsvF, n14) := takeBv 64 n13
  ({ acc := acc, rsvA := rsvA, lfmt := lfmt, ty := ty, rsvB := rsvB, ca := ca, rsvC := rsvC, swa := swa, swae := swae, rsvD := rsvD, offa := offa, rsvE := rsvE, stra := stra, rsvF := rsvF }, n14)
/-- The same fields put back. -/
def pushAccOp (o : AccOp) (n : Nat) : Nat :=
  pushBv o.acc (pushBv o.rsvA (pushBv o.lfmt (pushB o.ty (pushBv o.rsvB (pushBv o.ca (pushBv o.rsvC (pushBv o.swa (pushB o.swae (pushBv o.rsvD (pushBv o.offa (pushBv o.rsvE (pushBv o.stra (pushBv o.rsvF n)))))))))))))

/-- The operand field of an MMA-family command (R156), under its format and shape (R80). -/
def takeMmaOp (fmt : BitVec 4) (shape : BitVec 2) (n : Nat) : MmaOp × Nat :=
  let (acc, n1) := takeBv 3 n
  let (row0, n2) := takeB n1
  let (bfmt, n3) := takeBv 4 n2
  let (ca, n4) := takeBv 4 n3
  let (cb, n5) := takeBv 4 n4
  let (cx, n6) := takeBv 4 n5
  let (swa, n7) := takeBv 5 n6
  let (swae, n8) := takeB n7
  let (swb, n9) := takeBv 5 n8
  let (swbe, n10) := takeB n9
  let (offa, n11) := takeBv 24 n10
  let (offb, n12) := takeBv 24 n11
  let (stra, n13) := takeBv 16 n12
  let (strb, n14) := takeBv 16 n13
  let (offx, n15) := takeBv 24 n14
  let (strx, n16) := takeBv 16 n15
  let (zpre, n17) := takeB n16
  let (pb, n18) := takeB n17
  let (rsv, n19) := takeBv 6 n18
  ({ fmt := fmt, shape := shape, acc := acc, row0 := row0, bfmt := bfmt, ca := ca, cb := cb, cx := cx, swa := swa, swae := swae, swb := swb, swbe := swbe, offa := offa, offb := offb, stra := stra, strb := strb, offx := offx, strx := strx, zpre := zpre, pb := pb, rsv := rsv }, n19)
/-- The same fields put back. -/
def pushMmaOp (o : MmaOp) (n : Nat) : Nat :=
  pushBv o.acc (pushB o.row0 (pushBv o.bfmt (pushBv o.ca (pushBv o.cb (pushBv o.cx (pushBv o.swa (pushB o.swae (pushBv o.swb (pushB o.swbe (pushBv o.offa (pushBv o.offb (pushBv o.stra (pushBv o.strb (pushBv o.offx (pushBv o.strx (pushB o.zpre (pushB o.pb (pushBv o.rsv n))))))))))))))))))

/-- A command of opcode `op` with header `h` and operands packed above it. -/
def cmdWord (op : BitVec 8) (h : CmdHdr) (operands : Nat) : CmdWord :=
  BitVec.ofNat 224 (pushBv op (pushCmdHdr h operands))

/-- The opcode of an MMA-family command: family, format, shape (R80). -/
def mmaOpcode (fam : BitVec 2) (o : MmaOp) : BitVec 8 := fam ++ o.fmt ++ o.shape

/-- The 224-bit word of an engine command. -/
def encodeCommand : Instr → Option CmdWord
  | .copy h o => some (cmdWord 1 h (pushCopyOp o 0))
  | .copy2d h o => some (cmdWord 2 h (pushCopy2dOp o 0))
  | .copy3d h o => some (cmdWord 3 h (pushCopy3dOp o 0))
  | .mccopy h o => some (cmdWord 4 h (pushTileOp o 0))
  | .tgath h o => some (cmdWord 5 h (pushTileOp o 0))
  | .tscat h o => some (cmdWord 6 h (pushTileOp o 0))
  | .fill h o => some (cmdWord 7 h (pushFillOp o 0))
  | .rread h o => some (cmdWord 1 h (pushRrwOp o 0))
  | .rwrite h o => some (cmdWord 2 h (pushRrwOp o 0))
  | .rsend h o => some (cmdWord 3 h (pushRsendOp o 0))
  | .taperev h o => some (cmdWord 1 h (pushTaperevOp o 0))
  | .cmscan h o => some (cmdWord 1 h (pushCmuOp o 0))
  | .cmreset h o => some (cmdWord 2 h (pushCmuOp o 0))
  | .cmstat h o => some (cmdWord 3 h (pushCmuOp o 0))
  | .accz h o => some (cmdWord 1 h (pushAccOp o 0))
  | .accld h o => some (cmdWord 2 h (pushAccOp o 0))
  | .accst h o => some (cmdWord 3 h (pushAccOp o 0))
  | .mma h o => some (cmdWord (mmaOpcode 1 o) h (pushMmaOp o 0))
  | .mmaSp h o => some (cmdWord (mmaOpcode 2 o) h (pushMmaOp o 0))
  | .mmaD h o => some (cmdWord (mmaOpcode 3 o) h (pushMmaOp o 0))
  | _ => none

/-- The engine that owns a command's opcode (R79, R80). -/
def Instr.engine : Instr → Option Eng
  | .copy .. | .copy2d .. | .copy3d .. | .mccopy .. | .tgath .. | .tscat .. | .fill .. => some .ce
  | .rread .. | .rwrite .. | .rsend .. => some .ni
  | .taperev .. => some .tape
  | .cmscan .. | .cmreset .. | .cmstat .. => some .cmu
  | .accz .. | .accld .. | .accst .. | .mma .. | .mmaSp .. | .mmaD .. => some .me
  | .reservedEngineOpcode e .. => some e
  | _ => none

/-- The instruction an engine takes from a command word: total, a reserved opcode being its own row (R80,
R81). -/
def decodeCommand (e : Eng) (c : CmdWord) : Instr :=
  let (op, n1) := takeBv 8 c.toNat
  let (h, n) := takeCmdHdr n1
  let reserved := Instr.reservedEngineOpcode e h op
  match e, op.toNat with
  | .ce, 1 => .copy h (takeCopyOp n).1
  | .ce, 2 => .copy2d h (takeCopy2dOp n).1
  | .ce, 3 => .copy3d h (takeCopy3dOp n).1
  | .ce, 4 => .mccopy h (takeTileOp n).1
  | .ce, 5 => .tgath h (takeTileOp n).1
  | .ce, 6 => .tscat h (takeTileOp n).1
  | .ce, 7 => .fill h (takeFillOp n).1
  | .ni, 1 => .rread h (takeRrwOp n).1
  | .ni, 2 => .rwrite h (takeRrwOp n).1
  | .ni, 3 => .rsend h (takeRsendOp n).1
  | .tape, 1 => .taperev h (takeTaperevOp n).1
  | .cmu, 1 => .cmscan h (takeCmuOp n).1
  | .cmu, 2 => .cmreset h (takeCmuOp n).1
  | .cmu, 3 => .cmstat h (takeCmuOp n).1
  | .me, 1 => .accz h (takeAccOp n).1
  | .me, 2 => .accld h (takeAccOp n).1
  | .me, 3 => .accst h (takeAccOp n).1
  | .me, k =>
    let o := (takeMmaOp (op.extractLsb' 2 4) (op.extractLsb' 0 2) n).1
    if mmaAdmitted (k / 64) o.fmt.toNat o.shape.toNat then
      match k / 64 with
      | 1 => .mma h o
      | 2 => .mmaSp h o
      | _ => .mmaD h o
    else reserved
  | _, _ => reserved

end Sys2Proof
end

