-- ==== Sys2Proof/Config.lean ====
section
/-! DEFINITION. What the spec leaves open: constants without a body, so that nothing can be proved about their
values.  Each is applied to the operands it depends on, or to the counter `fresh` of the state. -/

namespace Sys2Proof.Config

/-- Cycles a bundle waits beyond its issue cycle: misses, banks and routing (R10, R32, R198, R240). -/
opaque stall : Nat → Nat
/-- Whether the engines come to their work in the cycle in which a stream issues (R77, R173, R256: when a command goes on
is a matter of timing). -/
opaque engineWorks : Nat → Bool
/-- Whether a strand loses to one before it that wants the same shared resource: draw, quarter (R30 does not say how many
accesses the pool ports or an engine queue take in a cycle). -/
opaque contend : Nat → Nat → Bool
/-- How far a performance counter of timing rises while a step is made: bank conflicts (R343, sel 8). -/
opaque perf : Nat → Nat → Nat
/-- Units of TIME that pass while a step is made (R339). -/
opaque elapsed : Nat → Nat
/-- Whether a TLB entry that is still listed is the one an access uses (R309, R310). -/
opaque tlbHit : Nat → Bool
/-- Which way of a full L1 set a miss evicts (R201: replacement order changes timing only). -/
opaque l1Victim : Nat → Nat
/-- A byte of a frame read under another XTS key pair than it was written under: the pairs, the number of its 16-byte block,
the block's bytes, and the byte (R210; the cipher is outside the spec). -/
opaque xtsOther : BitVec 512 → BitVec 512 → Nat → BitVec 128 → Nat → Byte
/-- Cycles until a TSYNC.ptm exchange completes (R340: at most 20 us, which `State.ptmLat` bounds). -/
opaque ptmDelay : Nat → Nat
/-- The set of an L1 TLB that a page's address selects, and the entry that a full one gives up (R299, R309). -/
opaque tlbSet : Nat → Nat
opaque tlbVictim : Nat → Nat
/-- Whether a walk takes a non-leaf PTE from a walker cache that lists it: draw, level (R309). -/
opaque walkHit : Nat → Nat → Bool
/-- Which line a full code line buffer gives up (R211 gives its size and no replacement order). -/
opaque lineVictim : Nat → Nat
/-- An info word of an engine fault that a context image does not hold: draw, word (R181, R189). -/
opaque lostInfo : Nat → Nat → Word
/-- The set of a line address within its slice, of 1024 (R204, R205 count pinned ways of a set; the index is not given). -/
opaque l2Set : Nat → Nat
/-- Root time of a PTM exchange (R340). -/
opaque ptmRoot : Nat → Word
/-- The AES-256-GCM key stream byte `i` under a key and a 96-bit nonce (R189, R351; the cipher is outside the spec). -/
opaque gcmStream : BitVec 256 → BitVec 96 → Nat → Byte
/-- The AES-256-GCM tag of additional data and ciphertext (R189, R351). -/
opaque gcmTag : BitVec 256 → BitVec 96 → List Byte → List Byte → BitVec 128
/-- The seed of the PUF, the same at every boot (R348). -/
opaque puf : BitVec 256
/-- The key-transport public key that a seed derives, 1184 bytes (R348, R350). -/
opaque transportKey : BitVec 256 → Nat → Byte
/-- What KEYPROV's ciphertext opens to under the key-transport private key that a seed derives (R348, R349): the XTS pair
and the GCM key; none where it fails. -/
opaque kemOpen : BitVec 256 → List Byte → Option (BitVec 512 × BitVec 256)
/-- The ROM's hash of the vendor key, and whether an ML-DSA-44 signature of a digest under a key is good (R347). -/
opaque vendorHash : BitVec 256
opaque signed : List Byte → BitVec 256 → List Byte → Bool
/-- SHA3-256 (R347, R350; FIPS 202 is outside the spec). -/
opaque sha3 : List Byte → BitVec 256
/-- ML-DSA-44 signature byte `i` of a digest under the identity key that a seed derives (R348, R350). -/
opaque identitySign : BitVec 256 → BitVec 256 → Nat → Byte
/-- FRAME of an EOS entry, which takes no number (R290). -/
opaque eosFrame : Nat → BitVec 32
/-- A byte of a frame as it reads once the key it was written under is gone (R349): draw, address. -/
opaque lostKey : Nat → Nat → Byte
/-- Keys of slot 0, which belongs to firmware (R312). -/
opaque slot0 : BitVec 512 × BitVec 256

end Sys2Proof.Config
end

