-- ==== Sys2Proof/Machine/Tab.lean ====
section
/-! DEFINITION. Sparse tables: every register file and every memory of the machine is a list of (key, value)
pairs in one canonical form (keys strictly rising, no entry equal to the default).  A key that is not listed
reads as the default. -/

namespace Sys2Proof.Machine

/-- A sparse table: keys strictly rising, no listed value equal to the default the table is read with. -/
abbrev Tab (α : Type) := List (Nat × α)

/-- The value of key `k`, `d` where it is not listed. -/
def tget {α : Type} (d : α) : Tab α → Nat → α
  | [], _ => d
  | (a, v) :: r, k => if a = k then v else tget d r k

/-- The entry of key `k`, if it is listed. -/
def tfind {α : Type} : Tab α → Nat → Option α
  | [], _ => none
  | (a, v) :: r, k => if a = k then some v else tfind r k

/-- The table without key `k`. -/
def terase {α : Type} : Tab α → Nat → Tab α
  | [], _ => []
  | (a, v) :: r, k => if a = k then terase r k else (a, v) :: terase r k

/-- The table with an entry placed in key order. -/
def tins {α : Type} (k : Nat) (v : α) : Tab α → Tab α
  | [] => [(k, v)]
  | (a, w) :: r => if k < a then (k, v) :: (a, w) :: r else (a, w) :: tins k v r

/-- Writing `v` to key `k`: the default removes the entry. -/
def tset {α : Type} [DecidableEq α] (d : α) (t : Tab α) (k : Nat) (v : α) : Tab α :=
  if v = d then terase t k else tins k v (terase t k)

/-- Listing `v` at key `k`, for tables whose keys are present or absent. -/
def tput {α : Type} (t : Tab α) (k : Nat) (v : α) : Tab α := tins k v (terase t k)

/-- The table with every key in `lo` up to but not including `hi` removed. -/
def tclear {α : Type} (t : Tab α) (lo hi : Nat) : Tab α := t.filter fun e => e.1 < lo || hi ≤ e.1

/-- Keys strictly rising from `lo`, no value equal to `d`. -/
def twfFrom {α : Type} [DecidableEq α] (d : α) : Nat → Tab α → Bool
  | _, [] => true
  | lo, (a, v) :: r => lo ≤ a && v != d && twfFrom d (a + 1) r

/-- The canonical form. -/
def twf {α : Type} [DecidableEq α] (d : α) (t : Tab α) : Bool := twfFrom d 0 t

/-- Applies `f` for each index below `n`, in ascending order. -/
def upTo {σ : Type} : Nat → (Nat → σ → σ) → σ → σ
  | 0, _, s => s
  | n + 1, f, s => f n (upTo n f s)

end Sys2Proof.Machine
end

