-- ==== Sys2Proof/Machine/State.lean ====
section
/-! DEFINITION. The state of the machine as plain data: one core in focus, the other cores, the device, and the
model's own scheduling input.  Every field cites the rule that names it. -/

namespace Sys2Proof.Machine

/-! ### Traps, waits and stops -/

/-- The causes of R181. -/
inductive Cause
  | illegal | illprefix | priv | capfault | xlate | mmx | poison | accbusy | loopmax | waitlong | semovf
  | tapeovf | tapelost | tapediv | command | swtrap | mcheck | ctxbad
  deriving DecidableEq, Repr

/-- A trap to be reported: cause, subcause and the four info words of R181. -/
structure TrapRec where
  cause : Cause
  sub : BitVec 8 := 0
  info0 : Word := 0
  info1 : Word := 0
  info2 : Word := 0
  info3 : Word := 0
  /-- TSTAT.SRC (R176): 0 quarter, 1 engine, 2 event, 3 TRAP instruction -/
  src : BitVec 2 := 0
  /-- TSTAT.FQ of a quarter origin -/
  fq : BitVec 2 := 0
  /-- TSTAT.ENG of an engine origin -/
  eng : BitVec 3 := 0
  deriving DecidableEq, Repr

/-- Why a bundle is held: the wait slots of R342, and the holds that are no wait slot. -/
inductive Hold
  /-- wait slot of R342 with its kind (R181) and object -/
  | slot (kind : BitVec 8) (obj : Word)
  /-- a matrix command whose next rows wait for metadata; what its earlier rows did stands (R161) -/
  | part
  /-- a hold that is no wait slot, at an access or a unit that is late: a hold of a translation (R295), a busy divider
  (R109), a busy scan unit (R147) -/
  | late
  /-- a hold that is neither: engines stopping, latency mode, queue controller -/
  | other
  deriving DecidableEq, Repr

/-- How a meaning stops short of its effect. -/
inductive Stop
  | trap (t : TrapRec)
  | hold (h : Hold)
  deriving DecidableEq, Repr

/-- What was done on the way, which stands whatever becomes of the bundle: by a page walker (R308), by a failing domain
(R24), and the counts of translation (R343). -/
inductive WalkAct
  /-- the D bit of the PTE at this physical address was set -/
  | setD (pte : Nat)
  /-- a fault-queue entry was posted and the access held -/
  | post (rcb va kind agent core pte op : Nat)
  /-- a performance counter of translation was raised (R343) -/
  | count (sel : Nat)
  /-- RCBSET.fail has failed the domain of a region for a reason, and its bundle, named by its operation, waits for the kills
  (R302) -/
  | fail (region reason op : Nat)
  /-- an operation of the QC on a queue waits for a held access (R379) -/
  | queue (id op : Nat)
  deriving DecidableEq, Repr

/-! ### Registers of a quarter -/

/-- A loop register (R113). -/
structure Loop where
  act : Bool
  start : Word
  max : BitVec 32
  trip : BitVec 32
  limit : BitVec 32
  deriving DecidableEq, Repr

/-- A loop register at reset. -/
def Loop.zero : Loop := { act := false, start := 0, max := 0, trip := 0, limit := 0 }

/-- A destination of a result in flight, by physical register (R133). A predicate result names the bits it writes and a
vector result the 16-bit elements; the others keep their values (R132, R141). -/
inductive Dest
  | s (i : Nat) (v : Word)
  | p (i : Nat) (v m : BitVec 32)
  | c (i : Nat) (v : CapWord)
  | v (i : Nat) (v : Vec) (m : BitVec 64)
  | b (i : Nat) (v : Word)
  deriving DecidableEq, Repr

/-- A result not yet delivered in exposed mode (R32, R133): `due` counts cycles of the stream. -/
structure Pending where
  due : Nat
  dest : Dest
  deriving DecidableEq, Repr

/-- A stream's state (R126 to R128). -/
inductive StreamSt | parked | running | ended
  deriving DecidableEq, Repr

/-- Phase of a tape binding (R258). -/
inductive TapePhase | unbound | record | replay
  deriving DecidableEq, Repr

/-- Replay states of R266. -/
inductive RepState | before | inside | lost | exhausted
  deriving DecidableEq, Repr

/-- The tape state of one quarter (R258). -/
structure Tape where
  phase : TapePhase
  cap : CapWord
  ring : Bool
  failed : Bool
  /-- the virtual address of the write that failed (R269) -/
  failVa : Word
  size : Nat
  head : Nat
  tail : Nat
  seg : Nat
  oldest : Nat
  lost : BitVec 256
  sstart : Tab Nat
  /-- value records and decisions of the open segment -/
  values : BitVec 32
  decisions : BitVec 32
  /-- the open decision record: its bits, its count, and whether it is open -/
  openBits : Word
  openCount : Nat
  cursor : Nat
  cur : Nat
  rstate : RepState
  /-- decisions left in the record at the cursor, and in the segment -/
  dleft : Nat
  dseg : Nat
  /-- bytes recorded and not yet drained, from logical offset `bufAt` -/
  bufAt : Nat
  buf : List Byte
  deriving DecidableEq, Repr

/-- No tape bound. -/
def Tape.none : Tape :=
  { phase := .unbound, cap := 0, ring := false, failed := false, failVa := 0, size := 0, head := 0, tail := 0,
    seg := 0, oldest := 0, lost := 0, sstart := [], values := 0, decisions := 0, openBits := 0, openCount := 0,
    cursor := 0, cur := 0, rstate := .before, dleft := 0, dseg := 0, bufAt := 0, buf := [] }

/-- One quarter of a core. -/
structure Quarter where
  /-- s0 to s63 (R87) -/
  s : Tab Word
  /-- p0 to p63, physical order (R87, R89) -/
  p : Tab (BitVec 32)
  /-- c0 to c15 (R87, R90) -/
  c : Tab CapWord
  /-- v0 to v127, physical order (R130, R131) -/
  v : Tab Vec
  /-- b0 to b7 (R112) -/
  b : Tab Word
  /-- l0 to l3 (R113) -/
  l : Tab Loop
  /-- R114 -/
  vwin : BitVec 6
  pwin : BitVec 5
  role : BitVec 2
  /-- R53, R54 -/
  rngkey : Word
  rngctr : BitVec 32
  /-- TSCR0 to TSCR3 (R177) -/
  tscr : Tab Word
  /-- address of the stream's next bundle (R30) -/
  pc : Word
  /-- that address was reached through a link word, so empty lines are passed (R70) -/
  viaLink : Bool
  /-- latency mode of the last line the stream executed, once there is one (R32) -/
  lat : Option Bool
  st : StreamSt
  /-- results in flight (R32, R133) -/
  pend : List Pending
  /-- the first cycle of the core in which the stream issues again, after a penalty (R120), discarded bundles (R122) or a
  late access of its own (R32) -/
  readyAt : Nat
  /-- consecutive empty lines passed on the way to `pc` (R70) -/
  passed : Nat
  /-- bundles issued by the stream, and for each b register that count just after its last write (R120) -/
  issued : Nat
  bAt : Tab Nat
  /-- wait counter (R342) -/
  waitCtr : BitVec 32
  /-- what the next group was last held at -/
  waitAt : Option Hold
  /-- that hold stalls every quarter of the core: a late access in exposed mode (R32, R109, R147, R235) -/
  late : Bool
  /-- the branch register that the JOIN it waits at names (R127) -/
  joinB : Option Reg
  /-- denial counter and whether it has made the strand promoted (R30), and the cycle YIELD gives up (R129) -/
  denial : BitVec 32
  promoted : Bool
  yielded : Bool
  /-- the divider is busy until this cycle of the core (R109), the scan unit until this one (R147) -/
  divBusy : Nat
  scanBusy : Nat
  /-- tape binding (R258) -/
  tape : Tape
  deriving DecidableEq, Repr

/-- A quarter at reset. -/
def Quarter.reset : Quarter :=
  { s := [], p := [], c := [], v := [], b := [], l := [], vwin := 0, pwin := 0, role := 0, rngkey := 0,
    rngctr := 0, tscr := [], pc := 0, viaLink := false, lat := none, st := .parked, pend := [], readyAt := 0,
    passed := 0, issued := 0, bAt := [], waitCtr := 0, waitAt := none, late := false, joinB := none, denial := 0,
    promoted := false, yielded := false, divBusy := 0, scanBusy := 0, tape := .none }

/-! ### The bundle in issue -/

/-- Where a redirecting syllable sends the stream (R117). -/
inductive Redirect
  | none
  /-- to an address, after a penalty (R120) -/
  | to (a : Word) (penalty : Nat)
  /-- zero trips: the bundles up to the LEND of this loop register in this slot are discarded (R122) -/
  | discard (q : BitVec 2) (l : Nat)
  /-- the streams are already placed (FORK, HALT, JOIN, RTE, CKPT) -/
  | placed
  deriving DecidableEq, Repr

/-- The bundle and group in issue. -/
structure Issue where
  /-- quarter of the group (its slot, or the strand) -/
  q : BitVec 2
  /-- the line is joint (OWNER 4) -/
  joint : Bool
  /-- the line is exposed (LAT 1, R32) -/
  exposed : Bool
  /-- addresses of the group's and the bundle's first syllable, and of the next bundle (R117) -/
  gaddr : Word
  baddr : Word
  cont : Word
  /-- prefixes of the group (R72) -/
  ext : Option (BitVec 20)
  capx : Option (BitVec 4)
  spec : Bool
  tape : Bool
  redirect : Redirect
  /-- what stopped the bundle, if anything did -/
  stop : Option Stop
  walks : List WalkAct
  /-- the performance counters before the bundle (R343) -/
  perf : Tab Word
  /-- empty lines passed on the way to `cont` (R70) -/
  passed : Nat
  /-- other strands issue in the same cycle: a trap is taken when all of them have (R180) -/
  defer : Bool
  deriving DecidableEq, Repr

/-- No bundle in issue. -/
def Issue.idle : Issue :=
  { q := 0, joint := true, exposed := false, gaddr := 0, baddr := 0, cont := 0, ext := none, capx := none,
    spec := false, tape := false, redirect := .none, stop := none, walks := [], perf := [],
    passed := 0, defer := false }

/-! ### Registers and memories of a core -/

/-- The trap and context registers of a core (R175), as their 64-bit words. -/
structure TrapRegs where
  tstat : Word
  tcause : Word
  tepc : Tab Word
  tinfo : Tab Word
  tldm : Word
  meprog : Word
  deriving DecidableEq, Repr

/-- Reset of R176 on a tile core: JOINT, PEN and EN are 1. -/
def TrapRegs.reset : TrapRegs :=
  { tstat := 0x0000000000800500, tcause := 0, tepc := [], tinfo := [], tldm := 0, meprog := 0 }

/-- The privileged registers of a core outside the trap set (R88). -/
structure SysRegs where
  slip : BitVec 32
  age : BitVec 32
  wdog : BitVec 32
  poolv : BitVec 32
  pools : BitVec 32
  poolc : BitVec 32
  capver : Word
  deriving DecidableEq, Repr

/-- Resets of R179, R31, R341, R194 and R95. -/
def SysRegs.reset : SysRegs :=
  { slip := 0x40, age := 0x100, wdog := 0x80008000, poolv := 0x10, pools := 0x4C0, poolc := 0x5C0, capver := 0 }

/-- A semaphore (R324). -/
structure Sem where
  v : BitVec 16
  ceil : BitVec 16
  deriving DecidableEq, Repr

/-- Run-start value of a semaphore (R324). -/
def Sem.init : Sem := { v := 0, ceil := 0xFFFF }

/-- The accumulators (R148 to R150). Elements are keyed 2048 k + 32 row + column; shadows lie 16384 higher. -/
structure Acc where
  elems : Tab (BitVec 32)
  /-- ACCFLG0 to ACCFLG7 -/
  flg : Tab (BitVec 8)
  /-- POIS0 to POIS7 at 0 to 7, SPOIS0 to SPOIS7 at 8 to 15 -/
  pois : Tab Word
  deriving DecidableEq, Repr

/-- Accumulators at reset. -/
def Acc.zero : Acc := { elems := [], flg := [], pois := [] }

/-- The pool and its side arrays (R192): bytes keyed by pool offset, the rest by granule. -/
structure Pool where
  bytes : List Host.Cell
  full : Tab Bool
  tag : Tab Bool
  pois : Tab Bool
  /-- writer record: agent and epoch (R222) -/
  wrec : Tab (BitVec 3 × BitVec 8)
  /-- the quarter that the engine command belongs to which wrote the granule last: it issued it inline, or is its CQ; none
  for an inbound transfer (R215, R223) -/
  own : Tab (Option (BitVec 2))
  deriving DecidableEq, Repr

/-- A scrubbed pool (R38). -/
def Pool.zero : Pool := { bytes := [], full := [], tag := [], pois := [], wrec := [], own := [] }

/-- Race-detection vectors (R222): `acq` is keyed 8 A + B, `sem` 8 i + A, `bar` 8 i + A. -/
structure Race where
  cur : Tab (BitVec 8)
  acq : Tab (BitVec 8)
  sem : Tab (BitVec 8)
  bar : Tab (BitVec 8)
  deriving DecidableEq, Repr

/-- Settled vectors: an unlisted entry reads as 1 (R226). -/
def Race.settled : Race := { cur := [], acq := [], sem := [], bar := [] }

/-- A line of the L1 carve-out (R201), `line` being the physical address divided by 64. -/
structure L1Line where
  line : Nat
  data : BitVec 512
  valid : Word
  dirty : Word
  tag : BitVec 4
  pois : BitVec 4
  /-- the PTE its bytes go back through: key slot and compression of its page (R209, R210) -/
  pte : Word
  deriving DecidableEq, Repr

/-! ### Engines -/

/-- A command in an engine queue, with what it captured on entry (R74, R314, R223). -/
structure Cmd where
  bits : CmdWord
  seq : BitVec 32
  inline : Bool
  /-- quarter that issued it, or CQ -/
  q : BitVec 2
  /-- c registers of the issuing quarter as they stood at issue (inline commands) -/
  caps : Tab CapWord
  /-- swizzle table as it stood on entry -/
  swz : Tab (BitVec 32)
  /-- cur of the issuing quarter at issue -/
  epoch : BitVec 8
  /-- the follow-on of slot 1 (R75), if any -/
  follow : Option CmdWord
  /-- address of the chain line it came from, 0 for an inline command (R181, COMMAND) -/
  line : Word
  deriving DecidableEq, Repr

/-- How far the command at the head has come. -/
inductive HeadPhase
  /-- at its wait -/
  | waiting
  /-- its wait has passed -/
  | passed
  /-- its work is complete, its signal is not made -/
  | done
  deriving DecidableEq, Repr

/-- The chain context of an engine (R296 to R298). -/
structure Chain where
  active : Bool
  /-- device virtual address of the descriptor -/
  desc : Word
  base : Word
  nlines : BitVec 32
  code : Bool
  tail : BitVec 32
  fidx : BitVec 32
  /-- line being fetched, and the slot reached in it -/
  line : Word
  slot : Bool
  /-- inside a ring entry: the line comes from a KIND 00 link, with no tail test -/
  inEntry : Bool
  /-- quarter the KICK came from -/
  q : BitVec 2
  deriving DecidableEq, Repr

/-- No chain. -/
def Chain.none : Chain :=
  { active := false, desc := 0, base := 0, nlines := 0, code := false, tail := 0, fidx := 0, line := 0,
    slot := false, inEntry := false, q := 0 }

/-- A segment expanded by TAPEREV: the address of its tape, its number, and the pool address of the output (R268). -/
structure Expansion where
  base : Nat
  seg : Nat
  out : Nat
  deriving DecidableEq, Repr

/-- A matrix command that has started and whose next block waits: that block, the addresses of A, B and X, and the rows of B
with their scales, byte by byte with poison, which its first block has read (R161, R166). -/
structure MePart where
  blk : Nat
  a : Nat
  b : Nat
  x : Nat
  rows : List (List (Byte × Bool) × List (Byte × Bool))
  deriving DecidableEq, Repr

/-- One element of an RREAD or RWRITE: its local and remote address, and its offset in c[CR] (R253). -/
structure Elem where
  l : Nat
  r : Nat
  off : Nat
  deriving DecidableEq, Repr

/-- An RREAD whose check pass is made: the elements of which the reply is still to land, with their numbers, and the first
refusal so far, its subcause and offset (R254, R255). -/
structure Replies where
  left : List (Nat × Elem)
  why : Option (Nat × Nat)
  deriving DecidableEq, Repr

/-- One engine and its queue (R272, R178). -/
structure Engine where
  queue : List Cmd
  phase : HeadPhase
  /-- number the next command takes, and the completion sequence number (R329) -/
  next : BitVec 32
  done : BitVec 32
  flt : Bool
  skip : Bool
  sig : Bool
  wp : Bool
  lf : Bool
  cause : BitVec 8
  /-- the trap the fault reports at entry or RTE -/
  fault : Option TrapRec
  /-- POISON met by the command in hand, at which the engine stops once it has completed (R167) -/
  pend : Option TrapRec
  /-- line fault to be raised once every earlier command is complete (R62, R297) -/
  lpend : Option TrapRec
  chain : Chain
  /-- the chain line that the engine is within, between its two slots (R63, R75) -/
  held : Option (BitVec 512)
  /-- CAPVER as the command in hand was checked under it, while it is held (R95) -/
  ver : Option Word
  /-- the matrix command in hand, while its next block waits (R161, R166) -/
  part : Option MePart
  /-- the RREAD in hand, once a reply to it has landed (R255) -/
  rest : Option Replies
  /-- OUT as CTXLOAD replaced it, until the engine restarts (R178, R190) -/
  out : Option (BitVec 8)
  /-- LAST of the scan that the command at the head has made (R337) -/
  last : Option (BitVec 32)
  /-- what the TAPEREV at the head has expanded, until it completes (R268) -/
  rev : Option Expansion
  deriving DecidableEq, Repr

/-- An idle engine at run start: commands are numbered from 1. -/
def Engine.idle : Engine :=
  { queue := [], phase := .waiting, next := 1, done := 0, flt := false, skip := false, sig := false, wp := false,
    lf := false, cause := 0, fault := none, pend := none, lpend := none, chain := .none, held := none, ver := none, part := none, rest := none, out := none,
    last := none, rev := none }

/-! ### Runs and cores -/

/-- The run that occupies a core (R29). -/
structure Run where
  /-- job-queue index and counter of its card -/
  qid : Nat
  ctr : BitVec 32
  /-- RCB index of its region -/
  region : Nat
  /-- tenant key slot -/
  ks : BitVec 8
  first : BitVec 64
  count : BitVec 64
  /-- order in which its chunk was dealt (R35) -/
  order : Nat
  /-- dispatch rounds at its start (R33, R353) -/
  round : Nat
  /-- drain decided at this cycle count, for this card (R36) -/
  drain : Option (Nat × Nat × BitVec 32)
  /-- the card it is being checkpointed or killed for (R35) -/
  taker : Option (Nat × BitVec 32)
  /-- PBASE and PLEN of its card (R38) -/
  pbase : Nat
  plen : Nat
  /-- cycles of it charged to virtual time already, before a checkpoint (R33) -/
  charged : Nat
  deriving DecidableEq, Repr

/-- How a run is being taken off its core (R24, R188). -/
inductive Halting
  /-- checkpoint; asked for by a CKPT whose register `ret` becomes 0 at resumption, or by the dispatcher -/
  | ckpt (ret : Option (BitVec 2 × Nat))
  | kill
  /-- its fault domain has failed: killed without re-dealing; the operation of the RCBSET.fail that waits for it, if one does
  (R24, R302, R373) -/
  | fail (by' : Option Nat)
  deriving DecidableEq, Repr

/-- One core (R11, R12). -/
structure Core where
  /-- tile cores 0 to 127, service cores 128 to 131 (R29) -/
  num : Nat
  q0 : Quarter
  q1 : Quarter
  q2 : Quarter
  q3 : Quarter
  /-- R111 -/
  pmask : BitVec 4
  jsync : BitVec 4
  /-- joint running; when it is false the strands run -/
  joint : Bool
  issue : Issue
  /-- the engines start no command: from a trap entry to RTE (R180, R182) -/
  frozen : Bool
  /-- an RTE with LDV = 1 has been executed and no group has issued since (R184) -/
  ldArmed : Bool
  /-- a machine check that gave way to an engine fault: unit and syndrome (R185) -/
  mcheck : Option (Word × Word)
  /-- a checkpoint or kill has been decided (R188) -/
  stopping : Option Halting
  tr : TrapRegs
  sys : SysRegs
  acc : Acc
  sems : Tab Sem
  /-- barrier unit (R327) -/
  bars : Tab (BitVec 32)
  /-- swizzle table (R314): S at [4:0], D at [12:8], K at [19:16] -/
  swz : Tab (BitVec 32)
  pool : Pool
  race : Race
  l1 : List L1Line
  /-- code line buffer (R192, R211), keyed by address divided by 64 -/
  lines : Tab (BitVec 512)
  ce : Engine
  me : Engine
  ni : Engine
  tp : Engine
  cmu : Engine
  /-- inline commands issued and not yet in their queues, each with the cycle it enters in (R173) -/
  entering : List (Nat × Eng × Cmd)
  /-- performance counters (R343) -/
  perf : Tab Word
  /-- CYC and RUNCYC (R339), and bundles issued since run start -/
  cyc : Word
  runcyc : Word
  bundles : Word
  /-- cycles of the core, and those of them that no late access stalled: what exposed latencies count (R32) -/
  clock : Nat
  tick : Nat
  run : Option Run
  /-- run and persistent span the pool was last used by (R38) -/
  lastRun : Option Run
  /-- the trap vector table of the run, as it was effective at the run's start or resumption (R302, R321) -/
  tvt : Nat
  deriving DecidableEq, Repr

/-- A core at cold reset; core `n`. -/
def Core.reset (n : Nat) : Core :=
  { num := n, q0 := .reset, q1 := .reset, q2 := .reset, q3 := .reset, pmask := 0, jsync := 0, joint := true,
    issue := .idle, frozen := false, ldArmed := false, mcheck := none, stopping := none,
    tr := if n < 128 then .reset else { TrapRegs.reset with tstat := 0x0000000000800F00 },
    sys := .reset, acc := .zero, sems := [], bars := [], swz := [], pool := .zero, race := .settled, l1 := [],
    lines := [], ce := .idle, me := .idle, ni := .idle, tp := .idle, cmu := .idle, entering := [], perf := [], cyc := 0,
    runcyc := 0, bundles := 0, clock := 0, tick := 0, run := none, lastRun := none, tvt := 0 }

/-! ### The device -/

/-- One claimed range of a ring (R275). -/
structure Claim where
  first : BitVec 32
  count : Nat
  done : Bool
  deriving DecidableEq, Repr

/-- A ring queue as the QC holds it (R273, R274). -/
structure Queue where
  en : Bool
  /-- the cached descriptor, 64 bytes -/
  desc : BitVec 512
  head : BitVec 32
  cclaim : BitVec 32
  tail : BitVec 32
  pclaim : BitVec 32
  claimsT : List Claim
  claimsH : List Claim
  deriving DecidableEq, Repr

/-- A queue the QC has not loaded. -/
def Queue.off : Queue :=
  { en := false, desc := 0, head := 0, cclaim := 0, tail := 0, pclaim := 0, claimsT := [], claimsH := [] }

/-- Card states of R25, from its reading on. -/
inductive CardSt | queued | waiting | keyWait | ready | draining | complete | cancelled
  deriving DecidableEq, Repr

/-- A card the dispatcher has read (R25, R286). -/
structure Card where
  qid : Nat
  ctr : BitVec 32
  /-- its 64 bytes and its dependence block -/
  bytes : BitVec 512
  deps : BitVec 512
  region : Nat
  st : CardSt
  /-- dispatch rounds that refused it keys (R304) -/
  refused : Nat
  /-- dispatch round of entry to key-wait (R303), and order of entry to the ready pool -/
  kwOrder : Nat
  rdOrder : Nat
  /-- E: the cores it may occupy at once, fixed when it enters the ready pool (R28) -/
  cap : Nat
  /-- next record to deal (R28) -/
  next : Nat
  /-- chunks of killed runs awaiting re-dealing (R28) -/
  redeal : List (Nat × Nat)
  /-- runs not yet ended, checkpointed ones included -/
  live : Nat
  deriving DecidableEq, Repr

/-- A checkpointed run (R37); its state is in the image. -/
structure Ckpt where
  run : Run
  /-- class of its core: true for service -/
  service : Bool
  /-- CKPT asked for it: this s register of this quarter becomes 0 at resumption -/
  ret : Option (BitVec 2 × Nat)
  /-- bundles it had issued, which deterministic mode counts from the run's start (R339) -/
  bundles : Word
  deriving DecidableEq, Repr

/-- A key-table entry (R303); holders in the SUCC format of R282. -/
structure Key where
  held : Bool
  holder : BitVec 32
  reserved : Bool
  reserver : BitVec 32
  deriving DecidableEq, Repr

/-- A free key. -/
def Key.free : Key := { held := false, holder := 0, reserved := false, reserver := 0 }

/-- A tenant key slot (R312, R351). -/
structure KeySlot where
  prov : Bool
  xts : BitVec 512
  gcm : BitVec 256
  seals : Word
  deriving DecidableEq, Repr

/-- An unprovisioned slot. -/
def KeySlot.empty : KeySlot := { prov := false, xts := 0, gcm := 0, seals := 0 }

/-- An entry that a lane is within (R294): its counter, the region and address it came from, and its bytes with RESULT. -/
structure LaneJob where
  ctr : BitVec 32
  region : Nat
  va : Nat
  bytes : BitVec 512
  deriving DecidableEq, Repr

/-- A Distiller lane between entries (R319). -/
structure Lane where
  st : BitVec 12
  acc : BitVec 32
  sh : BitVec 8
  /-- the entry it is within, whose completion is to come -/
  busy : Option LaneJob
  deriving DecidableEq, Repr

/-- A lane at reset. -/
def Lane.idle : Lane := { st := 0, acc := 0, sh := 0, busy := none }

/-- A codec slot (R288 to R293). -/
structure Codec where
  /-- number the next frame entry takes -/
  frame : BitVec 32
  /-- entries that needed a buffer so far -/
  bufs : Nat
  /-- by address of a buffer, its bytes and the frame-queue counter of the entry that last used it (R17) -/
  used : Tab (Nat × BitVec 32)
  /-- entries taken from the input queue and not yet used up -/
  chunks : List (BitVec 512)
  /-- bytes are being discarded up to the next random-access picture (R292) -/
  dropping : Bool
  /-- reference state: the pictures in the slot's private store, the last one decoded first: place in the store, width and
  height (R288, R292) -/
  refs : List (Nat × Nat × Nat)
  deriving DecidableEq, Repr

/-- A codec slot at enable. -/
def Codec.idle : Codec := { frame := 0, bufs := 0, used := [], chunks := [], dropping := false, refs := [] }

/-- A held access (R295). -/
structure Held where
  fid : BitVec 32
  rcb : Nat
  va : Nat
  kind : Nat
  agent : Nat
  core : Nat
  pte : Nat
  /-- the operation it belongs to, for an agent outside the cores -/
  op : Nat
  /-- what the page queue answered: none yet, replay or fail -/
  failed : Option Bool
  /-- its fault-queue entry has been posted; else the walker holds it until there is room (R295, R308) -/
  posted : Bool
  deriving DecidableEq, Repr

/-- A TLB entry: of the L1 TLB of a core, or of the L2 TLB of a core group (R299, R309). -/
structure TlbEntry where
  core : Option Nat
  group : Nat
  ctx : Nat
  /-- first byte and size of the page -/
  va : Nat
  size : Nat
  pte : Word
  deriving DecidableEq, Repr

/-- A non-leaf PTE in the walker cache of a compute die: the level it stands at, and the VA it covers from (R299, R309). -/
structure WalkEntry where
  die : Nat
  ctx : Nat
  level : Nat
  va : Nat
  pte : Word
  deriving DecidableEq, Repr

/-- A pinned L2 line (R205, R310). -/
structure Pin where
  line : Nat
  region : Nat
  ctx : Nat
  va : Nat
  deriving DecidableEq, Repr

/-- Pair statistics of the CMU (R337). -/
structure Stats where
  scans : BitVec 32
  ovfs : BitVec 32
  last : BitVec 32
  deriving DecidableEq, Repr

/-- Statistics at reset. -/
def Stats.zero : Stats := { scans := 0, ovfs := 0, last := 0 }

/-- Events of the arbiter's order (R231), with what the post names. -/
inductive Event
  | faultPost (fid : BitVec 32)
  | framePost (slot : Nat) (ctr : BitVec 32)
  | cardDone (qid : Nat) (ctr : BitVec 32) (status : BitVec 8)
  | cardRetired (qid : Nat) (ctr : BitVec 32) (status : BitVec 8)
  | listOvf (slot group row : Nat)
  | laneDone (k : Nat)
  | escalation (core : Nat)
  | queueFault (qid : Nat) (ctr : BitVec 32) (outcome : Nat)
  | doneFault (qid : Nat) (ctr : BitVec 32)
  | semDropped (core sem : Nat)
  | badTail (qid : Nat)
  | badPage (fid : BitVec 32)
  | badInput (slot : Nat)
  | chainDrop (core eng : Nat) (desc : Word)
  | tapeDrop (core q : Nat) (desc : Word)
  | msi (vector : Nat)
  deriving DecidableEq, Repr

/-- Power states of R355. -/
inductive Power | d0 | d3hot | d3cold
  deriving DecidableEq, Repr

/-- A TSYNC.ptm or mailbox style answer an outside agent supplies is an opaque value of Config; nothing of it
stands here.  The registers the platform chapter gives (R345). -/
structure Plat where
  devid : Word
  fwif : BitVec 32
  qtbase : Word
  qtWritten : Bool
  rcbbase : Word
  rcbWritten : Bool
  dsched : Word
  mode : Word
  /-- the pending value of DET and CAP while PEND = 1 (R352) -/
  modeNext : BitVec 2
  bootstat : Word
  telem : Word
  capbuf : Word
  caplen : Word
  /-- bytes of the capture ring written -/
  cappos : Nat
  dumpptr : Word
  /-- entries appended to the dump ring -/
  dumps : Nat
  peers : Tab Word
  mbCmd : BitVec 32
  mbStatus : BitVec 32
  mbPay : List Host.Cell
  /-- the payload as firmware copied it when the command was written (R349) -/
  mbIn : List Host.Cell
  /-- BAR2 has 2^(30 + bar2Log) bytes: a power of two from 1 GiB to 256 GiB (R344) -/
  bar2Log : Fin 9
  /-- the bytes that the last read through BAR2 returned to the host (R204, R344) -/
  bar2Data : List Byte
  /-- DSCHED value that takes effect at the next dispatch round (R34) -/
  dschedEff : Word
  /-- digests of the running image and the configuration blob (R350) -/
  imgDigest : BitVec 256
  cfgDigest : BitVec 256
  /-- the seed that the PUF yielded at boot (R348) -/
  seed : BitVec 256
  power : Power
  linkUp : Bool
  /-- the power limit of the configuration blob in W (R355) -/
  plimit : BitVec 16
  deriving DecidableEq, Repr

/-- Platform registers at cold reset. -/
def Plat.reset : Plat :=
  { devid := 0x0256C01004041000, fwif := 0, qtbase := 0, qtWritten := false, rcbbase := 0, rcbWritten := false,
    dsched := 0x0020401800000000, mode := 0, modeNext := 0, bootstat := 0, telem := 0x0000001600000000,
    capbuf := 0, caplen := 0, cappos := 0, dumpptr := 0, dumps := 0, peers := [], mbCmd := 0, mbStatus := 0,
    mbPay := [], mbIn := [], bar2Log := 8, bar2Data := [], dschedEff := 0x0020401800000000, imgDigest := 0, cfgDigest := 0, seed := 0, power := .d0,
    linkUp := true, plimit := 600 }

/-- A completion whose memory word is held (R379). -/
structure Owed where
  region : Nat
  qid : Nat
  ctr : BitVec 32
  done : Nat
  status : Nat
  reason : Nat
  deriving DecidableEq, Repr

/-- A published card that has passed its check (R278, R283). -/
structure Checked where
  qid : Nat
  ctr : BitVec 32
  bytes : BitVec 512
  deps : BitVec 512
  deriving DecidableEq, Repr

/-- A card that is to be cancelled when it is read (R24, R27). -/
structure Doomed where
  qid : Nat
  slot : Nat
  reason : Nat
  /-- the operation of the RCBSET.fail that waits for it, if one does (R302) -/
  waits : Option Nat
  deriving DecidableEq, Repr

/-- A published range of a job queue (R361). -/
structure PubRange where
  qid : Nat
  first : BitVec 32
  count : Nat
  deriving DecidableEq, Repr

/-- The dispatcher (R25 to R39). -/
structure Disp where
  cards : List Card
  ckpts : List Ckpt
  /-- entries to the ready pool and chunks dealt so far: the orders of R33 and R35 -/
  rdCount : Nat
  dealt : Nat
  rounds : Nat
  keys : Tab Key
  /-- the key table after the last dispatch round, as KEYPROBE reads it (R305) -/
  keysSeen : Tab Key
  /-- operand identities last run by each core group (R28) -/
  opsOf : Tab (List Word)
  /-- cards to be cancelled when they are read (R24, R27) -/
  doomed : List Doomed
  /-- the RCBs as the last dispatch round made them effective (R302) -/
  rcbs : Tab (BitVec 2048)
  /-- cores reserved for a pre-empting card (R36) -/
  reservedFor : Tab (Nat × BitVec 32)
  /-- published cards still to be checked, job queue and counter, and those that have passed (R278, R283) -/
  toCheck : List (Nat × BitVec 32)
  checked : List Checked
  /-- published ranges of which a card is still to be read (R361) -/
  ranges : List PubRange
  /-- a key was released or a card entered key-wait since the last dispatch round (R34) -/
  due : Bool
  /-- completions still to be made: their words are held (R379) -/
  owed : List Owed
  deriving DecidableEq, Repr

/-- A dispatcher with no card. -/
def Disp.empty : Disp :=
  { cards := [], ckpts := [], rdCount := 0, dealt := 0, rounds := 0, keys := [], keysSeen := [], opsOf := [],
    doomed := [], rcbs := [], reservedFor := [], toCheck := [], checked := [], ranges := [], due := false, owed := [] }

/-- Everything outside the cores. -/
structure Device where
  plat : Plat
  disp : Disp
  /-- device memory, 192 GiB (R192): the bytes of its frames, decrypted under the slot that each sector was written under,
  and for a compressed block the encoded ones (R207, R210) -/
  mem : List Host.Cell
  /-- tag per granule, poison per 64-byte sector of device memory (R192, R200) -/
  tag : Tab Bool
  pois : Tab Bool
  /-- poison per granule of a line as its L2 slice holds it, keyed by address divided by 64; absent where the slice holds
  none that differs from its sector's (R192, R200, R204) -/
  l2p : Tab (Option (BitVec 4))
  /-- block metadata of compressed blocks (R207), keyed by address divided by 4096 -/
  blocks : Tab (BitVec 1024)
  /-- key slot that a 64-byte sector was last written under (R210), keyed by address divided by 64; absent when it has been
  written through no page -/
  sectKs : Tab (BitVec 8)
  pins : List Pin
  tlb : List TlbEntry
  wcache : List WalkEntry
  /-- host memory by bus address and peer windows by space-4 address, as reads return them (R211, R247) -/
  host : List Host.Cell
  peer : List Host.Cell
  /-- ranges of host or peer reads that will not complete: space, address, length (R247) -/
  lostReads : List (Nat × Nat × Nat)
  /-- queues, keyed by the 16-bit id of R272 -/
  queues : Tab Queue
  /-- RCB cache (R301): 256 bytes each; absent when never loaded -/
  rcbs : Tab (BitVec 2048)
  slots : Tab KeySlot
  /-- threshold table, statistics and busy bits, keyed by slot + 256 group (R316, R337, R18) -/
  thr : Tab Word
  stats : Tab Stats
  busy : Tab Bool
  /-- commands that wait in the scan pipes, core and pair, in the order they came; and cores whose scans are made and not
  complete, in the order they were served (R18, R337) -/
  pipes : List (Nat × Nat)
  served : List Nat
  /-- Distiller tables, keyed 65536 lane + offset (R318), and lanes (R319) -/
  dlt : List Host.Cell
  lanes : Tab Lane
  codecs : Tab Codec
  holds : List Held
  /-- operations of the QC that wait for a held access, by queue: those that come after them on the queue wait too (R379) -/
  qcWait : List (Nat × Nat)
  nextFid : BitVec 32
  events : List Event
  /-- events so far: the next position (R231) -/
  eventPos : Word
  /-- TIME and the pending slew offset (R339, R340) -/
  time : Word
  slew : Word
  /-- units of TIME since the pending offset was last absorbed by one (R340) -/
  slewAt : Nat
  /-- correctable-error counter (R200) -/
  corr : Word
  deriving DecidableEq, Repr

/-- The device at cold reset (R213). -/
def Device.reset : Device :=
  { plat := .reset, disp := .empty, mem := [], tag := [], pois := [], l2p := [], blocks := [], sectKs := [], pins := [], tlb := [], wcache := [],
    host := [], peer := [], lostReads := [], queues := [], rcbs := [], slots := [], thr := [], stats := [], busy := [], pipes := [], served := [], dlt := [],
    lanes := [], codecs := [], holds := [], qcWait := [], nextFid := 0, events := [], eventPos := 0, time := 0, slew := 0, slewAt := 0,
    corr := 0 }

/-! ### The machine -/

/-- What reaches the device and is no instruction: a memory error as it is read (R200): one corrected in the pool of a core,
or an uncorrectable one in a granule of a core's pool, in a granule of a line of its L1, or in a sector of device memory;
a line that its L2 slice gives up (R204), by its address divided by 64; a new size of BAR2 (R344). -/
inductive Flip
  | corrected (core : Nat)
  | pool (core gran : Nat)
  | l1 (core line gran : Nat)
  | sector (n : Nat)
  | evict (line : Nat)
  | resize (k : Fin 9)
  deriving DecidableEq, Repr

/-- The whole machine. -/
structure State where
  /-- the core in focus -/
  core : Core
  /-- every other core that is not at its reset value -/
  others : Tab Core
  dev : Device
  /-- the model's own input: the events and engine steps that come next, before the default order -/
  agenda : List Instr
  /-- the model's own input: the cores whose turn comes next -/
  turns : List Nat
  /-- the model's own input: the memory errors that are read next, the L2 lines given up, a size of BAR2 (R200, R204,
  R344) -/
  flips : List Flip
  /-- the model's own counter: it feeds the free values of Config -/
  fresh : Nat
  deriving DecidableEq, Repr

/-- The machine right after cold reset. -/
def State.reset : State :=
  { core := .reset 0, others := [], dev := .reset, agenda := [], turns := [], flips := [], fresh := 0 }

/-! ### How a step can stop -/

/-- Why the machine stops with a fault. -/
inductive Fault
  /-- raised by `step` in D3cold, where the spec gives nothing that acts until cold reset (R355); safe -/
  | poweredOff
  deriving DecidableEq, Repr

/-- Why an instruction has no meaning here. -/
inductive Refusal
  /-- raised by `exec` for an instruction not modelled yet, by its mnemonic; safe -/
  | notModelled (mnemonic : String)
  deriving DecidableEq, Repr

end Sys2Proof.Machine
end

