-- ==== Sys2Proof/Machine/Bits.lean ====
section
/-! DEFINITION. Bit fields, bytes and byte order (R2, R3). -/

namespace Sys2Proof.Machine

/-- Bits `lo` up to `lo + w - 1` of a number. -/
def fld (x lo w : Nat) : Nat := x / 2 ^ lo % 2 ^ w

/-- `x` with bits `lo` up to `lo + w - 1` replaced by the low bits of `v`. -/
def setBits {n : Nat} (x : BitVec n) (lo w v : Nat) : BitVec n :=
  (x &&& ~~~(BitVec.ofNat n (2 ^ w - 1) <<< lo)) ||| (BitVec.ofNat n (v % 2 ^ w) <<< lo)

/-- `x` with bit `i` set to `b`. -/
def setBit {n : Nat} (x : BitVec n) (i : Nat) (b : Bool) : BitVec n := setBits x i 1 b.toNat

/-- Bits of a vector as a number. -/
def bfld {n : Nat} (x : BitVec n) (lo w : Nat) : Nat := (x.extractLsb' lo w).toNat

/-- The low `w` bits read as signed, as an integer. -/
def sint (x w : Nat) : Int := (BitVec.ofNat w x).toInt

/-- `sext(x, w)` of R82. -/
def sext64 (x w : Nat) : Word := BitVec.ofInt 64 (sint x w)
/-- `zext(x, w)` of R82. -/
def zext64 (x w : Nat) : Word := BitVec.ofNat 64 (x % 2 ^ w)

/-- The `n` bytes of a number, least significant first (R3). -/
def bytesOf : Nat → Nat → List Byte
  | 0, _ => []
  | n + 1, x => BitVec.ofNat 8 x :: bytesOf n (x / 256)

/-- The number whose bytes, least significant first, are these (R3). -/
def ofBytes : List Byte → Nat
  | [] => 0
  | b :: r => b.toNat + 256 * ofBytes r

/-- Lane `n` of a vector register (R131). -/
def laneOf (v : Vec) (n : Nat) : BitVec 32 := v.extractLsb' (32 * n) 32
/-- 16-bit element `n` (R41). -/
def half (v : Vec) (n : Nat) : BitVec 16 := v.extractLsb' (16 * n) 16
/-- The register whose 32-bit elements are given. -/
def ofLanes (f : Nat → BitVec 32) : Vec :=
  BitVec.ofNat 1024 (upTo 32 (fun i acc => acc + 2 ^ (32 * i) * (f i).toNat) 0)
/-- The register whose 16-bit elements are given. -/
def ofHalves (f : Nat → BitVec 16) : Vec :=
  BitVec.ofNat 1024 (upTo 64 (fun i acc => acc + 2 ^ (16 * i) * (f i).toNat) 0)

/-- Ceiling of a division. -/
def cdiv (a b : Nat) : Nat := (a + b - 1) / b

/-- First index below `n` that satisfies `p`. -/
def findBelow (n : Nat) (p : Nat → Bool) : Option Nat := (List.range n).find? p

/-- Replaces entry `i` of a list. -/
def listSet {α : Type} : List α → Nat → α → List α
  | [], _, _ => []
  | _ :: r, 0, v => v :: r
  | a :: r, i + 1, v => a :: listSet r i v

/-- Little-endian numbers of `n` bytes each. -/
def words (n : Nat) (b : List Byte) : List Nat :=
  (List.range (b.length / n)).map fun i => ofBytes ((b.drop (n * i)).take n)

end Sys2Proof.Machine
end

