-- ==== Sys2Proof/Machine/Flags.lean ====
section
/-! DEFINITION. Conditions and predicate masks.  The scalar instructions keep no flags (R97): what other machines
hold in flags, CMP and CMPI write to a predicate register (R103), as a mask of 32 equal bits. -/

namespace Sys2Proof.Machine

/-- The condition of a comparison at any width (R103). -/
def condHolds {n : Nat} (c : Cond) (a b : BitVec n) : Bool :=
  match c with
  | .eq => a == b
  | .ne => a != b
  | .lt => a.slt b
  | .ge => !a.slt b
  | .le => !b.slt a
  | .gt => b.slt a
  | .ltu => a.ult b
  | .geu => !a.ult b
  | .leu => !b.ult a
  | .gtu => b.ult a

/-- The condition under .w or not (R103). -/
def cmpHolds (w : Bool) (c : Cond) (a b : Word) : Bool :=
  if w then condHolds c (a.setWidth 32) (b.setWidth 32) else condHolds c a b

/-- All 32 bits alike (R89, R103). -/
def predMask (t : Bool) : BitVec 32 := if t then BitVec.allOnes 32 else 0

/-- The combining rule (R103). -/
def combine (k : Comb) (old m : BitVec 32) : BitVec 32 :=
  match k with
  | .set => m
  | .and => old &&& m
  | .or => old ||| m

end Sys2Proof.Machine
end

