-- ==== Sys2Proof/Machine/Access.lean ====
section
/-! DEFINITION. The one home of every register read and write: files and their rotation (R87 to R89, R115),
delivery of results (R32, R133), guards (R67), the immediate (R72), trap privilege (R6, R176). -/

namespace Sys2Proof.Machine

/-- Meanings that can stop: state in, state out, and a stop keeps the state it stopped in. -/
abbrev M := EStateM Stop State

/-! ### Cores and quarters -/

/-- Quarter `k` of a core. -/
def Core.quarter (c : Core) (k : BitVec 2) : Quarter :=
  match k with
  | 0 => c.q0
  | 1 => c.q1
  | 2 => c.q2
  | 3 => c.q3

/-- The core with quarter `k` replaced. -/
def Core.setQuarter (c : Core) (k : BitVec 2) (x : Quarter) : Core :=
  match k with
  | 0 => { c with q0 := x }
  | 1 => { c with q1 := x }
  | 2 => { c with q2 := x }
  | 3 => { c with q3 := x }

/-- Every quarter of a core changed alike. -/
def Core.mapQuarters (c : Core) (f : Quarter → Quarter) : Core :=
  { c with q0 := f c.q0, q1 := f c.q1, q2 := f c.q2, q3 := f c.q3 }

/-- The machine with its focused core changed. -/
def State.modCore (s : State) (f : Core → Core) : State := { s with core := f s.core }
/-- The machine with its device changed. -/
def State.modDev (s : State) (f : Device → Device) : State := { s with dev := f s.dev }
/-- The machine with the bundle in issue changed. -/
def State.modIssue (s : State) (f : Issue → Issue) : State :=
  { s with core := { s.core with issue := f s.core.issue } }

/-- The issuing quarter. -/
def State.qtr (s : State) : Quarter := s.core.quarter s.core.issue.q
/-- The issuing quarter changed. -/
def State.modQtr (s : State) (f : Quarter → Quarter) : State :=
  { s with core := s.core.setQuarter s.core.issue.q (f (s.core.quarter s.core.issue.q)) }

/-- A core by its number: the one in focus, one that has left its reset value, or one at reset. -/
def State.coreAt (s : State) (n : Nat) : Core :=
  if n = s.core.num then s.core else (tfind s.others n).getD (.reset n)
/-- The machine with core `n` replaced. -/
def State.setCoreAt (s : State) (n : Nat) (c : Core) : State :=
  if n = s.core.num then { s with core := c } else { s with others := tset (.reset n) s.others n c }
/-- The machine with core `n` in focus. -/
def State.focus (s : State) (n : Nat) : State :=
  if n = s.core.num then s
  else { s with core := s.coreAt n,
                others := tset (.reset s.core.num) (terase s.others n) s.core.num s.core }

/-- The core is a service core (R12). -/
def Core.isService (c : Core) : Bool := 128 ≤ c.num

/-! ### Register files -/

/-- The physical register a predicate index names (R89). -/
def Quarter.physP (x : Quarter) (i : Nat) : Nat := if i < 32 then i else 32 + (i - x.pwin.toNat) % 32
/-- The physical register a vector index names (R115). -/
def Quarter.physV (x : Quarter) (i : Nat) : Nat := if i < 64 then i else 64 + (i - x.vwin.toNat) % 64

/-- Scalar register (R87). -/
def Quarter.rdS (x : Quarter) (i : Reg) : Word := tget 0 x.s i.toNat
/-- Predicate register by name (R89). -/
def Quarter.rdP (x : Quarter) (i : Nat) : BitVec 32 := tget 0 x.p (x.physP i)
/-- Capability register with its tag (R90). -/
def Quarter.rdC (x : Quarter) (i : Nat) : CapWord := tget 0 x.c i
/-- Vector register by name (R115). -/
def Quarter.rdV (x : Quarter) (i : Reg) : Vec := tget 0 x.v (x.physV i.toNat)
/-- Branch register (R112). -/
def Quarter.rdB (x : Quarter) (i : Reg) : Word := tget 0 x.b i.toNat
/-- Loop register (R113). -/
def Quarter.rdL (x : Quarter) (i : Nat) : Loop := tget .zero x.l i

/-- The issuing quarter's registers. -/
def State.rdS (s : State) (i : Reg) : Word := s.qtr.rdS i
def State.rdP (s : State) (i : Reg) : BitVec 32 := s.qtr.rdP i.toNat
def State.rdC (s : State) (i : Reg) : CapWord := s.qtr.rdC i.toNat
def State.rdV (s : State) (i : Reg) : Vec := s.qtr.rdV i
def State.rdB (s : State) (i : Reg) : Word := s.qtr.rdB i
def State.rdL (s : State) (i : Reg) : Loop := s.qtr.rdL i.toNat

/-- The elements of `v` that `m` names, the others from `old`. -/
def mergeV (old v : Vec) (m : BitVec 64) : Vec :=
  if m = BitVec.allOnes 64 then v else ofHalves fun k => if m.getLsbD k then half v k else half old k

/-- A result placed in its physical register. -/
def Quarter.put (x : Quarter) (d : Dest) : Quarter :=
  match d with
  | .s i v => { x with s := tset 0 x.s i v }
  | .p i v m => { x with p := tset 0 x.p i ((v &&& m) ||| (tget 0 x.p i &&& ~~~m)) }
  | .c i v => { x with c := tset 0 x.c i v }
  | .v i v m => { x with v := tset 0 x.v i (mergeV (tget 0 x.v i) v m) }
  | .b i v => { x with b := tset 0 x.b i v }

/-- A result of the issuing quarter: at once in scoreboard mode, after its latency in exposed mode (R32). -/
def State.deliver (s : State) (lat : Nat) (d : Dest) : State :=
  if s.core.issue.exposed then
    s.modQtr fun x => { x with pend := x.pend ++ [{ due := s.core.tick + lat, dest := d }] }
  else s.modQtr fun x => x.put d

/-- Writes of the issuing quarter with their latency; the physical register is the one named at issue (R133). -/
def State.wrS (s : State) (lat : Nat) (i : Reg) (v : Word) : State := s.deliver lat (.s i.toNat v)
def State.wrP (s : State) (lat : Nat) (i : Reg) (v : BitVec 32) : State :=
  s.deliver lat (.p (s.qtr.physP i.toNat) v (BitVec.allOnes 32))
def State.wrC (s : State) (lat : Nat) (i : Reg) (v : CapWord) : State := s.deliver lat (.c i.toNat v)
/-- Bits `m` of a predicate. -/
def State.wrPm (s : State) (lat : Nat) (i : Reg) (v m : BitVec 32) : State :=
  s.deliver lat (.p (s.qtr.physP i.toNat) v m)
/-- The 16-bit elements `m` of a vector register. -/
def State.wrV (s : State) (lat : Nat) (i : Reg) (v : Vec) (m : BitVec 64) : State :=
  s.deliver lat (.v (s.qtr.physV i.toNat) v m)
/-- A branch register, with the bundle count R120 measures from. -/
def State.wrB (s : State) (i : Reg) (v : Word) : State :=
  (s.deliver 1 (.b i.toNat v)).modQtr fun x => { x with bAt := tset 0 x.bAt i.toNat (x.issued + 1) }
/-- A loop register. -/
def State.wrL (s : State) (i : Reg) (v : Loop) : State :=
  s.modQtr fun x => { x with l := tset .zero x.l i.toNat v }

/-- A pending result placed after every one due no later (R133). -/
def pendInsert (e : Pending) : List Pending → List Pending
  | [] => [e]
  | a :: r => if e.due < a.due then e :: a :: r else a :: pendInsert e r
/-- Results in delivery order: by cycle, then by issue (R133). -/
def pendSort (l : List Pending) : List Pending := l.foldl (fun acc e => pendInsert e acc) []
/-- The quarter with the results due by cycle `t` of the stream delivered. -/
def Quarter.deliverBy (x : Quarter) (t : Nat) : Quarter :=
  if x.pend = [] then x
  else
    let y := (pendSort (x.pend.filter fun e => e.due ≤ t)).foldl (fun y e => y.put e.dest) x
    { y with pend := x.pend.filter fun e => t < e.due }
/-- The quarter with every result delivered, as a stop does (R133). -/
def Quarter.flush (x : Quarter) : Quarter :=
  if x.pend = [] then x
  else { ((pendSort x.pend).foldl (fun y e => y.put e.dest) x) with pend := [] }

/-! ### Guards, immediates, privilege -/

/-- A syllable other than a vector syllable executes (R67). -/
def State.executes (s : State) (g : Guard) : Bool :=
  match g with
  | none => true
  | some p => (s.qtr.rdP p.toNat).getLsbD 0

/-- The active lanes of a vector syllable (R67). -/
def State.lanes (s : State) (g : Guard) : BitVec 32 :=
  match g with
  | none => BitVec.allOnes 32
  | some p => s.qtr.rdP p.toNat

/-- A vector syllable executes (R67). -/
def State.vexecutes (s : State) (g : Guard) : Bool := s.lanes g != 0

/-- The value and width of the immediate after EXT (R72, R101). -/
def immOf (e : Option (BitVec 20)) (i : Imm) : Nat × Nat :=
  match e, i with
  | none, .short v => (v.toNat, 8)
  | none, .long v => (v.toNat, 16)
  | some x, .short v => (x.toNat * 2 ^ 8 + v.toNat, 28)
  | some x, .long v => (x.toNat * 2 ^ 16 + v.toNat, 36)

/-- imm() zero-extended. -/
def State.immZ (s : State) (i : Imm) : Nat := (immOf s.core.issue.ext i).1
/-- imm() sign-extended to 64 bits. -/
def State.immS (s : State) (i : Imm) : Word :=
  sext64 (immOf s.core.issue.ext i).1 (immOf s.core.issue.ext i).2
/-- IMM16 of a long-only instruction, zero-extended after EXT. -/
def State.imm16 (s : State) (i : BitVec 16) : Nat := s.immZ (.long i)

/-- The core holds trap privilege: handler mode, or a service core (R6, R176). -/
def Core.priv (c : Core) : Bool := c.tr.tstat.getLsbD 9 || c.isService
/-- TSTAT.DEPTH (R176). -/
def Core.depth (c : Core) : Nat := bfld c.tr.tstat 20 3
/-- TSTAT.EN (R176). -/
def Core.trapEn (c : Core) : Bool := c.tr.tstat.getLsbD 8

/-! ### Stopping -/

/-- A trap of the issuing quarter (R71, R181). -/
def qtrap (t : TrapRec) : M Unit := fun s => .error (.trap { t with fq := s.core.issue.q }) s
/-- ILLEGAL, whose TINFO0 is the group's address (R181). -/
def illegal : M Unit := fun s =>
  .error (.trap { cause := .illegal, info0 := s.core.issue.gaddr, fq := s.core.issue.q }) s
/-- A wait slot (R342). -/
def holdAt (kind : BitVec 8) (obj : Word) : M Unit := fun s => .error (.hold (.slot kind obj)) s
/-- A hold that is no wait slot. -/
def holdOther : M Unit := fun s => .error (.hold .other) s
/-- A hold at a unit that is busy (R109, R147). -/
def holdLate : M Unit := fun s => .error (.hold .late) s
/-- Applies a pure change. -/
def act (f : State → State) : M Unit := fun s => .ok () (f s)
/-- Does `m` when `b` holds. -/
def whenM (b : Bool) (m : M Unit) : M Unit := if b then m else pure ()
/-- Runs `f` for each index below `n`, in ascending order, until one stops. -/
def forUp : Nat → (Nat → M Unit) → M Unit
  | 0, _ => pure ()
  | n + 1, f => do forUp n f; f n

end Sys2Proof.Machine
end

