-- ==== Sys2Proof/Machine/Rcb.lean ====
section
/-! DEFINITION. Region control blocks as hardware reads them: the tree, effective values, tenants and fault
domains (R23, R24, R301). -/

namespace Sys2Proof.Machine

/-- A table of region control blocks, 256 bytes each (R301). -/
abbrev Rcbs := Tab (BitVec 2048)

/-- `w` bits at byte `off`, bit `b` of RCB `i`; 0 where it was never loaded. -/
def rcbF (t : Rcbs) (i off b w : Nat) : Nat := bfld (tget 0 t i) (8 * off + b) w

/-- FLAGS.VALID (R301). -/
def rcbValid (t : Rcbs) (i : Nat) : Bool := i < 4096 && rcbF t i 2 0 1 = 1
/-- PARENT. -/
def rcbParent (t : Rcbs) (i : Nat) : Nat := rcbF t i 0 0 16
/-- INH bit `k`. -/
def rcbInh (t : Rcbs) (i k : Nat) : Bool := rcbF t i 4 k 1 = 1
/-- FLAGS.FAILED. -/
def rcbFailed (t : Rcbs) (i : Nat) : Bool := rcbF t i 2 2 1 = 1

/-- The path from a node to the root, node first, of at most `n` nodes (R23). -/
def pathUp (t : Rcbs) : Nat → Nat → List Nat
  | 0, _ => []
  | n + 1, i => if i = 0 then [0] else i :: pathUp t n (rcbParent t i)
/-- The path of at most 8 nodes (R23). -/
def rcbPath (t : Rcbs) (i : Nat) : List Nat := pathUp t 8 i

/-- `a` is `b` or one of its descendants. -/
def inSubtree (t : Rcbs) (a b : Nat) : Bool := (rcbPath t a).contains b

/-- The tenant of a region: the child of the root on its path; the root is its own (R301). -/
def tenantOf (t : Rcbs) (i : Nat) : Nat :=
  match (rcbPath t i).reverse with
  | _ :: c :: _ => c
  | _ => 0

/-- The tenant key slot of a region; 0 for the root (R301). -/
def ksOf (t : Rcbs) (i : Nat) : Nat := if tenantOf t i = 0 then 0 else rcbF t (tenantOf t i) 7 0 8
/-- Physical address of the tenant's level-0 table. -/
def ptrootOf (t : Rcbs) (i : Nat) : Nat := rcbF t (tenantOf t i) 0x20 0 64

/-- Own value unless inherited, walking a path from the root down: `own` reads a node, `comb` combines it with
its parent's effective value. -/
def effFold (t : Rcbs) (inh : Nat) (own : Nat → Nat) (comb : Nat → Nat → Nat) : List Nat → Nat
  | [] => 0
  | [i] => own i
  | i :: r => if rcbInh t i inh then effFold t inh own comb r else comb (own i) (effFold t inh own comb r)

/-- Effective maximum cores (R23). -/
def effMaxc (t : Rcbs) (i : Nat) : Nat := effFold t 0 (fun n => rcbF t n 8 0 16) min (rcbPath t i)
/-- Effective memory quota. -/
def effQuota (t : Rcbs) (i : Nat) : Nat := effFold t 1 (fun n => rcbF t n 0x10 0 64) min (rcbPath t i)
/-- Effective priority class. -/
def effClass (t : Rcbs) (i : Nat) : Nat := effFold t 2 (fun n => rcbF t n 6 0 3) min (rcbPath t i)
/-- Fair-share weight. -/
def effWeight (t : Rcbs) (i : Nat) : Nat := if rcbInh t i 3 then 1 else rcbF t i 0xA 0 16
/-- Effective bucket rate and depth. -/
def effTrate (t : Rcbs) (i : Nat) : Nat := effFold t 4 (fun n => rcbF t n 0x18 0 32) (fun a _ => a) (rcbPath t i)
def effTdepth (t : Rcbs) (i : Nat) : Nat := effFold t 4 (fun n => rcbF t n 0x1C 0 16) (fun a _ => a) (rcbPath t i)
/-- Effective pre-emption class. -/
def effPclass (t : Rcbs) (i : Nat) : Nat := effFold t 5 (fun n => rcbF t n 6 4 2) (fun a _ => a) (rcbPath t i)
/-- Effective MINCHUNK. -/
def effMinchunk (t : Rcbs) (i : Nat) : Nat :=
  effFold t 6 (fun n => rcbF t n 0xC 0 16) (fun a _ => a) (rcbPath t i)
/-- Effective default pool layout. -/
def effPool (t : Rcbs) (i : Nat) : Nat := effFold t 7 (fun n => rcbF t n 0x30 0 32) (fun a _ => a) (rcbPath t i)
/-- Effective trap vector table. -/
def effTvt (t : Rcbs) (i : Nat) : Nat := effFold t 8 (fun n => rcbF t n 0x28 0 64) (fun a _ => a) (rcbPath t i)
/-- Capability versions of a region. -/
def rcbCapv (t : Rcbs) (i : Nat) : Nat := rcbF t i 0x38 0 18

/-- The fault domain of a region: the nearest node with DOMROOT, the root included (R23). -/
def domainOf (t : Rcbs) (i : Nat) : Nat :=
  ((rcbPath t i).find? fun n => n = 0 || rcbF t n 2 1 1 = 1).getD 0

/-- The three rows of a POOL word (R282): POOLV, POOLS and POOLC. -/
def poolRows (w : Nat) : Nat × Nat × Nat :=
  let v := fld w 0 11
  let s := fld w 11 11
  let code := fld w 22 3
  (v, s, s + if code = 0 then 0 else 32 * 2 ^ code)

/-- A layout valid under R193. -/
def layoutOk (r : Nat × Nat × Nat) : Bool :=
  let (v, s, c) := r
  16 ≤ v && v ≤ s && s ≤ c && c ≤ 1504 && [0, 64, 128, 256, 512].contains (c - s)

/-- The layout of a card's POOL word in a region: its own, else the region's default, else that of reset (R194). -/
def layoutOf (t : Rcbs) (region pool : Nat) : Nat × Nat × Nat :=
  if pool ≠ 0 then poolRows pool
  else if effPool t region ≠ 0 then poolRows (effPool t region)
  else (0x10, 0x4C0, 0x5C0)

/-- Region of the run on a core; the root where there is none (firmware). -/
def Core.region (c : Core) : Nat := (c.run.map Run.region).getD 0

end Sys2Proof.Machine
end

