-- ==== Sys2Proof/Machine/Mem.lean ====
section
/-! DEFINITION. The memories: device memory at its slices (R200, R204, R207 to R209), the pool (R193, R197 to
R199), the L1 carve-out (R201 to R203), translation (R306 to R310), capability checks (R94) and race detection
(R222 to R226). -/

namespace Sys2Proof.Machine

/-! ### Device memory at the slices -/

/-- Bytes of device memory (R192). -/
def devTop : Nat := 0x3000000000

/-- A byte of a frame of device memory; unwritten memory reads 0 (R213). -/
def Device.byte (d : Device) (a : Nat) : Byte := tget 0 d.mem a
/-- `n` bytes from address `a`. -/
def Device.bytes (d : Device) (a n : Nat) : List Byte := (List.range n).map fun i => d.byte (a + i)
/-- A little-endian number of `n` bytes. -/
def Device.num (d : Device) (a n : Nat) : Nat := ofBytes (d.bytes a n)
/-- Poison of the granules of a line at its slice: the line's own, else that of its sector (R192, R200, R204). -/
def Device.linePois (d : Device) (n : Nat) : BitVec 4 :=
  (tget none d.l2p n).getD (if tget false d.pois n then 15 else 0)
/-- The granule of `a` is poisoned at its slice (R192, R200). -/
def Device.poisonAt (d : Device) (a : Nat) : Bool := (d.linePois (a / 64)).getLsbD (a / 16 % 4)
/-- The poison of a line's granules replaced at its slice. -/
def Device.setPois (d : Device) (n : Nat) (m : BitVec 4) : Device := { d with l2p := tset none d.l2p n (some m) }
/-- The slice gives up a line that is not pinned: what is poisoned in it poisons its sector, and a sector of which nothing is
left poisoned is clean (R200, R204, R205). -/
def Device.l2Evict (d : Device) (n : Nat) : Device :=
  match tget none d.l2p n with
  | none => d
  | some m =>
    if d.pins.any fun p => p.line = n then d
    else { d with pois := tset false d.pois n (m != 0), l2p := tset none d.l2p n none }
/-- Channel, and so L2 slice, of a physical address (R13). -/
def channelOf (a : Nat) : Nat := fld a 12 7 ^^^ fld a 19 7

/-- PTE fields (R307). -/
def pteV (p : Word) : Bool := p.getLsbD 0
def pteLeaf (p : Word) : Bool := p.getLsbD 1
def pteW (p : Word) : Bool := p.getLsbD 2
def pteX (p : Word) : Bool := p.getLsbD 3
def pteHb (p : Word) : Bool := p.getLsbD 4
def pteP (p : Word) : Bool := p.getLsbD 5
def pteC (p : Word) : Bool := p.getLsbD 6
def pteCk (p : Word) : Bool := p.getLsbD 7
def ptePn (p : Word) : Bool := p.getLsbD 8
def pteD (p : Word) : Bool := p.getLsbD 9
def pteMk (p : Word) : Nat := bfld p 10 2
def pteKs (p : Word) : Nat := bfld p 12 8
def pteAddr (p : Word) : Nat := bfld p 24 30 * 256

/-- The 16 words of a sector. -/
def sectorWords (b : List Byte) : List Nat := (List.range 16).map fun i => ofBytes ((b.drop (4 * i)).take 4)

/-- The least word of a sector that keeps every difference from it within `w` bytes (R207). -/
def deltaLow (ws : List Nat) (w : Nat) : Option Nat :=
  ws.find? fun lo => ws.all fun x => (x + 2 ^ 32 - lo) % 2 ^ 32 < 2 ^ (8 * w)

/-- A sector under base-delta with deltas of `w` bytes: the base is the middle of the span they reach (R207; log 30). -/
def deltaBytes (ws : List Nat) (w lo : Nat) : List Byte :=
  let base := (lo + 2 ^ (8 * w) / 2) % 2 ^ 32
  bytesOf 1 w ++ bytesOf 4 base ++ ws.flatMap fun x => bytesOf w ((x + 2 ^ 32 - base) % 2 ^ 32)
/-- A sector under base-delta: the least width that holds it; none when no width does (R209). -/
def deltaSector (b : List Byte) : Option (List Byte) :=
  [0, 1, 2].findSome? fun w => (deltaLow (sectorWords b) w).map (deltaBytes (sectorWords b) w)

/-- A sector under bitplane (R207, R209). -/
def planeSector (b : List Byte) : List Byte :=
  let ks := (List.range 8).filter fun k => b.any fun x => x.getLsbD k
  bytesOf 1 (ks.foldl (fun m k => m + 2 ^ k) 0) ++ ks.flatMap fun k => (List.range 8).map fun i =>
    BitVec.ofNat 8 (upTo 8 (fun j acc => acc + 2 ^ j * ((b.getD (8 * i + j) 0).getLsbD k).toNat) 0)

/-- The offsets OFF[0] to OFF[64] of a list of spans. -/
def offsets : Nat → List Nat → List Nat
  | o, [] => [o]
  | o, n :: r => o :: offsets (o + n) r

/-- Block metadata and stored bytes as the base die writes 4096 bytes under compression kind `ck`: zero, else that kind
where it fits, else stored (R207, R209). -/
def encodeBlock (ck : Bool) (b : List Byte) : BitVec 1024 × List Byte :=
  if b.all (· == 0) then (1, [])
  else
    let secs := (List.range 64).map fun i =>
      let sec := (b.drop (64 * i)).take 64
      if ck then some (planeSector sec) else deltaSector sec
    if secs.any Option.isNone then (0, b)
    else
      let l := secs.filterMap id
      let offs := offsets 0 (l.map List.length)
      if offs.getLastD 0 > 4096 then (0, b)
      else
        let f := upTo 65 (fun i acc => acc + 2 ^ (13 * i) * offs.getD i 0) 0
        (BitVec.ofNat 1024 ((if ck then 3 else 2) + 2 ^ 32 * f), l.flatten)

/-- OFF[k] of block metadata (R207). -/
def metaOff (m : BitVec 1024) (k : Nat) : Nat := bfld m (32 + 13 * k) 13
/-- MODE of block metadata. -/
def metaMode (m : BitVec 1024) : Nat := bfld m 0 8
/-- An inconsistency of block metadata that every sector touches (R208). -/
def headBad (m : BitVec 1024) : Bool :=
  metaMode m ≥ 4 || bfld m 8 24 ≠ 0 || bfld m 877 3 ≠ 0 || bfld m 880 144 ≠ 0
    || (metaMode m < 2 && bfld m 32 848 ≠ 0)
/-- The length that the first byte of a span declares (R207); none where base-delta has no such width. -/
def declared (plane : Bool) (x : Byte) : Option Nat :=
  if plane then some (1 + 8 * ((List.range 8).filter fun k => x.getLsbD k).length)
  else if x.toNat ≤ 2 then some (5 + 16 * x.toNat) else none
/-- The span of sector `i`, whose stored bytes are `b`, is inconsistent (R208). -/
def spanBad (m : BitVec 1024) (i : Nat) (b : Nat → Byte) : Bool :=
  let lo := metaOff m i
  let hi := metaOff m (i + 1)
  hi ≤ lo || 4096 < hi || declared (metaMode m = 3) (b lo) ≠ some (hi - lo)
/-- Byte `j` of a sector decoded from the stored bytes `b` from `lo` on (R207). -/
def decodeByte (plane : Bool) (b : Nat → Byte) (lo j : Nat) : Byte :=
  if plane then
    let ks := (List.range 8).filter fun k => (b lo).getLsbD k
    BitVec.ofNat 8 (ks.zipIdx.foldl (fun acc e =>
      acc + 2 ^ e.1 * ((b (lo + 1 + 8 * e.2 + j / 8)).getLsbD (j % 8)).toNat) 0)
  else
    let n := fun (o k : Nat) => ofBytes ((List.range k).map fun i => b (lo + o + i))
    let w := (b lo).toNat
    let x := n (5 + w * (j / 4)) w
    let delta := if 2 * x < 2 ^ (8 * w) then x else x + 2 ^ 32 - 2 ^ (8 * w)
    BitVec.ofNat 8 ((n 1 4 + delta) % 2 ^ 32 / 2 ^ (8 * (j % 4)))

/-- The XTS key pair of a slot (R210, R312). -/
def Device.xtsKey (d : Device) (ks : Nat) : BitVec 512 := (tget .empty d.slots ks).xts
/-- The sector of `a` was written under a key that the PTE's slot does not hold (R210). An access that comes through no
page names no slot. -/
def Device.otherKey (d : Device) (pte : Option Word) (a : Nat) : Option (BitVec 512 × BitVec 512) :=
  match pte, tfind d.sectKs (a / 64) with
  | some p, some w =>
    if w.toNat = pteKs p || d.xtsKey w.toNat = d.xtsKey (pteKs p) then none
    else some (d.xtsKey w.toNat, d.xtsKey (pteKs p))
  | _, _ => none
/-- A byte of a frame as the channel decrypts it under a PTE: under the key it was written under, the byte; under another,
what the cipher makes of it (R210). -/
def Device.plain (d : Device) (pte : Option Word) (a : Nat) : Byte :=
  match d.otherKey pte a with
  | some (w, k) => Config.xtsOther w k (a / 16) (BitVec.ofNat 128 (d.num (a / 16 * 16) 16)) (a % 16)
  | none => d.byte a
/-- The tag of a granule as an access under a PTE finds it. DEDUCED (log 122): bytes decrypted under another key than they
were written under carry no tag, for every tagged capability satisfies R93. -/
def Device.tagAt (d : Device) (pte : Word) (g : Nat) : Bool :=
  tget false d.tag g && (d.otherKey (some pte) (16 * g)).isNone

/-- The block of `a` is expanded and encoded for an access under a PTE; one that names no page does as the block stands
(R207). -/
def Device.packed (d : Device) (pte : Option Word) (a : Nat) : Bool :=
  match pte with
  | some p => pteC p
  | none => tget 0 d.blocks (a / 4096) != 0

/-- Byte `o` of a block with metadata `m` and stored bytes `b`: expanded by MODE and OFF, and where the metadata is
inconsistent a zero that counts as poisoned (R207, R208). -/
def expand (m : BitVec 1024) (b : Nat → Byte) (o : Nat) : Byte × Bool :=
  if headBad m then (0, true)
  else if metaMode m = 1 then (0, false)
  else if spanBad m (o / 64) b then (0, true)
  else (decodeByte (metaMode m = 3) b (metaOff m (o / 64)) (o % 64), false)

/-- A byte and its poison as a read at the slice under a PTE returns them: decrypted, and expanded where the block is
packed (R207, R208, R210). -/
def Device.read1 (d : Device) (pte : Option Word) (a : Nat) : Byte × Bool :=
  let m := tget 0 d.blocks (a / 4096)
  if m = 0 || !d.packed pte a then (d.plain pte a, d.poisonAt a)
  else
    let x := expand m (fun o => if o < 4096 then d.plain pte (a / 4096 * 4096 + o) else 0) (a % 4096)
    (x.1, x.2 || d.poisonAt a)
/-- A number of `n` bytes as an agent reads it that comes through no page. -/
def Device.view (d : Device) (a n : Nat) : Nat := ofBytes ((List.range n).map fun i => (d.read1 none (a + i)).1)

/-- Tags and poison that a write of `n` bytes at `a` leaves at the slice: every granule's tag cleared; a granule poisoned by
a poisoned byte, and cleared by a write that covers it whole (R96, R200, R204). -/
def Device.sideWrite (d : Device) (a n : Nat) (bad : Nat → Bool) : Device :=
  if n = 0 then d
  else
    let d1 := upTo ((a + n - 1) / 16 - a / 16 + 1) (fun k d => { d with tag := tset false d.tag (a / 16 + k) false }) d
    upTo ((a + n - 1) / 64 - a / 64 + 1) (fun k d =>
      let l := a / 64 + k
      let m := upTo 4 (fun i m =>
        let g := 64 * l + 16 * i
        let hit := (List.range 16).any fun j => decide (a ≤ g + j) && decide (g + j < a + n) && bad (g + j - a)
        let whole := decide (a ≤ g) && decide (g + 16 ≤ a + n)
        if hit then setBit m i true else if whole then setBit m i false else m) (d.linePois l)
      if m = d.linePois l then d else d.setPois l m) d1

/-- Sector `g` of `e` brought under the key slot of a PTE: what another slot had written in `d` is there as this one
decrypts it, and its tags are gone (R93, R210; log 122). -/
def Device.rekey1 (d e : Device) (p : Word) (g : Nat) : Device :=
  let ks := BitVec.ofNat 8 (pteKs p)
  if (d.otherKey (some p) (64 * g)).isNone then { e with sectKs := tput e.sectKs g ks }
  else { e with mem := upTo 64 (fun j m => tset 0 m (64 * g + j) (d.plain (some p) (64 * g + j))) e.mem,
                sectKs := tput e.sectKs g ks, tag := tclear e.tag (4 * g) (4 * g + 4) }
/-- The sectors of `[a, a + n)` brought under the key slot of a PTE. -/
def Device.rekey (d : Device) (pte : Option Word) (a n : Nat) : Device :=
  match pte with
  | none => d
  | some p => if n = 0 then d else upTo ((a + n - 1) / 64 - a / 64 + 1) (fun k e => d.rekey1 e p (a / 64 + k)) d

/-- The compression kind a block is encoded under: the PTE's CK; an access that names no page keeps the block's (R209). -/
def Device.kindAt (d : Device) (pte : Option Word) (a : Nat) : Bool :=
  match pte with
  | some p => pteCk p
  | none => metaMode (tget 0 d.blocks (a / 4096)) = 3

/-- The 4096 bytes at `f` as a PTE reads them, with byte `lo + i` as `v i` gives it. -/
def Device.merged (d : Device) (pte : Option Word) (f lo n : Nat) (v : Nat → Option Byte) : List Byte :=
  (List.range 4096).map fun i =>
    ((if lo ≤ f + i ∧ f + i < lo + n then v (f + i - lo) else none).getD (d.read1 pte (f + i)).1)

/-- The block at `f` encoded whole: sectors it could not expand stay poisoned (R208, R209). -/
def Device.repack (d : Device) (pte : Option Word) (f : Nat) (new : List Byte) : Device :=
  let e := encodeBlock (d.kindAt pte f) new
  let d1 := d.rekey pte f 4096
  let d2 := { d1 with mem := upTo e.2.length (fun i m => tset 0 m (f + i) (e.2.getD i 0)) d1.mem,
                      blocks := tset 0 d1.blocks (f / 4096) e.1 }
  upTo 256 (fun i x =>
    if (d.read1 pte (f + 16 * i)).2 && !x.poisonAt (f + 16 * i) then
      x.setPois (f / 64 + i / 4) (setBit (x.linePois (f / 64 + i / 4)) (i % 4) true)
    else x) d2

/-- Bytes written as they stand: byte `lo + i` as `v i` gives it. -/
def Device.patch (d : Device) (pte : Option Word) (lo n : Nat) (v : Nat → Option Byte) : Device :=
  let d1 := d.rekey pte lo n
  { d1 with mem := upTo n (fun i m => match v i with | some x => tset 0 m (lo + i) x | none => m) d1.mem }

/-- Bytes of one block written: `v i` is what byte `lo + i` becomes, if it is written. A packed block is read, expanded,
merged and encoded whole (R209). -/
def Device.putBlock (d : Device) (pte : Option Word) (lo n : Nat) (v : Nat → Option Byte) : Device :=
  if d.packed pte lo then
    let f := lo / 4096 * 4096
    d.repack pte f (d.merged pte f lo n v)
  else d.patch pte lo n v

/-- A write at the slice, `bad i` marking the poisoned bytes, under the PTE it came through if any, block by block (R200,
R204, R209). Writes beyond device memory do not exist. -/
def Device.write (d : Device) (pte : Option Word) (a : Nat) (b : List Byte) (bad : Nat → Bool) : Device :=
  let d1 :=
    if b.isEmpty then d
    else upTo ((a + b.length - 1) / 4096 - a / 4096 + 1) (fun k d =>
      let lo := max a (4096 * (a / 4096 + k))
      let hi := min (a + b.length) (4096 * (a / 4096 + k) + 4096)
      d.putBlock pte lo (hi - lo) fun i => some (b.getD (lo - a + i) 0)) d
  d1.sideWrite a b.length bad

/-- A clean write that comes through no page. -/
def Device.put (d : Device) (a : Nat) (b : List Byte) : Device := d.write none a b fun _ => false

/-! ### The pool -/

/-- A pool byte. -/
def Pool.byte (p : Pool) (a : Nat) : Byte := tget 0 p.bytes a
/-- `n` pool bytes from offset `a`. -/
def Pool.read (p : Pool) (a n : Nat) : List Byte := (List.range n).map fun i => p.byte (a + i)
/-- Little-endian number of `n` pool bytes. -/
def Pool.num (p : Pool) (a n : Nat) : Nat := ofBytes (p.read a n)
/-- Granules `[a, a + n)` touches, first and count. -/
def granCount (a n : Nat) : Nat := if n = 0 then 0 else (a + n - 1) / 16 - a / 16 + 1

/-- A pool write: bytes, tags cleared, poison (R200), writer record and, when `full` is given, the full/empty bit
of every granule touched (R96, R199, R223). -/
def Pool.write (p : Pool) (a : Nat) (b : List Byte) (bad : Nat → Bool) (w : BitVec 3 × BitVec 8)
    (full : Bool) : Pool :=
  let p1 := { p with bytes := upTo b.length (fun i m => tset 0 m (a + i) (b.getD i 0)) p.bytes }
  upTo (granCount a b.length) (fun k p =>
    let g := a / 16 + k
    let hit := (List.range 16).any fun j =>
      let x := 16 * g + j
      decide (a ≤ x) && decide (x < a + b.length) && bad (x - a)
    let whole := decide (a ≤ 16 * g) && decide (16 * g + 16 ≤ a + b.length)
    { p with tag := tset false p.tag g false,
             pois := if hit then tset false p.pois g true
                     else if whole then tset false p.pois g false else p.pois,
             wrec := tset (0, 0) p.wrec g w, own := tset none p.own g none,
             full := if full then tset false p.full g true else p.full }) p1

/-- Bytes, side arrays and writer records of `[lo, hi)` cleared, as scrub does (R38, R195). -/
def Pool.clear (p : Pool) (lo hi : Nat) : Pool :=
  { bytes := tclear p.bytes lo hi, full := tclear p.full (lo / 16) (hi / 16),
    tag := tclear p.tag (lo / 16) (hi / 16), pois := tclear p.pois (lo / 16) (hi / 16),
    wrec := tclear p.wrec (lo / 16) (hi / 16), own := tclear p.own (lo / 16) (hi / 16) }

/-- Boundary rows (R194). -/
def Core.rowV (c : Core) : Nat := bfld c.sys.poolv 0 11
def Core.rowS (c : Core) : Nat := bfld c.sys.pools 0 11
def Core.rowC (c : Core) : Nat := bfld c.sys.poolc 0 11

/-- `[a, a + n)` lies in the scratchpad (R197). -/
def Core.inArea (c : Core) (a n : Nat) : Bool := n = 0 || (4096 * c.rowV ≤ a && a + n ≤ 4096 * c.rowS)

/-- swz(e, a) of R314. -/
def swz (e : BitVec 32) (a : Nat) : Nat :=
  a ^^^ ((a / 2 ^ bfld e 0 5 % 2 ^ bfld e 16 4) * 2 ^ bfld e 8 5)

/-! ### Race detection -/

/-- cur[A] (R222); settled state is 1. -/
def Race.curOf (r : Race) (a : Nat) : BitVec 8 := tget 1 r.cur a
/-- acq_A[B]. -/
def Race.acqOf (r : Race) (a b : Nat) : BitVec 8 := tget 1 r.acq (8 * a + b)
/-- later(x, y) of R223. -/
def later (x y : BitVec 8) : BitVec 8 := if 1 ≤ (y - x).toNat ∧ (y - x).toNat ≤ 128 then y else x
/-- A release by A advances its epoch. -/
def Race.release (r : Race) (a : Nat) : Race := { r with cur := tset 1 r.cur a (r.curOf a + 1) }
/-- acq_A[B] := later(acq_A[B], e). -/
def Race.acquire (r : Race) (a b : Nat) (e : BitVec 8) : Race :=
  if a = b then r else { r with acq := tset 1 r.acq (8 * a + b) (later (r.acqOf a b) e) }
/-- The writer of granule `g`, agent `b`, is a member of the strand scope of quarter `q`: the quarter itself, or a command
that it issued inline or that names it as CQ (R215). -/
def Pool.member (p : Pool) (q : BitVec 2) (b g : Nat) : Bool :=
  b = q.toNat || (4 ≤ b && tget none p.own g = some q)
/-- The granules of `[a, a + n)`, just written, belong to a command of a quarter (R215). -/
def Pool.owned (p : Pool) (a n : Nat) (q : Option (BitVec 2)) : Pool :=
  { p with own := upTo (granCount a n) (fun k t => tset none t (a / 16 + k) q) p.own }
/-- A passing wait: A acquires every entry of a vector (R223). -/
def Race.acquireVec (r : Race) (a : Nat) (v : Nat → BitVec 8) : Race := upTo 8 (fun b r => r.acquire a b (v b)) r
/-- A release of A's epoch `e` to semaphore `i`. -/
def Race.toSem (r : Race) (i a : Nat) (e : BitVec 8) : Race :=
  { r with sem := tset 1 r.sem (8 * i + a) (later (tget 1 r.sem (8 * i + a)) e) }
/-- A release of A's epoch `e` to barrier `i`. -/
def Race.toBar (r : Race) (i a : Nat) (e : BitVec 8) : Race :=
  { r with bar := tset 1 r.bar (8 * i + a) (later (tget 1 r.bar (8 * i + a)) e) }

/-- The check of R224 for agent `a` on granule `g`. The quarters of a bundle run joint to its end, a FORK in it
notwithstanding (R117). -/
def Core.raceOk (c : Core) (a g : Nat) : Bool :=
  let (b, e) := tget (0, 0) c.pool.wrec g
  b.toNat = a || (c.issue.joint && a < 4 && b.toNat < 4)
    || (let d := (c.race.acqOf a b.toNat - e).toNat; 1 ≤ d && d ≤ 128)

/-- First granule of `[a, a + n)` whose access by `ag` races (R224). -/
def Core.raceAt (c : Core) (ag a n : Nat) : Option Nat :=
  ((List.range (granCount a n)).map (a / 16 + ·)).find? fun g => !c.raceOk ag g

/-- The MMX record of R181 for a granule. -/
def Core.mmxRec (c : Core) (ag g : Nat) (wr : Bool) (seq : BitVec 32) : TrapRec :=
  let (b, e) := tget (0, 0) c.pool.wrec g
  { cause := .mmx, info0 := BitVec.ofNat 64 (16 * g), info1 := BitVec.ofNat 64 (ag + if wr then 256 else 0),
    info2 := BitVec.ofNat 64 (b.toNat + 256 * e.toNat), info3 := seq.setWidth 64 }

/-- Settling: every vector 1, every record's epoch 0 with its agent kept (R226). -/
def Core.settle (c : Core) : Core :=
  { c with race := .settled,
           pool := { c.pool with wrec := (c.pool.wrec.filter fun e => e.2.1 != 0).map fun e => (e.1, (e.2.1, 0)) } }

/-! ### The L1 carve-out -/

/-- Lines of the L1 and its sets (R201). -/
def Core.l1Sets (c : Core) : Nat := (c.rowC - c.rowS) * 8
/-- The line that holds a physical address. -/
def Core.l1Find (c : Core) (pa : Nat) : Option L1Line := c.l1.find? fun l => l.line = pa / 64
/-- A byte of a line. -/
def L1Line.byte (l : L1Line) (i : Nat) : Byte := l.data.extractLsb' (8 * i) 8
/-- A line with byte `i` replaced. -/
def L1Line.setByte (l : L1Line) (i : Nat) (b : Byte) : L1Line := { l with data := setBits l.data (8 * i) 8 b.toNat }
/-- An empty line. -/
def L1Line.fresh (n : Nat) (pte : Word) : L1Line := { line := n, data := 0, valid := 0, dirty := 0, tag := 0, pois := 0, pte }

/-- Bytes `mask` names, with every dirty byte of a tagged granule of which it names one: a capability and its tag go to
the slice in one step (R96). -/
def L1Line.whole (l : L1Line) (mask : Word) : Word :=
  upTo 4 (fun k m => if l.tag.getLsbD k && bfld mask (16 * k) 16 ≠ 0 then setBits m (16 * k) 16 0xFFFF else m) mask

/-- The dirty bytes of a line written to the slice, with the tag and the poison of each granule that has one
(R200, R201). -/
def Device.l1Push (d : Device) (l : L1Line) : Device :=
  if l.dirty = 0 then d
  else
    let d1 := d.putBlock (some l.pte) (64 * l.line) 64 fun i => if l.dirty.getLsbD i then some (l.byte i) else none
    let d2 := upTo 4 (fun k d =>
      let dirt := bfld l.dirty (16 * k) 16
      if dirt = 0 then d
      else { d with tag := tset false d.tag (4 * l.line + k) (l.tag.getLsbD k && dirt = 0xFFFF) }) d1
    let m := upTo 4 (fun k m =>
      let dirt := bfld l.dirty (16 * k) 16
      if dirt ≠ 0 && l.pois.getLsbD k then setBit m k true
      else if dirt = 0xFFFF then setBit m k false else m) (d2.linePois l.line)
    if m = d2.linePois l.line then d2 else d2.setPois l.line m

/-- A line with every byte that is not dirty taken from the slice (R201). -/
def Device.l1Fill (d : Device) (pte : Word) (l : L1Line) : L1Line :=
  let l1 := upTo 64 (fun i x =>
    if l.dirty.getLsbD i then x else x.setByte i (d.read1 (some pte) (64 * l.line + i)).1) l
  let l2 := upTo 4 (fun k x =>
    let g := 4 * l.line + k
    let dp := (d.read1 (some pte) (16 * g)).2
    if bfld l.dirty (16 * k) 16 = 0 then
      { x with tag := setBit x.tag k (d.tagAt pte g), pois := setBit x.pois k dp }
    else if bfld l.dirty (16 * k) 16 = 0xFFFF then x
    else { x with pois := setBit x.pois k (dp || x.pois.getLsbD k) }) l1
  { l2 with valid := BitVec.allOnes 64, pte := if l2.dirty = 0 then pte else l2.pte }

/-- The L1 with a line in place; a full set evicts one line, whose dirty bytes go to the slice (R201). DESIGN CHOICE (log
123): a line's set is its physical line number modulo the number of sets. -/
def State.l1Place (s : State) (l : L1Line) : State :=
  let rest := s.core.l1.filter fun x => x.line != l.line
  let sets := s.core.l1Sets
  let mates := rest.filter fun x => x.line % sets = l.line % sets
  if mates.length < 8 then { s with core := { s.core with l1 := l :: rest } }
  else
    let v := mates.getD (Config.l1Victim s.fresh % mates.length) l
    { s with core := { s.core with l1 := l :: rest.filter fun x => x.line != v.line },
             dev := s.dev.l1Push v, fresh := s.fresh + 1 }

/-- Every dirty byte written to its slice; lines stay valid and clean (R203, device scope). -/
def State.l1PushAll (s : State) : State :=
  { s with dev := s.core.l1.foldl (fun d l => d.l1Push l) s.dev,
           core := { s.core with l1 := s.core.l1.map fun l => { l with dirty := 0 } } }
/-- Every valid byte that is not dirty becomes invalid (R203, device or system scope). -/
def State.l1Inval (s : State) : State :=
  { s with core := { s.core with l1 := (s.core.l1.map fun l => { l with valid := l.dirty }).filter
                                          fun l => l.dirty != 0 } }
/-- The L1 emptied after its dirty bytes are written back. -/
def State.l1Empty (s : State) : State := let s := s.l1PushAll; { s with core := { s.core with l1 := [] } }

/-- The L1 effect of a release at a scope (R203). -/
def State.l1Release (s : State) (sc : Scope) : State :=
  match sc with
  | .strand => s
  | .core => s
  | .device => s.l1PushAll
  | .system => s.l1PushAll
/-- The L1 effect of an acquire at a scope (R203). -/
def State.l1Acquire (s : State) (sc : Scope) : State :=
  match sc with
  | .strand => s
  | .core => s
  | .device => s.l1Inval
  | .system => s.l1Inval

/-- A page is served through the L1 (R201, R206). -/
def Core.useL1 (c : Core) (pte : Word) : Bool := pteMk pte = 0 && c.l1Sets != 0

/-- A quarter's read of `n` bytes of one 64-byte line at `pa`: bytes, poison of each byte's granule, and the tag
of the granule of `pa` (R201, R206). `whole` asks for the granule to be wholly valid (capability loads). -/
def State.l1Read (s : State) (pte : Word) (pa n : Nat) (whole : Bool) :
    (List Byte × (Nat → Bool) × Bool) × State :=
  if s.core.useL1 pte then
    let old := (s.core.l1Find pa).getD (.fresh (pa / 64) pte)
    let need := if whole then (List.range 16).map (pa % 64 / 16 * 16 + ·) else (List.range n).map (pa % 64 + ·)
    let hit := need.all fun i => old.valid.getLsbD i
    let l := if hit then old else s.dev.l1Fill pte old
    let s1 := if hit then s else s.l1Place l
    (((List.range n).map fun i => l.byte (pa % 64 + i), fun i => l.pois.getLsbD ((pa % 64 + i) / 16),
      l.tag.getLsbD (pa % 64 / 16)), s1)
  else
    (((List.range n).map fun i => (s.dev.read1 (some pte) (pa + i)).1,
      fun i => (s.dev.read1 (some pte) (pa + i)).2, s.dev.tagAt pte (pa / 16)), s)

/-- A quarter's write of bytes within one 64-byte line at `pa`; `tag` is given by a capability store, which
writes a whole granule (R96, R201, R206). -/
def State.l1Write (s : State) (pte : Word) (pa : Nat) (b : List Byte) (tag : Bool) : State :=
  if s.core.useL1 pte then
    let old := (s.core.l1Find pa).getD (.fresh (pa / 64) pte)
    let l := upTo b.length (fun i x =>
      let j := pa % 64 + i
      { x.setByte j (b.getD i 0) with valid := setBit x.valid j true, dirty := setBit x.dirty j true,
                                      tag := setBit x.tag (j / 16) tag }) old
    let l := upTo 4 (fun k x =>
      if pa % 64 ≤ 16 * k ∧ 16 * k + 16 ≤ pa % 64 + b.length then { x with pois := setBit x.pois k false }
      else x) l
    s.l1Place { l with pte }
  else
    let d := s.dev.write (some pte) pa b fun _ => false
    { s with dev := if tag then { d with tag := tset false d.tag (pa / 16) true } else d }

/-- An engine's view of one byte of device memory: valid bytes of a line present, else the slice (R202). -/
def State.engByte (s : State) (pte : Word) (pa : Nat) : Byte × Bool :=
  match (if pteMk pte = 0 then s.core.l1Find pa else none) with
  | some l =>
    if l.valid.getLsbD (pa % 64) then (l.byte (pa % 64), l.pois.getLsbD (pa % 64 / 16))
    else s.dev.read1 (some pte) pa
  | none => s.dev.read1 (some pte) pa

/-- A line present while an engine writes byte `i` of `b` at `pa` to the slice: the byte is replaced and clean. -/
def L1Line.engPut (x : L1Line) (pa : Nat) (b : List Byte) (bad : Nat → Bool) (i : Nat) : L1Line :=
  if (pa + i) / 64 = x.line then
    { x.setByte ((pa + i) % 64) (b.getD i 0) with
      dirty := setBit x.dirty ((pa + i) % 64) false,
      tag := setBit x.tag ((pa + i) % 64 / 16) false,
      pois := if bad i then setBit x.pois ((pa + i) % 64 / 16) true
              else if (pa + i) % 16 = 0 ∧ i + 16 ≤ b.length then setBit x.pois ((pa + i) % 64 / 16) false
              else x.pois }
  else x

/-- An engine's write: to the slice, and through a page of kind 0 into any L1 line present, whose bytes become clean (R202,
R206). -/
def State.engWrite (s : State) (pte : Word) (pa : Nat) (b : List Byte) (bad : Nat → Bool) : State :=
  let lines := if pteMk pte = 0 then s.core.l1.map fun l => upTo b.length (fun i x => x.engPut pa b bad i) l
    else s.core.l1
  { s with dev := s.dev.write (some pte) pa b bad, core := { s.core with l1 := lines } }

/-! ### Translation -/

/-- How a walk ends (R308). -/
inductive Walk
  | ok (pte : Word) (addr level : Nat)
  | fail (reason level : Nat) (pte : Word)
  /-- outcome 7: host-backed and absent; the PTE and its address -/
  | absent (pte : Word) (addr level : Nat)
  /-- outcome 8: D must be set in the PTE at this address -/
  | dirty (pte : Word) (addr level : Nat)
  deriving DecidableEq, Repr

/-- Size of a leaf page at a level (R306). -/
def pageSize (level : Nat) : Nat := if level = 1 then 2 ^ 30 else if level = 2 then 2 ^ 21 else 2 ^ 16

/-- A PTE that breaks R307 at its level, or whose address passes device memory (order 4 of R308). -/
def pteBad (p : Word) (level : Nat) : Bool :=
  bfld p 54 10 ≠ 0 || bfld p 20 4 ≠ 0
    || (if pteLeaf p then
          level = 0 || pteMk p = 3 || pteAddr p % pageSize level ≠ 0 || devTop < pteAddr p + pageSize level
        else
          level = 3 || bfld p 2 22 ≠ 0 || (level ≤ 1 && pteAddr p % 4096 ≠ 0)
            || devTop ≤ pteAddr p)

/-- A slot of R312 is provisioned; slot 0 belongs to firmware and stands from boot on. -/
def Device.provisioned (d : Device) (ks : Nat) : Bool := (tget .empty d.slots ks).prov

/-- Orders 5 to 9 of R308 on a leaf PTE, for access kind 0 read, 1 write, 2 fetch, 3 atomic. -/
def Device.leafOut (d : Device) (p : Word) (addr level kind : Nat) : Walk :=
  if ((kind = 1 || kind = 3) && !pteW p) || (kind = 2 && !pteX p) then .fail 2 level p
  else if !d.provisioned (pteKs p) then .fail 3 level p
  else if pteHb p && !pteP p then .absent p addr level
  else if (kind = 1 || kind = 3) && !pteD p then .dirty p addr level
  else .ok p addr level

/-- The walk from a table (R306, R308): level, index bits still to take. `up` gives the PTE of a level that is used: what
memory holds, or what a walker cache supplies (R309). The walk's end, and the non-leaf PTEs it went through. -/
def Device.walkVia (d : Device) (up : Nat → Word → Word) (va kind : Nat) :
    List (Nat × Nat × Nat) → Nat → Walk × List (Nat × Word)
  | [], _ => (.fail 1 3 0, [])
  | (level, lo, w) :: r, table =>
    let addr := table + 8 * fld va lo w
    let p := up level (BitVec.ofNat 64 (d.view addr 8))
    if !pteV p then (.fail 0 level p, [])
    else if pteBad p level then (.fail 1 level p, [])
    else if pteLeaf p then (d.leafOut p addr level kind, [])
    else
      let (x, l) := d.walkVia up va kind r (pteAddr p)
      (x, (level, p) :: l)

/-- The index fields of a VA by level (R306). -/
def walkLevels : List (Nat × Nat × Nat) := [(0, 39, 9), (1, 30, 9), (2, 21, 9), (3, 16, 5)]

/-- A walk in the context whose level-0 table is `root` (R306). -/
def Device.walk (d : Device) (root va kind : Nat) : Walk :=
  if 2 ^ 48 ≤ va then .fail 6 0 0 else (d.walkVia (fun _ p => p) va kind walkLevels root).1

/-- Stale-pin entry `k` of a region, if it is valid: its first byte and the byte after it (R301). -/
def Device.staleAt (d : Device) (region k : Nat) : Option (Nat × Nat) :=
  let e := rcbF d.rcbs region (0xA0 + 8 * k) 0 64
  if fld e 63 1 = 1 then some (fld e 16 32 * 65536, (fld e 16 32 + fld e 0 16 + 1) * 65536) else none
/-- The VA lies in a valid stale-pin entry of a region (order 2 of R308). -/
def Device.stale (d : Device) (region va : Nat) : Bool :=
  (List.range 8).any fun k => (d.staleAt region k).any fun e => e.1 ≤ va && va < e.2

/-- A walk in the context of a region, after its stale pins (orders 1 to 9 of R308). -/
def Device.walkIn (d : Device) (region va kind : Nat) : Walk :=
  if va < 2 ^ 48 && d.stale region va then .fail 5 0 0 else d.walk (ptrootOf d.rcbs region) va kind

/-- The physical address of `va` within its page. -/
def pagePa (p : Word) (level va : Nat) : Nat := pteAddr p + va % pageSize level

/-- A PTE with D set at the slice (order 8 of R308). -/
def Device.setD (d : Device) (addr : Nat) : Device :=
  d.put (addr + 1) [(d.read1 none (addr + 1)).1 ||| 2]

/-- A post to the event arbiter (R231). -/
def Device.event (d : Device) (e : Event) : Device :=
  { d with events := d.events ++ [e], eventPos := d.eventPos + 1 }

/-- The producer of an event, by class and number within it, as the arbiter orders those of one cycle (R231): codec
engines, CMU scan pipes, Distiller lanes, page walkers, cores, the QC. -/
def Event.producer : Event → Nat × Nat
  | .framePost slot _ => (1, slot / 16)
  | .badInput slot => (1, slot / 16)
  | .listOvf .. => (2, 0)
  | .laneDone k => (3, k)
  | .faultPost _ => (4, 0)
  | .badPage _ => (4, 0)
  | .escalation n => (5, n)
  | .semDropped n _ => (6, n)
  | .chainDrop n _ _ => (5, n)
  | .tapeDrop n _ _ => (5, n)
  | _ => (6, 0)
/-- The event's place is no later than another's of the same cycle (R231). -/
def Event.le (x y : Event) : Bool :=
  x.producer.1 < y.producer.1 || (x.producer.1 = y.producer.1 && (x.producer.1 = 6 || x.producer.2 ≤ y.producer.2))
/-- An event placed among ordered ones, behind those of its own place. -/
def Event.place (e : Event) : List Event → List Event
  | [] => [e]
  | x :: r => if x.le e then x :: e.place r else e :: x :: r
/-- The events after the first `n`, which reached the arbiter in one cycle, in the order of their producers (R231). -/
def Device.arbitrate (d : Device) (n : Nat) : Device :=
  if d.events.length ≤ n + 1 then d
  else { d with events := d.events.take n ++ (d.events.drop n).foldl (fun l e => e.place l) [] }

/-- Fields of a cached queue descriptor (R273). -/
def Queue.ring (q : Queue) : Nat := bfld q.desc 0 64
def Queue.log2n (q : Queue) : Nat := bfld q.desc 64 8
def Queue.host (q : Queue) : Bool := bfld q.desc 73 1 = 1
def Queue.region (q : Queue) : Nat := bfld q.desc 80 16
def Queue.slots (q : Queue) : Nat := 2 ^ q.log2n
/-- Free slots of the producer side (R274). -/
def Queue.room (q : Queue) : Nat := q.slots - (q.pclaim - q.head).toNat

/-- The whole ranges that are done and begin where the counter stands are passed: those left, those passed, and the
counter (R275). -/
def passDone : List Claim → BitVec 32 → List Claim × List Claim × BitVec 32
  | [], t => ([], [], t)
  | c :: r, t =>
    if c.done && c.first = t then
      let (l, p, t) := passDone r (t + BitVec.ofNat 32 c.count)
      (l, c :: p, t)
    else (c :: r, [], t)

/-- TAIL and HEAD moved over the ranges that are done (R275). -/
def Queue.advance (q : Queue) : Queue :=
  let t := passDone q.claimsT q.tail
  let h := passDone q.claimsH q.head
  { q with claimsT := t.1, tail := t.2.2, claimsH := h.1, head := h.2.2 }

/-- One entry claimed and done at once, as hardware and SUBMIT do, before TAIL moves (R275, R278). -/
def Queue.claim1 (q : Queue) : Queue :=
  { q with pclaim := q.pclaim + 1, claimsT := q.claimsT ++ [{ first := q.pclaim, count := 1, done := true }] }
/-- One entry claimed and published at once by hardware (R275). -/
def Queue.post (q : Queue) : Queue := q.claim1.advance

/-- The four counters of a queue in its descriptor (R273). -/
def Device.backCounters (d : Device) (id : Nat) (q : Queue) : Device :=
  d.put (d.plat.qtbase.toNat + 64 * id + 0x10)
    (bytesOf 4 q.head.toNat ++ bytesOf 4 q.cclaim.toNat ++ bytesOf 4 q.tail.toNat ++ bytesOf 4 q.pclaim.toNat)

/-- What the dispatcher knows of the published cards of a job queue forgotten. -/
def Disp.forget (p : Disp) (id : Nat) : Disp :=
  { p with toCheck := p.toCheck.filter fun x => x.1 ≠ id, checked := p.checked.filter fun x => x.qid ≠ id,
           ranges := p.ranges.filter fun x => x.qid ≠ id }

/-- A queue disabled as by QSTAT sel 7: counters written back to its descriptor, claims dropped (R273, R281). What its
hardware side still finishes of an entry moves HEAD later, and is written back then. -/
def Device.disableQueue (d : Device) (id : Nat) : Device :=
  let q := tget .off d.queues id
  let d := d.backCounters id q
  { d with queues := tset .off d.queues id { q with en := false, claimsT := [], claimsH := [] }, disp := d.disp.forget id }

/-- A queue whose memory failed (R379). -/
def Device.queueFailed (d : Device) (id : Nat) (ctr : BitVec 32) (outcome : Nat) : Device :=
  (d.disableQueue id).event (.queueFault id ctr outcome)

/-- Outcome code of a hardware access in a queueFault event: 1 translation, 2 poison. -/
def Device.hwOutcome (d : Device) (region va kind : Nat) : Nat :=
  match d.walkIn region va kind with
  | .ok .. => 2
  | .dirty .. => 2
  | _ => 1

/-- The core number that stands for an agent outside the cores (R295). -/
def outsideCore : Nat := 0xFFFF

/-- The operations of agents outside the cores, each of whose held accesses has an entry of its own (R295). -/
def opNo (kind a b : Nat) : Nat := kind * 2 ^ 64 + a * 2 ^ 32 + b
def opQuarter (core q : Nat) : Nat := opNo 1 core q
def opChunk (slot : Nat) : Nat := opNo 2 slot 0
def opFrame (slot : Nat) : Nat := opNo 3 slot 0
def opCard (qid : Nat) : Nat := opNo 4 qid 0
def opCheck (qid : Nat) (ctr : BitVec 32) : Nat := opNo 5 qid ctr.toNat
def opDone (qid : Nat) (ctr : BitVec 32) : Nat := opNo 6 qid ctr.toNat
def opHead (qid : Nat) : Nat := opNo 7 qid 0
def opLane (k : Nat) : Nat := opNo 8 k 0
def opPage : Nat := opNo 9 0 0
def opSave (core : Nat) : Nat := opNo 10 core 0
def opResume (core : Nat) : Nat := opNo 11 core 0

/-- The entries of an access of an operation outside the cores in the hold table (R295). -/
def Device.hwHeld (d : Device) (op region va kind : Nat) : List Held :=
  d.holds.filter fun h => h.core = outsideCore && h.op = op && h.rcb = region && h.va = va && h.kind = kind

/-- A walk for an access of an operation outside the cores in the context of a region (R308, R379). -/
def Device.hwWalk (d : Device) (op region va kind : Nat) : Walk :=
  if (d.hwHeld op region va kind).any fun h => h.failed = some true then .fail 4 3 0 else d.walkIn region va kind

/-- A hardware write of bytes that lie in one page, in the context of a region (R379); none when it does not
translate. -/
def Device.hwWrite (d : Device) (region va : Nat) (b : List Byte) : Option Device :=
  match d.walkIn region va 1 with
  | .ok p _ l => some (d.write (some p) (pagePa p l va) b fun _ => false)
  | .dirty p a l => some ((d.setD a).write (some p) (pagePa p l va) b fun _ => false)
  | _ => none

/-- A hardware read of bytes that lie in one page, in the context of a region; none when it does not translate or
is poisoned (R379). -/
def Device.hwRead (d : Device) (region va n : Nat) : Option (List Byte) :=
  match d.walkIn region va 0 with
  | .ok p _ l =>
    let bs := (List.range n).map fun i => d.read1 (some p) (pagePa p l va + i)
    if bs.any (·.2) then none else some (bs.map (·.1))
  | _ => none

/-- Kind of the fault queue and of the page queue as ids (R272). -/
def faultQ : Nat := 4 * 4096
def pageQ : Nat := 5 * 4096

/-- The fault queue and the hold table have room (R308). -/
def Device.faultRoom (d : Device) : Bool :=
  let q := tget .off d.queues faultQ
  q.en && 1 ≤ q.room && (d.holds.filter fun h => h.posted).length < 4096

/-- A fault-queue entry posted and the access held; where there is no room for it, or its own ring entry is held, the
walker holds the fault (R295, R308, R379). A ring entry that cannot be written disables the queue. -/
def Device.postFault (d : Device) (rcb va kind agent core pte op : Nat) : Device :=
  let q := tget .off d.queues faultQ
  let fid := d.nextFid
  let h : Held := { fid, rcb, va, kind, agent, core, pte, op, failed := none, posted := true }
  let wait := { d with holds := d.holds ++ [{ h with fid := 0, posted := false }] }
  let e := bytesOf 4 fid.toNat ++ bytesOf 2 rcb ++ bytesOf 1 kind ++ bytesOf 1 (agent % 8) ++ bytesOf 2 core
    ++ bytesOf 6 0 ++ bytesOf 8 va ++ bytesOf 8 pte ++ bytesOf 32 0
  let at' := q.ring + 64 * (q.pclaim.toNat % q.slots)
  if !d.faultRoom then wait
  else
    match d.hwWrite q.region at' e with
    | some d1 =>
      { (d1.event (.faultPost fid)) with
          queues := tset .off d1.queues faultQ q.post, nextFid := fid + 1, holds := d1.holds ++ [h] }
    | none =>
      match d.walkIn q.region at' 1 with
      | .absent .. => wait
      | _ => wait.queueFailed faultQ q.pclaim 1

/-- The faults that walkers hold for want of room posted, the oldest first, while there is room (R295, R308). -/
def Device.postWaiting (d : Device) : Device :=
  (d.holds.filter fun h => !h.posted).foldl (fun d h =>
    if d.faultRoom then { d with holds := d.holds.erase h }.postFault h.rcb h.va h.kind h.agent h.core h.pte h.op
    else d) d

/-- An access of an agent outside the cores that the page queue answered with a replay walks again; one that is
absent is held, and the fault queue told once (R295, R379): whether it waits. -/
def Device.hwHold (d : Device) (op region va kind : Nat) : Bool × Device :=
  match d.hwWalk op region va kind with
  | .absent _ a _ =>
    let open1 := (d.hwHeld op region va kind).any fun h => h.failed = none
    let d1 := { d with holds := d.holds.filter fun h =>
      !(h.core = outsideCore && h.op = op && h.rcb = region && h.va = va && h.kind = kind && h.failed.isSome) }
    (true, if open1 then d1 else d1.postFault region va kind 0 outsideCore a op)
  | _ => (false, d)

/-- The first of several accesses of an operation that is held, if one is: the operation waits (R379). -/
def Device.hwWaits (d : Device) (op : Nat) : List (Nat × Nat × Nat) → Bool × Device
  | [] => (false, d)
  | (region, va, kind) :: r =>
    match d.hwHold op region va kind with
    | (true, d) => (true, d)
    | (false, d) => d.hwWaits op r

/-- The answered holds of an operation outside the cores that has been made. -/
def Device.hwForget (d : Device) (op : Nat) : Device :=
  if d.holds = [] then d
  else { d with holds := d.holds.filter fun h => !(h.core = outsideCore && h.op = op && h.failed.isSome) }

/-- An operation of the QC waits on a queue (R379). -/
def Device.qcWaits (d : Device) (id op : Nat) : Device :=
  if d.qcWait.contains (id, op) then d else { d with qcWait := d.qcWait ++ [(id, op)] }

/-- What was done at the device, done again (R308, R379). -/
def Device.walkAct (d : Device) (a : WalkAct) : Device :=
  match a with
  | .setD p => d.setD p
  | .post rcb va kind agent core pte op => d.postFault rcb va kind agent core pte op
  | .queue id op => d.qcWaits id op
  | .count _ => d
  | .fail .. => d

/-- The state with an act done and remembered. -/
def State.walked (s : State) (a : WalkAct) : State :=
  let c := match a with
    | .count i => { s.core with perf := tset 0 s.core.perf i (tget 0 s.core.perf i + 1) }
    | _ => s.core
  { s with dev := s.dev.walkAct a, core := { c with issue := { c.issue with walks := c.issue.walks ++ [a] } } }

/-- A performance counter of translation of the focused core raised by one, whatever becomes of the access (R343). -/
def State.modPerf (s : State) (i : Nat) : State := s.walked (.count i)

/-- How a translation ends. -/
inductive Xl
  | ok (pa : Nat) (pte : Word)
  | fail (reason level : Nat)
  | held
  deriving DecidableEq, Repr

/-- Core group of a core; service cores form the groups after the tile cores' (R9). -/
def Core.group (c : Core) : Nat := c.num / 8

/-- Compute die of a core, whose walkers and walker cache serve it (R9, R13, R299). DESIGN CHOICE (log 124): a service core,
which sits on the I/O-and-codec die, is served by die 0. -/
def Core.die (c : Core) : Nat := if c.num < 128 then c.num / 64 else 0

/-- The entry of the core's L1 TLB, or of its group's L2 TLB, for a VA of a context (R309). -/
def State.tlbFind (s : State) (l1 : Bool) (ctx va : Nat) : Option TlbEntry :=
  s.dev.tlb.find? fun e => e.core = (if l1 then some s.core.num else none) && e.group = s.core.group && e.ctx = ctx
    && e.va ≤ va && va < e.va + e.size

/-- A TLB with an entry in place of those it overlaps; of its own TLB's entries, those that `mates` holds of share `room`
places with it, and one of them gives way where they are full (R299, R309). -/
def tlbPut (t : List TlbEntry) (e : TlbEntry) (mates : TlbEntry → Bool) (room v : Nat) : List TlbEntry :=
  let rest := t.filter fun x =>
    !(x.core = e.core && x.group = e.group && x.ctx = e.ctx && x.va < e.va + e.size && e.va < x.va + x.size)
  let own := rest.filter fun x => x.core = e.core && x.group = e.group
  let m := own.filter mates
  if own.length < room || m.length < room then e :: rest
  else
    let out := m.getD (Config.tlbVictim v % m.length) e
    e :: rest.filter fun x => x != out

/-- The machine with an entry in the core's L1 TLB of 64 sets of 6 ways (R299). -/
def State.tlbFill1 (s : State) (e : TlbEntry) : State :=
  let e := { e with core := some s.core.num }
  let set := fun (x : TlbEntry) => Config.tlbSet (x.va / x.size) % 64
  { s with dev := { s.dev with tlb := tlbPut s.dev.tlb e (fun x => set x = set e) 6 s.fresh } }
/-- The machine with an entry in the group's L2 TLB of 8192 and the core's L1 TLB (R299, R309). -/
def State.tlbFill (s : State) (ctx va level : Nat) (p : Word) : State :=
  let e : TlbEntry := { core := none, group := s.core.group, ctx, va := va / pageSize level * pageSize level,
                        size := pageSize level, pte := p }
  { s with dev := { s.dev with
      tlb := tlbPut s.dev.tlb e (fun _ => true) 8192 s.fresh } }.tlbFill1 e

/-- First byte of what a non-leaf PTE of a level covers around a VA. -/
def upperVa (level va : Nat) : Nat := if level = 0 then va / 2 ^ 39 * 2 ^ 39 else if level = 1 then va / 2 ^ 30 * 2 ^ 30
  else va / 2 ^ 21 * 2 ^ 21
/-- The PTE of a level that a walk uses where memory holds `p`: the die's walker cache may supply another, an older one
(R309). -/
def State.upper (s : State) (ctx va level : Nat) (p : Word) : Word :=
  match s.dev.wcache.find? fun e => e.die = s.core.die && e.ctx = ctx && e.level = level && e.va = upperVa level va with
  | some e => if e.pte != p && Config.walkHit s.fresh level then e.pte else p
  | none => p
/-- The walker cache with what a walk went through. -/
def State.upperFill (s : State) (ctx va : Nat) (l : List (Nat × Word)) : State :=
  l.foldl (fun s x =>
    let e : WalkEntry := { die := s.core.die, ctx, level := x.1, va := upperVa x.1 va, pte := x.2 }
    { s with dev := { s.dev with wcache := e :: s.dev.wcache.filter fun y =>
        !(y.die = e.die && y.ctx = e.ctx && y.level = e.level && y.va = e.va) } }) s

/-- The held accesses of an agent of this core at an address (R295). -/
def State.heldAt (s : State) (agent va kind : Nat) : List Held :=
  s.dev.holds.filter fun h => h.core = s.core.num && h.agent = agent && h.va = va && h.kind = kind
/-- One of them is still to be answered by the page queue. -/
def State.heldOpen (s : State) (agent va kind : Nat) : Bool :=
  (s.heldAt agent va kind).any fun h => h.failed = none
/-- The page queue failed one of them. -/
def State.heldFailed (s : State) (agent va kind : Nat) : Bool :=
  (s.heldAt agent va kind).any fun h => h.failed = some true
/-- The page queue replayed one of them: the walker walks again. -/
def State.heldReplay (s : State) (agent va kind : Nat) : Bool :=
  (s.heldAt agent va kind).any fun h => h.failed = some false
/-- The machine with those that the page queue answered dropped. -/
def State.heldDone (s : State) (agent va kind : Nat) : State :=
  if s.dev.holds = [] then s
  else { s with dev := { s.dev with holds := s.dev.holds.filter fun h =>
    !(h.core = s.core.num && h.agent = agent && h.va = va && h.kind = kind && h.failed.isSome) } }

/-- The machine with a hold dropped. -/
def Device.dropHold (d : Device) (fid : BitVec 32) : Device :=
  { d with holds := d.holds.filter fun h => !h.posted || h.fid != fid }

/-- A walk for an agent of the focused core, with its D bit, its hold and its TLB entries; one that ends in a held access
installs no entry anywhere (R308, R309, R375). -/
def State.walkFor (s : State) (agent va kind : Nat) : Xl × State :=
  let region := s.core.region
  let ctx := tenantOf s.dev.rcbs region
  let (w, l) := if 2 ^ 48 ≤ va then (.fail 6 0 0, [])
    else s.dev.walkVia (s.upper ctx va) va kind walkLevels (ptrootOf s.dev.rcbs region)
  let s := { s with fresh := s.fresh + 1 }.modPerf 12
  let s := match w with
    | .absent .. => s
    | _ => s.upperFill ctx va l
  match w with
  | .ok p _ l => (.ok (pagePa p l va) p, (s.heldDone agent va kind).tlbFill ctx va l p)
  | .dirty p a l =>
    let p := setBit p 9 true
    (.ok (pagePa p l va) p, ((s.heldDone agent va kind).walked (.setD a)).tlbFill ctx va l p)
  | .fail r l _ => (.fail r l, s.heldDone agent va kind)
  | .absent _ a _ => (.held, s.walked (.post region va kind agent s.core.num a 0))

/-- How an access goes on with a TLB entry in use; none where it has to walk again (R308, R309). -/
def State.byEntry (s : State) (e : TlbEntry) (va kind : Nat) : Option Xl :=
  match s.dev.leafOut e.pte 0 (if e.size = 2 ^ 30 then 1 else if e.size = 2 ^ 21 then 2 else 3) kind with
  | .ok p _ l => some (.ok (pagePa p l va) p)
  | .fail r l _ => some (.fail r l)
  | _ => none

/-- xlate of R82 for an agent of the focused core: an access still held waits, and one that the page queue failed is a failed
translation, whatever its PTE is now (R295; host-backed pages stand at level 3, R307), while one that it replayed walks again;
stale pins come first, then the core's L1 TLB, its group's L2 TLB, and a walk; which entries are still listed is open (R308 to
R310). -/
def State.xlate (s : State) (agent va kind : Nat) : Xl × State :=
  let region := s.core.region
  let ctx := tenantOf s.dev.rcbs region
  if 2 ^ 48 ≤ va then (.fail 6 0, s)
  else if s.dev.stale region va then (.fail 5 0, s)
  else if s.heldOpen agent va kind then (.held, s)
  else if s.heldFailed agent va kind then (.fail 4 3, s.heldDone agent va kind)
  else if s.heldReplay agent va kind then s.walkFor agent va kind
  else
    let use := fun (l1 : Bool) (n : Nat) => (s.tlbFind l1 ctx va).filter fun _ => Config.tlbHit n
    match use true s.fresh with
    | some e =>
      let s := { s with fresh := s.fresh + 1 }
      match s.byEntry e va kind with
      | some x => (x, s)
      | none => s.walkFor agent va kind
    | none =>
      let s1 := { s with fresh := s.fresh + 2 }.modPerf 11
      match use false (s.fresh + 1) with
      | some e =>
        match s1.byEntry e va kind with
        | some x => (x, s1.tlbFill1 e)
        | none => s1.walkFor agent va kind
      | none => s1.walkFor agent va kind

/-- TINFO1 of an XLATE (R181). -/
def xlInfo (kind level reason : Nat) : Word := BitVec.ofNat 64 (kind + 256 * level + 65536 * reason)

/-- A stream of the core, running or stopped at a trap, stands within a line (R63). -/
def Core.within (c : Core) (k : Nat) : Bool :=
  [c.q0, c.q1, c.q2, c.q3].any (fun x => x.pc.toNat / 64 = k) || c.tr.tepc.any fun e => e.2.toNat / 64 = k
/-- The code line buffer with a line in place; a full one, of 64 KiB, gives a line up that no stream stands within, so that
each executes its line whole (R63, R192, R211). -/
def State.keepLine (s : State) (k : Nat) (l : BitVec 512) : State :=
  let t := s.core.lines
  let out := t.filter fun e => !s.core.within e.1
  if t.length < 1024 then { s with core := { s.core with lines := tput t k l } }
  else
    let v := (out.getD (Config.lineVictim s.fresh % out.length) (k, l)).1
    { s with core := { s.core with lines := tput (terase t v) k l }, fresh := s.fresh + 1 }

/-! ### Capabilities -/

/-- Fields of a capability (R90). -/
def capTag (c : CapWord) : Bool := c.getLsbD 128
def capVer (c : CapWord) : Nat := bfld c 125 3
def capSpace (c : CapWord) : Nat := bfld c 121 4
def capPerm (c : CapWord) : Nat := bfld c 105 16
def capLen (c : CapWord) : Nat := bfld c 57 48
def capBase (c : CapWord) : Nat := bfld c 0 57

/-- The capability of given fields. -/
def mkCap (tag : Bool) (ver space perm len base : Nat) : CapWord :=
  BitVec.ofNat 129 (base % 2 ^ 57 + 2 ^ 57 * (len % 2 ^ 48) + 2 ^ 105 * (perm % 2 ^ 16)
    + 2 ^ 121 * (space % 16) + 2 ^ 125 * (ver % 8) + 2 ^ 128 * tag.toNat)

/-- Permission masks of R91. -/
def permR : Nat := 1
def permW : Nat := 2
def permX : Nat := 4
def permLC : Nat := 8
def permSC : Nat := 16
def permFE : Nat := 32
def permENG : Nat := 64
def permG : Nat := 128
def permAMO : Nat := 256
def permPIN : Nat := 512

/-- CAPVER.V of a space (R95). -/
def Core.capverOf (c : Core) (space : Nat) : Nat := if space ≤ 5 then bfld c.sys.capver (3 * space) 3 else 8

/-- A space-4 address whose peer index this card may use (R211, R247, R346). -/
def Device.peerOk (d : Device) (a : Nat) : Bool :=
  let p := tget 0 d.plat.peers (fld a 52 4)
  p.getLsbD 0 && !p.getLsbD 1
/-- Every peer index that the bytes at `off` of a capability's base reach may be used (R346). -/
def Device.peersOk (d : Device) (base : Nat) (off : Int) (size : Nat) : Bool :=
  d.peerOk base && (off < 0 || (d.peerOk (base + off.toNat) && d.peerOk (base + off.toNat + (size - 1))))

/-- The checks of R94 and R197 in order: the address, or the subcause of the first failure. `off` is an s64. -/
def capCheck (c : Core) (d : Device) (cap : CapWord) (off : Int) (size perm : Nat) (spaces : List Nat) :
    Except Nat Nat :=
  if !capTag cap then .error 1
  else if !spaces.contains (capSpace cap) || (capSpace cap = 4 && !d.peersOk (capBase cap) off size) then .error 2
  else if capVer cap ≠ c.capverOf (capSpace cap) then .error 3
  else if capPerm cap &&& perm ≠ perm then .error 4
  else if off < 0 || capLen cap < off + size then .error 5
  else
    let a := capBase cap + off.toNat
    if capSpace cap = 0 && !c.inArea a size then .error 6 else .ok a

end Sys2Proof.Machine
end

