-- ==== Sys2Proof/Machine/Sync.lean ====
section
/-! DEFINITION. Semaphores and barriers of a core (R223, R324 to R328). -/

namespace Sys2Proof.Machine

/-- Agent codes of R222. -/
def agCE : Nat := 4
def agNI : Nat := 5
def agME : Nat := 6
def agTape : Nat := 7

/-- Semaphore `i` (R324). -/
def Core.semOf (c : Core) (i : Nat) : Sem := tget .init c.sems i
/-- Semaphore `i` replaced. -/
def Core.setSem (c : Core) (i : Nat) (x : Sem) : Core := { c with sems := tset .init c.sems i x }
/-- The value of semaphore `i` replaced. -/
def Core.setSemV (c : Core) (i v : Nat) : Core := c.setSem i { c.semOf i with v := BitVec.ofNat 16 v }

/-- A release by a quarter, at any scope (R223). -/
def Core.releaseBy (c : Core) (a : Nat) : Core := { c with race := c.race.release a }
/-- A release by quarter `a` to semaphore `i`: its epoch advances and the vector takes it (R223). -/
def Core.relSem (c : Core) (a i : Nat) : Core :=
  let r := c.race.release a
  { c with race := r.toSem i a (r.curOf a) }
/-- A passing wait of agent `a` on semaphore `i` (R223). -/
def Core.acqSem (c : Core) (a i : Nat) : Core :=
  { c with race := c.race.acquireVec a fun b => tget 1 c.race.sem (8 * i + b) }
/-- A completed phase of barrier `i` acquired by agent `a` (R223). -/
def Core.acqBar (c : Core) (a i : Nat) : Core :=
  { c with race := c.race.acquireVec a fun b => tget 1 c.race.bar (8 * i + b) }

/-- A barrier object (R326). -/
structure Bar where
  bytes : Word
  reload : Nat
  arr : Nat
  phase : Nat
  valid : Bool
  deriving DecidableEq, Repr

/-- The object a granule holds. -/
def Bar.ofNat (n : Nat) : Bar :=
  { bytes := BitVec.ofNat 64 (fld n 64 64), reload := fld n 28 16, arr := fld n 12 16, phase := fld n 0 12,
    valid := fld n 44 1 = 1 }
/-- The granule of an object; reserved bits 0. -/
def Bar.toNat (b : Bar) : Nat :=
  b.phase % 2 ^ 12 + 2 ^ 12 * (b.arr % 2 ^ 16) + 2 ^ 28 * (b.reload % 2 ^ 16) + 2 ^ 44 * b.valid.toNat
    + 2 ^ 64 * b.bytes.toNat
/-- complete() of R328. -/
def Bar.complete (b : Bar) : Bar :=
  if b.arr = 0 ∧ b.bytes = 0 then { b with phase := (b.phase + 1) % 4096, arr := b.reload } else b

/-- Pool offset of the object bound to barrier `i`, if one is (R327). -/
def Core.barAt (c : Core) (i : Nat) : Option Nat :=
  let e := tget 0 c.bars i
  if e.getLsbD 31 then some (16 * bfld e 0 19) else none
/-- The object at a pool offset. -/
def Core.barGet (c : Core) (a : Nat) : Bar := .ofNat (c.pool.num a 16)
/-- The object written back: the full/empty bit, the writer record and the poison stay (R326), the tag is cleared
(R96). -/
def Core.barPut (c : Core) (a : Nat) (b : Bar) : Core :=
  let bs := bytesOf 16 b.toNat
  { c with pool := { c.pool with
      bytes := upTo 16 (fun i m => tset 0 m (a + i) (bs.getD i 0)) c.pool.bytes,
      tag := tset false c.pool.tag (a / 16) false } }

/-- A byte-count decrement of `n` bytes by agent `a`, whose vector entry takes epoch `e` (R223, R328). -/
def Core.barDecAt (c : Core) (a i n : Nat) (e : BitVec 8) : Core :=
  match c.barAt i with
  | none => c
  | some off =>
    let b := c.barGet off
    let c := c.barPut off ({ b with bytes := b.bytes - BitVec.ofNat 64 n }).complete
    { c with race := c.race.toBar i a e }

/-- A decrement during a command of agent `a`: the vector takes the epoch the command's completion will reach
(R223). -/
def Core.barDec (c : Core) (a i n : Nat) : Core := c.barDecAt a i n (c.race.curOf a + 1)

end Sys2Proof.Machine
end

