-- ==== Sys2Proof/Machine/Sched.lean ====
section
/-! DEFINITION. Cards, their completions and cancellations, and the failure of a fault domain (R24 to R27, R284
to R286, R303, R373, R379). -/

namespace Sys2Proof.Machine

/-! ### Engines -/

/-- Engine `e` of a core. -/
def Core.eng (c : Core) (e : Eng) : Engine :=
  match e with
  | .ce => c.ce
  | .me => c.me
  | .ni => c.ni
  | .tape => c.tp
  | .cmu => c.cmu
/-- The core with engine `e` replaced. -/
def Core.setEng (c : Core) (e : Eng) (x : Engine) : Core :=
  match e with
  | .ce => { c with ce := x }
  | .me => { c with me := x }
  | .ni => { c with ni := x }
  | .tape => { c with tp := x }
  | .cmu => { c with cmu := x }
/-- Every engine changed alike. -/
def Core.mapEngs (c : Core) (f : Engine → Engine) : Core :=
  { c with ce := f c.ce, me := f c.me, ni := f c.ni, tp := f c.tp, cmu := f c.cmu }
/-- The engines in TCUT order. -/
def engs : List Eng := [.ce, .me, .ni, .tape, .cmu]
/-- Number of an engine (R178). -/
def engNum : Eng → Nat
  | .ce => 0
  | .me => 1
  | .ni => 2
  | .tape => 3
  | .cmu => 4
/-- Agent code of an engine (R222); the CMU pipes have none. -/
def engAgent : Eng → Option Nat
  | .ce => some 4
  | .ni => some 5
  | .me => some 6
  | .tape => some 7
  | .cmu => none
/-- Number of an engine among the agents of R222; the CMU pipes stand beyond them. -/
def agentNo (e : Eng) : Nat := (engAgent e).getD 8
/-- OWNER of an engine's lines (R61). -/
def engOwner : Eng → Nat
  | .ce => 5
  | .me => 6
  | .ni => 7
  | .tape => 8
  | .cmu => 9

/-! ### Cards -/

/-- `w` bits at byte `off`, bit `b` of a 64-byte structure. -/
def f512 (x : BitVec 512) (off b w : Nat) : Nat := bfld x (8 * off + b) w

/-- Fields of a card (R282). -/
def cardEntry (x : BitVec 512) : Nat := f512 x 0 0 64
def cardRecbase (x : BitVec 512) : Nat := f512 x 8 0 64
def cardCount (x : BitVec 512) : Nat := f512 x 0x10 0 32
def cardEst (x : BitVec 512) : Nat := f512 x 0x14 0 16
def cardRecsize (x : BitVec 512) : Nat := 16 * (f512 x 0x16 0 4 + 1)
def cardService (x : BitVec 512) : Bool := f512 x 0x16 4 1 = 1
def cardIdem (x : BitVec 512) : Bool := f512 x 0x16 5 1 = 1
def cardCkpt (x : BitVec 512) : Bool := f512 x 0x16 6 1 = 1
def cardKv (x : BitVec 512) (m : Nat) : Bool := f512 x 0x17 (2 + m) 1 = 1
def cardKey (x : BitVec 512) (m : Nat) : Nat := f512 x 0x18 (12 * m) 12
def cardNpred (x : BitVec 512) : Nat := f512 x 0x20 0 16
def cardNsucc (x : BitVec 512) : Nat := f512 x 0x22 0 8
def cardNops (x : BitVec 512) : Nat := f512 x 0x23 0 8
def cardPool (x : BitVec 512) : Nat := f512 x 0x24 0 32
def cardPbase (x : BitVec 512) : Nat := f512 x 0x28 0 32
def cardPlen (x : BitVec 512) : Nat := f512 x 0x2C 0 32
def cardDone (x : BitVec 512) : Nat := f512 x 0x30 0 64
def cardDeps (x : BitVec 512) : Nat := f512 x 0x38 0 64
/-- Successors of a dependence block: job-queue index and slot (R282). -/
def depSucc (x : BitVec 512) (n : Nat) : Nat × Nat := (f512 x (4 * n) 20 12, f512 x (4 * n) 0 20)
/-- Operand identities of a dependence block. -/
def depOp (x : BitVec 512) (n : Nat) : Word := BitVec.ofNat 64 (f512 x (0x20 + 8 * n) 0 64)

/-- A job queue as the QC holds it. -/
def Device.jobQ (d : Device) (qid : Nat) : Queue := tget .off d.queues qid

/-- A card in the SUCC format of R282, as holder or reserver of a key (R303). -/
def Device.cardRef (d : Device) (qid : Nat) (ctr : BitVec 32) : BitVec 32 :=
  BitVec.ofNat 32 (qid * 2 ^ 20 + ctr.toNat % (d.jobQ qid).slots)

/-- The key-table entries of a card, each once (R303). -/
def Device.keysOf (d : Device) (c : Card) : List Nat :=
  let t := tenantOf d.rcbs c.region
  let base := rcbF d.rcbs t 0xE 0 12
  let kv := rcbF d.rcbs t 0xE 12 4
  (((List.range 4).filter fun m => cardKv c.bytes m).map fun m => base + cardKey c.bytes m % 2 ^ kv).foldl
    (fun l k => if l.contains k then l else l ++ [k]) []

/-- The card read from slot of counter `ctr`. -/
def Device.findCard (d : Device) (qid : Nat) (ctr : BitVec 32) : Option Card :=
  d.disp.cards.find? fun c => c.qid = qid && c.ctr = ctr
/-- A card replaced. -/
def Device.setCard (d : Device) (c : Card) : Device :=
  { d with disp := { d.disp with cards := d.disp.cards.map fun x =>
      if x.qid = c.qid && x.ctr = c.ctr then c else x } }

/-- The keys a card holds or reserves released; a key released makes a dispatch round due (R26, R34, R304). -/
def Device.releaseKeys (d : Device) (qid : Nat) (ctr : BitVec 32) : Device :=
  let r := d.cardRef qid ctr
  let f := fun (k : Key) =>
    let k := if k.held && k.holder = r then { k with held := false, holder := 0 } else k
    if k.reserved && k.reserver = r then { k with reserved := false, reserver := 0 } else k
  { d with disp := { d.disp with
      keys := (d.disp.keys.map fun e => (e.1, f e.2)).filter fun e => e.2 != .free
      due := d.disp.due || d.disp.keys.any fun e => f e.2 != e.2 } }

/-- The side-array entry of a slot (R285). -/
def Device.sideRead (d : Device) (qid slot : Nat) : Option Nat :=
  let q := d.jobQ qid
  (d.hwRead q.region (f512 q.desc 0x20 0 64 + 4 * slot) 4).map ofBytes
/-- A side-array entry written; a failed write disables the queue (R379). -/
def Device.sideWriteTo (d : Device) (qid slot v : Nat) : Device :=
  let q := d.jobQ qid
  let va := f512 q.desc 0x20 0 64 + 4 * slot
  match d.hwWrite q.region va (bytesOf 4 v) with
  | some d' => d'
  | none => d.queueFailed qid q.head (d.hwOutcome q.region va 1)

/-- Cards in key-wait (R286). -/
def Device.inKeyWait (d : Device) : Nat := (d.disp.cards.filter fun c => c.st = .keyWait).length

/-- Some card of the published range of a card is still to be read (R361). -/
def Device.rangeOpen (d : Device) (qid : Nat) (ctr : BitVec 32) : Bool :=
  d.disp.ranges.any fun r => r.qid = qid && (ctr - r.first).toNat < r.count

/-- A card whose count is 0 enters key-wait while there is room, once every card of its published range has been read;
that makes a dispatch round due (R25, R34, R286, R361). -/
def Device.toKeyWait (d : Device) (c : Card) : Device :=
  if d.inKeyWait < 4096 && !d.rangeOpen c.qid c.ctr then
    let d := d.setCard { c with st := .keyWait, kwOrder := d.disp.rounds }
    { d with disp := { d.disp with due := true } }
  else d

/-- A side-array entry can be written. -/
def Device.sideWrites (d : Device) (qid slot : Nat) : Bool :=
  (d.hwWrite (d.jobQ qid).region (f512 (d.jobQ qid).desc 0x20 0 64 + 4 * slot) []).isSome

/-- A decrement to the slot of a successor; a card whose entry cannot be written keeps its state (R285, R379). -/
def Device.decrement (d : Device) (qid slot : Nat) : Device :=
  match d.sideRead qid slot with
  | none => d.queueFailed qid (d.jobQ qid).head (d.hwOutcome (d.jobQ qid).region
      (f512 (d.jobQ qid).desc 0x20 0 64 + 4 * slot) 0)
  | some e =>
    let v := fld e 0 16
    if fld e 31 1 = 0 then d.sideWriteTo qid slot (min 0xFFFF (v + 1))
    else
      let d1 := d.sideWriteTo qid slot (2 ^ 31 + (v - 1))
      if v = 1 && d.sideWrites qid slot then
        match d1.disp.cards.find? fun c => c.qid = qid && c.st = .waiting && c.ctr.toNat % (d.jobQ qid).slots = slot with
        | some c => d1.toKeyWait c
        | none => d1
      else d1

/-- The card of a counter as it stands in its ring. -/
def Queue.card (q : Queue) (qid : Nat) (ctr : BitVec 32) (x deps : BitVec 512) : Card :=
  { qid, ctr, bytes := x, deps, region := q.region, st := .waiting, refused := 0, kwOrder := 0, rdOrder := 0, cap := 0,
    next := 0, redeal := [], live := 0 }

/-- A card is finished with (R286). -/
def Card.finished (c : Card) : Bool := c.st = .complete || c.st = .cancelled

/-- The completion of a card is still to be made: its word is held (R379). -/
def Device.owes (d : Device) (qid : Nat) (ctr : BitVec 32) : Bool := d.disp.owed.any fun o => o.qid = qid && o.ctr = ctr

/-- HEAD moved past finished cards whose completions are made, their side entries zeroed and their records dropped (R285,
R286); a disabled queue has HEAD written back as it moves (R281). `n` bounds the cards passed. -/
def Device.advanceHead : Nat → Nat → Device → Device
  | 0, _, d => d
  | n + 1, qid, d =>
    let q := d.jobQ qid
    let side := f512 q.desc 0x20 0 64 + 4 * (q.head.toNat % q.slots)
    match d.disp.cards.find? fun c => c.qid = qid && c.ctr = q.head with
    | some c =>
      if !(c.finished && q.head != q.cclaim && !d.owes qid q.head) then d
      else
        match if q.en then d.hwHold (opHead qid) q.region side 1 else (false, d) with
        | (true, d) => d
        | (false, d) =>
          let q1 := { q with head := q.head + 1 }
          let d := { d with disp := { d.disp with cards := d.disp.cards.filter fun x =>
                                        !(x.qid = qid && x.ctr = q.head) },
                            queues := tset .off d.queues qid q1 }
          advanceHead n qid (if q.en then (d.sideWriteTo qid (q.head.toNat % q.slots) 0).hwForget (opHead qid)
                             else d.backCounters qid q1)
    | none => d

/-- Cards read of one queue bound how far HEAD can move. -/
def Device.settleHead (d : Device) (qid : Nat) : Device := d.advanceHead d.disp.cards.length qid

/-! ### Completions -/

/-- The completion word of a card: its status, the reason of a failure, its counter (R284, R377). -/
def doneWord (status reason : Nat) (ctr : BitVec 32) : Nat := status * 2 ^ 56 + reason * 2 ^ 48 + ctr.toNat

/-- The completion a DONE field selects, made: a semaphore of a core, a memory word, or none (R284). One that cannot be
made posts an event (R379). -/
def State.signalDone (s : State) (o : Owed) : State :=
  let done := o.done
  if fld done 62 2 = 1 then
    let n := fld done 8 8
    let i := fld done 0 8
    let inc := fld done 16 8
    let c := s.coreAt n
    let ok := (match c.run with | some r => decide (r.ks.toNat = ksOf s.dev.rcbs o.region) | none => false)
      && decide ((c.semOf i).v.toNat + inc ≤ (c.semOf i).ceil.toNat)
    if ok then s.setCoreAt n (c.setSemV i ((c.semOf i).v.toNat + inc))
    else { s with dev := s.dev.event (.semDropped n i) }
  else if fld done 62 2 = 2 then
    match s.dev.hwWrite o.region (fld done 0 48) (bytesOf 8 (doneWord o.status o.reason o.ctr)) with
    | some d => { s with dev := d }
    | none => { s with dev := s.dev.event (.doneFault o.qid o.ctr) }
  else s

/-- The memory word of a completion, as an access. -/
def doneAccess (region done : Nat) : List (Nat × Nat × Nat) :=
  if fld done 62 2 = 2 then [(region, fld done 0 48, 1)] else []

/-- A completion, with the event that says so, where its word is not held: whether it waits (R231, R284, R379). -/
def State.makeDone (s : State) (o : Owed) : Bool × State :=
  match s.dev.hwWaits (opDone o.qid o.ctr) (doneAccess o.region o.done) with
  | (true, d) => (true, { s with dev := d })
  | (false, d) =>
    let s := { s with dev := d.event (.cardDone o.qid o.ctr (BitVec.ofNat 8 o.status)) }.signalDone o
    (false, { s with dev := s.dev.hwForget (opDone o.qid o.ctr) })

/-- The completion of a cancelled or retired card, and then its keys and HEAD: it waits while its word is held, and those
of its queue that come after it wait with it (R24, R27, R286, R379). -/
def State.finishCard (s : State) (o : Owed) : State :=
  let owe := fun (s : State) =>
    { s with dev := { s.dev with disp := { s.dev.disp with owed := s.dev.disp.owed ++ [o] } } }
  if s.dev.disp.owed.any fun x => x.qid = o.qid then owe s
  else
    match s.makeDone o with
    | (true, s) => owe s
    | (false, s) => { s with dev := (s.dev.releaseKeys o.qid o.ctr).settleHead o.qid }

/-- The completions that are owed, tried again in their order (R379). -/
def State.payOwed (s : State) : State :=
  s.dev.disp.owed.foldl (fun s o => s.finishCard o)
    { s with dev := { s.dev with disp := { s.dev.disp with owed := [] } } }

/-- The side-array entry of a slot, as accesses. -/
def Device.sideAccess (d : Device) (qid slot : Nat) : List (Nat × Nat × Nat) :=
  let q := d.jobQ qid
  let va := f512 q.desc 0x20 0 64 + 4 * slot
  [(q.region, va, 0), (q.region, va, 1)]

/-- The accesses that the completion of a card makes (R27, R284, R285). -/
def Device.completionAccess (d : Device) (c : Card) : List (Nat × Nat × Nat) :=
  doneAccess c.region (cardDone c.bytes)
    ++ (List.range (cardNsucc c.bytes)).flatMap fun i => d.sideAccess (depSucc c.deps i).1 (depSucc c.deps i).2

/-- What the completion of a card says. -/
def Card.owed (c : Card) (status reason : Nat) : Owed :=
  { region := c.region, qid := c.qid, ctr := c.ctr, done := cardDone c.bytes, status, reason }

/-- Completion of a card none of whose accesses is held, in the order of R27: its signal, its keys, its successors; then
HEAD (R286). -/
def State.completeCard (s : State) (c : Card) : State :=
  let s := { s with dev := s.dev.event (.cardDone c.qid c.ctr 0) }.signalDone (c.owed 0 0)
  let d := (s.dev.releaseKeys c.qid c.ctr).setCard { c with st := .complete }
  let d := upTo (cardNsucc c.bytes) (fun i d => d.decrement (depSucc c.deps i).1 (depSucc c.deps i).2) d
  { s with dev := d.settleHead c.qid }

/-- A card Cancelled: its keys are released with it, and none of its runs stays checkpointed (R26). -/
def Device.cancelled (d : Device) (c : Card) : Device :=
  let d := (d.setCard { c with st := .cancelled }).releaseKeys c.qid c.ctr
  { d with disp := { d.disp with ckpts := d.disp.ckpts.filter fun k => !(k.run.qid = c.qid && k.run.ctr = c.ctr) } }

/-- Cancellation of cards, and of their successors in turn (R24, R27); `n` bounds the cards cancelled. A successor
not read yet is cancelled when it is. DESIGN CHOICE (log 114): runs that a cancelled successor has on cores go on to their
end, for R24 kills only the runs of the failed domain; one that is checkpointed is not resumed. -/
def State.cancelCards : Nat → List (Nat × BitVec 32 × Nat) → State → State
  | 0, _, s => s
  | _, [], s => s
  | n + 1, (qid, ctr, reason) :: rest, s =>
    match s.dev.findCard qid ctr with
    | none => cancelCards n rest s
    | some c =>
      if c.finished then cancelCards n rest s
      else
        let s := { s with dev := s.dev.cancelled c }.finishCard (c.owed 10 reason)
        let d := s.dev
        let succ := (List.range (cardNsucc c.bytes)).map fun i => depSucc c.deps i
        let find := fun (x : Nat × Nat) =>
          d.disp.cards.find? fun k => k.qid = x.1 && k.ctr.toNat % (d.jobQ x.1).slots = x.2 && !k.finished
        let known := succ.filterMap fun x => (find x).map fun k => (k.qid, k.ctr, 2)
        let unread := (succ.filter fun x => (find x).isNone).map fun x => { qid := x.1, slot := x.2, reason := 2, waits := none }
        let d := { d with disp := { d.disp with doomed := d.disp.doomed ++ unread } }
        cancelCards n (known ++ rest) { s with dev := d }

/-! ### Run ends that lose the core -/

/-- Dirty L1 bytes of a core written back (R213). -/
def Device.pushCore (d : Device) (c : Core) : Device := c.l1.foldl (fun d l => d.l1Push l) d

/-- An engine at run start: nothing queued, no chain, numbers from the beginning (R329). -/
def Engine.clear (_ : Engine) : Engine := .idle

/-- A core with everything scrubbed that a switch scrubs (R38): pool but for `[keepLo, keepHi)`, accumulators,
tape buffers and the run's registers (R29, R175). -/
def Core.scrubbed (c : Core) (keepLo keepHi : Nat) : Core :=
  let r := Core.reset c.num
  let pool := { c.pool with bytes := c.pool.bytes.filter fun e => keepLo ≤ e.1 && e.1 < keepHi,
                            full := c.pool.full.filter fun e => keepLo ≤ 16 * e.1 && 16 * e.1 < keepHi,
                            tag := c.pool.tag.filter fun e => keepLo ≤ 16 * e.1 && 16 * e.1 < keepHi,
                            pois := c.pool.pois.filter fun e => keepLo ≤ 16 * e.1 && 16 * e.1 < keepHi,
                            wrec := c.pool.wrec.filter fun e => keepLo ≤ 16 * e.1 && 16 * e.1 < keepHi,
                            own := c.pool.own.filter fun e => keepLo ≤ 16 * e.1 && 16 * e.1 < keepHi }
  { r with pool := pool, sys := { c.sys with slip := c.sys.slip }, cyc := c.cyc, clock := c.clock,
           lastRun := c.lastRun, run := c.run }

/-- TAIL and FIDX as a chain's write-back stores them (R297). -/
def Chain.backBytes (x : Chain) : List Byte := bytesOf 4 x.tail.toNat ++ bytesOf 4 x.fidx.toNat
/-- The address a chain is written back at (R296). -/
def Chain.backVa (x : Chain) : Nat := x.desc.toNat + 0x10

/-- The walk of a chain's write-back: a write by the engine in the run's translation context (R297, R308). -/
def State.backXl (s : State) (e : Eng) : Xl × State :=
  let va := (s.core.eng e).chain.backVa
  if s.dev.stale s.core.region va then (.fail 5 0, s)
  else if s.heldOpen (agentNo e) va 1 then (.held, s)
  else if s.heldFailed (agentNo e) va 1 then (.fail 4 3, s.heldDone (agentNo e) va 1)
  else s.walkFor (agentNo e) va 1
/-- The write-back of the chain of engine `e`, made where it translates (R297). -/
def State.chainBack (s : State) (e : Eng) : Xl × State :=
  match s.backXl e with
  | (.ok pa p, s1) => (.ok pa p, s1.engWrite p pa (s1.core.eng e).chain.backBytes fun _ => false)
  | r => r
/-- The write-back of the chain of engine `e` waits: with what its walker did (R297). -/
def State.backHeld (s : State) (e : Eng) : Option State :=
  if (s.core.eng e).chain.active then
    match s.backXl e with
    | (.held, s1) => some s1
    | _ => none
  else none
/-- A write-back of some chain of the focused core waits. -/
def State.backsHeld (s : State) : Option State := engs.findSome? fun e => s.backHeld e

/-- The chain of engine `e` of the focused core dropped: TAIL and FIDX are written back where they can be, else an event
names it. Nothing is held or posted for it: where a held write-back is waited for, that has been done (R297, R373). -/
def State.dropChain (s : State) (e : Eng) : State :=
  let x := (s.core.eng e).chain
  let va := x.backVa
  if x.active then
    match (if s.heldFailed (agentNo e) va 1 then .fail 4 3 0 else s.dev.walkIn s.core.region va 1) with
    | .ok p _ l => s.engWrite p (pagePa p l va) x.backBytes fun _ => false
    | .dirty p a l => { s with dev := s.dev.setD a }.engWrite (setBit p 9 true) (pagePa p l va) x.backBytes fun _ => false
    | _ => { s with dev := s.dev.event (.chainDrop s.core.num (engNum e) x.desc) }
  else s

/-- The chains of the focused core dropped. -/
def State.dropChains (s : State) : State := engs.foldl (fun s e => s.dropChain e) s

/-- Something done on core `n`, with the focus back where it was. -/
def State.onCore (s : State) (n : Nat) (f : State → State) : State := (f (s.focus n)).focus s.core.num

/-- The pair of stream slot and layer group a CMU command names, as the CMU's tables number it (R316, R331). -/
def cmuPair (bits : CmdWord) : Nat := bfld bits 76 8 + 256 * bfld bits 84 4

/-- A command of core `n` out of its scan pipe (R18). -/
def Device.leavePipe (d : Device) (n : Nat) : Device :=
  { d with pipes := d.pipes.filter fun e => e.1 ≠ n, served := d.served.filter fun m => m ≠ n }
/-- What the command at the head of a core's CMU queue holds, dropped: its place in the scan pipe, and the busy bit of a
CMSCAN or CMRESET whose work is done and which has not completed (R18, R332, R336). -/
def Device.cmuFree (d : Device) (n : Nat) (x : Engine) : Device :=
  let d := d.leavePipe n
  match x.queue with
  | c :: _ =>
    if x.phase = .done && !x.sig && bfld c.bits 0 8 ≠ 3 then { d with busy := tset false d.busy (cmuPair c.bits) false } else d
  | [] => d

/-- An engine after its run: every number given out is complete or retired, nothing is queued (R188, R329). -/
def Engine.ended (e : Engine) : Engine := { Engine.idle with next := e.next, done := e.next - 1 }

/-- A quarter at a stop: its results are delivered, its wait counter is 0 (R133, R342). -/
def Quarter.atStop (x : Quarter) : Quarter :=
  { x.flush with waitCtr := 0, waitAt := none, late := false, joinB := none, readyAt := 0 }

/-- The core after its run: nothing of it works on, its results in flight delivered; the bytes stay until the switch (R38,
R133). -/
def Core.ended (c : Core) : Core :=
  let n := fun (e : Eng) => BitVec.ofNat 32 ((c.entering.filter fun m => m.2.1 = e).length)
  let c := engs.foldl (fun (c : Core) e => c.setEng e { (c.eng e).ended with next := (c.eng e).next + n e,
                                                                              done := (c.eng e).next + n e - 1 }) c
  let c := c.mapQuarters fun x => { x.atStop with st := .ended, tape := .none }
  { c with run := none, lastRun := c.run, stopping := none, frozen := false, entering := [], mcheck := none, l1 := [] }

/-- The run taken off core `n`: its chains and tape bindings are dropped, its dirty L1 bytes written back (R213, R270,
R297). -/
def State.dropRun (s : State) (n : Nat) : State :=
  s.onCore n fun s =>
    let s := s.dropChains
    { s with dev := (s.dev.pushCore s.core).cmuFree s.core.num s.core.cmu, core := s.core.ended }

/-- The core freed with nothing resident, as after an escalation (R183, R213). -/
def State.freeCore (s : State) (n : Nat) : State :=
  (s.dropRun n).onCore n fun s => { s with core := { (s.core.scrubbed 0 0) with run := none, lastRun := none } }

/-- VTIME of class `k` of an RCB, in the cached copy and in memory (R301, R33). -/
def Device.rcbPut (d : Device) (i off n v : Nat) : Device :=
  let d := { d with rcbs := tput d.rcbs i (setBits (tget 0 d.rcbs i) (8 * off) (8 * n) v),
                    disp := { d.disp with rcbs := tput d.disp.rcbs i
                                                    (setBits (tget 0 d.disp.rcbs i) (8 * off) (8 * n) v) } }
  d.put (d.plat.rcbbase.toNat + 256 * i + off) (bytesOf n v)

/-- VTIME of class `k`. -/
def Device.vtime (d : Device) (i k : Nat) : Nat := rcbF d.rcbs i (0x60 + 8 * k) 0 64

/-- Virtual time of a run's region and of each ancestor below the root raised by what it occupied since it was last
charged (R33): cycles, or dispatch rounds in deterministic mode (R353). Class and weight are the effective ones (R302). -/
def Device.chargeRun (d : Device) (r : Run) (runcyc : Nat) : Device :=
  let used := if d.plat.mode.getLsbD 1 then d.disp.rounds - r.round else runcyc - r.charged
  let k := effClass d.disp.rcbs r.region
  ((rcbPath d.disp.rcbs r.region).filter (· ≠ 0)).foldl (fun d i =>
    let w := max 1 (effWeight d.disp.rcbs i)
    d.rcbPut i (0x60 + 8 * k) 8 ((d.vtime i k + used * 65536 / w) % 2 ^ 64)) d

/-- An operation outside the cores is made for the run of core `n`: an instruction of its quarters, or the saving of its
image. -/
def runOp (n op : Nat) : Bool := op = opSave n || [0, 1, 2, 3].any fun q => op = opQuarter n q
/-- A held access is one of the run of core `n` (R295). -/
def Held.ofRun (h : Held) (n : Nat) : Bool := h.core = n || (h.core = outsideCore && runOp n h.op)
/-- What was held of the work of core `n` is held no more, and none of its operations waits on a queue. -/
def Device.dropCoreHolds (d : Device) (n : Nat) : Device :=
  { d with holds := d.holds.filter fun h => !h.ofRun n, qcWait := d.qcWait.filter fun e => !runOp n e.2 }
/-- An access of the run of core `n` is held (R295). -/
def Device.runHeld (d : Device) (n : Nat) : Bool := d.holds.any fun h => h.ofRun n && h.failed = none

/-- A run killed on core `n`: its queued commands are retired without effect, nothing of it stays but its memory
effects (R37, R188); its time is charged. -/
def State.killRun (s : State) (n : Nat) : State :=
  let c := s.coreAt n
  match c.run with
  | none => s
  | some r => { s with dev := (s.dev.chargeRun r c.runcyc.toNat).dropCoreHolds n }.dropRun n

/-- Cores that hold a run, in ascending number. -/
def State.busyCores (s : State) : List Nat := (List.range 132).filter fun n => (s.coreAt n).run.isSome

/-- Regions of the fault domain of a region, by the effective values (R24, R302). -/
def Device.inDomain (d : Device) (dom i : Nat) : Bool := rcbValid d.disp.rcbs i && domainOf d.disp.rcbs i = dom

/-- FAILED set in an RCB, in the cached copies and in memory, where no other bit of its byte is written (R24, R301). -/
def Device.rcbSetFailed (d : Device) (i : Nat) : Device :=
  let f := fun (t : Rcbs) => tput t i (setBit (tget 0 t i) 18 true)
  let a := d.plat.rcbbase.toNat + 256 * i + 2
  { d with rcbs := f d.rcbs, disp := { d.disp with rcbs := f d.disp.rcbs } }.put a [(d.read1 none a).1 ||| 4]

/-- The counters that are published on the queues of a domain and not read yet (R24, R25). -/
def Device.unread (d : Device) (members : List Nat) : List (Nat × Queue × BitVec 32) :=
  (d.queues.filter fun e => e.1 < 4096 && e.2.en && members.contains e.2.region).flatMap fun e =>
    ((List.range (e.2.tail - e.2.cclaim).toNat).map fun k => (e.1, e.2, e.2.cclaim + BitVec.ofNat 32 k)).filter
      fun x => (d.findCard x.1 x.2.2).isNone

/-- The cards of a domain that are Queued, as their check found them (R24, R25, R283). -/
def Device.queuedOf (d : Device) (members : List Nat) : List Card :=
  (d.unread members).filterMap fun x =>
    (d.disp.checked.find? fun y => y.qid = x.1 && y.ctr = x.2.2).map fun y =>
      { x.2.1.card x.1 x.2.2 y.bytes y.deps with st := .queued }

/-- Those of which the check is still to be made: they are cancelled when they are read. -/
def Device.uncheckedOf (d : Device) (members : List Nat) (reason : Nat) (waits : Option Nat) : List Doomed :=
  ((d.unread members).filter fun x => !d.disp.checked.any fun y => y.qid = x.1 && y.ctr = x.2.2).map fun x =>
    { qid := x.1, slot := x.2.2.toNat % x.2.1.slots, reason, waits }

/-- The run of core `n` is to be killed for the failure of its domain: the accesses held for it are abandoned, and a command
that waited for one of them is begun no more (R24, R373, R377). -/
def State.failRun (s : State) (by' : Option Nat) (n : Nat) : State :=
  let c := s.coreAt n
  let gone := fun (e : Eng) => s.dev.holds.any fun h => h.core = n && h.agent = agentNo e
  let c := engs.foldl (fun (c : Core) e =>
    if gone e then c.setEng e { c.eng e with phase := if (c.eng e).phase = .passed then .waiting else (c.eng e).phase }
    else c) c
  { s with dev := s.dev.dropCoreHolds n }.setCoreAt n { c with stopping := some (.fail by') }

/-- The failure of a fault domain (R24, R302, R373, R377): FAILED in every RCB, the accesses held for its runs abandoned, its runs
to be killed without re-dealing, its cards cancelled, the Queued ones among them, keys and pins released. -/
def State.failDomain (s : State) (region reason : Nat) (by' : Option Nat) : State :=
  let dom := domainOf s.dev.disp.rcbs region
  let members := (s.dev.disp.rcbs.map Prod.fst).filter fun i => s.dev.inDomain dom i
  let d := members.foldl (fun d i => d.rcbSetFailed i) s.dev
  let resumes := fun (h : Held) => h.core = outsideCore && (List.range 132).any fun n => h.op = opResume n
  let d := { d with pins := d.pins.filter fun p => !members.contains p.region }
  let s := (s.busyCores.filter fun n => members.contains (s.coreAt n).region).foldl (fun s n => s.failRun by' n)
    { s with dev := d }
  let d := { s.dev with holds := s.dev.holds.filter fun h =>
    !(members.contains h.rcb && (h.core ≠ outsideCore || resumes h)) }
  let new := d.queuedOf members
  let d := { d with disp := { d.disp with
    ckpts := d.disp.ckpts.filter fun k => !members.contains k.run.region
    doomed := d.disp.doomed ++ d.uncheckedOf members reason by'
    cards := d.disp.cards ++ new } }
  let cards := (d.disp.cards.filter fun c => members.contains c.region && !c.finished).map
    fun c => (c.qid, c.ctr, reason)
  { s with dev := d.postWaiting }.cancelCards (9 * (d.disp.cards.length + 1)) cards

/-- An act done again and remembered, the failure of a domain among them (R302). -/
def State.acted (s : State) (a : WalkAct) : State :=
  match a with
  | .fail region reason op =>
    let s := s.failDomain region reason (some op)
    { s with core := { s.core with issue := { s.core.issue with walks := s.core.issue.walks ++ [a] } } }
  | _ => s.walked a

end Sys2Proof.Machine
end

