-- ==== Sys2Proof/Machine/Ops.lean ====
section
/-! DEFINITION. The shared operations of the meanings: engines and their queues, traps and their return, holds,
releases, and a quarter's access to memory. -/

namespace Sys2Proof.Machine

/-! ### Engine queues -/

/-- SLIP.LIMIT (R179). -/
def Core.slipLimit (c : Core) : Nat := bfld c.sys.slip 0 7
/-- A fault after the work is recorded and awaits RTE, its FLT cleared or not: only the signal remains (R178, R185). -/
def Engine.sigStop (e : Engine) : Bool := e.sig && e.cause != 0
/-- The engine has stopped: it has no started command left (R180). -/
def Engine.stopped (e : Engine) : Bool := e.flt || e.sigStop || e.phase = .waiting || e.queue.isEmpty
/-- Every engine has stopped. -/
def Core.enginesStopped (c : Core) : Bool := engs.all fun e => (c.eng e).stopped
/-- Every engine queue is empty, and no command is about to enter one (R32, R173, R226). -/
def Core.enginesEmpty (c : Core) : Bool := c.entering.isEmpty && engs.all fun e => (c.eng e).queue.isEmpty

/-- The run's fault domain has failed (R24). -/
def Core.failing (c : Core) : Bool := match c.stopping with | some (.fail _) => true | _ => false
/-- The streams have stopped for a checkpoint or kill: its window is open, and for a checkpoint no engine is stopped on
a fault (R188). DEDUCED (log 125): the kill of a run whose domain fails waits for no window, for R188 defers what the
dispatcher decides. -/
def Core.stopsNow (c : Core) : Bool :=
  match c.stopping with
  | none => false
  | some (.fail _) => true
  | some .kill => c.trapEn
  | some (.ckpt _) => c.trapEn && engs.all fun e => !(c.eng e).flt
/-- An engine may start a command: not while a handler runs (R180, R182), nor for a kill; the queued commands complete
for a checkpoint (R188). -/
def Core.mayStart (c : Core) : Bool :=
  if c.stopsNow then (match c.stopping with | some (.ckpt _) => true | _ => false) else !c.frozen

/-- A command with the swizzle table and its quarter's epoch as they stand (R223, R314); its number comes on entry. -/
def Core.cmdOf (c : Core) (bits : CmdWord) (inl : Bool) (q : BitVec 2) (caps : Tab CapWord) (follow : Option CmdWord)
    (line : Word) : Cmd :=
  { bits, seq := 0, inline := inl, q, caps, swz := c.swz, epoch := c.race.curOf q.toNat, follow, line }
/-- A command entering a queue takes the next number (R75). -/
def Core.enterCmd (c : Core) (e : Eng) (m : Cmd) : Core :=
  let x := c.eng e
  c.setEng e { x with queue := x.queue ++ [{ m with seq := x.next }], next := x.next + 1 }
/-- A command made and entered at once: from a chain line, or as a follow-on (R75). -/
def Core.enqueue (c : Core) (e : Eng) (bits : CmdWord) (inl : Bool) (q : BitVec 2) (caps : Tab CapWord)
    (follow : Option CmdWord) (line : Word) : Core :=
  c.enterCmd e (c.cmdOf bits inl q caps follow line)
/-- The inline commands whose cycle has come enter their queues, in the order of issue (R71, R173). -/
def Core.enterBy (c : Core) (t : Nat) : Core :=
  if c.entering = [] then c
  else
    let c1 := (c.entering.filter fun m => m.1 < t).foldl (fun (c : Core) m => c.enterCmd m.2.1 m.2.2) c
    { c1 with entering := c.entering.filter fun m => t ≤ m.1 }
/-- Every issued command enters, as at a stop (R180). -/
def Core.enterAll (c : Core) : Core :=
  { (c.entering.foldl (fun (c : Core) m => c.enterCmd m.2.1 m.2.2) c) with entering := [] }
/-- Commands in the queue of an engine and on their way to it (R179). -/
def Core.queued (c : Core) (e : Eng) : Nat := (c.eng e).queue.length + (c.entering.filter fun m => m.2.1 = e).length

/-- OUT of an engine: the commands in its queue, or what CTXLOAD put there (R178, R190). -/
def Engine.outNow (e : Engine) : Nat := (e.out.map BitVec.toNat).getD (e.queue.length % 256)
/-- The register TCUTn of an engine (R178). -/
def Engine.tcut (e : Engine) : Word :=
  BitVec.ofNat 64 (e.done.toNat + 2 ^ 40 * e.outNow + 2 ^ 48 * e.cause.toNat
    + 2 ^ 59 * e.lf.toNat + 2 ^ 60 * e.wp.toNat + 2 ^ 61 * e.sig.toNat + 2 ^ 62 * e.skip.toNat
    + 2 ^ 63 * e.flt.toNat)
/-- What an engine that is not stopped shows (R178). -/
def Engine.tcutLive (e : Engine) : Word :=
  BitVec.ofNat 64 (e.done.toNat + 2 ^ 40 * e.outNow + 2 ^ 62 * e.skip.toNat)

/-- A performance counter raised (R343). -/
def Core.count (c : Core) (i n : Nat) : Core :=
  { c with perf := tset 0 c.perf i (tget 0 c.perf i + BitVec.ofNat 64 n) }
/-- A performance counter of the focused core raised. -/
def State.count (s : State) (i n : Nat) : State := s.modCore fun c => c.count i n

/-! ### Traps -/

/-- Cause codes (R181). -/
def Cause.code : Cause → Nat
  | .illegal => 0x01
  | .illprefix => 0x02
  | .priv => 0x03
  | .capfault => 0x04
  | .xlate => 0x05
  | .mmx => 0x06
  | .poison => 0x07
  | .accbusy => 0x08
  | .loopmax => 0x09
  | .waitlong => 0x0A
  | .semovf => 0x0B
  | .tapeovf => 0x0C
  | .tapelost => 0x0D
  | .tapediv => 0x0E
  | .command => 0x0F
  | .swtrap => 0x10
  | .mcheck => 0x11
  | .ctxbad => 0x12

/-- The core record of a fatal dump (R354). -/
def Core.dumpRec (c : Core) : List Byte :=
  bytesOf 2 c.num ++ bytesOf 2 (match c.run with | some r => r.region | none => 0xFFFF) ++ bytesOf 4 0
    ++ bytesOf 8 c.tr.tstat.toNat ++ bytesOf 8 c.tr.tcause.toNat
    ++ (List.range 4).flatMap (fun k => bytesOf 8 (tget 0 c.tr.tepc k).toNat)
    ++ (List.range 4).flatMap (fun k => bytesOf 8 (tget 0 c.tr.tinfo k).toNat)
    ++ bytesOf 8 c.tr.tldm.toNat ++ bytesOf 8 c.tr.meprog.toNat
    ++ engs.flatMap (fun e => bytesOf 8 (c.eng e).tcut.toNat) ++ bytesOf 112 0

/-- An entry appended to the fatal dump ring of 64 entries of 64 KiB (R354). -/
def State.fatalDump (s : State) (kind : Nat) (cores : List Nat) : State :=
  let p := s.dev.plat
  let a := p.dumpptr.toNat + 65536 * (p.dumps % 64)
  let b := bytesOf 4 0x00010002 ++ bytesOf 4 kind ++ bytesOf 8 s.dev.time.toNat ++ bytesOf 8 p.devid.toNat
    ++ bytesOf 8 p.fwif.toNat ++ bytesOf 4 cores.length ++ bytesOf 28 0
    ++ cores.flatMap fun n => (s.coreAt n).dumpRec
  let d := { s.dev with mem := tclear s.dev.mem a (a + 65536), tag := tclear s.dev.tag (a / 16) (a / 16 + 4096),
                        pois := tclear s.dev.pois (a / 64) (a / 64 + 1024), l2p := tclear s.dev.l2p (a / 64) (a / 64 + 1024), blocks := tclear s.dev.blocks (a / 4096) (a / 4096 + 16),
                        plat := { p with dumps := p.dumps + 1 } }
  { s with dev := d.put a b }

/-- The device becomes fatal: BOOTSTAT.STATE 3 and a dump of every core (R183, R347, R354). -/
def State.goFatal (s : State) (kind : Nat) : State :=
  let s := s.fatalDump kind (List.range 132)
  { s with dev := { s.dev with plat := { s.dev.plat with bootstat := setBits s.dev.plat.bootstat 0 2 3 } } }

/-- Escalation of a trap (R183): on a tile core the run's fault domain fails, the core's state is dumped and the core is
scrubbed; on a service core the device is fatal. A machine check is dumped as one (R354; log 105). -/
def State.escalate (s : State) (cause : Cause) : State :=
  let s := { s with dev := s.dev.event (.escalation s.core.num) }
  let kind := fun (k : Nat) => if cause = .mcheck then 2 else k
  if s.core.isService then s.goFatal (kind 1)
  else
    let s := s.fatalDump (kind 0) [s.core.num]
    let n := s.core.num
    let s := s.failDomain s.core.region 1 none
    (if (s.coreAt n).run.isSome then s.killRun n else s).freeCore n

/-- The region whose trap vector table and translation a core uses (R321). -/
def Core.trapRegion (c : Core) : Nat := if c.isService then 0 else c.region

/-- The trap vector table in use: the run's, as it was effective when the run took the core; the root's for firmware
that is no run (R302, R321). -/
def State.tvtNow (s : State) : Nat := if s.core.run.isSome then s.core.tvt else effTvt s.dev.disp.rcbs s.core.trapRegion

/-- The handler address for a cause (R321): its own entry, else entry 0; none when the table cannot serve. -/
def State.handlerFor (s : State) (code : Nat) : Option Nat :=
  let r := s.core.trapRegion
  let tvt := s.tvtNow
  if tvt = 0 then none
  else
    match s.dev.hwRead r (tvt + 8 * code) 8, s.dev.hwRead r tvt 8 with
    | some a, some z => if ofBytes a ≠ 0 then some (ofBytes a) else if ofBytes z ≠ 0 then some (ofBytes z) else none
    | some a, none => if ofBytes a ≠ 0 then some (ofBytes a) else none
    | none, _ => none

/-- The 64 bytes of the code line at a physical address. -/
def Device.codeLine (d : Device) (p : Word) (pa : Nat) : BitVec 512 :=
  BitVec.ofNat 512 (ofBytes ((List.range 64).map fun i => (d.read1 (some p) (pa / 64 * 64 + i)).1))
/-- The 64 bytes of the code line of an address: the line buffer, else memory translated for fetch; none when
that does not translate (R63, R211). -/
def State.lineNow (s : State) (a : Nat) : Option (BitVec 512) :=
  match tfind s.core.lines (a / 64) with
  | some l => some l
  | none =>
    match s.dev.walkIn s.core.region a 2 with
    | .ok p _ l => some (s.dev.codeLine p (pagePa p l a))
    | _ => none

/-- OWNER of a line (R61). -/
def ownerOf (l : BitVec 512) : Nat := bfld l 28 4

/-- The stopped streams' addresses: joint, the same address four times; forked, each strand's (R177). -/
def Core.stopPcs (c : Core) : Tab Word :=
  let a := fun (k : Nat) => if c.joint then c.q0.pc
    else if c.pmask.getLsbD k then (c.quarter (BitVec.ofNat 2 k)).pc else 0
  upTo 4 (fun k t => tset 0 t k (a k)) []

/-- TSTAT after entry (R176, R182). -/
def entryTstat (c : Core) (t : TrapRec) : Word :=
  let w := c.tr.tstat
  let w := setBits w 28 4 c.pmask.toNat
  let w := setBits w 24 4 c.jsync.toNat
  let w := setBit w 23 c.joint
  let w := setBits w 20 3 (c.depth + 1)
  let w := setBits w 18 2 t.src.toNat
  let w := setBits w 16 2 t.fq.toNat
  let w := setBits w 13 3 t.eng.toNat
  let w := setBit w 11 (c.tr.tstat.getLsbD 9 || c.isService)
  let w := setBit w 10 (c.tr.tstat.getLsbD 8)
  setBit (setBit w 9 true) 8 false

/-- The core after entry for a trap with its handler at `h` (R182): streams stopped and saved, flags saved and
set, the record written, every quarter joint at the handler, which no latency mode holds up, the issued commands in
their queues and the engines frozen (R173, R180). -/
def Core.enter (c : Core) (t : TrapRec) (h : Nat) : Core :=
  let c1 := c.enterAll.mapQuarters fun x => { x.atStop with st := .running, lat := none, viaLink := false, passed := 0 }
  { c1 with
      q0 := { c1.q0 with pc := BitVec.ofNat 64 h },
      tr := { c.tr with
        tstat := entryTstat c t
        tcause := BitVec.ofNat 64 (t.cause.code + 256 * t.sub.toNat)
        tepc := c.stopPcs
        tinfo := tset 0 (tset 0 (tset 0 (tset 0 [] 0 t.info0) 1 t.info1) 2 t.info2) 3 t.info3 }
      pmask := 0, jsync := 0, joint := true, frozen := true, ldArmed := false }

/-- Accesses of the core's quarters that were held are abandoned, and none of its instructions waits on a queue (R308). -/
def Device.dropQuarterHolds (d : Device) (n : Nat) : Device :=
  { d with holds := d.holds.filter fun h => !((h.core = n && h.agent < 4) || (h.core = outsideCore && runOp n h.op)),
           qcWait := d.qcWait.filter fun e => !runOp n e.2 }

/-- Taking a trap (R180 to R183): the one entry every cause goes through. -/
def State.takeTrap (s : State) (t : TrapRec) : State :=
  let s := { s with dev := s.dev.dropQuarterHolds s.core.num }
  let s := if t.cause = .mmx && t.src = 0 then s.count 14 1 else s
  if !s.core.trapEn || 7 ≤ s.core.depth then s.escalate t.cause
  else
    match s.handlerFor t.cause.code with
    | none => s.escalate t.cause
    | some h =>
      if (s.lineNow h).map ownerOf = some 4 then { s with core := s.core.enter t h } else s.escalate t.cause

/-- The state to trap or hold from: the input, with what walkers and failing domains did since kept (R71, R302, R308). -/
def keepWalks (s s' : State) : State :=
  (s'.core.issue.walks.drop s.core.issue.walks.length).foldl (fun s a => s.acted a) s

/-- The trap taken, and remembered in the bundle in issue; beside other strands it is only remembered, until all of
them have had the cycle (R180). -/
def State.trapped (s : State) (t : TrapRec) : State :=
  (if s.core.issue.defer then s else s.takeTrap t).modIssue fun i => { i with stop := some (.trap t) }
/-- The bundle held, and that remembered. -/
def State.held (s : State) (h : Hold) : State := s.modIssue fun i => { i with stop := some (.hold h) }

/-- The outcome of a meaning that can stop. -/
def finish (m : M Unit) (s : State) : Host.Outcome State Fault Refusal :=
  match m s with
  | .ok _ s' => .next s'
  | .error (.trap t) s' => .next ((keepWalks s s').trapped t)
  | .error (.hold h) s' => .next ((keepWalks s s').held h)

/-- A guarded meaning that cannot stop. -/
def pureOp (g : Guard) (f : State → State) (s : State) : Host.Outcome State Fault Refusal :=
  .next (if s.executes g then f s else s)
/-- A guarded meaning that can stop. -/
def guarded (g : Guard) (m : M Unit) (s : State) : Host.Outcome State Fault Refusal :=
  if s.executes g then finish m s else .next s

/-! ### Return -/

/-- TSTAT after RTE (R187). -/
def returnTstat (c : Core) : Word :=
  let w := c.tr.tstat
  let w := setBits w 20 3 (c.depth - 1)
  let w := setBit w 9 (w.getLsbD 11 || c.isService)
  setBit w 8 (w.getLsbD 10)

/-- The chain waits at its tail: every published entry has entered the queue (R296). -/
def Chain.atTail (x : Chain) : Bool := x.active && !x.inEntry && !x.slot && x.fidx == x.tail

/-- A chain ended by SKIP (R185): inactive; the write-back of TAIL and FIDX is the caller's. -/
def Chain.finish (x : Chain) : Chain := { x with active := false }

/-- A POISON that its command met and that has now to be reported: the engine stops before the next command (R167). -/
def Engine.poisoned (e : Engine) : Engine :=
  match e.pend with
  | some t => { e with flt := true, sig := false, wp := false, lf := false, cause := BitVec.ofNat 8 t.cause.code,
                       fault := some t, pend := none }
  | none => e

/-- An engine restarted under R185 when its FLT is 0. A command retired by SKIP completes nothing that its engine's epoch
could order, so cur[E] stays (DESIGN CHOICE, log 126); SKIP on a line fault whose chain has ended clears LF with it, for LF =
1 would say that the engine is stopped still (DESIGN CHOICE, log 127). -/
def Engine.restart (e : Engine) : Engine :=
  if e.flt then e
  else if e.lf then
    if e.skip then { e with lf := false, skip := false, fault := none, cause := 0, out := none }
    else { e with lf := false, fault := none, cause := 0, out := none }
  else if e.skip then
    match e.queue with
    | [] => { e with skip := false, out := none }
    | _ :: r => { e with queue := r, phase := .waiting, done := e.done + 1, skip := false, sig := false,
                         wp := false, cause := 0, fault := none, part := none, rest := none, out := none }.poisoned
  else if e.sig then { e with phase := .done, cause := 0, fault := none, out := none }
  else { e with phase := if e.wp then .passed else e.phase, wp := false, cause := 0, fault := none, out := none }

/-- The XLATE of a chain whose write-back fails (R181, R297). -/
def Chain.backRec (x : Chain) (e : Eng) (reason level : Nat) (seq : BitVec 32) : TrapRec :=
  { cause := .xlate, info0 := BitVec.ofNat 64 x.backVa, info1 := xlInfo 1 level reason, info2 := seq.setWidth 64,
    src := 1, eng := BitVec.ofNat 3 (engNum e) }

/-- The chain of engine `e` ended within a run: inactive, TAIL and FIDX written back, or a line fault to come (R297). A
write-back that is held is waited for first. -/
def State.endChain (s : State) (e : Eng) : State :=
  let x := (s.core.eng e).chain
  let off := fun (s : State) (f : Engine → Engine) =>
    { s with core := s.core.setEng e (f { s.core.eng e with chain := x.finish }) }
  match s.chainBack e with
  | (.ok .., s1) => off s1 id
  | (.fail r l, s1) => off s1 fun y => { y with lpend := some (x.backRec e r l y.next) }
  | (.held, s1) => s1

/-- RTE ends the chain of engine `e` (R185). -/
def Engine.endsChain (x : Engine) : Bool := !x.flt && x.lf && x.skip && x.chain.active

/-- The restart of one engine, with the write-back of a chain it ends. -/
def State.restartEng (s : State) (e : Eng) : State :=
  let x := s.core.eng e
  let prog := !x.flt && !x.lf && x.skip && !x.queue.isEmpty && e = .me
  let s := if x.endsChain then s.endChain e else s
  let c := s.core.setEng e (s.core.eng e).restart
  let c := if prog then { c with tr := { c.tr with meprog := setBit c.tr.meprog 63 false } } else c
  { s with core := c }

/-- The write-back of a chain that RTE ends is held: the state with what its walker did (R297, R308). -/
def State.chainHeld (s : State) (e : Eng) : Option State := if (s.core.eng e).endsChain then s.backHeld e else none

/-- RTE restarts the engines: it returns to no outer handler, in which they start no command still (R182, R185; log 11). -/
def Core.restarts (c : Core) : Bool := c.depth = 1
/-- A release by the four quarters, which each restarted engine acquires (R223, R228). -/
def Core.rteRelease (c : Core) (starts : Bool) : Core :=
  let r := upTo 4 (fun q r => r.release q) c.race
  let r := engs.foldl (fun r e =>
    match engAgent e with
    | some a => if (c.eng e).flt || !starts then r else upTo 4 (fun q r => r.acquire a q (r.curOf q)) r
    | none => r) r
  { c with race := r }

/-- Return from a trap (R187), once its checks have passed and every engine has stopped. In an outer handler the engines
start no command still (R178, R182; log 11). -/
def State.returnTrap (s : State) : State :=
  let c := s.core
  let pm := bfld c.tr.tstat 28 4
  let jt := c.tr.tstat.getLsbD 23
  let place := fun (k : Nat) (x : Quarter) =>
    let x := { x with pc := tget 0 c.tr.tepc k, viaLink := false, passed := 0 }
    if jt then { x with st := .running }
    else { x with st := if pm / 2 ^ k % 2 = 1 then .running else .parked }
  let c1 := { c with
    q0 := place 0 c.q0, q1 := place 1 c.q1, q2 := place 2 c.q2, q3 := place 3 c.q3,
    tr := { c.tr with tstat := returnTstat c }, pmask := BitVec.ofNat 4 pm,
    jsync := BitVec.ofNat 4 (bfld c.tr.tstat 24 4), joint := jt, frozen := !c.restarts,
    ldArmed := c.tr.tstat.getLsbD 12 }
  let s := { s with core := c1.rteRelease c.restarts }
  (if c.restarts then engs.foldl (fun s e => s.restartEng e) s else s).modIssue fun i => { i with redirect := .placed }

/-! ### The pool layout -/

/-- Area of a pool row under a layout (R193). -/
def areaOf (r : Nat × Nat × Nat) (row : Nat) : Nat :=
  if row < r.1 then 0 else if row < r.2.1 then 1 else if row < r.2.2 then 2 else 3

/-- The pool with only the offsets that satisfy `f` kept. -/
def Pool.keep (p : Pool) (f : Nat → Bool) : Pool :=
  { bytes := p.bytes.filter fun e => f e.1, full := p.full.filter fun e => f (16 * e.1),
    tag := p.tag.filter fun e => f (16 * e.1), pois := p.pois.filter fun e => f (16 * e.1),
    wrec := p.wrec.filter fun e => f (16 * e.1), own := p.own.filter fun e => f (16 * e.1) }

/-- The layout in force. -/
def Core.layout (c : Core) : Nat × Nat × Nat := (c.rowV, c.rowS, c.rowC)

/-- A new layout: the L1 is emptied when its rows change, and bytes whose area changes are cleared (R195). -/
def State.setLayout (s : State) (r : Nat × Nat × Nat) : State :=
  let old := s.core.layout
  let s := if r.2 ≠ old.2 then s.l1Empty else s
  s.modCore fun c =>
    { c with
      pool := c.pool.keep fun a => areaOf old (a / 4096) = areaOf r (a / 4096)
      sys := { c.sys with poolv := BitVec.ofNat 32 r.1, pools := BitVec.ofNat 32 r.2.1,
                          poolc := BitVec.ofNat 32 r.2.2 } }

/-! ### Privilege and units a service core lacks -/

/-- PRIV with its TINFO0 (R181). -/
def privTrap (n : Nat) : M Unit := qtrap { cause := .priv, info0 := BitVec.ofNat 64 n }
/-- Trap privilege, or PRIV. -/
def needPriv (n : Nat) : M Unit := do if !(← get).core.priv then privTrap n
/-- A unit that only a tile core has, or ILLEGAL (R12). -/
def needTile (m : M Unit) : M Unit := do if (← get).core.isService then illegal else m

/-- A meaning of a syllable that a service core does not have: ILLEGAL there whatever its guard (R12, R67). -/
def tileOnly (g : Guard) (m : M Unit) (s : State) : Host.Outcome State Fault Refusal :=
  if s.core.isService then finish illegal s else guarded g m s

/-! ### A quarter's access to memory -/

/-- The capability register a memory syllable uses, after CAPX (R72, R110). -/
def State.capIdx (s : State) (a : Reg) : Nat := (s.core.issue.capx.map BitVec.toNat).getD a.toNat

/-- A CAPFAULT of a quarter: subcause, register, offset, size (R94). -/
def capTrap (sub ci : Nat) (off : Int) (size : Nat) : M Unit :=
  qtrap { cause := .capfault, sub := BitVec.ofNat 8 sub, info0 := BitVec.ofNat 64 sub,
          info1 := BitVec.ofNat 64 ci, info2 := BitVec.ofInt 64 off, info3 := BitVec.ofNat 64 size }

/-- A trap that yields a value of any type, so that it can stand where one is expected. -/
def stopWith {α : Type} (m : M Unit) (dflt : α) : M α := do m; pure dflt

/-- capaddr of R82 for a quarter with its alignment (R94, R197, R233): the address, or CAPFAULT. -/
def quarterCap (ci : Nat) (off : Int) (size perm align : Nat) (spaces : List Nat) : M Nat := do
  let s ← get
  match capCheck s.core s.dev (s.qtr.rdC ci) off size perm spaces with
  | .error sub => stopWith (capTrap sub ci off size) 0
  | .ok a => if a % align ≠ 0 then stopWith (capTrap 7 ci off size) 0 else pure a

/-- xlate of R82 for a quarter: the physical address and PTE, or XLATE, or a hold (R295). -/
def quarterXlate (va kind : Nat) (ci : Nat) : M (Nat × Word) := fun s =>
  match s.xlate s.core.issue.q.toNat va kind with
  | (.ok pa p, s') => .ok (pa, p) s'
  | (.fail r l, s') =>
    .error (.trap { cause := .xlate, info0 := BitVec.ofNat 64 va, info1 := xlInfo kind l r,
                    info2 := BitVec.ofNat 64 ci, fq := s.core.issue.q }) s'
  | (.held, s') => .error (.hold .late) s'

/-- Where a quarter's access goes. -/
inductive Place
  | pool (a : Nat)
  | dev (va pa : Nat) (pte : Word)
  deriving DecidableEq, Repr

/-- The place of an access of a quarter through a capability: checks, then translation for space 2 (R233). -/
def quarterPlace (ci : Nat) (off : Int) (size perm align : Nat) (wr : Bool) (spaces : List Nat) : M Place := do
  let a ← quarterCap ci off size perm align spaces
  let s ← get
  if capSpace (s.qtr.rdC ci) = 0 then pure (.pool a)
  else
    let (pa, p) ← quarterXlate a (if wr then 1 else 0) ci
    pure (.dev a pa p)

/-- MMX unless the quarter's access to `n` pool bytes at `a` passes (R224). -/
def quarterRace (a n : Nat) (wr : Bool) : M Unit := fun s =>
  let q := s.core.issue.q
  match s.core.raceAt q.toNat a n with
  | some g => .error (.trap { s.core.mmxRec q.toNat g wr 0 with fq := q }) s
  | none => .ok () s

/-- POISON of a load, with the address of the first poisoned byte (R236). -/
def poisonTrap (a : Nat) : M Unit := qtrap { cause := .poison, info0 := 0x100, info1 := BitVec.ofNat 64 a }

/-- Every byte that a load of `n` bytes needs is valid in the L1; a capability load needs the granule (R201). -/
def Core.l1Has (c : Core) (pa n : Nat) (whole : Bool) : Bool :=
  match c.l1Find pa with
  | some l => (if whole then (List.range 16).map (pa % 64 / 16 * 16 + ·) else (List.range n).map (pa % 64 + ·)).all
      fun i => l.valid.getLsbD i
  | none => false

/-- A quarter's read of `n` bytes of one granule or one 64-byte line: bytes and granule tag; `sync` marks a
synchronising access, `cap` a capability load (R201, R224, R236). -/
def quarterRead (p : Place) (n : Nat) (sync cap : Bool) : M (List Byte × Bool) := do
  match p with
  | .pool a =>
    if !sync then quarterRace a n false
    let s ← get
    match (List.range n).find? fun i => tget false s.core.pool.pois ((a + i) / 16) with
    | some i => stopWith (poisonTrap (a + i)) ([], false)
    | none => pure (s.core.pool.read a n, tget false s.core.pool.tag (a / 16))
  | .dev va pa pte =>
    let s ← get
    let ((bs, bad, tag), s') := s.l1Read pte pa n cap
    let hit := s.core.l1Has pa n cap
    set (if s.core.useL1 pte then s'.count (if hit then 6 else 7) 1 else s')
    match (List.range n).find? bad with
    | some i => stopWith (poisonTrap (va + i)) ([], false)
    | none => pure (bs, tag)

/-- A quarter's write within one granule or line; `tag` is given by a tagged capability store (R96, R198, R224,
R235). -/
def quarterWrite (p : Place) (b : List Byte) (tag sync full : Bool) : M Unit := do
  match p with
  | .pool a =>
    if !sync then quarterRace a b.length true
    let s ← get
    let q := s.core.issue.q
    let c := s.core
    let pool := c.pool.write a b (fun _ => false) (q.setWidth 3, c.race.curOf q.toNat) full
    let pool := if tag then { pool with tag := tset false pool.tag (a / 16) true } else pool
    set { s with core := { c with pool := pool } }
  | .dev _ pa pte => act fun s =>
    let hit := (s.core.l1Find pa).isSome
    (if s.core.useL1 pte then s.count (if hit then 6 else 7) 1 else s).l1Write pte pa b tag

/-- The operation of the QC that the issuing quarter asks for. -/
def State.qcOp (s : State) : Nat := opQuarter s.core.num s.core.issue.q.toNat

/-- A held access of the hardware that a job queue's own order has it wait for: its card reading, its HEAD, a completion (R286,
R379). -/
def jobOp (id op : Nat) : Bool := op = opCard id || op = opHead id || (opNo 6 id 0 ≤ op && op < opNo 6 (id + 1) 0)
/-- Operation `op` on a queue keeps its place behind those that wait there: for a ring entry of theirs, a card's check, a
completion (R379). -/
def Device.queueBusy (d : Device) (id op : Nat) : Bool :=
  ((d.qcWait.takeWhile fun e => e.2 ≠ op).any fun e => e.1 = id) || (d.disp.toCheck.any fun x => x.1 = id)
    || (d.disp.owed.any fun o => o.qid = id)
    || d.holds.any fun h => h.core = outsideCore && h.failed = none && jobOp id h.op

/-- A syllable's operation waits on a queue, in its place (R379). -/
def qcHold (id : Nat) : M Unit := do
  act fun s => s.walked (.queue id s.qcOp)
  holdOther
/-- A syllable's operation on a queue waits for those before it (R379). -/
def qcTurn (id : Nat) : M Unit := do
  let s ← get
  if s.dev.queueBusy id s.qcOp then qcHold id

/-- Whether an access of a unit outside the core that a syllable needs is held; the fault queue is told once (R295). -/
def unitHeld (region va kind : Nat) : M Bool := do
  let s ← get
  match s.dev.hwWalk s.qcOp region va kind with
  | .absent _ a _ =>
    if !((s.dev.hwHeld s.qcOp region va kind).any fun h => h.failed = none) then
      act fun s => s.walked (.post region va kind 0 outsideCore a s.qcOp)
    pure true
  | _ => pure false
/-- An access of the QC that a syllable's operation on a queue waits for while it is held (R379). -/
def qcHeld (id region va kind : Nat) : M Unit := do
  if ← unitHeld region va kind then qcHold id

/-- The operation of the QC for the quarter has been made. -/
def State.qcDone (s : State) : State :=
  if s.dev.qcWait = [] then { s with dev := s.dev.hwForget s.qcOp }
  else
    let d := s.dev.hwForget s.qcOp
    { s with dev := { d with qcWait := d.qcWait.filter fun e => e.2 ≠ s.qcOp } }

/-- A quarter's release at a scope: the L1 push and its epoch (R203, R223). -/
def State.quarterRelease (s : State) (sc : Scope) : State :=
  (s.l1Release sc).modCore fun c => c.releaseBy c.issue.q.toNat

/-- What a synchronising read of a granule acquires at a scope: the record, where its writer is a member of the scope; at
strand scope the commands of the quarter itself (R215, R223). -/
def State.acquireRecord (s : State) (sc : Scope) (g : Nat) : State :=
  let (b, e) := tget (0, 0) s.core.pool.wrec g
  let q := s.core.issue.q
  if sc ≠ .strand || s.core.pool.member q b.toNat g then
    s.modCore fun c => { c with race := c.race.acquire q.toNat b.toNat e }
  else s

/-- The offset RB names: 0 for field 0, else s[RB] times `n` modulo 2^64, read as s64 (R233). -/
def State.offB (s : State) (b : Reg) (n : Nat) : Int :=
  if b = 0 then 0 else (s.rdS b * BitVec.ofNat 64 n).toInt
/-- The value an s field names where 0 names the value 0 (R238). -/
def State.orZero (s : State) (b : Reg) : Word := if b = 0 then 0 else s.rdS b

end Sys2Proof.Machine
end

