-- ==== Sys2Proof/Machine/Agents.lean ====
section
/-! DEFINITION. An agent's access to a range of device memory: translation page by page in ascending order, then the
bytes (R202, R308, R378). -/

namespace Sys2Proof.Machine

/-- `[va, va + n)` cut at 64 KiB boundaries, at most `k` parts. -/
def pageParts : Nat → Nat → Nat → List (Nat × Nat)
  | 0, _, _ => []
  | k + 1, va, n =>
    if n = 0 then []
    else
      let m := min n (65536 - va % 65536)
      (va, m) :: pageParts k (va + m) (n - m)

/-- The parts of a range. -/
def partsOf (va n : Nat) : List (Nat × Nat) := pageParts (n / 65536 + 2) va n

/-- A translated part: physical address, PTE, length. -/
abbrev Part := Nat × Word × Nat

/-- Translation of parts in order for an agent; the first that fails gives its address. -/
def State.xlateParts (s : State) (agent kind : Nat) : List (Nat × Nat) → Except (Nat × Xl) (List Part) × State
  | [] => (.ok [], s)
  | (va, n) :: r =>
    match s.xlate agent va kind with
    | (.ok pa pte, s1) =>
      match s1.xlateParts agent kind r with
      | (.ok l, s2) => (.ok ((pa, pte, n) :: l), s2)
      | (.error e, s2) => (.error e, s2)
    | (x, s1) => (.error (va, x), s1)

/-- Translation of a range for an agent. -/
def State.xlateRange (s : State) (agent va n kind : Nat) : Except (Nat × Xl) (List Part) × State :=
  s.xlateParts agent kind (partsOf va n)

/-- The bytes of translated parts as an engine sees them, each with its poison (R202). -/
def State.readParts (s : State) (l : List Part) : List (Byte × Bool) :=
  l.flatMap fun p => (List.range p.2.2).map fun i => s.engByte p.2.1 (p.1 + i)

/-- Bytes written to translated parts as an engine writes them (R202). -/
def State.writeParts (s : State) : List Part → List (Byte × Bool) → State
  | [], _ => s
  | (pa, pte, n) :: r, b =>
    let h := b.take n
    (s.engWrite pte pa (h.map (·.1)) fun i => (h.getD i (0, false)).2).writeParts r (b.drop n)

/-- Bytes without poison. -/
def clean (b : List Byte) : List (Byte × Bool) := b.map fun x => (x, false)

end Sys2Proof.Machine
end

