-- ==== Sys2Proof/Machine/TapeOps.lean ====
section
/-! DEFINITION. Tapes: records, their placement and drain, descriptors and replay (R258 to R262, R266, R269 to
R271). -/

namespace Sys2Proof.Machine

/-! ### Records -/

/-- A record's trailer (R260). -/
def trailer (kind len data : Nat) : List Byte := bytesOf 4 (kind * 2 ^ 28 + len * 2 ^ 24 + data)
/-- The record of an s register. -/
def recS (v : Word) : List Byte := bytesOf 8 v.toNat ++ bytesOf 4 0 ++ trailer 1 1 0
/-- The record of a p register. -/
def recP (v : BitVec 32) : List Byte := bytesOf 4 v.toNat ++ bytesOf 8 0 ++ trailer 3 1 0
/-- The record of a v register: its nonzero lanes and their mask. -/
def recV (v : Vec) : List Byte :=
  let idx := (List.range 32).filter fun n => laneOf v n != 0
  let mask := idx.foldl (fun m n => m + 2 ^ n) 0
  let len := (4 * idx.length + 8 + 15) / 16
  idx.flatMap (fun n => bytesOf 4 (laneOf v n).toNat) ++ bytesOf (16 * len - 4 * idx.length - 8) 0
    ++ bytesOf 4 mask ++ trailer 2 len 0
/-- The record of decisions. -/
def recD (bits : Word) (n : Nat) : List Byte := bytesOf 8 bits.toNat ++ bytesOf 4 0 ++ trailer 4 1 n
/-- The mark of a segment. -/
def recMark (seg : Nat) (values decisions : BitVec 32) : List Byte :=
  bytesOf 4 decisions.toNat ++ bytesOf 4 values.toNat ++ bytesOf 4 0 ++ trailer 5 1 seg

/-- SSTART of a segment. -/
def Tape.start (t : Tape) (n : Nat) : Nat := tget 0 t.sstart n
/-- The open decision record closed: its bytes go to the buffer. -/
def Tape.close (t : Tape) : Tape :=
  if t.openCount = 0 then t
  else { t with buf := t.buf ++ recD t.openBits t.openCount, openBits := 0, openCount := 0 }
/-- Bytes the buffer holds or will hold for the open decision record. -/
def Tape.held (t : Tape) : Nat := t.buf.length + if t.openCount = 0 then 0 else 16

/-- The oldest segments discarded until `n` bytes fit (R262). -/
def Tape.discard : Nat → Nat → Tape → Tape
  | 0, _, t => t
  | k + 1, n, t =>
    if t.size < t.head + n - t.tail then
      discard k n { t with lost := setBit t.lost t.oldest true, oldest := t.oldest + 1,
                           tail := t.start (t.oldest + 1) }
    else t

/-- Room made for `n` bytes: none when R262 traps. -/
def Tape.room (t : Tape) (n : Nat) : Option Tape :=
  if t.head + n - t.tail ≤ t.size then some t
  else if !t.ring || t.size < t.head + n - t.start t.seg then Option.none
  else some (t.discard 256 n)

/-- A quarter's tape changed. -/
def State.modTape (s : State) (f : Tape → Tape) : State := s.modQtr fun x => { x with tape := f x.tape }

/-- The output of the TAPEREV at the head of a core's tape queue, when segments of the tape at `base` are newly lost:
FLAGS[1] is 1 if its segment is among them, a byte written by an engine (R96, R268). -/
def Core.clobber (c : Core) (base : Nat) (was now : BitVec 256) : Core :=
  match (c.eng .tape).rev with
  | some x =>
    if x.base = base && now.getLsbD x.seg && !was.getLsbD x.seg then
      { c with pool := { c.pool with bytes := tset 0 c.pool.bytes (x.out + 8) (c.pool.byte (x.out + 8) ||| 2),
                                     tag := tset false c.pool.tag ((x.out + 8) / 16) false } }
    else c
  | none => c

/-- A ring discard of the issuing quarter's tape, as it reaches the outputs of TAPEREV in its address space (R268). -/
def State.clobber (s : State) (base : Nat) (was now : BitVec 256) : State :=
  if was = now then s
  else
    { s with core := s.core.clobber base was now
             others := s.others.map fun e =>
               (e.1, if e.2.region = s.core.region then e.2.clobber base was now else e.2) }

/-- What a recording syllable meets before it records `n` bytes: a failed binding, TAPEOVF, a full buffer (R262,
R269, R271). -/
def tapeRoom (n : Nat) : M Unit := do
  let s ← get
  let t := s.qtr.tape
  if t.failed then qtrap { cause := .xlate, info0 := t.failVa, info1 := 1 }
  else
    match t.room n with
    | none =>
      qtrap { cause := .tapeovf, info0 := BitVec.ofNat 64 t.head, info1 := BitVec.ofNat 64 t.seg }
    | some t' => if 4096 < t.held + n then holdAt 5 3 else act fun s => (s.clobber (capBase t.cap) t.lost t'.lost).modTape fun _ => t'

/-- Records placed together (R262), `k` of them values. -/
def tapePlace (recs : List (List Byte)) (k : Nat) : M Unit := do
  let b := recs.flatten
  tapeRoom b.length
  act fun s => (s.modTape fun t =>
    let t := t.close
    { t with buf := t.buf ++ b, head := t.head + b.length, values := t.values + BitVec.ofNat 32 k }).count 13 b.length

/-- Value records of a syllable, when its quarter records (R261). -/
def recordValues (recs : List (List Byte)) : M Unit := do
  if (← get).qtr.tape.phase = .record && recs ≠ [] then tapePlace recs recs.length

/-- A decision recorded, when the quarter records (R261). -/
def recordDecision (taken : Bool) : M Unit := do
  let t := (← get).qtr.tape
  if t.phase = .record then
    if t.openCount ≠ 0 && t.openCount < 64 then
      tapeRoom 0
      act fun s => s.modTape fun t =>
        { t with openBits := setBit t.openBits t.openCount taken, openCount := t.openCount + 1,
                 decisions := t.decisions + 1 }
    else
      tapeRoom 16
      act fun s => (s.modTape fun t =>
        let t := t.close
        { t with head := t.head + 16, openBits := if taken then 1 else 0, openCount := 1,
                 decisions := t.decisions + 1 }).count 13 16

/-- The TAPE prefix stands before the target, and the quarter records. -/
def State.taping (s : State) : Bool := s.core.issue.tape && s.qtr.tape.phase = .record

/-- The mark of the open segment placed (R265). -/
def placeMark : M Unit := do
  let t := (← get).qtr.tape
  tapePlace [recMark t.seg t.values t.decisions] 0

/-! ### Guarded meanings that the TAPE prefix may record -/

/-- A meaning that cannot stop by itself; `recs` are its data sources (R261). -/
def taped (g : Guard) (recs : State → List (List Byte)) (f : State → State) (s : State) :
    Host.Outcome State Fault Refusal :=
  if s.executes g then
    if s.taping then finish (do recordValues (recs s); act f) s else .next (f s)
  else .next s

/-- The same for a vector syllable (R67). -/
def vtaped (g : Guard) (recs : State → List (List Byte)) (f : State → State) (s : State) :
    Host.Outcome State Fault Refusal :=
  if s.vexecutes g then
    if s.taping then finish (do recordValues (recs s); act f) s else .next (f s)
  else .next s

/-- A scalar meaning that can stop, its sources recorded first. -/
def tapedM (g : Guard) (recs : State → List (List Byte)) (m : M Unit) (s : State) :
    Host.Outcome State Fault Refusal :=
  guarded g (do
    let s ← get
    if s.taping then recordValues (recs s)
    m) s

/-- A vector meaning that can stop, its sources recorded first. -/
def vtapedM (g : Guard) (recs : State → List (List Byte)) (m : M Unit) (s : State) :
    Host.Outcome State Fault Refusal :=
  if s.vexecutes g then
    finish (do
      let s ← get
      if s.taping then recordValues (recs s)
      m) s
  else .next s

/-! ### Descriptors and region -/

/-- The device address of byte `o` of a tape. -/
def Tape.va (t : Tape) (o : Nat) : Nat := capBase t.cap + o
/-- The device address of logical offset `l` (R259). -/
def Tape.at (t : Tape) (l : Nat) : Nat := t.va (4096 + l % t.size)

/-- Descriptor bytes 0x000 to 0x0FF (R259). -/
def Tape.header (t : Tape) (bound closed : Bool) : List Byte :=
  bytesOf 8 t.size ++ bytesOf 8 t.head ++ bytesOf 8 t.tail ++ bytesOf 1 t.ring.toNat
    ++ bytesOf 1 (bound.toNat + 2 * closed.toNat) ++ bytesOf 1 t.seg ++ bytesOf 1 t.oldest ++ bytesOf 4 0
    ++ bytesOf 32 t.lost.toNat ++ bytesOf 192 0
/-- The whole descriptor. -/
def Tape.descriptor (t : Tape) (bound closed : Bool) : List Byte :=
  t.header bound closed ++ (List.range 256).flatMap (fun n => bytesOf 8 (t.start n)) ++ bytesOf 1792 0

/-- The tape a descriptor describes. -/
def Tape.ofDescriptor (cap : CapWord) (b : List Byte) : Tape :=
  let f := fun (o n : Nat) => ofBytes ((b.drop o).take n)
  { Tape.none with
    cap := cap, size := f 0 8, head := f 8 8, tail := f 0x10 8, ring := f 0x18 1 = 1, seg := f 0x1A 1,
    oldest := f 0x1B 1, lost := BitVec.ofNat 256 (f 0x20 32),
    sstart := (List.range 256).foldl (fun t n => tset 0 t n (f (0x100 + 8 * n) 8)) [] }
/-- FLAGS.CLOSED of a descriptor. -/
def closedFlag (b : List Byte) : Bool := (b.getD 0x19 0).getLsbD 1

/-- Quarter `q`'s tape changed. -/
def Core.setTape (c : Core) (q : BitVec 2) (t : Tape) : Core := c.setQuarter q { c.quarter q with tape := t }

/-- The bytes of the next drain write: up to 64, within a 64-byte line of the region (R271). -/
def Tape.chunk (t : Tape) : List Byte := t.buf.take (64 - t.bufAt % 64)

/-- One drain write of quarter `q`: it lands, waits, or fails the binding (R269, R271). -/
def State.drainOnce (s : State) (q : BitVec 2) : State :=
  let t := (s.core.quarter q).tape
  if t.buf = [] || t.size = 0 then s
  else
    let b := t.chunk
    let va := t.at t.bufAt
    match s.xlateRange 7 va b.length 1 with
    | (.ok l, s') =>
      let s' := s'.writeParts l (clean b)
      { s' with core := s'.core.setTape q { t with buf := t.buf.drop b.length, bufAt := t.bufAt + b.length } }
    | (.error (va, .fail ..), s') =>
      { s' with core := s'.core.setTape q { t with buf := [], openCount := 0, openBits := 0, failed := true,
                                                   failVa := BitVec.ofNat 64 va } }
    | (.error _, s') => s'

/-- Drains until the buffer is empty or a write waits; at most 65 writes empty it. -/
def State.drainAll (s : State) (q : BitVec 2) : State :=
  upTo 66 (fun _ s => s.drainOnce q) s

end Sys2Proof.Machine
end

