-- ==== Sys2Proof/Machine/Operands.lean ====
section
/-! DEFINITION. Operand forms of the scalar syllables: widths (R97), immediates with their limits after extension
(R101, R102), and the frames in which a meaning reads its registers, records them for the tape and writes its
result (R97, R261). -/

namespace Sys2Proof.Machine

/-- An operation at width W, its result sign-extended from W (R97). -/
def atW (w : Bool) (f : (n : Nat) → BitVec n → BitVec n → BitVec n) (a b : Word) : Word :=
  if w then (f 32 (a.setWidth 32) (b.setWidth 32)).signExtend 64 else f 64 a b

/-- The frame of R97 over two scalar registers. -/
def scalar2 (g : Guard) (d a b : Reg) (lat : Nat) (f : Word → Word → Word) (s : State) :
    Host.Outcome State Fault Refusal :=
  taped g (fun s => [recS (s.rdS a), recS (s.rdS b)]) (fun s => s.wrS lat d (f (s.rdS a) (s.rdS b))) s
/-- The frame over one scalar register. -/
def scalar1 (g : Guard) (d a : Reg) (f : Word → Word) (s : State) : Host.Outcome State Fault Refusal :=
  taped g (fun s => [recS (s.rdS a)]) (fun s => s.wrS 1 d (f (s.rdS a))) s
/-- The frame over two predicate registers. -/
def pred2 (g : Guard) (d a b : Reg) (f : BitVec 32 → BitVec 32 → BitVec 32) (s : State) :
    Host.Outcome State Fault Refusal :=
  pureOp g (fun s => s.wrP 1 d (f (s.rdP a) (s.rdP b))) s
/-- The frame over a scalar register and an immediate, without limits (R101). -/
def scalarImm (g : Guard) (d a : Reg) (f : State → Word) (op : Word → Word → Word) (s : State) :
    Host.Outcome State Fault Refusal :=
  taped g (fun s => [recS (s.rdS a)]) (fun s => s.wrS 1 d (op (s.rdS a) (f s))) s
/-- A meaning behind a condition on the syllable's own bits, which is an encoding fate: ILLEGAL whether it executes or
not (R67, R81, R108). -/
def fated (ok : Bool) (f : State → Host.Outcome State Fault Refusal) (s : State) : Host.Outcome State Fault Refusal :=
  if ok then f s else finish illegal s
/-- A guarded meaning behind the limit of an immediate after extension (R101, R110, R323). -/
def within (i : Imm) (ok : Nat → Bool) (g : Guard) (m : M Unit) (s : State) : Host.Outcome State Fault Refusal :=
  fated (ok (s.immZ i)) (guarded g m) s
/-- The frame over a scalar register and an immediate that a limit may refuse with ILLEGAL after extension (R101,
R102, R110). -/
def scalarLim (g : Guard) (d : Reg) (i : Imm) (ok : Nat → Bool) (recs : State → List (List Byte))
    (op : State → Nat → Word) (s : State) : Host.Outcome State Fault Refusal :=
  within i ok g (do
    let s ← get
    if s.taping then recordValues (recs s)
    act fun s => s.wrS 1 d (op s (s.immZ i))) s

/-- A check on an immediate that a syllable makes when it executes (R121, R126, R129). -/
def needImm (i : Imm) (ok : Nat → Bool) : M Unit := do if !ok ((← get).immZ i) then illegal
/-- EXT sets no bit of an immediate the instruction fixes (R66, R221). -/
def State.unextended (s : State) : Bool := s.core.issue.ext.getD 0 = 0

end Sys2Proof.Machine
end

