-- ==== Sys2Proof/Machine/Engine.lean ====
section
/-! DEFINITION. How an engine takes a command: its wait, its checks, its faults, its completion and signal (R76, R77,
R81, R178, R223, R252, R378), and the ranges its commands read and write. -/

namespace Sys2Proof.Machine

/-! ### The command at the head of a queue -/

/-- What an engine works with while it carries out one command. -/
structure Ctx where
  e : Eng
  op : Nat
  h : CmdHdr
  seq : BitVec 32
  /-- the quarter its capability indices name, and that quarter's capabilities (R74, R77) -/
  q : BitVec 2
  caps : Tab CapWord
  /-- swizzle entries as they stood when it entered the queue (R314) -/
  swz : Tab (BitVec 32)
  line : Word
  inl : Bool
  /-- it has a follow-on (R75) -/
  follow : Bool
  /-- CAPVER as its capabilities are checked under it (R95) -/
  ver : Word
  deriving DecidableEq, Repr

/-- The context of a queued command. -/
def ctxOf (s : State) (e : Eng) (op : Nat) (h : CmdHdr) (c : Cmd) : Ctx :=
  { e, op, h, seq := c.seq, q := if c.inline then c.q else h.cq,
    caps := if c.inline then c.caps else (s.core.quarter h.cq).c,
    swz := c.swz, line := c.line, inl := c.inline, follow := c.follow.isSome,
    ver := (s.core.eng e).ver.getD s.core.sys.capver }

/-- Scope of a code (R215). -/
def scopeOf (b : BitVec 2) : Scope :=
  match b with
  | 0 => .strand
  | 1 => .core
  | 2 => .device
  | 3 => .system

/-- An engine of the focused core changed. -/
def State.modEng (s : State) (e : Eng) (f : Engine → Engine) : State :=
  s.modCore fun c => c.setEng e (f (c.eng e))

/-! ### Wait -/

/-- What a passing wait of an engine on semaphore `i` acquires (R223). -/
def Core.engAcqSem (c : Core) (e : Eng) (i : Nat) : Core :=
  match engAgent e with
  | some a => c.acqSem a i
  | none => c

/-- The wait has passed: the count consumed, the acquire made, and an inline command acquires what its quarter had
released when it issued it (R77, R203, R217, R223). -/
def State.passWait (s : State) (e : Eng) (h : CmdHdr) (c : Cmd) : State :=
  let i := h.widx.toNat
  let q := (if c.inline then c.q else h.cq).toNat
  let s :=
    if h.we then
      (s.modCore fun k =>
        let k := k.engAcqSem e i
        if h.wc then k.setSemV i ((k.semOf i).v.toNat - h.wthr.toNat) else k).l1Acquire (scopeOf h.scope)
    else s
  let s := match c.inline, engAgent e with
    | true, some a => s.modCore fun k => { k with race := k.race.acquire a q c.epoch }
    | _, _ => s
  s.modEng e fun x => { x with phase := .passed }

/-! ### Faults -/

/-- Accesses of an agent of a core that were held are abandoned (R308). -/
def Device.dropAgentHolds (d : Device) (n a : Nat) : Device :=
  if d.holds = [] then d else { d with holds := d.holds.filter fun h => !(h.core = n && h.agent = a) }

/-- The engine stops on a fault at the command at its head, of which no access stays held (R178, R308). -/
def State.engFault (s : State) (e : Eng) (we sig : Bool) (t : TrapRec) : State :=
  let s := if t.cause = .mmx then s.count 14 1 else s
  let s := if e = .cmu then s.modDev fun d => d.leavePipe s.core.num else s
  (s.modDev fun d => d.dropAgentHolds s.core.num (agentNo e)).modEng e fun x =>
    { x with flt := true, sig := sig, wp := we, lf := false, cause := BitVec.ofNat 8 t.cause.code, fault := some t,
             phase := if sig then .done else .waiting, ver := none, part := none, rest := none, last := none, rev := none }

/-- A fault of the command in hand. -/
def Ctx.stop {α : Type} (x : Ctx) (t : TrapRec) : M α := fun s =>
  .error (.trap { t with src := 1, eng := BitVec.ofNat 3 (engNum x.e) }) s
/-- COMMAND with its subcause (R181). -/
def Ctx.command {α : Type} (x : Ctx) (sub : Nat) : M α :=
  x.stop { cause := .command, info0 := x.seq.setWidth 64, info1 := BitVec.ofNat 64 sub, info2 := x.line,
           info3 := BitVec.ofNat 64 x.op }
/-- COMMAND of subcause `sub` unless `b`. -/
def Ctx.need (x : Ctx) (b : Bool) (sub : Nat) : M Unit := if b then pure () else x.command sub
/-- CAPFAULT with its subcause, capability index and offset (R181). -/
def Ctx.capFault {α : Type} (x : Ctx) (sub ci off : Nat) : M α :=
  x.stop { cause := .capfault, sub := BitVec.ofNat 8 sub, info0 := x.seq.setWidth 64, info1 := BitVec.ofNat 64 sub,
           info2 := BitVec.ofNat 64 ci, info3 := BitVec.ofNat 64 off }

/-- The capability an index of the command names. -/
def Ctx.cap (x : Ctx) (ci : BitVec 4) : CapWord := tget 0 x.caps ci.toNat
/-- Its space. -/
def Ctx.space (x : Ctx) (ci : BitVec 4) : Nat := capSpace (x.cap ci)
/-- The core with the versions that the command's capabilities are checked under (R95). -/
def Ctx.under (x : Ctx) (c : Core) : Core := { c with sys := { c.sys with capver := x.ver } }
/-- The check of R94, R197 and R233 of an extent: its address. -/
def Ctx.capAt (x : Ctx) (ci : BitVec 4) (off n perm align : Nat) (spaces : List Nat) : M Nat := do
  let s ← get
  match capCheck (x.under s.core) s.dev (x.cap ci) off n perm spaces with
  | .error sub => x.capFault sub ci.toNat off
  | .ok a => if a % align ≠ 0 then x.capFault 7 ci.toNat off else pure a
/-- A bound barrier, or UNBOUND (R327). -/
def Ctx.bound (x : Ctx) (be : Bool) (i : Nat) : M Unit := do
  if be && ((← get).core.barAt i).isNone then x.capFault 9 0 i
/-- Translation of a range: XLATE at its lowest failing address, or a hold (R308, R378). -/
def Ctx.xlate (x : Ctx) (va n kind : Nat) : M (List Part) := fun s =>
  match s.xlateRange (agentNo x.e) va n kind with
  | (.ok l, s') => .ok l s'
  | (.error (a, .fail r lv), s') =>
    .error (.trap { cause := .xlate, info0 := BitVec.ofNat 64 a, info1 := xlInfo kind lv r,
                    info2 := x.seq.setWidth 64, src := 1, eng := BitVec.ofNat 3 (engNum x.e) }) s'
  | (.error _, s') => .error (.hold .other) s'

/-- The rules of R76 and R81 on the header; `own` says that the command's own fields obey theirs. On a service core, which has
no ME, a matrix command as a follow-on is ILLEGAL, at the line that holds it (R12, R75; log 128). -/
def Ctx.header (x : Ctx) (own : Bool) : M Unit := do
  let svc := (← get).core.isService
  let h := x.h
  let mma := x.e = .me && 0x40 ≤ x.op
  if svc && h.f && x.follow then x.stop { cause := .illegal, info0 := x.line }
  x.need (h.rsvA = 0 && h.rsvB = 0 && (h.we || (!h.wc && h.widx = 0 && h.wthr = 0))
    && (h.se || (h.sidx = 0 && h.sinc = 0)) && (!h.s || mma) && (!h.f || (x.e = .ce && x.follow))
    && (!x.inl || h.cq = 0) && own) 1

/-! ### Taking a command -/

/-- The command at its head is at its wait still (R77). -/
def State.waitsStill (s : State) (h : CmdHdr) : Bool :=
  h.we && (s.core.semOf h.widx.toNat).v.toNat < h.wthr.toNat

/-- An engine takes the command at the head of its queue: nothing while it is stopped, at its wait, or done; else its
work, which faults, is held or is complete (R77, R180, R378). A held command keeps the versions its capabilities were
checked under, and a matrix command what its earlier rows did (R95, R161). -/
def runCommand (e : Eng) (op : Nat) (h : CmdHdr) (body : Ctx → M Unit) (s : State) :
    Host.Outcome State Fault Refusal :=
  let x := s.core.eng e
  match x.queue with
  | [] => .next s
  | c :: _ =>
    if x.flt || x.phase = .done || (!s.core.mayStart && x.phase = .waiting) then .next s
    else if x.phase = .waiting && s.waitsStill h then .next s
    else
      let s1 := if x.phase = .waiting then s.passWait e h c else s
      let y := ctxOf s1 e op h c
      match body y s1 with
      | .ok _ s2 => .next (s2.modEng e fun x => { x with phase := .done, ver := none, part := none, rest := none })
      | .error (.trap t) s2 => .next (s2.engFault e h.we false t)
      | .error (.hold .part) s2 => .next (s2.modEng e fun x => { x with ver := some y.ver })
      | .error (.hold _) s2 => .next ((keepWalks s1 s2).modEng e fun x => { x with ver := some y.ver })

/-- RESERVED_ENGINE_OPCODE: COMMAND subcause 0, after the wait (R77, R81). -/
def execReservedEngineOpcode (e : Eng) (h : CmdHdr) (op : BitVec 8) (s : State) :
    Host.Outcome State Fault Refusal :=
  runCommand e op.toNat h (fun x => x.command 0) s

/-! ### Completion -/

/-- The header of a queued command. -/
def Cmd.hdr (c : Cmd) : CmdHdr := (takeCmdHdr (takeBv 8 c.bits.toNat).2).1

/-- Completion of the command at the head: the engine's epoch advances, and its follow-on enters the ME queue
(R223, R252). -/
def Core.finishWork (k : Core) (e : Eng) (c : Cmd) : Core :=
  let k := match engAgent e with
    | some a => { k with race := k.race.release a }
    | none => k
  match c.follow with
  | none => k
  | some bits =>
    let k := k.enqueue .me bits false (bits.extractLsb' 58 2) [] none c.line
    { k with race := k.race.acquire agME agCE (k.race.curOf agCE) }

/-- The command at the head is retired as complete; the engine stops there if it met poison (R167). -/
def Engine.pop (x : Engine) (c : Cmd) : Engine :=
  { x with queue := x.queue.drop 1, phase := .waiting, done := c.seq, sig := false, wp := false, cause := 0,
           fault := none, last := none, rev := none }.poisoned

/-- Its signal, if it makes one: past the ceiling the engine stops with SIG (R77, R223, R325). -/
def State.engSignal (s : State) (e : Eng) (c : Cmd) : State :=
  let h := c.hdr
  if !h.se then s.modEng e fun x => x.pop c
  else
    let i := h.sidx.toNat
    let v := (s.core.semOf i).v.toNat
    let n := h.sinc.toNat
    if (s.core.semOf i).ceil.toNat < v + n then
      s.engFault e h.we true { cause := .semovf, info0 := BitVec.ofNat 64 i, info1 := BitVec.ofNat 64 v,
                               info2 := BitVec.ofNat 64 n, info3 := c.seq.setWidth 64, src := 1,
                               eng := BitVec.ofNat 3 (engNum e) }
    else
      let s := s.l1Release (scopeOf h.scope)
      let s := s.modCore fun k =>
        let k := k.setSemV i (v + n)
        match engAgent e with
        | some a => { k with race := k.race.toSem i a (k.race.curOf a) }
        | none => k
      s.modEng e fun x => x.pop c

/-- The statistics of its pair with the scan that the command at the head of a CMU queue has made (R337). -/
def Device.scanCounted (d : Device) (c : Cmd) (x : Engine) : Device :=
  match x.last with
  | none => d
  | some l =>
    let p := cmuPair c.bits
    let y := tget .zero d.stats p
    { d with stats := tset .zero d.stats p { scans := y.scans + 1, ovfs := y.ovfs + BitVec.ofNat 32 (l.getLsbD 31).toNat,
                                             last := l } }
/-- No scan that core `n`'s pipe served earlier is still to complete (R337). -/
def Device.cmuTurn (d : Device) (n : Nat) : Bool :=
  (d.served.takeWhile fun m => m ≠ n).all fun m => m / 8 ≠ n / 8

/-- ENGINE_COMMAND_COMPLETE: nothing until the work is done; scans complete in the order their pipe served them, and then the
CMU's busy bit clears (R18, R337); a hand-over waits for room in the ME queue; a refusal to be reported takes the place of
the signal (R77, R179, R252, R254). -/
def execEngineCommandComplete (e : Eng) (s : State) : Host.Outcome State Fault Refusal :=
  let x := s.core.eng e
  match x.queue with
  | [] => .next s
  | c :: _ =>
    if x.flt || x.sigStop || x.phase ≠ .done then .next s
    else if x.sig then .next (s.engSignal e c)
    else if c.follow.isSome && s.core.slipLimit ≤ s.core.me.queue.length then .next s
    else if e = .cmu && !s.dev.cmuTurn s.core.num then .next s
    else
      let s := if e = .cmu then s.modDev fun d => (d.scanCounted c x).cmuFree s.core.num x else s
      let s := s.modCore fun k => k.finishWork e c
      match x.fault with
      | some t => .next (s.engFault e c.hdr.we true t)
      | none => .next (s.engSignal e c)

/-! ### Ranges -/

/-- A range of one space; `sw` is the swizzle entry its addresses pass through (R157, R244). -/
structure Rng where
  space : Nat
  a : Nat
  n : Nat
  sw : Option (BitVec 32)
  deriving DecidableEq, Repr

/-- A range with the parts its translation gave; none outside device memory. -/
structure TRng where
  r : Rng
  parts : List Part
  deriving DecidableEq, Repr

/-- `[a, a + n)` cut at granules, at most `k` parts. -/
def granParts : Nat → Nat → Nat → List (Nat × Nat)
  | 0, _, _ => []
  | k + 1, a, n =>
    if n = 0 then []
    else
      let m := min n (16 - a % 16)
      (a, m) :: granParts k (a + m) (n - m)

/-- The granules of a pool range as they are accessed: address after the swizzle, and bytes (R157). -/
def Rng.grans (r : Rng) : List (Nat × Nat) :=
  (granParts (r.n / 16 + 2) r.a r.n).map fun p => (match r.sw with | some e => swz e p.1 | none => p.1, p.2)

/-- A range translated, when it lies in a space that is (R211). -/
def Ctx.place (x : Ctx) (kind : Nat) (r : Rng) : M TRng := do
  if r.space = 2 || r.space = 5 then
    let l ← x.xlate r.a r.n kind
    pure { r, parts := l }
  else pure { r, parts := [] }

/-- MMX unless every granule of a pool range passes (R224). -/
def Ctx.race (x : Ctx) (wr : Bool) (r : Rng) : M Unit := do
  if r.space = 0 then
    let s ← get
    match engAgent x.e with
    | none => pure ()
    | some a =>
      match r.grans.find? fun p => !s.core.raceOk a (p.1 / 16) with
      | some p => x.stop (s.core.mmxRec a (p.1 / 16) wr x.seq)
      | none => pure ()

/-- A read of host or peer memory: a range that will not complete reads as poisoned zeros (R247). -/
def Device.outer (d : Device) (space a : Nat) : Byte × Bool :=
  if d.lostReads.any fun l => l.1 = space && l.2.1 ≤ a && a < l.2.1 + l.2.2 then (0, true)
  else (tget 0 (if space = 3 then d.host else d.peer) a, false)

/-- The bytes of a range, each with its poison, as an engine reads them (R157, R200, R202, R247). -/
def State.bytesIn (s : State) (t : TRng) : List (Byte × Bool) :=
  match t.r.space with
  | 0 => t.r.grans.flatMap fun p => (List.range p.2).map fun i =>
      (s.core.pool.byte (p.1 + i), tget false s.core.pool.pois (p.1 / 16))
  | 2 => s.readParts t.parts
  | sp => (List.range t.r.n).map fun i => s.dev.outer sp (t.r.a + i)

/-- How an engine writes: its writer record, the quarter its command belongs to, and the barrier it decrements as granules
land. -/
structure Sink where
  wrec : BitVec 3 × BitVec 8
  own : Option (BitVec 2)
  bar : Option Nat
  agent : Nat
  deriving DecidableEq, Repr

/-- The sink of a command of an engine that is an agent (R223). -/
def State.sink (s : State) (x : Ctx) (bar : Option Nat) : Sink :=
  let a := agentNo x.e
  { wrec := if a < 8 then (BitVec.ofNat 3 a, s.core.race.curOf a) else (0, 0), own := some x.q, bar, agent := a }

/-- The barrier decremented by the bytes that have landed in one granule. -/
def Core.landed (c : Core) (k : Sink) (n : Nat) : Core :=
  match k.bar with
  | some i => c.barDec k.agent i n
  | none => c

/-- Bytes written to the granules of a pool range, in order, the barrier following each (R96, R199, R200, R244). -/
def Core.putGrans (c : Core) (k : Sink) : List (Nat × Nat) → List (Byte × Bool) → Core
  | [], _ => c
  | (a, n) :: r, b =>
    let h := b.take n
    let pool := (c.pool.write a (h.map (·.1)) (fun i => (h.getD i (0, false)).2) k.wrec true).owned a h.length k.own
    (({ c with pool := pool }).landed k n).putGrans k r (b.drop n)

/-- Barrier decrements for a range that is no scratchpad, granule by granule (R251). -/
def Core.landAll (c : Core) (k : Sink) (l : List (Nat × Nat)) : Core := l.foldl (fun c p => c.landed k p.2) c

/-- Bytes posted to host or peer memory (R247). -/
def Device.outerPut (d : Device) (space a : Nat) (b : List (Byte × Bool)) : Device :=
  let put := fun (m : List Host.Cell) => upTo b.length (fun i m => tset 0 m (a + i) (b.getD i (0, false)).1) m
  if space = 3 then { d with host := put d.host } else { d with peer := put d.peer }

/-- Bytes written to a range (R96, R199, R200, R202, R244). -/
def State.putIn (s : State) (k : Sink) (t : TRng) (b : List (Byte × Bool)) : State :=
  match t.r.space with
  | 0 => s.modCore fun c => c.putGrans k t.r.grans b
  | 2 => (s.writeParts t.parts b).modCore fun c => c.landAll k (granParts (t.r.n / 16 + 2) t.r.a t.r.n)
  | 5 => s.writeParts t.parts b
  | sp => s.modDev fun d => d.outerPut sp t.r.a b

/-- The swizzle entry a command applies. -/
def Ctx.swizzle (x : Ctx) (on : Bool) (i : BitVec 5) : Option (BitVec 32) :=
  if on then some (tget 0 x.swz i.toNat) else none

/-- The barrier a command decrements. -/
def barOf (be : Bool) (i : BitVec 11) : Option Nat := if be then some i.toNat else none

/-- The list of results of an action for each index below `n`. -/
def collect {α : Type} (n : Nat) (f : Nat → M α) : M (List α) := (List.range n).mapM f

end Sys2Proof.Machine
end

