-- ==== Sys2Proof/Machine/Float.lean ====
section
/-! DEFINITION. Number formats and their arithmetic (R40 to R57): exact values as dyadic numbers, one rounding, the
conversions of R49, stochastic rounding (R50, R51), the correctly rounded functions of R137. -/

namespace Sys2Proof.Machine

/-! ### Formats and values -/

/-- What the all-ones exponent of a format stands for (R40). -/
inductive Top | ieee | e4m3 | finite
  deriving DecidableEq, Repr

/-- A floating-point format: exponent and fraction widths, bias, top codes (R40). -/
structure FFmt where
  ew : Nat
  mw : Nat
  bias : Int
  top : Top
  deriving DecidableEq, Repr

def fp32 : FFmt := { ew := 8, mw := 23, bias := 127, top := .ieee }
def bf16 : FFmt := { ew := 8, mw := 7, bias := 127, top := .ieee }
def fp16 : FFmt := { ew := 5, mw := 10, bias := 15, top := .ieee }
def e4m3 : FFmt := { ew := 4, mw := 3, bias := 7, top := .e4m3 }
def e5m2 : FFmt := { ew := 5, mw := 2, bias := 15, top := .ieee }
def e3m2 : FFmt := { ew := 3, mw := 2, bias := 3, top := .finite }
def e2m3 : FFmt := { ew := 2, mw := 3, bias := 1, top := .finite }
def e2m1 : FFmt := { ew := 2, mw := 1, bias := 1, top := .finite }

/-- A value: NaN, an infinity, or (-1)^s m 2^e, a zero keeping its sign. -/
inductive FVal
  | nan
  | inf (s : Bool)
  | fin (s : Bool) (m : Nat) (e : Int)
  deriving DecidableEq, Repr

/-- Exponent of the unit in the last place of the subnormals. -/
def FFmt.emin (f : FFmt) : Int := 1 - f.bias - f.mw
/-- Width of the format. -/
def FFmt.width (f : FFmt) : Nat := 1 + f.ew + f.mw
/-- Magnitude code of the largest finite value (R40). -/
def FFmt.maxCode (f : FFmt) : Nat :=
  match f.top with
  | .ieee => (2 ^ f.ew - 1) * 2 ^ f.mw - 1
  | .e4m3 => 2 ^ (f.ew + f.mw) - 2
  | .finite => 2 ^ (f.ew + f.mw) - 1
/-- Magnitude code of infinity, in the formats that have one. -/
def FFmt.infCode (f : FFmt) : Nat := (2 ^ f.ew - 1) * 2 ^ f.mw
/-- The canonical NaN (R46); the formats without one take +0 (R49). -/
def FFmt.nanCode (f : FFmt) : Nat :=
  match f.top with
  | .ieee => f.infCode + 2 ^ (f.mw - 1)
  | .e4m3 => 2 ^ (f.ew + f.mw) - 1
  | .finite => 0
/-- A code with its sign. -/
def FFmt.signed (f : FFmt) (s : Bool) (c : Nat) : Nat := if s then 2 ^ (f.ew + f.mw) + c else c

/-- The value of a code (R40). -/
def FFmt.val (f : FFmt) (x : Nat) : FVal :=
  let s := fld x (f.ew + f.mw) 1 = 1
  let e := fld x f.mw f.ew
  let m := fld x 0 f.mw
  if f.top = .ieee && e = 2 ^ f.ew - 1 then (if m = 0 then .inf s else .nan)
  else if f.top = .e4m3 && e = 2 ^ f.ew - 1 && m = 2 ^ f.mw - 1 then .nan
  else if e = 0 then .fin s m f.emin
  else .fin s (2 ^ f.mw + m) (f.emin + e - 1)

/-! ### Rounding -/

/-- m 2^-k rounded to an integer in a mode other than stochastic (R48). -/
def roundShift (rm : Rm) (s : Bool) (m k : Nat) : Nat :=
  let lo := m / 2 ^ k
  let r := m % 2 ^ k
  let up := match rm with
    | .rne => 2 ^ k < 2 * r || (2 * r = 2 ^ k && k ≠ 0 && lo % 2 = 1)
    | .rup => !s && r ≠ 0
    | .rdn => s && r ≠ 0
    | .rtz => false
    | .sr => false
  if up then lo + 1 else lo

/-- m 2^e rounded to an integer. -/
def roundInt (rm : Rm) (s : Bool) (m : Nat) (e : Int) : Nat :=
  if 0 ≤ e then m * 2 ^ e.toNat else roundShift rm s m (-e).toNat

/-- Magnitude code of m 2^e rounded with unbounded exponent (R49). -/
def FFmt.roundMag (f : FFmt) (rm : Rm) (s : Bool) (m : Nat) (e : Int) : Nat :=
  if m = 0 then 0
  else
    let q := max ((m.log2 : Int) + e - f.mw) f.emin
    (q - f.emin).toNat * 2 ^ f.mw + roundInt rm s m (e - q)

/-- Magnitude code that IEEE 754 prescribes for an overflow (R45). -/
def FFmt.overflow (f : FFmt) (rm : Rm) (s : Bool) : Nat :=
  match rm with
  | .rtz => f.maxCode
  | .rup => if s then f.maxCode else f.infCode
  | .rdn => if s then f.infCode else f.maxCode
  | _ => f.infCode

/-- rnd of R82 and the conversions of R49: a value rounded once to a format. -/
def FFmt.conv (f : FFmt) (rm : Rm) (ovs : Bool) (v : FVal) : Nat :=
  match v with
  | .nan => f.nanCode
  | .inf s =>
    match f.top with
    | .ieee => f.signed s f.infCode
    | .e4m3 => if ovs then f.nanCode else f.signed s f.maxCode
    | .finite => f.signed s f.maxCode
  | .fin s m e =>
    let c := f.roundMag rm s m e
    if c ≤ f.maxCode then f.signed s c
    else if !ovs then f.signed s f.maxCode
    else
      match f.top with
      | .ieee => f.signed s (f.overflow rm s)
      | .e4m3 => if f.overflow rm s = f.infCode then f.nanCode else f.signed s f.maxCode
      | .finite => f.signed s f.maxCode

/-- A value rounded to an integer and clamped to `lo` up to `hi`; NaN gives 0 (R49). -/
def toClamped (rm : Rm) (lo hi : Int) (v : FVal) : Int :=
  match v with
  | .nan => 0
  | .inf s => if s then lo else hi
  | .fin s m e =>
    let n : Int := roundInt rm s m e
    max lo (min hi (if s then -n else n))

/-- The value of an integer. -/
def ofInt (n : Int) : FVal := .fin (n < 0) n.natAbs 0

/-! ### Arithmetic -/

/-- The value with its sign inverted. -/
def FVal.neg : FVal → FVal
  | .nan => .nan
  | .inf s => .inf !s
  | .fin s m e => .fin (!s) m e

/-- (-1)^s m 2^e as a multiple of 2^q, q at most e. -/
def scaled (s : Bool) (m : Nat) (e q : Int) : Int :=
  let n : Int := m * 2 ^ (e - q).toNat
  if s then -n else n

/-- Exact sum with the sign of a zero in mode `rm` (R45). -/
def FVal.add (rm : Rm) (a b : FVal) : FVal :=
  match a, b with
  | .nan, _ => .nan
  | _, .nan => .nan
  | .inf s, .inf t => if s = t then .inf s else .nan
  | .inf s, .fin .. => .inf s
  | .fin .., .inf t => .inf t
  | .fin s m e, .fin t n f =>
    let q := min e f
    let x := scaled s m e q + scaled t n f q
    if x = 0 then .fin (if s = t then s else rm = .rdn) 0 q else .fin (x < 0) x.natAbs q

/-- Exact product (R45). -/
def FVal.mul (a b : FVal) : FVal :=
  match a, b with
  | .nan, _ => .nan
  | _, .nan => .nan
  | .inf s, .inf t => .inf (s != t)
  | .inf s, .fin t n _ => if n = 0 then .nan else .inf (s != t)
  | .fin s m _, .inf t => if m = 0 then .nan else .inf (s != t)
  | .fin s m e, .fin t n f => .fin (s != t) (m * n) (e + f)

/-- a < b on values that are no NaN; the zeros are equal. -/
def FVal.lt (a b : FVal) : Bool :=
  match a, b with
  | .nan, _ => false
  | _, .nan => false
  | .inf s, .inf t => s && !t
  | .inf s, .fin .. => s
  | .fin .., .inf t => !t
  | .fin s m e, .fin t n f => scaled s m e (min e f) < scaled t n f (min e f)

/-- The value is NaN. -/
def FVal.isNan (a : FVal) : Bool := a = .nan
/-- a = b as numbers. -/
def FVal.eq (a b : FVal) : Bool := !a.isNan && !b.isNan && !a.lt b && !b.lt a
/-- The sign. -/
def FVal.sign : FVal → Bool
  | .nan => false
  | .inf s => s
  | .fin s .. => s
/-- The value is zero. -/
def FVal.isZero : FVal → Bool
  | .fin _ m _ => m = 0
  | _ => false

/-- Codes `x` and `y` of a format: the lesser, -0 before +0 (R136). -/
def FFmt.minCode (f : FFmt) (x y : Nat) : Nat :=
  let a := f.val x
  let b := f.val y
  if a.isNan || b.isNan then f.nanCode else if a.lt b || (!b.lt a && a.sign) then x else y
/-- The greater, +0 after -0 (R136). -/
def FFmt.maxOf (f : FFmt) (x y : Nat) : Nat :=
  let a := f.val x
  let b := f.val y
  if a.isNan || b.isNan then f.nanCode else if b.lt a || (!a.lt b && !a.sign) then x else y
/-- a + b rounded (R45). -/
def FFmt.addCode (f : FFmt) (rm : Rm) (x y : Nat) : Nat := f.conv rm true ((f.val x).add rm (f.val y))
/-- NaN to canonical, else the sign bit set as given (R136). -/
def FFmt.withSign (f : FFmt) (x : Nat) (s : Bool) : Nat :=
  if (f.val x).isNan then f.nanCode else f.signed s (x % 2 ^ (f.ew + f.mw))

/-! ### Random words -/

/-- One round of R51. -/
def rngRound (x k : BitVec 32) : BitVec 32 :=
  let x := x + k
  let x := x ^^^ x.rotateLeft 13
  x ^^^ (x >>> 7)
/-- word(c, n) of R51 under a key. -/
def rngWord (key : Word) (c : BitVec 32) (n : Nat) : BitVec 32 :=
  let lo := key.setWidth 32
  let hi := key.extractLsb' 32 32
  rngRound (rngRound (rngRound (c ^^^ (BitVec.ofNat 32 n <<< 24)) lo) hi) lo

/-- FP32 to BF16 with a random word (R50). -/
def srConv (ovs : Bool) (x w : BitVec 32) : BitVec 16 :=
  match fp32.val x.toNat with
  | .nan => 0x7FC0
  | .inf _ => x.extractLsb' 16 16
  | .fin .. =>
    let s : BitVec 16 := if x.msb then 0x8000 else 0
    let t := x.toNat % 2 ^ 31 + w.toNat % 2 ^ 16
    if fld t 23 8 = 0xFF then s + (if ovs then 0x7F80 else 0x7F7F) else s + BitVec.ofNat 16 (t / 2 ^ 16)

/-- The outcome of R55 for element `x`, threshold `tau` and random word `r`. -/
def prune (tau x r : BitVec 32) : BitVec 32 :=
  let t := fp32.val tau.toNat
  let w := fp32.val x.toNat
  let mag := match w with
    | .fin _ m e => FVal.fin false m e
    | v => v
  if t.isNan || w.isNan then 0x7FC00000
  else
    match w, t with
    | .inf _, _ => x
    | _, .inf s => if s then x else 0
    | _, .fin s m e =>
      if s || m = 0 || !mag.lt t then x
      else if (FVal.fin false (m * (r.toNat % 2 ^ 24)) (e - 24)).lt mag then x
      else 0
    | _, .nan => x

/-! ### The functions of R137: fixed point with 200 fractional bits, then a sticky bit and one rounding -/

/-- Fractional bits. -/
def fxBits : Nat := 200
/-- 1 in fixed point. -/
def fxOne : Nat := 2 ^ 200
/-- ln 2 in fixed point. -/
def fxLn2 : Nat := 1113844574712631719546256151097547306333272293549090750737802

/-- The first `n` terms after 1 of the series of exp, from the last: 1 + y/k (1 + y/(k+1) (…)). -/
def expTail (y : Nat) : Nat → Nat → Nat
  | 0, _ => fxOne
  | n + 1, k => fxOne + y * expTail y n (k + 1) / fxOne / k
/-- exp of a fixed-point number below 1. -/
def fxExp (y : Nat) : Nat := expTail y 50 1

/-- The first `n` terms of z + z^3/3 + z^5/5 + … without the leading z: 1/k + z² (1/(k+2) + …). -/
def atanhTail (z2 : Nat) : Nat → Nat → Nat
  | 0, k => fxOne / k
  | n + 1, k => fxOne / k + z2 * atanhTail z2 n (k + 2) / fxOne
/-- ln of a fixed-point number from 1 up to 2. -/
def fxLn (x : Nat) : Nat :=
  let z := (x - fxOne) * fxOne / (x + fxOne)
  2 * (z * atanhTail (z * z / fxOne) 70 1 / fxOne)

/-- A number known to lie strictly between n 2^-200 and (n + 1) 2^-200, rounded to FP32. -/
def fxRound (s : Bool) (n : Nat) (e : Int) : Nat := fp32.conv .rne true (.fin s (2 * n + 1) (e - 201))

/-- 1/x (R137). -/
def rcp32 (x : Nat) : Nat :=
  match fp32.val x with
  | .nan => fp32.nanCode
  | .inf s => fp32.signed s 0
  | .fin s m e =>
    if m = 0 then fp32.signed s fp32.infCode
    else
      let n := 2 ^ 80 / m
      if 2 ^ 80 % m = 0 then fp32.conv .rne true (.fin s n (-80 - e))
      else fp32.conv .rne true (.fin s (2 * n + 1) (-81 - e))

/-- 1/√x (R137). -/
def rsq32 (x : Nat) : Nat :=
  match fp32.val x with
  | .nan => fp32.nanCode
  | .inf s => if s then fp32.nanCode else 0
  | .fin s m e =>
    if m = 0 then fp32.signed s fp32.infCode
    else if s then fp32.nanCode
    else
      let odd := e % 2 = 1
      let m := if odd then 2 * m else m
      let h := (if odd then e - 1 else e) / 2
      let n := (2 ^ 160 / m).sqrt
      if n * n * m = 2 ^ 160 then fp32.conv .rne true (.fin false n (-80 - h))
      else fp32.conv .rne true (.fin false (2 * n + 1) (-81 - h))

/-- 2^t for t = k + f 2^-200, f below 2^200: k and 2^f in fixed point. -/
def fxExp2 (t : Int) : Int × Nat := (t / (2 ^ 200 : Int), fxExp ((t % (2 ^ 200 : Int)).toNat * fxLn2 / fxOne))

/-- m 2^e in fixed point, its low bits cut off. -/
def toFx (s : Bool) (m : Nat) (e : Int) : Int :=
  let n : Int := roundInt .rtz s m (e + 200)
  if s then -n else n

/-- 2^x (R137). -/
def exp2f32 (x : Nat) : Nat :=
  match fp32.val x with
  | .nan => fp32.nanCode
  | .inf s => if s then 0 else fp32.infCode
  | .fin s m e =>
    let v := toFx s m e
    if v ≥ 128 * 2 ^ 200 then fp32.infCode
    else if v < -200 * 2 ^ 200 then 0
    else if v % (2 ^ 200 : Int) = 0 then fp32.conv .rne true (.fin false 1 (v / (2 ^ 200 : Int)))
    else
      let (k, n) := fxExp2 v
      fxRound false n k

/-- log2 x (R137). -/
def log2f32 (x : Nat) : Nat :=
  match fp32.val x with
  | .nan => fp32.nanCode
  | .inf s => if s then fp32.nanCode else fp32.infCode
  | .fin s m e =>
    if m = 0 then fp32.signed true fp32.infCode
    else if s then fp32.nanCode
    else
      let k : Int := m.log2 + e
      if m = 2 ^ m.log2 then fp32.conv .rne true (ofInt k)
      else
        let l := fxLn (m * 2 ^ 200 / 2 ^ m.log2) * fxOne / fxLn2
        let v : Int := k * 2 ^ 200 + l
        fxRound (v < 0) (if v < 0 then (-v - 1).toNat else v.toNat) 0

/-- tanh x (R137): (E - 1) / (E + 1) with E = 2^(2x / ln 2). -/
def tanh32 (x : Nat) : Nat :=
  match fp32.val x with
  | .nan => fp32.nanCode
  | .inf s => fp32.signed s 0x3F800000
  | .fin s m e =>
    let k : Int := m.log2 + e
    if m = 0 || k < -12 then x
    else if 10 * 2 ^ 200 ≤ toFx false m e then fp32.signed s 0x3F800000
    else
      let t := 2 * (toFx false m e).toNat * fxOne / fxLn2
      let (k, n) := fxExp2 t
      let big := n * 2 ^ k.toNat
      fxRound s ((big - fxOne) * fxOne / (big + fxOne)) 0

/-- A function of FP32 on BF16: widened, applied, rounded (R137). -/
def viaF32 (f : Nat → Nat) (x : Nat) : Nat := bf16.conv .rne true (fp32.val (f (x * 65536)))

end Sys2Proof.Machine
end

