-- ==== Sys2Proof/Machine/Scalar.lean ====
section
/-! DEFINITION. The scalar arithmetic of forms A and B (R97 to R102). -/

namespace Sys2Proof.Machine

/-- Division results (R99). -/
def divS (n : Nat) (x y : BitVec n) : BitVec n := if y = 0 then BitVec.allOnes n else x.sdiv y
/-- DIVU. -/
def divU (n : Nat) (x y : BitVec n) : BitVec n := if y = 0 then BitVec.allOnes n else x.udiv y
/-- REM. -/
def remS (n : Nat) (x y : BitVec n) : BitVec n := if y = 0 then x else x.srem y
/-- REMU. -/
def remU (n : Nat) (x y : BitVec n) : BitVec n := if y = 0 then x else x.umod y

/-- Shifts by an amount that may exceed the width (R100). -/
def shlV (n : Nat) (v : BitVec n) (k : Nat) : BitVec n := if k < n then v <<< k else 0
/-- SHR. -/
def shrV (n : Nat) (v : BitVec n) (k : Nat) : BitVec n := if k < n then v >>> k else 0
/-- SRA. -/
def sraV (n : Nat) (v : BitVec n) (k : Nat) : BitVec n :=
  if k < n then v.sshiftRight k else if v.msb then BitVec.allOnes n else 0
/-- ROT. -/
def rotV (n : Nat) (v : BitVec n) (k : Nat) : BitVec n := v.rotateLeft (k % n)
/-- A register shift: both operands are read at width W, the amount as an unsigned number (R97, R100; DEDUCED, log 14). -/
def shiftW (w : Bool) (f : (n : Nat) → BitVec n → Nat → BitVec n) (a b : Word) : Word :=
  if w then (f 32 (a.setWidth 32) (b.setWidth 32).toNat).signExtend 64 else f 64 a b.toNat

/-- MULH. -/
def mulHi (a b : Word) : Word := ((a.signExtend 128 * b.signExtend 128).extractLsb' 64 64)
/-- MULHU. -/
def mulHiU (a b : Word) : Word := ((a.setWidth 128 * b.setWidth 128).extractLsb' 64 64)
/-- CLZ. -/
def clz (a : Word) : Word := BitVec.ofNat 64 ((findBelow 64 fun i => a.getLsbD (63 - i)).getD 64)
/-- CTZ. -/
def ctz (a : Word) : Word := BitVec.ofNat 64 ((findBelow 64 fun i => a.getLsbD i).getD 64)
/-- POPC. -/
def popc (a : Word) : Word := BitVec.ofNat 64 (((List.range 64).filter fun i => a.getLsbD i).length)
/-- SEXT (R98). -/
def sextOp (a b : Word) : Word :=
  if b = 0 then 0 else if 64 ≤ b.toNat then a else sext64 a.toNat b.toNat
/-- ZEXT (R98). -/
def zextOp (a b : Word) : Word :=
  if b = 0 then 0 else if 64 ≤ b.toNat then a else zext64 a.toNat b.toNat

/-- A division: it holds while the quarter's divider is busy (R99, R109). -/
def divide (g : Guard) (d a b : Reg) (w : Bool) (f : (n : Nat) → BitVec n → BitVec n → BitVec n) (s : State) :
    Host.Outcome State Fault Refusal :=
  guarded g (do
    let s ← get
    if s.core.clock < s.qtr.divBusy then holdLate
    if s.taping then recordValues [recS (s.rdS a), recS (s.rdS b)]
    act fun s =>
      let lat := if w then 18 else 34
      (s.wrS lat d (atW w f (s.rdS a) (s.rdS b))).modQtr fun x => { x with divBusy := s.core.clock + lat }) s

/-- ADD (R98). -/
def execAdd (g : Guard) (d a b : Reg) (w : Bool) (s : State) : Host.Outcome State Fault Refusal :=
  scalar2 g d a b 1 (atW w fun _ x y => x + y) s
/-- SUB (R98). -/
def execSub (g : Guard) (d a b : Reg) (w : Bool) (s : State) : Host.Outcome State Fault Refusal :=
  scalar2 g d a b 1 (atW w fun _ x y => x - y) s
/-- MUL (R98, R109). -/
def execMul (g : Guard) (d a b : Reg) (w : Bool) (s : State) : Host.Outcome State Fault Refusal :=
  scalar2 g d a b 3 (atW w fun _ x y => x * y) s
/-- MULH (R98). -/
def execMulh (g : Guard) (d a b : Reg) (s : State) : Host.Outcome State Fault Refusal :=
  scalar2 g d a b 3 mulHi s
/-- MULHU (R98). -/
def execMulhu (g : Guard) (d a b : Reg) (s : State) : Host.Outcome State Fault Refusal :=
  scalar2 g d a b 3 mulHiU s
/-- DIV (R99). -/
def execDiv (g : Guard) (d a b : Reg) (w : Bool) (s : State) : Host.Outcome State Fault Refusal :=
  divide g d a b w divS s
/-- DIVU (R99). -/
def execDivu (g : Guard) (d a b : Reg) (w : Bool) (s : State) : Host.Outcome State Fault Refusal :=
  divide g d a b w divU s
/-- REM (R99). -/
def execRem (g : Guard) (d a b : Reg) (w : Bool) (s : State) : Host.Outcome State Fault Refusal :=
  divide g d a b w remS s
/-- REMU (R99). -/
def execRemu (g : Guard) (d a b : Reg) (w : Bool) (s : State) : Host.Outcome State Fault Refusal :=
  divide g d a b w remU s
/-- AND (R98). -/
def execAnd (g : Guard) (d a b : Reg) (s : State) : Host.Outcome State Fault Refusal :=
  scalar2 g d a b 1 (· &&& ·) s
/-- OR (R98). -/
def execOr (g : Guard) (d a b : Reg) (s : State) : Host.Outcome State Fault Refusal :=
  scalar2 g d a b 1 (· ||| ·) s
/-- XOR (R98). -/
def execXor (g : Guard) (d a b : Reg) (s : State) : Host.Outcome State Fault Refusal :=
  scalar2 g d a b 1 (· ^^^ ·) s
/-- ANDN (R98). -/
def execAndn (g : Guard) (d a b : Reg) (s : State) : Host.Outcome State Fault Refusal :=
  scalar2 g d a b 1 (fun x y => x &&& ~~~y) s
/-- SHL (R100). -/
def execShl (g : Guard) (d a b : Reg) (w : Bool) (s : State) : Host.Outcome State Fault Refusal :=
  scalar2 g d a b 1 (shiftW w shlV) s
/-- SHR (R100). -/
def execShr (g : Guard) (d a b : Reg) (w : Bool) (s : State) : Host.Outcome State Fault Refusal :=
  scalar2 g d a b 1 (shiftW w shrV) s
/-- SRA (R100). -/
def execSra (g : Guard) (d a b : Reg) (w : Bool) (s : State) : Host.Outcome State Fault Refusal :=
  scalar2 g d a b 1 (shiftW w sraV) s
/-- ROT (R100). -/
def execRot (g : Guard) (d a b : Reg) (w : Bool) (s : State) : Host.Outcome State Fault Refusal :=
  scalar2 g d a b 1 (shiftW w rotV) s
/-- MIN (R98). -/
def execMin (g : Guard) (d a b : Reg) (s : State) : Host.Outcome State Fault Refusal :=
  scalar2 g d a b 1 (fun x y => if y.slt x then y else x) s
/-- MAX (R98). -/
def execMax (g : Guard) (d a b : Reg) (s : State) : Host.Outcome State Fault Refusal :=
  scalar2 g d a b 1 (fun x y => if x.slt y then y else x) s
/-- MINU (R98). -/
def execMinu (g : Guard) (d a b : Reg) (s : State) : Host.Outcome State Fault Refusal :=
  scalar2 g d a b 1 (fun x y => if y.ult x then y else x) s
/-- MAXU (R98). -/
def execMaxu (g : Guard) (d a b : Reg) (s : State) : Host.Outcome State Fault Refusal :=
  scalar2 g d a b 1 (fun x y => if x.ult y then y else x) s
/-- CLZ (R98). -/
def execClz (g : Guard) (d a : Reg) (s : State) : Host.Outcome State Fault Refusal := scalar1 g d a clz s
/-- CTZ (R98). -/
def execCtz (g : Guard) (d a : Reg) (s : State) : Host.Outcome State Fault Refusal := scalar1 g d a ctz s
/-- POPC (R98). -/
def execPopc (g : Guard) (d a : Reg) (s : State) : Host.Outcome State Fault Refusal := scalar1 g d a popc s
/-- SEXT (R98). -/
def execSext (g : Guard) (d a b : Reg) (s : State) : Host.Outcome State Fault Refusal :=
  scalar2 g d a b 1 sextOp s
/-- ZEXT (R98). -/
def execZext (g : Guard) (d a b : Reg) (s : State) : Host.Outcome State Fault Refusal :=
  scalar2 g d a b 1 zextOp s
/-- MOV of a scalar (R98). -/
def execMov (g : Guard) (d a : Reg) (s : State) : Host.Outcome State Fault Refusal := scalar1 g d a id s
/-- MOV of a predicate (R98). -/
def execMovFromPredicate (g : Guard) (d a : Reg) (s : State) : Host.Outcome State Fault Refusal :=
  taped g (fun s => [recP (s.rdP a)]) (fun s => s.wrS 1 d ((s.rdP a).setWidth 64)) s
/-- SEL: the destination keeps its value when the predicate does not choose (R104). -/
def execSel (g : Guard) (d a b : Reg) (inv : Bool) (s : State) : Host.Outcome State Fault Refusal :=
  taped g (fun s => [recP (s.rdP a), recS (s.rdS b)])
    (fun s => if (s.rdP a).getLsbD 0 != inv then s.wrS 1 d (s.rdS b) else s) s

/-- ADDI (R101). -/
def execAddi (g : Guard) (d a : Reg) (i : Imm) (s : State) : Host.Outcome State Fault Refusal :=
  scalarImm g d a (fun s => s.immS i) (· + ·) s
/-- ANDI (R101). -/
def execAndi (g : Guard) (d a : Reg) (i : Imm) (s : State) : Host.Outcome State Fault Refusal :=
  scalarImm g d a (fun s => s.immS i) (· &&& ·) s
/-- ORI (R101). -/
def execOri (g : Guard) (d a : Reg) (i : Imm) (s : State) : Host.Outcome State Fault Refusal :=
  scalarImm g d a (fun s => BitVec.ofNat 64 (s.immZ i)) (· ||| ·) s
/-- XORI (R101). -/
def execXori (g : Guard) (d a : Reg) (i : Imm) (s : State) : Host.Outcome State Fault Refusal :=
  scalarImm g d a (fun s => BitVec.ofNat 64 (s.immZ i)) (· ^^^ ·) s
/-- SHLI (R101). -/
def execShli (g : Guard) (d a : Reg) (i : Imm) (s : State) : Host.Outcome State Fault Refusal :=
  scalarLim g d i (· ≤ 63) (fun s => [recS (s.rdS a)]) (fun s n => s.rdS a <<< n) s
/-- SHRI (R101). -/
def execShri (g : Guard) (d a : Reg) (i : Imm) (s : State) : Host.Outcome State Fault Refusal :=
  scalarLim g d i (· ≤ 63) (fun s => [recS (s.rdS a)]) (fun s n => s.rdS a >>> n) s
/-- SRAI (R101). -/
def execSrai (g : Guard) (d a : Reg) (i : Imm) (s : State) : Host.Outcome State Fault Refusal :=
  scalarLim g d i (· ≤ 63) (fun s => [recS (s.rdS a)]) (fun s n => (s.rdS a).sshiftRight n) s
/-- MOVI (R101). -/
def execMovi (g : Guard) (d : Reg) (i : Imm) (s : State) : Host.Outcome State Fault Refusal :=
  taped g (fun _ => []) (fun s => s.wrS 1 d (s.immS i)) s
/-- BFX (R102). -/
def execBfx (g : Guard) (d a : Reg) (i : Imm) (s : State) : Host.Outcome State Fault Refusal :=
  scalarLim g d i bfDescOk (fun s => [recS (s.rdS a)])
    (fun s n => sext64 ((s.rdS a).toNat / 2 ^ (n % 64)) (n / 64 + 1)) s
/-- BFXU (R102). -/
def execBfxu (g : Guard) (d a : Reg) (i : Imm) (s : State) : Host.Outcome State Fault Refusal :=
  scalarLim g d i bfDescOk (fun s => [recS (s.rdS a)])
    (fun s n => zext64 ((s.rdS a).toNat / 2 ^ (n % 64)) (n / 64 + 1)) s
/-- BFI: the destination is read, then written (R102). -/
def execBfi (g : Guard) (d a : Reg) (i : Imm) (s : State) : Host.Outcome State Fault Refusal :=
  scalarLim g d i bfDescOk (fun s => [recS (s.rdS a), recS (s.rdS d)])
    (fun s n => setBits (s.rdS d) (n % 64) (n / 64 + 1) (s.rdS a).toNat) s

end Sys2Proof.Machine
end

