-- ==== Sys2Proof/Machine/Vector.lean ====
section
/-! DEFINITION. The vector syllables (R130 to R147). -/

namespace Sys2Proof.Machine

/-! ### Elements -/

/-- 16-bit elements. -/
def ElType.narrow (t : ElType) : Bool :=
  match t with
  | .bf16 => true
  | .f16 => true
  | .s16 => true
  | .z16 => true
  | _ => false
/-- Signed integer elements. -/
def ElType.signed (t : ElType) : Bool := t = .s32 || t = .s16
/-- Width of an element. -/
def elWidth (h : Bool) : Nat := if h then 16 else 32
/-- Number of elements, E. -/
def elCount (h : Bool) : Nat := if h then 64 else 32
/-- Element `e` as a number. -/
def elOf (h : Bool) (v : Vec) (e : Nat) : Nat := if h then (half v e).toNat else (laneOf v e).toNat
/-- The register whose elements are given. -/
def mapEl (h : Bool) (f : Nat → Nat) : Vec :=
  if h then ofHalves fun e => BitVec.ofNat 16 (f e) else ofLanes fun n => BitVec.ofNat 32 (f n)
/-- Element `e` is active (R132). -/
def elActive (h : Bool) (act : BitVec 32) (e : Nat) : Bool := act.getLsbD (if h then e / 2 else e)
/-- The 16-bit elements of the lanes of a mask. -/
def laneMask (act : BitVec 32) : BitVec 64 :=
  BitVec.ofNat 64 (upTo 64 (fun e acc => if act.getLsbD (e / 2) then acc + 2 ^ e else acc) 0)
/-- An element as an integer of its type. -/
def elInt (sg h : Bool) (x : Nat) : Int := if sg then sint x (elWidth h) else x
/-- An integer modulo the element width. -/
def wrapEl (h : Bool) (x : Int) : Nat := (x % (2 ^ elWidth h : Int)).toNat
/-- Format of a float type (R134). -/
def fmtOf (t : ElType) : FFmt :=
  match t with
  | .bf16 => bf16
  | .f16 => fp16
  | _ => fp32

/-! ### Frames -/

/-- A vector syllable over two registers, element by element. -/
def vec2 (g : Guard) (d a b : Reg) (lat : Nat) (h : Bool) (f : Nat → Nat → Nat) (s : State) :
    Host.Outcome State Fault Refusal :=
  vtaped g (fun s => [recV (s.rdV a), recV (s.rdV b)])
    (fun s => s.wrV lat d (mapEl h fun e => f (elOf h (s.rdV a) e) (elOf h (s.rdV b) e)) (laneMask (s.lanes g))) s
/-- The same with the destination's own element as third operand. -/
def vec3 (g : Guard) (d a b : Reg) (lat : Nat) (h : Bool) (f : Nat → Nat → Nat → Nat) (s : State) :
    Host.Outcome State Fault Refusal :=
  vtaped g (fun s => [recV (s.rdV a), recV (s.rdV b), recV (s.rdV d)])
    (fun s => s.wrV lat d
      (mapEl h fun e => f (elOf h (s.rdV a) e) (elOf h (s.rdV b) e) (elOf h (s.rdV d) e)) (laneMask (s.lanes g))) s
/-- A vector syllable over one register. -/
def vec1 (g : Guard) (d a : Reg) (lat : Nat) (h : Bool) (f : Nat → Nat) (s : State) :
    Host.Outcome State Fault Refusal :=
  vtaped g (fun s => [recV (s.rdV a)])
    (fun s => s.wrV lat d (mapEl h fun e => f (elOf h (s.rdV a) e)) (laneMask (s.lanes g))) s
/-- A bitwise syllable on whole lanes. -/
def vecBits (g : Guard) (d a b : Reg) (f : Vec → Vec → Vec) (s : State) : Host.Outcome State Fault Refusal :=
  vtaped g (fun s => [recV (s.rdV a), recV (s.rdV b)])
    (fun s => s.wrV 2 d (f (s.rdV a) (s.rdV b)) (laneMask (s.lanes g))) s
/-- A syllable that rearranges the elements of two registers (R143). -/
def vecPerm (g : Guard) (d a b : Reg) (h : Bool) (f : (Nat → Nat) → (Nat → Nat) → Nat → Nat) (s : State) :
    Host.Outcome State Fault Refusal :=
  vtaped g (fun s => [recV (s.rdV a), recV (s.rdV b)])
    (fun s => s.wrV 2 d (mapEl h (f (elOf h (s.rdV a)) (elOf h (s.rdV b)))) (laneMask (s.lanes g))) s

/-! ### Floating point (R136, R137) -/

/-- Exact sum, difference, product and the fused forms, each rounded once. -/
def fAdd (f : FFmt) (rm : Rm) (x y : Nat) : Nat := f.conv rm true ((f.val x).add rm (f.val y))
def fSub (f : FFmt) (rm : Rm) (x y : Nat) : Nat := f.conv rm true ((f.val x).add rm (f.val y).neg)
def fMul (f : FFmt) (rm : Rm) (x y : Nat) : Nat := f.conv rm true ((f.val x).mul (f.val y))
def fFma (f : FFmt) (rm : Rm) (x y d : Nat) : Nat :=
  f.conv rm true (((f.val x).mul (f.val y)).add rm (f.val d))
def fFms (f : FFmt) (rm : Rm) (x y d : Nat) : Nat :=
  f.conv rm true ((f.val d).add rm ((f.val x).mul (f.val y)).neg)

/-- VADD (R136). -/
def execVadd (g : Guard) (d a b : Reg) (t : ElType) (rm : Rm) (s : State) : Host.Outcome State Fault Refusal :=
  vec2 g d a b 4 (ElType.narrow t) (fAdd (fmtOf t) rm) s
/-- VSUB (R136). -/
def execVsub (g : Guard) (d a b : Reg) (t : ElType) (rm : Rm) (s : State) : Host.Outcome State Fault Refusal :=
  vec2 g d a b 4 (ElType.narrow t) (fSub (fmtOf t) rm) s
/-- VMUL (R136). -/
def execVmul (g : Guard) (d a b : Reg) (t : ElType) (rm : Rm) (s : State) : Host.Outcome State Fault Refusal :=
  vec2 g d a b 4 (ElType.narrow t) (fMul (fmtOf t) rm) s
/-- VFMA (R136). -/
def execVfma (g : Guard) (d a b : Reg) (t : ElType) (rm : Rm) (s : State) : Host.Outcome State Fault Refusal :=
  vec3 g d a b 4 (ElType.narrow t) (fFma (fmtOf t) rm) s
/-- VFMS (R136). -/
def execVfms (g : Guard) (d a b : Reg) (t : ElType) (rm : Rm) (s : State) : Host.Outcome State Fault Refusal :=
  vec3 g d a b 4 (ElType.narrow t) (fFms (fmtOf t) rm) s
/-- VMIN (R136). -/
def execVmin (g : Guard) (d a b : Reg) (t : ElType) (s : State) : Host.Outcome State Fault Refusal :=
  vec2 g d a b 4 (ElType.narrow t) (fmtOf t).minCode s
/-- VMAX (R136). -/
def execVmax (g : Guard) (d a b : Reg) (t : ElType) (s : State) : Host.Outcome State Fault Refusal :=
  vec2 g d a b 4 (ElType.narrow t) (fmtOf t).maxOf s
/-- Absolute value (R136, R138). -/
def absEl (t : ElType) (x : Nat) : Nat :=
  if t.isFloat then (fmtOf t).withSign x false
  else wrapEl (ElType.narrow t) (elInt true (ElType.narrow t) x).natAbs
/-- Negation (R136, R138). -/
def negEl (t : ElType) (x : Nat) : Nat :=
  if t.isFloat then (fmtOf t).withSign x !((fmtOf t).val x).sign
  else wrapEl (ElType.narrow t) (-(elInt true (ElType.narrow t) x))
/-- VABS (R136, R138). -/
def execVabs (g : Guard) (d a : Reg) (t : ElType) (s : State) : Host.Outcome State Fault Refusal :=
  vec1 g d a 2 (ElType.narrow t) (absEl t) s
/-- VNEG (R136, R138). -/
def execVneg (g : Guard) (d a : Reg) (t : ElType) (s : State) : Host.Outcome State Fault Refusal :=
  vec1 g d a 2 (ElType.narrow t) (negEl t) s

/-- A function of R137 on FP32 or BF16 elements. -/
def vecFn (g : Guard) (d a : Reg) (t : ElType) (f : Nat → Nat) (s : State) : Host.Outcome State Fault Refusal :=
  vec1 g d a 8 (ElType.narrow t) (if t = .bf16 then viaF32 f else f) s
/-- VRCP (R137). -/
def execVrcp (g : Guard) (d a : Reg) (t : ElType) (s : State) : Host.Outcome State Fault Refusal :=
  vecFn g d a t rcp32 s
/-- VRSQ (R137). -/
def execVrsq (g : Guard) (d a : Reg) (t : ElType) (s : State) : Host.Outcome State Fault Refusal :=
  vecFn g d a t rsq32 s
/-- VEXP2 (R137). -/
def execVexp2 (g : Guard) (d a : Reg) (t : ElType) (s : State) : Host.Outcome State Fault Refusal :=
  vecFn g d a t exp2f32 s
/-- VLOG2 (R137). -/
def execVlog2 (g : Guard) (d a : Reg) (t : ElType) (s : State) : Host.Outcome State Fault Refusal :=
  vecFn g d a t log2f32 s
/-- VTANH (R137). -/
def execVtanh (g : Guard) (d a : Reg) (t : ElType) (s : State) : Host.Outcome State Fault Refusal :=
  vecFn g d a t tanh32 s

/-! ### Integers and bits (R138) -/

/-- VIADD (R138). -/
def execViadd (g : Guard) (d a b : Reg) (h : Bool) (s : State) : Host.Outcome State Fault Refusal :=
  vec2 g d a b 2 h (fun x y => wrapEl h (x + y)) s
/-- VISUB (R138). -/
def execVisub (g : Guard) (d a b : Reg) (h : Bool) (s : State) : Host.Outcome State Fault Refusal :=
  vec2 g d a b 2 h (fun x y => wrapEl h ((x : Int) - y)) s
/-- VAND (R138). -/
def execVand (g : Guard) (d a b : Reg) (s : State) : Host.Outcome State Fault Refusal := vecBits g d a b (· &&& ·) s
/-- VOR (R138). -/
def execVor (g : Guard) (d a b : Reg) (s : State) : Host.Outcome State Fault Refusal := vecBits g d a b (· ||| ·) s
/-- VXOR (R138). -/
def execVxor (g : Guard) (d a b : Reg) (s : State) : Host.Outcome State Fault Refusal := vecBits g d a b (· ^^^ ·) s

/-- Low or high half of the exact product (R138). -/
def mulEl (t : ElType) (hi : Bool) (x y : Nat) : Nat :=
  let h := ElType.narrow t
  let p := elInt (ElType.signed t) h x * elInt (ElType.signed t) h y
  wrapEl h (if hi then p / (2 ^ elWidth h : Int) else p)
/-- VIMUL (R138). -/
def execVimul (g : Guard) (d a b : Reg) (t : ElType) (hi : Bool) (s : State) : Host.Outcome State Fault Refusal :=
  vec2 g d a b 4 (ElType.narrow t) (mulEl t hi) s

/-- The element that comes first in the order of its integer type. -/
def intLt (t : ElType) (x y : Nat) : Bool :=
  elInt (ElType.signed t) (ElType.narrow t) x < elInt (ElType.signed t) (ElType.narrow t) y
/-- Lesser of two integer elements. -/
def iminEl (t : ElType) (x y : Nat) : Nat := if intLt t y x then y else x
/-- Greater of two integer elements. -/
def imaxEl (t : ElType) (x y : Nat) : Nat := if intLt t x y then y else x
/-- VIMIN (R138). -/
def execVimin (g : Guard) (d a b : Reg) (t : ElType) (s : State) : Host.Outcome State Fault Refusal :=
  vec2 g d a b 2 (ElType.narrow t) (iminEl t) s
/-- VIMAX (R138). -/
def execVimax (g : Guard) (d a b : Reg) (t : ElType) (s : State) : Host.Outcome State Fault Refusal :=
  vec2 g d a b 2 (ElType.narrow t) (imaxEl t) s

/-- Least and greatest values of an integer type. -/
def loEl (t : ElType) : Int := if ElType.signed t then -(2 ^ (elWidth (ElType.narrow t) - 1) : Int) else 0
/-- Greatest value. -/
def hiEl (t : ElType) : Int :=
  if ElType.signed t then 2 ^ (elWidth (ElType.narrow t) - 1) - 1 else 2 ^ elWidth (ElType.narrow t) - 1
/-- Saturating sum or difference (R138). -/
def addsEl (t : ElType) (sub : Bool) (x y : Nat) : Nat :=
  let h := ElType.narrow t
  let a := elInt (ElType.signed t) h x
  let b := elInt (ElType.signed t) h y
  wrapEl h (max (loEl t) (min (hiEl t) (if sub then a - b else a + b)))
/-- VADDS (R138). -/
def execVadds (g : Guard) (d a b : Reg) (t : ElType) (sub : Bool) (s : State) : Host.Outcome State Fault Refusal :=
  vec2 g d a b 2 (ElType.narrow t) (addsEl t sub) s

/-- The shifts of R100 at an element width. -/
def shiftEl (h : Bool) (f : (n : Nat) → BitVec n → Nat → BitVec n) (x y : Nat) : Nat :=
  (f (elWidth h) (BitVec.ofNat (elWidth h) x) (y % 2 ^ elWidth h)).toNat
/-- VSHL (R138). -/
def execVshl (g : Guard) (d a b : Reg) (h : Bool) (s : State) : Host.Outcome State Fault Refusal :=
  vec2 g d a b 2 h (shiftEl h shlV) s
/-- VSHR (R138). -/
def execVshr (g : Guard) (d a b : Reg) (h : Bool) (s : State) : Host.Outcome State Fault Refusal :=
  vec2 g d a b 2 h (shiftEl h shrV) s
/-- VSRA (R138). -/
def execVsra (g : Guard) (d a b : Reg) (h : Bool) (s : State) : Host.Outcome State Fault Refusal :=
  vec2 g d a b 2 h (shiftEl h sraV) s

/-- The four products of VDOT4 and the accumulator (R138). -/
def dot4 (k : DotKind) (sat : Bool) (x y d : Nat) : Nat :=
  let as := k = .ss
  let bs := k ≠ .zz
  let el := fun (sg : Bool) (v j : Nat) => if sg then sint (fld v (8 * j) 8) 8 else (fld v (8 * j) 8 : Int)
  let sum := (List.range 4).foldl (fun acc j => acc + el as x j * el bs y j) (sint d 32)
  wrapEl false (if sat then max (-(2 ^ 31 : Int)) (min (2 ^ 31 - 1) sum) else sum)
/-- VDOT4 (R138). -/
def execVdot4 (g : Guard) (d a b : Reg) (k : DotKind) (sat : Bool) (s : State) :
    Host.Outcome State Fault Refusal :=
  vec3 g d a b 4 false (dot4 k sat) s

/-! ### Conversion (R139), random words (R140) -/

/-- The value of a source element. -/
def cvtVal (t : CvtType) (x : Nat) : FVal :=
  match t with
  | .f32 => fp32.val x
  | .bf16 => bf16.val x
  | .f16 => fp16.val x
  | .s32 => ofInt (sint x 32)
  | .z32 => ofInt x
/-- cvt of R139. -/
def cvtEl (dst src : CvtType) (rm : Rm) (ovs : Bool) (r : BitVec 32) (x : Nat) : Nat :=
  match dst with
  | .f32 => fp32.conv rm ovs (cvtVal src x)
  | .bf16 => if rm = .sr then (srConv ovs (BitVec.ofNat 32 x) r).toNat else bf16.conv rm ovs (cvtVal src x)
  | .f16 => fp16.conv rm ovs (cvtVal src x)
  | .s32 => wrapEl false (toClamped rm (-(2 ^ 31 : Int)) (2 ^ 31 - 1) (cvtVal src x))
  | .z32 => wrapEl false (toClamped rm 0 (2 ^ 32 - 1) (cvtVal src x))

/-- rword(n) of R82 for the issuing quarter. -/
def State.rword (s : State) (n : Nat) : BitVec 32 := rngWord s.qtr.rngkey s.qtr.rngctr n
/-- One counter value consumed (R52). -/
def State.drawn (s : State) : State := s.modQtr fun x => { x with rngctr := x.rngctr + 1 }

/-- The elements VCVT writes and their mask, for 16-bit half `m` (R139). -/
def State.cvtOut (s : State) (a : Reg) (dst src : CvtType) (m : Bool) (rm : Rm) (ovs : Bool) (act : BitVec 32) :
    Vec × BitVec 64 :=
  let v := s.rdV a
  let c := fun (n x : Nat) => cvtEl dst src rm ovs (s.rword n) x
  let o := if m then 32 else 0
  match src.is16, dst.is16 with
  | false, false => (mapEl false fun n => c n (elOf false v n), laneMask act)
  | false, true =>
    (mapEl true fun e => if o ≤ e ∧ e < o + 32 then c (e - o) (elOf false v (e - o)) else 0,
     BitVec.ofNat 64 (act.toNat * 2 ^ o))
  | true, false => (mapEl false fun n => c n (elOf true v (o + n)), laneMask act)
  | true, true => (mapEl true fun e => c 0 (elOf true v e), laneMask act)

/-- VCVT (R139). -/
def execVcvt (g : Guard) (d a : Reg) (dst src : CvtType) (m : Bool) (rm : Rm) (ovs : Bool) (s : State) :
    Host.Outcome State Fault Refusal :=
  vtaped g (fun s => [recV (s.rdV a)]) (fun s =>
    let (v, k) := s.cvtOut a dst src m rm ovs (s.lanes g)
    let t := s.wrV 3 d v k
    if rm = .sr then t.drawn else t) s
/-- VRAND (R140). -/
def execVrand (g : Guard) (d : Reg) (s : State) : Host.Outcome State Fault Refusal :=
  vtaped g (fun _ => []) (fun s => (s.wrV 3 d (ofLanes s.rword) (laneMask (s.lanes g))).drawn) s
/-- VPRUNE (R140). -/
def execVprune (g : Guard) (d a b : Reg) (s : State) : Host.Outcome State Fault Refusal :=
  vtaped g (fun s => [recV (s.rdV a), recS (s.rdS b)]) (fun s =>
    (s.wrV 4 d (ofLanes fun n => prune ((s.rdS b).setWidth 32) (laneOf (s.rdV a) n) (s.rword n))
      (laneMask (s.lanes g))).drawn) s

/-! ### Compares, selects, moves (R141, R142) -/

/-- The condition of VCMP on two elements (R141). -/
def vcmpHolds (t : VCmpType) (c : VCond) (x y : Nat) : Bool :=
  let val := fun (k : Nat) => match t with
    | .f32 => fp32.val k
    | .bf16 => bf16.val k
    | .f16 => fp16.val k
    | .s32 => ofInt (sint k 32)
  let a := val x
  let b := val y
  match c with
  | .eq => a.eq b
  | .ne => !a.eq b
  | .lt => a.lt b
  | .le => a.lt b || a.eq b
  | .gt => b.lt a
  | .ge => b.lt a || a.eq b
  | .un => a.isNan || b.isNan
  | .nan => a.isNan
  | .nonfin => match a with
    | .nan => true
    | .inf _ => true
    | .fin .. => false

/-- The operand of lane `n` (R141). -/
def vcmpEl (t : VCmpType) (hi : Bool) (v : Vec) (n : Nat) : Nat :=
  match t with
  | .bf16 => elOf true v (2 * n + hi.toNat)
  | .f16 => elOf true v (2 * n + hi.toNat)
  | _ => elOf false v n

/-- VCMP (R141); conditions 7 and 8 read no second register. -/
def execVcmp (g : Guard) (d a b : Reg) (t : VCmpType) (c : VCond) (hi : Bool) (s : State) :
    Host.Outcome State Fault Refusal :=
  let one := c = .nan || c = .nonfin
  vtaped g (fun s => if one then [recV (s.rdV a)] else [recV (s.rdV a), recV (s.rdV b)]) (fun s =>
    let m := upTo 32 (fun n acc =>
      if vcmpHolds t c (vcmpEl t hi (s.rdV a) n) (vcmpEl t hi (s.rdV b) n) then acc + 2 ^ n else acc) 0
    s.wrPm 2 d (BitVec.ofNat 32 m) (s.lanes g)) s
/-- VSEL (R142). -/
def execVsel (g : Guard) (d a b : Reg) (inv : Bool) (s : State) : Host.Outcome State Fault Refusal :=
  vtaped g (fun s => [recP (s.rdP a), recV (s.rdV b)]) (fun s =>
    let p := if inv then ~~~(s.rdP a) else s.rdP a
    s.wrV 2 d (s.rdV b) (laneMask (s.lanes g &&& p))) s
/-- VMOV (R142). -/
def execVmov (g : Guard) (d a : Reg) (s : State) : Host.Outcome State Fault Refusal :=
  vtaped g (fun s => [recV (s.rdV a)]) (fun s => s.wrV 2 d (s.rdV a) (laneMask (s.lanes g))) s
/-- VBCAST (R142). -/
def execVbcast (g : Guard) (d a : Reg) (h : Bool) (s : State) : Host.Outcome State Fault Refusal :=
  vtaped g (fun s => [recS (s.rdS a)])
    (fun s => s.wrV 2 d (mapEl h fun _ => (s.rdS a).toNat) (laneMask (s.lanes g))) s

/-- A vector meaning that checks its immediate before it records (R71, R142, R143). -/
def vecImm (g : Guard) (k : BitVec 16) (ok : Nat → Bool) (recs : State → List (List Byte)) (f : State → State)
    (s : State) : Host.Outcome State Fault Refusal :=
  fated (ok (s.imm16 k)) (fun s =>
    if s.vexecutes g then
      finish (do
        let s ← get
        if s.taping then recordValues (recs s)
        act f) s
    else .next s) s

/-- VBCAST.v (R142). -/
def execVbcastV (g : Guard) (d a : Reg) (k : BitVec 16) (h : Bool) (s : State) :
    Host.Outcome State Fault Refusal :=
  vecImm g k (· < elCount h) (fun s => [recV (s.rdV a)])
    (fun s => s.wrV 2 d (mapEl h fun _ => elOf h (s.rdV a) (s.imm16 k)) (laneMask (s.lanes g))) s
/-- VMOVS (R142). -/
def execVmovs (g : Guard) (d a b : Reg) (s : State) : Host.Outcome State Fault Refusal :=
  vtaped g (fun s => [recS (s.rdS a), recS (s.rdS b)]) (fun s =>
    let i := (s.rdS b).toNat
    if i < 32 ∧ (s.lanes g).getLsbD i then s.wrV 2 d (mapEl false fun _ => (s.rdS a).toNat % 2 ^ 32) (laneMask (BitVec.ofNat 32 (2 ^ i)))
    else s) s
/-- VMOVS.from (R142). -/
def execVmovsFrom (g : Guard) (d a b : Reg) (s : State) : Host.Outcome State Fault Refusal :=
  vtaped g (fun s => [recV (s.rdV a), recS (s.rdS b)]) (fun s =>
    let i := (s.rdS b).toNat
    if i < 32 ∧ (s.lanes g).getLsbD i then s.wrS 2 d ((laneOf (s.rdV a) i).setWidth 64) else s) s

/-! ### Rearrangement (R143, R144) -/

/-- VPERM (R143). -/
def execVperm (g : Guard) (d a b : Reg) (h : Bool) (s : State) : Host.Outcome State Fault Refusal :=
  vecPerm g d a b h (fun a b e => a (b e % elCount h)) s
/-- Element `e` under a pattern of VSHUF (R143). -/
def shufEl (p : ShufPat) (n : Nat) (a b : Nat → Nat) (e : Nat) : Nat :=
  match p with
  | .lo => if e % 2 = 0 then a (e / 2) else b (e / 2)
  | .hi => if e % 2 = 0 then a (n / 2 + e / 2) else b (n / 2 + e / 2)
  | .even => if e < n / 2 then a (2 * e) else b (2 * (e - n / 2))
  | .odd => if e < n / 2 then a (2 * e + 1) else b (2 * (e - n / 2) + 1)
/-- VSHUF (R143). -/
def execVshuf (g : Guard) (d a b : Reg) (pat : ShufPat) (h : Bool) (s : State) : Host.Outcome State Fault Refusal :=
  vecPerm g d a b h (shufEl pat (elCount h)) s
/-- Lane `e` slid by `k` (R143). -/
def slideEl (rot up : Bool) (k : Nat) (a : Nat → Nat) (e : Nat) : Nat :=
  if rot then a ((if up then e + 32 - k % 32 else e + k % 32) % 32)
  else if up then (if k ≤ e then a (e - k) else 0)
  else if e + k < 32 then a (e + k) else 0
/-- The register slid. -/
def State.slid (s : State) (g : Guard) (d a : Reg) (rot up : Bool) (k : Nat) : State :=
  s.wrV 2 d (mapEl false (slideEl rot up k (elOf false (s.rdV a)))) (laneMask (s.lanes g))
/-- VSLIDE (R143). -/
def execVslide (g : Guard) (d a : Reg) (amt : SlideAmt) (rot up : Bool) (s : State) :
    Host.Outcome State Fault Refusal :=
  match amt with
  | .reg b =>
    vtaped g (fun s => [recV (s.rdV a), recS (s.rdS b)]) (fun s => s.slid g d a rot up (s.rdS b).toNat) s
  | .imm k => vecImm g k (· ≤ 31) (fun s => [recV (s.rdV a)]) (fun s => s.slid g d a rot up (s.imm16 k)) s

/-- The lanes of a mask, ascending. -/
def lanesOf (m : BitVec 32) : List Nat := (List.range 32).filter fun n => m.getLsbD n
/-- VCOMPACT: the guard restricts the selection only (R144). -/
def execVcompact (g : Guard) (d a b : Reg) (s : State) : Host.Outcome State Fault Refusal :=
  vtaped g (fun s => [recV (s.rdV a), recP (s.rdP b)]) (fun s =>
    let sel := lanesOf (s.rdP b &&& s.lanes g)
    s.wrV 3 d (mapEl false fun j => match sel[j]? with
      | some n => elOf false (s.rdV a) n
      | none => 0) (BitVec.allOnes 64)) s
/-- VEXPAND (R144). -/
def execVexpand (g : Guard) (d a b : Reg) (s : State) : Host.Outcome State Fault Refusal :=
  vtaped g (fun s => [recV (s.rdV a), recP (s.rdP b)]) (fun s =>
    let m := s.rdP b &&& s.lanes g
    s.wrV 3 d (mapEl false fun n => elOf false (s.rdV a) ((lanesOf m).filter (· < n)).length) (laneMask m)) s

/-! ### Reductions and scans (R145, R146) -/

/-- op on two elements (R145, R146). -/
def redOp (t : ElType) (op : RedOp) (rm : Rm) (x y : Nat) : Nat :=
  match op with
  | .add => if t.isFloat then fAdd (fmtOf t) rm x y else wrapEl (ElType.narrow t) (x + y)
  | .max => if t.isFloat then (fmtOf t).maxOf x y else imaxEl t x y
  | .min => if t.isFloat then (fmtOf t).minCode x y else iminEl t x y
/-- The identity of an operation (R145). -/
def redIdent (t : ElType) (op : RedOp) : Nat :=
  match op with
  | .add => if t.isFloat then (fmtOf t).signed true 0 else 0
  | .max => if t.isFloat then (fmtOf t).signed true (fmtOf t).infCode else wrapEl (ElType.narrow t) (loEl t)
  | .min => if t.isFloat then (fmtOf t).infCode else wrapEl (ElType.narrow t) (hiEl t)
/-- The elements with identities for the inactive ones. -/
def redElems (t : ElType) (op : RedOp) (act : BitVec 32) (v : Vec) : List Nat :=
  (List.range (elCount (ElType.narrow t))).map fun e =>
    if elActive (ElType.narrow t) act e then elOf (ElType.narrow t) v e else redIdent t op
/-- One level of the tree (R59). -/
def pairUp (f : Nat → Nat → Nat) : List Nat → List Nat
  | a :: b :: r => f a b :: pairUp f r
  | l => l
/-- The whole tree: six levels bring 64 elements to one. -/
def redTree (f : Nat → Nat → Nat) (l : List Nat) : Nat :=
  (upTo 6 (fun _ l => pairUp f l) l).headD 0
/-- The result as R145 extends it; an integer sum is the same whether it wraps at 32 bits or at the width. -/
def redResult (t : ElType) (x : Nat) : Word :=
  if ElType.signed t then sext64 x (elWidth (ElType.narrow t)) else zext64 x (elWidth (ElType.narrow t))
/-- Latency of VRED (R147). -/
def redLat (t : ElType) : Nat := if !t.isFloat then 6 else if ElType.narrow t then 12 else 10
/-- VRED (R145). -/
def execVred (g : Guard) (d a : Reg) (t : ElType) (op : RedOp) (rm : Rm) (s : State) :
    Host.Outcome State Fault Refusal :=
  vtaped g (fun s => [recV (s.rdV a)]) (fun s =>
    s.wrS (redLat t) d (redResult t (redTree (redOp t op rm) (redElems t op (s.lanes g) (s.rdV a))))) s

/-- The running values, before each element or after it (R146). -/
def scanList (f : Nat → Nat → Nat) (excl : Bool) : Nat → List Nat → List Nat
  | _, [] => []
  | acc, x :: r => (if excl then acc else f acc x) :: scanList f excl (f acc x) r
/-- VSCAN; it holds while the quarter's scan unit is busy (R146, R147). DEDUCED (log 100): where two scans have different
element counts, E is the earlier one's. -/
def execVscan (g : Guard) (d a : Reg) (t : ElType) (op : RedOp) (excl : Bool) (rm : Rm) (s : State) :
    Host.Outcome State Fault Refusal :=
  if s.vexecutes g then
    finish (do
      let s ← get
      if s.core.clock < s.qtr.scanBusy then holdLate
      if s.taping then recordValues [recV (s.rdV a)]
      act fun s =>
        let h := ElType.narrow t
        let out := scanList (redOp t op rm) excl (redIdent t op) (redElems t op (s.lanes g) (s.rdV a))
        (s.wrV (4 + elCount h) d (mapEl h fun e => out.getD e 0) (laneMask (s.lanes g))).modQtr
          fun x => { x with scanBusy := s.core.clock + elCount h }) s
  else .next s

end Sys2Proof.Machine
end

