-- ==== Sys2Proof/Machine/Acc.lean ====
section
/-! DEFINITION. The accumulators and the quarter syllables that reach them (R148 to R152, R168 to R172). -/

namespace Sys2Proof.Machine

/-! ### The tiles -/

/-- Where element (r, j) of tile `k`, or of its shadow, stands (R149). -/
def accKey (sh : Bool) (k r j : Nat) : Nat := (if sh then 16384 else 0) + 2048 * k + 32 * r + j
/-- An element. -/
def Acc.el (a : Acc) (sh : Bool) (k r j : Nat) : BitVec 32 := tget 0 a.elems (accKey sh k r j)
/-- An element written. -/
def Acc.setEl (a : Acc) (sh : Bool) (k r j : Nat) (v : BitVec 32) : Acc :=
  { a with elems := tset 0 a.elems (accKey sh k r j) v }
/-- ACCFLGk (R150). -/
def Acc.flags (a : Acc) (k : Nat) : BitVec 8 := tget 0 a.flg k
/-- ACCFLGk written. -/
def Acc.setFlags (a : Acc) (k : Nat) (f : BitVec 8) : Acc := { a with flg := tset 0 a.flg k f }
/-- POISk or SPOISk. -/
def Acc.poison (a : Acc) (sh : Bool) (k : Nat) : Word := tget 0 a.pois (if sh then 8 + k else k)
/-- POISk or SPOISk written. -/
def Acc.setPoison (a : Acc) (sh : Bool) (k : Nat) (v : Word) : Acc :=
  { a with pois := tset 0 a.pois (if sh then 8 + k else k) v }

/-- Bits of ACCFLG (R150). -/
def typeBit (sh : Bool) : Nat := if sh then 2 else 0
def ovfBit (sh : Bool) : Nat := if sh then 3 else 1
def svBit : Nat := 4
/-- The tile, or its shadow, holds INT32. -/
def Acc.isInt (a : Acc) (sh : Bool) (k : Nat) : Bool := (a.flags k).getLsbD (typeBit sh)
/-- SV. -/
def Acc.sv (a : Acc) (k : Nat) : Bool := (a.flags k).getLsbD svBit

/-- The shadow copied from the tile, or the tile from its shadow: elements, type, overflow and poison (R163,
R171). -/
def Acc.copyTile (a : Acc) (fromSh toSh : Bool) (k : Nat) : Acc :=
  let lo := accKey toSh k 0 0
  let src := a.elems.filter fun e => accKey fromSh k 0 0 ≤ e.1 && e.1 < accKey fromSh k 0 0 + 2048
  let elems := src.foldl (fun t e => tput t (lo + (e.1 - accKey fromSh k 0 0)) e.2) (tclear a.elems lo (lo + 2048))
  let f := a.flags k
  let f := setBit (setBit f (typeBit toSh) (f.getLsbD (typeBit fromSh))) (ovfBit toSh) (f.getLsbD (ovfBit fromSh))
  ({ a with elems }.setFlags k f).setPoison toSh k (a.poison fromSh k)

/-- The accumulators of the focused core changed. -/
def State.modAcc (s : State) (f : Acc → Acc) : State := s.modCore fun c => { c with acc := f c.acc }

/-! ### Busy accumulators -/

/-- The accumulator a command of the ME queue writes or reads (R152). -/
def accOf (c : Cmd) : Option Nat :=
  match decodeCommand .me c.bits with
  | .accz _ o => some o.acc.toNat
  | .accld _ o => some o.acc.toNat
  | .accst _ o => some o.acc.toNat
  | .mma _ o => some o.acc.toNat
  | .mmaSp _ o => some o.acc.toNat
  | .mmaD _ o => some o.acc.toNat
  | _ => none

/-- The latest queued command that makes acc `k` busy; none while the ME is stopped by a fault or a trap. A
command that enters in the syllable's own cycle enters after it (R152, R173). -/
def Core.accBusy (c : Core) (k : Nat) : Option (BitVec 32) :=
  if c.me.flt || (c.frozen && c.me.stopped) then none
  else ((c.me.queue.filter fun x => accOf x = some k).getLast?).map Cmd.seq

/-- A syllable with function `fn` reaches acc `k`: ACCBUSY in exposed mode, else a wait while it is busy (R152). -/
def accFree (k fn : Nat) : M Unit := do
  let s ← get
  match s.core.accBusy k with
  | none => pure ()
  | some n =>
    if s.core.issue.exposed then
      qtrap { cause := .accbusy, info0 := BitVec.ofNat 64 k, info1 := n.setWidth 64, info2 := BitVec.ofNat 64 fn }
    else holdAt 4 (BitVec.ofNat 64 k)

/-- POISON of a row (R169, R170). -/
def rowPoison (k r : Nat) : M Unit :=
  qtrap { cause := .poison, info0 := BitVec.ofNat 64 k, info1 := BitVec.ofNat 64 r }

/-- A vector syllable that a service core does not have (R12, R67). -/
def vtileOnly (g : Guard) (m : M Unit) (s : State) : Host.Outcome State Fault Refusal :=
  if s.core.isService then finish illegal s else if s.vexecutes g then finish m s else .next s

/-! ### ACCRD, ACCWR, ACCCVT -/

/-- row of R169. -/
def State.accRow (s : State) (b : Reg) : Nat := (s.rdS b).toNat % 64

/-- ACCRD (R169). -/
def execAccrd (g : Guard) (d a b : Reg) (sh : Bool) (s : State) : Host.Outcome State Fault Refusal :=
  vtileOnly g (do
    accFree a.toNat 0
    let s ← get
    let r := s.accRow b
    if (s.core.acc.poison sh a.toNat).getLsbD r then rowPoison a.toNat r
    act fun s => s.wrV 4 d (ofLanes fun n => s.core.acc.el sh a.toNat r n) (laneMask (s.lanes g))) s

/-- ACCWR (R169). -/
def execAccwr (g : Guard) (d a b : Reg) (s : State) : Host.Outcome State Fault Refusal :=
  vtileOnly g (do
    accFree d.toNat 1
    act fun s =>
      let r := s.accRow b
      let m := s.lanes g
      s.modAcc fun t =>
        let t := upTo 32 (fun n t => if m.getLsbD n then t.setEl false d.toNat r n (laneOf (s.rdV a) n) else t) t
        if m = BitVec.allOnes 32 then t.setPoison false d.toNat (setBit (t.poison false d.toNat) r false) else t) s

/-- Target of ACCCVT: rows, element bits, and its format when it is a floating-point one (R170). -/
def Fmt.rows (f : Fmt) : Nat :=
  match f with
  | .bf16 => 2
  | .f16 => 2
  | .e2m1 => 8
  | .int4 => 8
  | _ => 4
/-- Bits of an element of a format (R40). -/
def Fmt.bits (f : Fmt) : Nat :=
  match f with
  | .bf16 => 16
  | .f16 => 16
  | .e3m2 => 6
  | .e2m3 => 6
  | .e2m1 => 4
  | .int4 => 4
  | .fp32 => 32
  | _ => 8
/-- The floating-point format of a code, if it is one. -/
def Fmt.ffmt (f : Fmt) : Option FFmt :=
  match f with
  | .bf16 => some Machine.bf16
  | .f16 => some fp16
  | .e4m3 => some Machine.e4m3
  | .e5m2 => some Machine.e5m2
  | .e3m2 => some Machine.e3m2
  | .e2m3 => some Machine.e2m3
  | .e2m1 => some Machine.e2m1
  | .fp32 => some Machine.fp32
  | _ => none
/-- emax of a scaled target (R43); none for the others. -/
def Fmt.emax (f : Fmt) : Option Int :=
  match f with
  | .e4m3 => some 8
  | .e5m2 => some 15
  | .e3m2 => some 4
  | .e2m3 => some 2
  | .e2m1 => some 2
  | .td8 => some 6
  | _ => none
/-- Range of an integer target (R40). -/
def Fmt.range (f : Fmt) : Int × Int :=
  match f with
  | .uint8 => (0, 255)
  | .int4 => (-8, 7)
  | _ => (-128, 127)

/-- floor(log2 |v|) of a nonzero finite value. -/
def FVal.log2 (v : FVal) : Option Int :=
  match v with
  | .fin _ m e => if m = 0 then none else some (Nat.log2 m + e)
  | _ => none
/-- The value is NaN or infinite. -/
def FVal.special (v : FVal) : Bool :=
  match v with
  | .fin .. => false
  | _ => true
/-- The value times 2^k. -/
def FVal.shift (v : FVal) (k : Int) : FVal :=
  match v with
  | .fin s m e => .fin s m (e + k)
  | v => v
/-- The largest of the exponents given. -/
def maxExp (l : List FVal) : Option Int :=
  l.foldl (fun m v => match m, v.log2 with | some a, some b => some (max a b) | none, b => b | a, none => a) none

/-- The block scale of a group for a target with `emax` (R43). -/
def blockScale (emax : Int) (l : List FVal) : Nat :=
  if l.any FVal.special then 0xFF
  else
    match maxExp l with
    | none => 0
    | some k => (min 254 (max 0 (k - emax + 127))).toNat

/-- The code of a value in a target, stochastic rounding apart (R44, R47, R49). -/
def Fmt.code (f : Fmt) (rm : Rm) (ovs : Bool) (v : FVal) : Nat :=
  match Fmt.ffmt f with
  | some k => k.conv rm ovs v
  | none => (toClamped rm (Fmt.range f).1 (Fmt.range f).2 v % (2 ^ Fmt.bits f : Int)).toNat

/-- A row of ACCCVT: its element codes and its scale (R170). `w` gives the random words under RM 4. -/
def cvtRow (f : Fmt) (rm : Rm) (ovs : Bool) (x : Nat → BitVec 32) (isInt : Bool) (w : Nat → BitVec 32) :
    List Nat × Nat :=
  let val := fun (j : Nat) => if isInt then ofInt (x j).toInt else fp32.val (x j).toNat
  match Fmt.emax f with
  | some em =>
    let l := (List.range 32).map val
    let e := blockScale em l
    if e = 0xFF then (List.replicate 32 0, e)
    else (l.map fun v => Fmt.code f rm false (v.shift (127 - (e : Int))), e)
  | none =>
    if rm = .sr then ((List.range 32).map fun j => (srConv ovs (x j) (w j)).toNat, 0)
    else ((List.range 32).map fun j => Fmt.code f rm ovs (val j), 0)

/-- Elements of `w` bits packed, element 0 first (R41). -/
def pack (w : Nat) (l : List Nat) : Nat := l.foldr (fun v acc => v % 2 ^ w + 2 ^ w * acc) 0

/-- Rows, scales and lanes ACCCVT makes of a tile (R170). -/
def State.accCvt (s : State) (sh : Bool) (k r0 : Nat) (f : Fmt) (rm : Rm) (ovs : Bool) : Nat × Nat :=
  let rows := (List.range (Fmt.rows f)).map fun i =>
    cvtRow f rm ovs (fun j => s.core.acc.el sh k ((r0 + i) % 64) j) (s.core.acc.isInt sh k)
      (fun j => rngWord s.qtr.rngkey (s.qtr.rngctr + BitVec.ofNat 32 i) j)
  (pack (Fmt.bits f) (rows.flatMap (·.1)), pack 8 (rows.map (·.2)))

/-- ACCCVT (R170). -/
def execAcccvt (g : Guard) (d a b c : Reg) (fmt : Fmt) (sh : Bool) (rm : Rm) (ovs : Bool) (s : State) :
    Host.Outcome State Fault Refusal :=
  vtileOnly g (do
    accFree a.toNat 2
    let s ← get
    let k := a.toNat
    if rm = .sr && s.core.acc.isInt sh k then illegal
    let r0 := s.accRow b
    match (List.range (Fmt.rows fmt)).find? fun i => (s.core.acc.poison sh k).getLsbD ((r0 + i) % 64) with
    | some i => rowPoison k ((r0 + i) % 64)
    | none =>
      act fun s =>
        let (p, e) := s.accCvt sh k r0 fmt rm ovs
        let lanes := Fmt.rows fmt * Fmt.bits fmt
        let m := s.lanes g &&& BitVec.ofNat 32 (2 ^ lanes - 1)
        let s := s.wrV 6 d (BitVec.ofNat 1024 p) (laneMask m)
        let s := if (Fmt.emax fmt).isSome then s.wrS 6 c (BitVec.ofNat 64 e) else s
        if rm = .sr then s.modQtr fun x => { x with rngctr := x.rngctr + BitVec.ofNat 32 (Fmt.rows fmt) } else s) s

/-! ### ACCCOMMIT, ACCDISCARD, ACCPOISON -/

/-- SV cleared. -/
def Acc.resolve (a : Acc) (k : Nat) : Acc := a.setFlags k (setBit (a.flags k) svBit false)

/-- ACCCOMMIT (R171). -/
def execAcccommit (g : Guard) (d a : Reg) (s : State) : Host.Outcome State Fault Refusal :=
  tileOnly g (do
    accFree d.toNat 3
    act fun s => s.modAcc fun t =>
      if !t.sv d.toNat then t
      else ((if (s.rdP a).getLsbD 0 then t.copyTile true false d.toNat else t).resolve d.toNat)) s

/-- ACCDISCARD (R171). -/
def execAccdiscard (g : Guard) (d : Reg) (s : State) : Host.Outcome State Fault Refusal :=
  tileOnly g (do
    accFree d.toNat 4
    act fun s => s.modAcc fun t => t.resolve d.toNat) s

/-- The item ACCPOISON selects (R172). -/
def Acc.item (a : Acc) (k : Nat) (sel : PoisSel) : Word :=
  match sel with
  | .pois => a.poison false k
  | .spois => a.poison true k
  | .flg => (a.flags k).setWidth 64
/-- The item with bits `m` cleared; of ACCFLG only the overflow bits (R150, R172). -/
def Acc.clearItem (a : Acc) (k : Nat) (sel : PoisSel) (m : Word) : Acc :=
  match sel with
  | .pois => a.setPoison false k (a.poison false k &&& ~~~m)
  | .spois => a.setPoison true k (a.poison true k &&& ~~~m)
  | .flg => a.setFlags k (a.flags k &&& ~~~(m.setWidth 8 &&& 0x0A))

/-- ACCPOISON (R172). -/
def execAccpoison (g : Guard) (d a b : Reg) (sel : PoisSel) (clr : Bool) (s : State) :
    Host.Outcome State Fault Refusal :=
  tileOnly g (do
    accFree a.toNat 5
    act fun s =>
      let v := s.core.acc.item a.toNat sel
      let m := s.rdS b
      let s := if clr then s.modAcc fun t => t.clearItem a.toNat sel m else s
      s.wrS 2 d v) s

end Sys2Proof.Machine
end

