-- ==== Sys2Proof/Machine/Ce.lean ====
section
/-! DEFINITION. The copy engine: COPY, COPY2D, COPY3D, FILL, MCCOPY, TGATH and TSCAT (R212, R244 to R251, R351,
R374). -/

namespace Sys2Proof.Machine

/-! ### A command as a list of moves -/

/-- Where a move takes bytes from. -/
inductive Src
  | lit (b : List Byte)
  | rng (r : Rng)
  deriving DecidableEq, Repr

/-- One move: a destination and what fills it, in order. -/
structure Move where
  dst : Rng
  srcs : List Src
  deriving DecidableEq, Repr

/-- A translated source. -/
inductive TSrc
  | lit (b : List Byte)
  | rng (t : TRng)
  deriving DecidableEq, Repr

/-- Sources translated in order. -/
def Ctx.placeSrcs (x : Ctx) : List Src → M (List TSrc)
  | [] => pure []
  | .lit b :: r => do
    let l ← x.placeSrcs r
    pure (.lit b :: l)
  | .rng a :: r => do
    let t ← x.place 0 a
    let l ← x.placeSrcs r
    pure (.rng t :: l)

/-- Moves translated in order: sources, then destination (R378). -/
def Ctx.placeMoves (x : Ctx) : List Move → M (List (TRng × List TSrc))
  | [] => pure []
  | m :: r => do
    let ss ← x.placeSrcs m.srcs
    let d ← x.place 1 m.dst
    let l ← x.placeMoves r
    pure ((d, ss) :: l)

/-- The first granule in access order that races (R224, R244). -/
def Ctx.raceMoves (x : Ctx) : List Move → M Unit
  | [] => pure ()
  | m :: r => do
    m.srcs.forM fun s => match s with | .rng a => x.race false a | .lit _ => pure ()
    x.race true m.dst
    x.raceMoves r

/-- The bytes of the sources of a move. -/
def State.gather (s : State) (l : List TSrc) : List (Byte × Bool) :=
  l.flatMap fun x => match x with | .lit b => clean b | .rng t => s.bytesIn t

/-- A read that will not complete has been given up (R247). -/
def Device.gaveUp (d : Device) (r : Rng) : Device :=
  { d with lostReads := d.lostReads.filter fun l => !(l.1 = r.space && l.2.1 < r.a + r.n && r.a < l.2.1 + l.2.2) }

/-- The reads of the sources of moves that will not complete have been given up (R247). -/
def State.gaveUps (s : State) (l : List (TRng × List TSrc)) : State :=
  l.foldl (fun s m => m.2.foldl (fun s x => match x with
    | .rng t => if t.r.space = 3 || t.r.space = 4 then s.modDev fun d => d.gaveUp t.r else s
    | .lit _ => s) s) s

/-- The transfer: everything is read, then written in order; the bytes moved are counted (R244, R343). -/
def State.transfer (s : State) (k : Sink) (l : List (TRng × List TSrc)) : State :=
  let bs := l.map fun m => (m.1, s.gather m.2)
  let s := s.gaveUps l
  (bs.foldl (fun s m => s.putIn k m.1 m.2) s).count 4 (bs.foldl (fun n m => n + m.2.length) 0)

/-- Translation, race detection and transfer of moves (R244, R378); `lists` are the ranges a plan has read. -/
def Ctx.doMoves (x : Ctx) (bar : Option Nat) (lists : List Rng) (l : List Move) : M Unit := do
  let t ← x.placeMoves l
  lists.forM fun r => x.race false r
  x.raceMoves l
  act fun s => s.transfer (s.sink x bar) t

/-! ### COPY, COPY2D, COPY3D, FILL -/

/-- Rules of the shared operand bits (R76, R245). -/
def CeCommon.ok (c : CeCommon) : Bool := c.rsv = 0 && (c.swe || c.sw = 0) && (c.be || c.bidx = 0)
/-- Destination spaces (R244). -/
def State.dstSpaces (s : State) : List Nat := if s.core.isService then [0, 2, 3, 4, 5] else [0, 2, 3, 4]

/-- A row of a copy: source and destination offsets from the operands', bytes read and written. -/
structure Row where
  s : Nat
  d : Nat
  ns : Nat
  nd : Nat
  deriving DecidableEq, Repr

/-- End of the extent of rows. -/
def srcEnd (l : List Row) : Nat := l.foldl (fun m r => max m (r.s + r.ns)) 0
def dstEnd (l : List Row) : Nat := l.foldl (fun m r => max m (r.d + r.nd)) 0

/-- Two extents share a byte. -/
def overlap (a n b m : Nat) : Bool := n ≠ 0 && m ≠ 0 && a < b + m && b < a + n

/-- A copy of rows through its two capabilities, in the order of R378; the extents are checked whole. -/
def Ctx.copyPlan (x : Ctx) (c : CeCommon) (soff doff : Nat) (rows : List Row) : M (List Move) := do
  let s ← get
  let ns := srcEnd rows
  let nd := dstEnd rows
  let sa ← x.capAt c.cs soff ns (permR + permENG) 1 [0, 2, 3, 4]
  let da ← x.capAt c.cd doff nd (permW + permENG) 1 s.dstSpaces
  let sp := x.space c.cs
  let dp := x.space c.cd
  x.bound c.be c.bidx.toNat
  x.need (!c.swe || dp = 0) 5
  x.need ((!c.be || dp = 0) && !(sp = dp && overlap sa ns da nd)) 1
  let sw := x.swizzle c.swe c.sw
  pure (rows.map fun r =>
    { dst := { space := dp, a := da + r.d, n := r.nd, sw }, srcs := [.rng { space := sp, a := sa + r.s, n := r.ns, sw := none }] })

/-- The body of a copy that passes bytes unchanged. -/
def Ctx.copyRows (x : Ctx) (c : CeCommon) (soff doff : Nat) (rows : List Row) : M Unit := do
  x.header (CeCommon.ok c)
  let rows := rows.filter fun r => r.ns ≠ 0
  let l ← x.copyPlan c soff doff rows
  x.doMoves (barOf c.be c.bidx) [] l

/-- Bytes of a host frame and of a page (R351). -/
def frameBytes : Nat := 65568
/-- The leaf PTE a walk ends at, whether or not its page is there and may be accessed so. -/
def walkPte : Walk → Option Word
  | .ok p _ _ => some p
  | .dirty p _ _ => some p
  | .absent p _ _ => some p
  | .fail 2 _ p => some p
  | .fail 3 _ p => some p
  | .fail .. => none
/-- A 64 KiB-aligned page of host backing at a VA, in the context of the core's run: its key slot (R307, R351). -/
def State.hostPage (s : State) (va kind : Nat) : Option Nat :=
  if va % 65536 ≠ 0 then none
  else
    match walkPte (s.dev.walk (ptrootOf s.dev.rcbs s.core.region) va kind) with
    | some p => if pteHb p then some (pteKs p) else none
    | none => none

/-- How a COPY uses the GCM unit (R351). -/
inductive GcmUse
  | seal (ks : Nat)
  | unseal (ks : Nat)
  deriving DecidableEq, Repr

/-- A service-core COPY of a host frame between a host-backed page and space 3 (R351). -/
def State.gcmUse (s : State) (x : Ctx) (o : CopyOp) : Option GcmUse :=
  if !(s.core.isService && o.len.toNat = frameBytes) then none
  else if x.space o.c.cs = 2 && x.space o.c.cd = 3 then
    (s.hostPage (capBase (x.cap o.c.cs) + o.soff.toNat) 0).map .seal
  else if x.space o.c.cs = 3 && x.space o.c.cd = 2 then
    (s.hostPage (capBase (x.cap o.c.cd) + o.doff.toNat) 1).map .unseal
  else none

/-- The nonce of a frame (R351). -/
def gcmNonce (ks ctr : Nat) : BitVec 96 := BitVec.ofNat 96 (ks * 2 ^ 88 + ctr)
/-- A page under the key stream of a slot. -/
def gcmCrypt (key : BitVec 256) (nonce : BitVec 96) (b : List Byte) : List Byte :=
  b.mapIdx fun i v => v ^^^ Config.gcmStream key nonce i
/-- A sealed frame: ciphertext, tag, counter, zeros (R351). -/
def sealFrame (k : KeySlot) (ks : Nat) (plain : List Byte) : List Byte :=
  let n := gcmNonce ks k.seals.toNat
  let ct := gcmCrypt k.gcm n plain
  let aad := bytesOf 8 k.seals.toNat
  ct ++ bytesOf 16 (Config.gcmTag k.gcm n aad ct).toNat ++ aad ++ bytesOf 8 0
/-- The page of a frame; a tag that fails, or a poisoned byte of it, gives poisoned zeros (R351). -/
def openFrame (k : KeySlot) (ks : Nat) (f : List (Byte × Bool)) : List (Byte × Bool) :=
  let b := f.map (·.1)
  let ct := b.take 65536
  let aad := (b.drop 65552).take 8
  let n := gcmNonce ks (ofBytes aad)
  if !(f.any (·.2)) && bytesOf 16 (Config.gcmTag k.gcm n aad ct).toNat = (b.drop 65536).take 16
  then clean (gcmCrypt k.gcm n ct) else List.replicate 65536 (0, true)

/-- A sealing or opening COPY (R351, R374). -/
def Ctx.gcmCopy (x : Ctx) (o : CopyOp) (u : GcmUse) : M Unit := do
  x.header (CeCommon.ok o.c)
  let row : Row := match u with
    | .seal _ => { s := 0, d := 0, ns := 65536, nd := frameBytes }
    | .unseal _ => { s := 0, d := 0, ns := frameBytes, nd := 65536 }
  let l ← x.copyPlan o.c o.soff.toNat o.doff.toNat [row]
  let t ← x.placeMoves l
  x.raceMoves l
  act fun s =>
    t.foldl (fun s m =>
      let b := s.gather m.2
      let s := s.gaveUps [m]
      let k := s.sink x none
      match u with
      | .seal ks =>
        let slot := tget .empty s.dev.slots ks
        let s := s.modDev fun d =>
          { d with slots := tset .empty d.slots ks { slot with seals := slot.seals + 1 } }
        (s.putIn k m.1 (clean (sealFrame slot ks (b.map (·.1))))).count 4 frameBytes
      | .unseal ks => (s.putIn k m.1 (openFrame (tget .empty s.dev.slots ks) ks b)).count 4 65536) s

/-- COPY (R245, R351). -/
def execCopy (h : CmdHdr) (o : CopyOp) (s : State) : Host.Outcome State Fault Refusal :=
  runCommand .ce 0x01 h (fun x => do
    match (← get).gcmUse x o with
    | some u => x.gcmCopy o u
    | none =>
      x.copyRows o.c o.soff.toNat o.doff.toNat [{ s := 0, d := 0, ns := o.len.toNat, nd := o.len.toNat }]) s

/-- Rows of COPY2D (R245). -/
def Copy2dOp.rows (o : Copy2dOp) : List Row :=
  (List.range o.nrow.toNat).map fun r =>
    { s := 16 * o.sstr.toNat * r, d := 16 * o.dstr.toNat * r, ns := o.rowb.toNat, nd := o.rowb.toNat }
/-- COPY2D (R245). -/
def execCopy2d (h : CmdHdr) (o : Copy2dOp) (s : State) : Host.Outcome State Fault Refusal :=
  runCommand .ce 0x02 h (fun x => x.copyRows o.c o.soff.toNat o.doff.toNat (Copy2dOp.rows o)) s

/-- Rows of COPY3D (R245). -/
def Copy3dOp.rows (o : Copy3dOp) : List Row :=
  (List.range o.npl.toNat).flatMap fun p => (List.range o.nrow.toNat).map fun r =>
    { s := 256 * o.sps.toNat * p + 16 * o.sstr.toNat * r, d := 256 * o.dps.toNat * p + 16 * o.dstr.toNat * r,
      ns := o.rowb.toNat, nd := o.rowb.toNat }
/-- COPY3D (R245). -/
def execCopy3d (h : CmdHdr) (o : Copy3dOp) (s : State) : Host.Outcome State Fault Refusal :=
  runCommand .ce 0x03 h (fun x => x.copyRows o.c (16 * o.soff.toNat) (16 * o.doff.toNat) (Copy3dOp.rows o)) s

/-- Byte `i` of a fill pattern (R245). -/
def patByte (p : BitVec 32) (i : Nat) : Byte := p.extractLsb' (8 * (i % 4)) 8
/-- FILL (R245). -/
def execFill (h : CmdHdr) (o : FillOp) (s : State) : Host.Outcome State Fault Refusal :=
  runCommand .ce 0x07 h (fun x => do
    x.header (CeCommon.ok o.c && o.c.cs = 0 && o.rsv = 0)
    let s ← get
    let n := o.len.toNat
    let da ← x.capAt o.c.cd o.doff.toNat n (permW + permENG) 1 s.dstSpaces
    let dp := x.space o.c.cd
    x.bound o.c.be o.c.bidx.toNat
    x.need (!o.c.swe || dp = 0) 5
    x.need (!o.c.be || dp = 0) 1
    let l : List Move := if n = 0 then [] else
      [{ dst := { space := dp, a := da, n, sw := x.swizzle o.c.swe o.c.sw },
         srcs := [.lit ((List.range n).map (patByte o.pat))] }]
    x.doMoves (barOf o.c.be o.c.bidx) [] l) s

/-! ### Tile lists -/

/-- A layer descriptor of the base-note store (R212). -/
structure Layer where
  tw : Nat
  th : Nat
  ch : Nat
  fmt : Nat
  slot : Bool → Nat
  scale : Bool → Nat

/-- The descriptor of 64 bytes. -/
def Layer.ofBytes (b : List Byte) : Layer :=
  let f := fun (o n : Nat) => Machine.ofBytes ((b.drop o).take n)
  { tw := f 0 2, th := f 2 2, ch := f 4 2, fmt := f 6 1, slot := fun k => f (if k then 16 else 8) 8,
    scale := fun k => f (if k then 32 else 24) 8 }
/-- Bytes of a position, of its scales, and of a tile (R212). -/
def Layer.pos (l : Layer) : Nat := l.ch * (if l.fmt = 0 then 2 else 1)
def Layer.td8 (l : Layer) : Bool := l.fmt = 6
def Layer.sc (l : Layer) : Nat := if l.td8 then l.ch / 32 else 0
def Layer.tile (l : Layer) : Nat := 64 * l.pos
def Layer.tileSc (l : Layer) : Nat := if l.td8 then 2 * l.ch else 0

/-- A selected entry: its tile and its vector (R248). -/
structure Sel where
  tx : Nat
  ty : Nat
  dx : Int
  dy : Int
  deriving DecidableEq, Repr

/-- Rules of the operand bits of the tile-list commands (R76, R248). -/
def TileOp.ok (o : TileOp) : Bool :=
  o.rsvA = 0 && o.rsvB = 0 && o.rsvC = 0 && o.rsvD = 0 && (o.swe || o.sw = 0) && (o.be || o.bidx = 0)
    && o.modes.toNat < 8

/-- The list as it is read: ranges, and the bytes of row pointers and entries. -/
structure TileList where
  rngs : List Rng
  rp : List Nat
  ens : List Nat
  deriving DecidableEq, Repr

/-- A range read whole: translated, then its bytes as they stand. -/
def Ctx.readRng (x : Ctx) (r : Rng) : M (List Byte) := do
  let t ← x.place 0 r
  pure (((← get).bytesIn t).map (·.1))

/-- The descriptor, checked (R248). DESIGN CHOICE (log 138): of one whose C × element bytes is no multiple of 64, which R212
rules out and gives no outcome for, nothing more is checked; its fields are used as they are, C ÷ 32 rounded down for scales. -/
def Ctx.layer (x : Ctx) (o : TileOp) (perm : Nat) : M Layer := do
  let a ← x.capAt o.cb (64 * o.layer.toNat) 64 perm 1 [2]
  let b ← x.readRng { space := 2, a, n := 64, sw := none }
  let l := Layer.ofBytes b
  x.need ([0, 4, 6].contains l.fmt) 1
  pure l

/-- The row pointers and the entries examined (R248). -/
def Ctx.tileList (x : Ctx) (o : TileOp) (l : Layer) : M TileList := do
  let sp := x.space o.cl
  let ra ← x.capAt o.cl (16 * o.rpoff.toNat) (2 * (l.th + 1)) (permR + permENG) 1 [0, 2]
  let rr : Rng := { space := sp, a := ra, n := 2 * (l.th + 1), sw := none }
  let rb ← x.readRng rr
  let ea ← x.capAt o.cl (16 * o.enoff.toNat + 4 * o.first.toNat) (4 * o.count.toNat) (permR + permENG) 1 [0, 2]
  let er : Rng := { space := sp, a := ea, n := 4 * o.count.toNat, sw := none }
  let eb ← x.readRng er
  pure { rngs := [rr, er], rp := words 2 rb, ens := words 4 eb }

/-- The tile row of entry `i`, which lies in rowptr[0] to rowptr[TH] − 1 (R248). Where row pointers do not ascend and several
rows claim the entry, the first has it (DESIGN CHOICE, log 138). -/
def rowOf (rp : List Nat) (th i : Nat) : Option Nat :=
  if rp.getD 0 0 ≤ i && i < rp.getD th 0 then
    (List.range th).find? fun r => rp.getD r 0 ≤ i && i < rp.getD (r + 1) 0
  else none

/-- The selected entries in order, or COMMAND for an entry outside the list or the map (R248). -/
def Ctx.select (x : Ctx) (o : TileOp) (l : Layer) (rp : List Nat) : Nat → List Nat → M (List Sel)
  | _, [] => pure []
  | i, e :: r =>
    match rowOf rp l.th i with
    | none => x.command 1
    | some ty =>
      if l.tw ≤ fld e 0 12 then x.command 1
      else do
        let rest ← x.select o l rp (i + 1) r
        let c : Sel := { tx := fld e 0 12, ty, dx := sint (fld e 14 9) 9, dy := sint (fld e 23 9) 9 }
        pure (if o.modes.getLsbD (fld e 12 2) then c :: rest else rest)

/-- Addresses of the base-note store, each extent checked (R94). -/
def Ctx.store (x : Ctx) (o : TileOp) (perm off n : Nat) : M Rng := do
  let a ← x.capAt o.cb off n perm 1 [2]
  pure { space := 2, a, n, sw := none }

/-- Clamped to `[0, n)`. -/
def clampTo (v : Int) (n : Nat) : Nat := if v < 0 then 0 else min v.toNat (n - 1)

/-- The tile and the position in it of a map position. -/
def Layer.at (l : Layer) (y x : Nat) : Nat × Nat := ((y / 8) * l.tw + x / 8, 8 * (y % 8) + x % 8)

/-- Moves of MCCOPY for one entry (R249). -/
def Ctx.mcMoves (x : Ctx) (o : TileOp) (l : Layer) (perm : Nat) (e : Sel) : M (List Move) := do
  let t := e.ty * l.tw + e.tx
  let ms ← collect 64 fun p => do
    let (t', p') := l.at (clampTo (8 * e.ty + (p / 8 : Nat) - e.dy) (8 * l.th))
      (clampTo (8 * e.tx + (p % 8 : Nat) - e.dx) (8 * l.tw))
    let d ← x.store o perm (l.slot o.slot + t * l.tile + p * l.pos) l.pos
    let s ← x.store o perm (l.slot (!o.slot) + t' * l.tile + p' * l.pos) l.pos
    let m : Move := { dst := d, srcs := [.rng s] }
    if l.td8 then
      let d2 ← x.store o perm (l.scale o.slot + t * l.tileSc + p * l.sc) l.sc
      let s2 ← x.store o perm (l.scale (!o.slot) + t' * l.tileSc + p' * l.sc) l.sc
      pure [m, { dst := d2, srcs := [.rng s2] }]
    else pure [m]
  pure ms.flatten

/-- Positions of a TGATH block side, and the sizes D and G of R250. -/
def Layer.dsize (l : Layer) (np : Nat) : Nat := 16 * cdiv (np * l.pos) 16
def Layer.gsize (l : Layer) (np : Nat) : Nat :=
  if l.td8 then l.dsize np + 16 * cdiv (np * l.ch) 512 else l.dsize np

/-- The move of TGATH for its `k`-th entry, whose area starts at `area` (R250). -/
def Ctx.tgMove (x : Ctx) (o : TileOp) (l : Layer) (area k : Nat) (e : Sel) : M Move := do
  let side := 8 + 2 * o.halo.toNat
  let np := side * side
  let part := fun (off : Nat → Nat → Nat) (n : Nat) => collect np fun i => do
    let y : Int := 8 * e.ty - o.halo.toNat + (i / side : Nat)
    let z : Int := 8 * e.tx - o.halo.toNat + (i % side : Nat)
    if 0 ≤ y && y < 8 * l.th && 0 ≤ z && z < 8 * l.tw then
      let (t, p) := l.at y.toNat z.toNat
      let r ← x.store o (permR + permENG) (off t p) n
      pure (Src.rng r)
    else pure (.lit (List.replicate n 0))
  let data ← part (fun t p => l.slot o.slot + t * l.tile + p * l.pos) l.pos
  let pad : List Src := [.lit (List.replicate (l.dsize np - np * l.pos) 0)]
  let scales ← if l.td8 then part (fun t p => l.scale o.slot + t * l.tileSc + p * l.sc) l.sc else pure []
  let pad2 : List Src := [.lit (List.replicate (l.gsize np - l.dsize np - (if l.td8 then np * l.sc else 0)) 0)]
  pure { dst := { space := 0, a := area + k * l.gsize np, n := l.gsize np, sw := x.swizzle o.swe o.sw },
         srcs := data ++ pad ++ scales ++ pad2 }

/-- Moves of TSCAT for its `k`-th entry (R251). -/
def Ctx.tsMoves (x : Ctx) (o : TileOp) (l : Layer) (perm area k : Nat) (e : Sel) : M (List Move) := do
  let t := e.ty * l.tw + e.tx
  let a := area + k * (l.tile + l.tileSc)
  let sw := x.swizzle o.swe o.sw
  let d ← x.store o perm (l.slot o.slot + t * l.tile) l.tile
  let m : Move := { dst := d, srcs := [.rng { space := 0, a, n := l.tile, sw }] }
  if l.td8 then
    let d2 ← x.store o perm (l.scale o.slot + t * l.tileSc) l.tileSc
    pure [m, { dst := d2, srcs := [.rng { space := 0, a := a + l.tile, n := l.tileSc, sw }] }]
  else pure [m]

/-- What the three tile-list commands do alike before their moves: their fields, capabilities, descriptor and list
(R248, R378). `area` names the permission on CS, if they use it. -/
def Ctx.tiles (x : Ctx) (o : TileOp) (own : Bool) (cb : Nat) (area : Option Nat) :
    M (Layer × TileList × List Sel) := do
  x.header (TileOp.ok o && own)
  let _ ← x.capAt o.cb (64 * o.layer.toNat) 64 cb 1 [2]
  let _ ← x.capAt o.cl (16 * o.enoff.toNat + 4 * o.first.toNat) (4 * o.count.toNat) (permR + permENG) 1 [0, 2]
  match area with
  | some perm => let _ ← x.capAt o.cs (16 * o.soff.toNat) 0 perm 1 [0]; pure ()
  | none => pure ()
  x.bound o.be o.bidx.toNat
  x.need (!o.swe || area.isSome) 5
  x.need (!o.be || area.isSome) 1
  let l ← x.layer o cb
  let t ← x.tileList o l
  let sel ← x.select o l t.rp o.first.toNat t.ens
  pure (l, t, sel)

/-- MCCOPY (R249). -/
def execMccopy (h : CmdHdr) (o : TileOp) (s : State) : Host.Outcome State Fault Refusal :=
  runCommand .ce 0x04 h (fun x => do
    let perm := permR + permW + permENG
    let (l, t, sel) ← x.tiles o (o.cs = 0 && o.soff = 0 && o.halo = 0) perm none
    let ms ← sel.mapM fun e => x.mcMoves o l perm e
    x.doMoves none t.rngs ms.flatten) s

/-- TGATH (R250). -/
def execTgath (h : CmdHdr) (o : TileOp) (s : State) : Host.Outcome State Fault Refusal :=
  runCommand .ce 0x05 h (fun x => do
    let (l, t, sel) ← x.tiles o true (permR + permENG) (some (permW + permENG))
    let side := 8 + 2 * o.halo.toNat
    let area ← x.capAt o.cs (16 * o.soff.toNat) (sel.length * l.gsize (side * side)) (permW + permENG) 1 [0]
    let ms ← (sel.mapIdx fun k e => (k, e)).mapM fun p => x.tgMove o l area p.1 p.2
    x.doMoves (barOf o.be o.bidx) t.rngs ms) s

/-- TSCAT (R251). -/
def execTscat (h : CmdHdr) (o : TileOp) (s : State) : Host.Outcome State Fault Refusal :=
  runCommand .ce 0x06 h (fun x => do
    let perm := permR + permW + permENG
    let (l, t, sel) ← x.tiles o (o.halo = 0) perm (some (permR + permENG))
    let area ← x.capAt o.cs (16 * o.soff.toNat) (sel.length * (l.tile + l.tileSc)) (permR + permENG) 1 [0]
    let ms ← (sel.mapIdx fun k e => (k, e)).mapM fun p => x.tsMoves o l perm area p.1 p.2
    x.doMoves (barOf o.be o.bidx) t.rngs ms.flatten) s

/-- HOST_READ_TIMEOUT: reads of a range of host memory, or of a peer's window, fail or do not complete (R247). -/
def execHostReadTimeout (addr : OuterAddr) (len : Nat) (s : State) : Host.Outcome State Fault Refusal :=
  .next (s.modDev fun d => { d with lostReads := d.lostReads ++ [(if addr.peer then 4 else 3, addr.off, len)] })

end Sys2Proof.Machine
end

