-- ==== Sys2Proof/Machine/Cmds.lean ====
section
/-! DEFINITION. The CMD syllables, which place an inline command in a queue (R72, R74, R179, R182). -/

namespace Sys2Proof.Machine

/-- A command with its S flag set by the SPEC prefix (R72, R76). -/
def withSpec (spec : Bool) (cmd : CmdWord) : CmdWord := if spec then setBit cmd 11 true else cmd

/-- An inline command for engine `e`, which enters its queue in the next cycle: ILLEGAL in a handler; a full queue is a
wait slot (R74, R173, R179, R182). -/
def inlineCmd (e : Eng) (cmd : CmdWord) : M Unit := do
  let s ← get
  if s.core.depth ≠ 0 then illegal
  if s.core.slipLimit ≤ s.core.queued e then holdAt 5 (BitVec.ofNat 64 (engNum e))
  act fun s => s.modCore fun c => { c with entering := c.entering ++
    [(c.clock + 1, e, c.cmdOf (withSpec c.issue.spec cmd) true c.issue.q s.qtr.c none 0)] }

/-- CMD.ce (R74). -/
def execCmdCe (g : Guard) (cmd : CmdWord) (s : State) : Host.Outcome State Fault Refusal :=
  guarded g (inlineCmd .ce cmd) s
/-- CMD.me; a service core has no ME (R12, R74). -/
def execCmdMe (g : Guard) (cmd : CmdWord) (s : State) : Host.Outcome State Fault Refusal :=
  tileOnly g (inlineCmd .me cmd) s
/-- CMD.ni (R74). -/
def execCmdNi (g : Guard) (cmd : CmdWord) (s : State) : Host.Outcome State Fault Refusal :=
  guarded g (inlineCmd .ni cmd) s
/-- CMD.tape; a service core has no tape engine (R12, R74). -/
def execCmdTape (g : Guard) (cmd : CmdWord) (s : State) : Host.Outcome State Fault Refusal :=
  tileOnly g (inlineCmd .tape cmd) s
/-- CMD.cmu; a service core has no CMU queue (R12, R74). -/
def execCmdCmu (g : Guard) (cmd : CmdWord) (s : State) : Host.Outcome State Fault Refusal :=
  tileOnly g (inlineCmd .cmu cmd) s

end Sys2Proof.Machine
end

