-- ==== Sys2Proof/Machine/Context.lean ====
section
/-! DEFINITION. The context image (R189), the context instructions and SCRUB (R190, R191), and CKPT (R188). -/

namespace Sys2Proof.Machine

/-! ### The image -/

/-- Zeros up to `n` bytes. -/
def padTo (n : Nat) (b : List Byte) : List Byte := b ++ bytesOf (n - b.length) 0
/-- A field of an image. -/
def imgAt (b : List Byte) (o n : Nat) : Nat := ofBytes ((b.drop o).take n)
/-- Bits, eight to a byte, in ascending order. -/
def packBits (n : Nat) (f : Nat → Bool) : List Byte :=
  (List.range (n / 8)).map fun j => BitVec.ofNat 8 (upTo 8 (fun i acc => acc + 2 ^ i * (f (8 * j + i)).toNat) 0)
/-- Registers of a file, `w` bytes each. -/
def fileBytes {n : Nat} (t : Tab (BitVec n)) (k w : Nat) : List Byte :=
  (List.range k).flatMap fun i => bytesOf w (tget 0 t i).toNat
/-- A file read back. -/
def fileOf (n : Nat) (b : List Byte) (o k w : Nat) : Tab (BitVec n) :=
  (words w ((b.drop o).take (k * w))).zipIdx.foldl (fun t e => tset 0 t e.2 (BitVec.ofNat n e.1)) []

/-- A loop register as its word (R113), and back. -/
def Loop.word (l : Loop) : Nat :=
  l.limit.toNat + 2 ^ 32 * l.trip.toNat + 2 ^ 64 * l.max.toNat + 2 ^ 96 * l.start.toNat + 2 ^ 160 * l.act.toNat
def Loop.ofWord (n : Nat) : Loop :=
  { limit := BitVec.ofNat 32 n, trip := BitVec.ofNat 32 (n / 2 ^ 32), max := BitVec.ofNat 32 (n / 2 ^ 64),
    start := BitVec.ofNat 64 (n / 2 ^ 96), act := fld n 160 1 = 1 }

/-- The part of a quarter (R189). -/
def Quarter.image (x : Quarter) : List Byte :=
  padTo 0x4800 (fileBytes x.v 128 128 ++ fileBytes x.s 64 8 ++ fileBytes x.p 64 4
    ++ (List.range 16).flatMap (fun i => bytesOf 16 ((tget 0 x.c i).toNat % 2 ^ 128))
    ++ padTo 16 (packBits 16 fun i => capTag (tget 0 x.c i)) ++ fileBytes x.b 8 8
    ++ (List.range 4).flatMap (fun i => bytesOf 32 (tget .zero x.l i).word)
    ++ padTo 8 [x.vwin.setWidth 8, x.pwin.setWidth 8, x.role.setWidth 8] ++ bytesOf 8 x.rngkey.toNat
    ++ bytesOf 8 x.rngctr.toNat ++ fileBytes x.tscr 4 8)

/-- A quarter with its saved registers replaced from its part. -/
def Quarter.ofImage (x : Quarter) (b : List Byte) : Quarter :=
  { x with
    v := fileOf 1024 b 0 128 128, s := fileOf 64 b 0x4000 64 8, p := fileOf 32 b 0x4200 64 4,
    c := (List.range 16).foldl (fun t i => tset 0 t i (BitVec.ofNat 129 (imgAt b (0x4300 + 16 * i) 16
          + 2 ^ 128 * fld (imgAt b 0x4400 2) i 1))) [],
    b := fileOf 64 b 0x4410 8 8, bAt := [],
    l := (List.range 4).foldl (fun t i => tset .zero t i (Loop.ofWord (imgAt b (0x4450 + 32 * i) 32))) [],
    vwin := BitVec.ofNat 6 (imgAt b 0x44D0 1), pwin := BitVec.ofNat 5 (imgAt b 0x44D1 1),
    role := BitVec.ofNat 2 (imgAt b 0x44D2 1), rngkey := BitVec.ofNat 64 (imgAt b 0x44D8 8),
    rngctr := BitVec.ofNat 32 (imgAt b 0x44E0 8), tscr := fileOf 64 b 0x44E8 4 8 }

/-- Bytes of the scratchpad, and of an image without the binding block (R189, R302). -/
def Core.scratchLen (c : Core) : Nat := 4096 * (c.rowS - c.rowV)
def imageLen (l : Nat) : Nat := 0x40000 + l + l / 64

/-- The line a chain stands at. -/
def Chain.at (x : Chain) : Word :=
  if x.inEntry || x.slot then x.line else x.base + 64 * BitVec.ofNat 64 (x.fidx.toNat % x.nlines.toNat)
/-- The two words of an engine (R189, R298). -/
def Chain.image (x : Chain) : List Byte :=
  if x.active then bytesOf 8 x.at.toNat ++ bytesOf 8 (x.desc.toNat % 2 ^ 48 / 32 * 32 + x.slot.toNat + 2)
  else bytesOf 16 0

/-- PMASK and JSYNC of the run: in a handler they are those of the interrupted stream (R176, R190). -/
def Core.runMasks (c : Core) : Nat × Nat :=
  if c.depth = 0 then (c.pmask.toNat, c.jsync.toNat) else (bfld c.tr.tstat 28 4, bfld c.tr.tstat 24 4)

/-- Bytes 0x00 to 0x2F of an image. -/
def Core.imageHead (c : Core) (gen : Nat) : List Byte :=
  bytesOf 4 0x00020001 ++ bytesOf 2 c.region ++ bytesOf 1 c.isService.toNat
    ++ bytesOf 1 (c.tr.tstat.getLsbD 9).toNat ++ bytesOf 8 gen ++ bytesOf 8 c.scratchLen
    ++ bytesOf 4 c.sys.poolv.toNat ++ bytesOf 4 c.sys.pools.toNat ++ bytesOf 4 c.sys.poolc.toNat ++ bytesOf 4 0
    ++ bytesOf 8 c.runcyc.toNat

/-- Bytes from 0x40 to the end (R189). -/
def Core.imageBody (c : Core) : List Byte :=
  let lo := 4096 * c.rowV
  let n := c.scratchLen
  padTo 0x3C0
    (bytesOf 8 c.tr.tstat.toNat ++ bytesOf 8 c.tr.tcause.toNat ++ fileBytes c.tr.tepc 4 8 ++ fileBytes c.tr.tinfo 4 8
      ++ bytesOf 8 c.tr.tldm.toNat ++ bytesOf 8 c.tr.meprog.toNat
      ++ engs.flatMap (fun e => bytesOf 8 (c.eng e).tcut.toNat) ++ bytesOf 56 0
      ++ engs.flatMap (fun e => (c.eng e).chain.image)
      ++ engs.flatMap (fun e => bytesOf 4 (c.eng e).next.toNat))
    ++ c.q0.image ++ c.q1.image ++ c.q2.image ++ c.q3.image
    ++ fileBytes c.acc.elems 32768 4
    ++ padTo 0x1000 (fileBytes c.acc.flg 8 1 ++ fileBytes c.acc.pois 16 8
      ++ padTo 8 [BitVec.ofNat 8 c.runMasks.1, BitVec.ofNat 8 c.runMasks.2]
      ++ (List.range 256).flatMap (fun i => bytesOf 2 (c.semOf i).v.toNat ++ bytesOf 2 (c.semOf i).ceil.toNat)
      ++ fileBytes c.swz 32 4)
    ++ padTo 0xCC00 (fileBytes c.bars 2048 4)
    ++ c.pool.read lo n ++ packBits (n / 16) (fun g => tget false c.pool.full (lo / 16 + g))
    ++ packBits (n / 16) (fun g => tget false c.pool.tag (lo / 16 + g))

/-- The GCM key of a slot. -/
def Device.gcmKey (d : Device) (ks : Nat) : BitVec 256 := (tget .empty d.slots ks).gcm

/-- The authentication tag of an image's parts (R189). -/
def Device.imageTag (d : Device) (region gen : Nat) (head body : List Byte) : BitVec 128 :=
  Config.gcmTag (d.gcmKey (ksOf d.rcbs region)) (BitVec.ofNat 96 (region * 2 ^ 80 + gen % 2 ^ 64)) (head ++ body) []

/-- GEN of an RCB (R301). -/
def rcbGen (t : Rcbs) (i : Nat) : Nat := rcbF t i 0x50 0 64
/-- GEN raised by 1 (R189, R190). -/
def Device.raiseGen (d : Device) (region : Nat) : Device :=
  d.rcbPut region 0x50 8 ((rcbGen d.rcbs region + 1) % 2 ^ 64)

/-- The image of a core, for the generation its RCB now has. -/
def Core.image (c : Core) (d : Device) : List Byte :=
  let gen := rcbGen d.rcbs c.region
  let head := c.imageHead gen
  let body := c.imageBody
  head ++ bytesOf 16 (d.imageTag c.region gen head body).toNat ++ body

/-- The first check of R190 that an image fails: TINFO0 and the offset. -/
def Core.imageBad (c : Core) (d : Device) (b : List Byte) : Option (Nat × Nat) :=
  let gen := rcbGen d.rcbs c.region
  let rsv := [(0x24, 4), (0xC8, 56), (0x164, 60), (0x1A0, 608)]
  if imgAt b 0 4 ≠ 0x00020001 then some (1, 0)
  else if imgAt b 6 1 ≠ c.isService.toNat then some (2, 6)
  else if imgAt b 4 2 ≠ c.region then some (3, 4)
  else if imgAt b 8 8 ≠ gen then some (4, 8)
  else if imgAt b 0x30 16 ≠ (d.imageTag c.region gen (b.take 0x30) (b.drop 0x40)).toNat then some (5, 0x30)
  else
    (rsv.flatMap fun r => (List.range r.2).filterMap fun i => if b.getD (r.1 + i) 0 = 0 then none else some (r.1 + i)).head?.map
      fun o => (6, o)

/-! ### Loading an image -/

/-- The cause of a code (R181). -/
def causeOf (n : Nat) : Option Cause :=
  [Cause.illegal, .illprefix, .priv, .capfault, .xlate, .mmx, .poison, .accbusy, .loopmax, .waitlong, .semovf,
   .tapeovf, .tapelost, .tapediv, .command, .swtrap, .mcheck, .ctxbad].find? fun c => c.code = n

/-- The fault an image records of engine `k`: the sequence number is SEQ + 1, or SEQ for a POISON that a completed command
met (R167); the agent is the engine; a line fault names the saved line and no opcode; info words that neither the image nor
R181 gives are free values, drawn by `n` (R181, R189; log 103). -/
def lostFault (n k : Nat) (lf : Bool) (line : Option Word) (cause : Cause) (done : BitVec 32) : TrapRec :=
  let w := fun (i : Nat) => Config.lostInfo n (4 * k + i)
  let q := (done + 1).setWidth 64
  let at' := if lf then line.getD (w 0) else w 0
  let t : TrapRec := { cause, src := 1, eng := BitVec.ofNat 3 k }
  match cause with
  | .capfault => { t with sub := (w 1).setWidth 8, info0 := q, info1 := ((w 1).setWidth 8).setWidth 64, info2 := w 2 &&& 15, info3 := w 3 }
  | .xlate => { t with info0 := at', info1 := w 1 &&& 0xFFFFFF, info2 := q }
  | .mmx => { t with info0 := w 0, info1 := BitVec.ofNat 64 ((engs.findSome? fun e => if engNum e = k then engAgent e else none).getD 0)
                                            ||| (w 1 &&& 0x100), info2 := w 2 &&& 0xFF07, info3 := q }
  | .semovf => { t with info0 := w 0 &&& 0xFF, info1 := w 1, info2 := w 2, info3 := q }
  | .command => { t with info0 := q, info1 := w 1, info2 := if lf then line.getD (w 2) else w 2, info3 := if lf then 0 else w 3 &&& 0xFF }
  | .poison => { t with info0 := w 0 &&& 7, info1 := if (w 1).getLsbD 0 then q else done.setWidth 64 }
  | _ => { t with info0 := at' }

/-- An engine with its cut and its number replaced; `line` is the line its chain stands at (R178, R189). -/
def Engine.ofImage (x : Engine) (n k cut next : Nat) (line : Option Word) : Engine :=
  let w := BitVec.ofNat 64 cut
  { x with
    next := BitVec.ofNat 32 next, done := w.setWidth 32, flt := w.getLsbD 63, skip := w.getLsbD 62,
    sig := w.getLsbD 61, wp := w.getLsbD 60, lf := w.getLsbD 59, cause := BitVec.ofNat 8 (bfld w 48 8),
    fault := if w.getLsbD 63 then (causeOf (bfld w 48 8)).map fun c => lostFault n k (w.getLsbD 59) line c (w.setWidth 32) else none,
    held := none, out := if bfld w 40 8 = x.queue.length % 256 then none else some (BitVec.ofNat 8 (bfld w 40 8)) }

/-- A chain as its descriptor and the saved line and slot give it (R296, R298). -/
def Chain.ofImage (desc line : Word) (slot : Bool) (b : List Byte) : Chain :=
  let x : Chain :=
    { active := true, desc, base := BitVec.ofNat 64 (imgAt b 0 8), nlines := BitVec.ofNat 32 (imgAt b 8 4),
      code := fld (imgAt b 12 4) 0 1 = 1, tail := BitVec.ofNat 32 (imgAt b 16 4),
      fidx := BitVec.ofNat 32 (imgAt b 20 4), line, slot, inEntry := false, q := 0 }
  { x with inEntry := line != x.base + 64 * BitVec.ofNat 64 (x.fidx.toNat % x.nlines.toNat) }

/-- The scratchpad of a core replaced (R189); every granule stands as written before every agent's last acquire. -/
def Core.loadScratch (c : Core) (b : List Byte) : Core :=
  let lo := 4096 * c.rowV
  let n := imgAt b 0x10 8
  let m := imgAt b 0x10 8
  let bit := fun (o g : Nat) => (b.getD (o + g / 8) 0).getLsbD (g % 8)
  let p0 := c.pool.clear lo (lo + n)
  let p1 := { p0 with
    bytes := upTo n (fun i t => tset 0 t (lo + i) (b.getD (0x40000 + i) 0)) p0.bytes,
    full := upTo (n / 16) (fun g t => tset false t (lo / 16 + g) (bit (0x40000 + m) g)) p0.full,
    tag := upTo (n / 16) (fun g t => tset false t (lo / 16 + g) (bit (0x40000 + m + m / 128) g)) p0.tag }
  { c with pool := p1 }.settle

/-- The line that the chain of engine `e` stands at in an image, if it is active (R189, R298). -/
def imgLine (b : List Byte) (e : Eng) : Option Word :=
  if fld (imgAt b (0x108 + 16 * engNum e) 8) 1 1 = 1 then some (BitVec.ofNat 64 (imgAt b (0x100 + 16 * engNum e) 8)) else none

/-- TSTAT of an image, with the PMASK and JSYNC that it saves beside it (R111, R189). -/
def imgTstat (b : List Byte) : Word :=
  setBits (setBits (BitVec.ofNat 64 (imgAt b 0x40 8)) 28 4 (imgAt b 0x32488 1)) 24 4 (imgAt b 0x32489 1)

/-- The three layout registers of an image (R189, R194). -/
def imgLayout (b : List Byte) : Nat × Nat × Nat :=
  (fld (imgAt b 0x18 4) 0 11, fld (imgAt b 0x1C 4) 0 11, fld (imgAt b 0x20 4) 0 11)

/-- Every saved item replaced but the layout and the chains; `n` draws what the image does not hold (R189, R190). -/
def Core.ofImage (c : Core) (n : Nat) (b : List Byte) : Core :=
  let q := fun (k : Nat) (x : Quarter) => x.ofImage ((b.drop (0x400 + 0x4800 * k)).take 0x4800)
  let eng := fun (c : Core) (e : Eng) =>
    c.setEng e ((c.eng e).ofImage n (engNum e) (imgAt b (0xA0 + 8 * engNum e) 8) (imgAt b (0x150 + 4 * engNum e) 4)
      (imgLine b e))
  let sems := (List.range 256).foldl (fun t i =>
    let w := imgAt b (0x32490 + 4 * i) 4
    tset .init t i { v := BitVec.ofNat 16 w, ceil := BitVec.ofNat 16 (w / 65536) }) []
  let c1 := engs.foldl eng c
  { c1 with
    q0 := q 0 c.q0, q1 := q 1 c.q1, q2 := q 2 c.q2, q3 := q 3 c.q3,
    tr := { tstat := imgTstat b, tcause := BitVec.ofNat 64 (imgAt b 0x48 8),
            tepc := fileOf 64 b 0x50 4 8, tinfo := fileOf 64 b 0x70 4 8, tldm := BitVec.ofNat 64 (imgAt b 0x90 8),
            meprog := BitVec.ofNat 64 (imgAt b 0x98 8) },
    acc := { elems := fileOf 32 b 0x12400 32768 4, flg := fileOf 8 b 0x32400 8 1, pois := fileOf 64 b 0x32408 16 8 },
    sems := sems, swz := fileOf 32 b 0x32890 32 4, bars := fileOf 32 b 0x33400 2048 4,
    runcyc := BitVec.ofNat 64 (imgAt b 0x28 8) }.loadScratch b

/-- An image loaded: the layout, then every saved item but the chains (R189, R190). -/
def State.loadImage (s : State) (b : List Byte) : State :=
  let s := s.setLayout (imgLayout b)
  { s with core := s.core.ofImage s.fresh b, fresh := s.fresh + 1 }

/-! ### Access to the image by a quarter -/

/-- A range of a quarter translated for a context instruction. -/
def ctxParts (va n kind ci : Nat) : M (List Part) := fun s =>
  match s.xlateRange s.core.issue.q.toNat va n kind with
  | (.ok l, s') => .ok l s'
  | (.error (a, .fail r lv), s') =>
    .error (.trap { cause := .xlate, info0 := BitVec.ofNat 64 a, info1 := xlInfo kind lv r,
                    info2 := BitVec.ofNat 64 ci, fq := s.core.issue.q }) s'
  | (.error _, s') => .error (.hold .other) s'

/-- Engines stopped, or a hold, as RTE waits (R187, R190). -/
def needStopped : M Unit := do if !(← get).core.enginesStopped then holdOther

/-- CTXSAVE; the L1 carve-out is written back (R189, R190). -/
def execCtxsave (g : Guard) (a : Reg) (s : State) : Host.Outcome State Fault Refusal :=
  guarded g (do
    needPriv 0x104
    needStopped
    let s ← get
    let n := imageLen s.core.scratchLen
    let va ← quarterCap a.toNat 0 n permW 1 [2]
    let l ← ctxParts va n 1 a.toNat
    act fun s =>
      let s := s.l1PushAll
      let s := { s with dev := s.dev.raiseGen s.core.region }
      s.writeParts l (clean (s.core.image s.dev))) s

/-- The bytes of a range of space 2 that a context instruction reads (R190, R236). -/
def ctxRead (va n ci : Nat) : M (List Byte) := do
  let l ← ctxParts va n 0 ci
  let b := (← get).readParts l
  match b.findIdx? (·.2) with
  | some i => stopWith (poisonTrap (va + i)) []
  | none => pure (b.map (·.1))

/-- The descriptors of the chains that an image names, as accesses (R298). -/
def imgChains (region : Nat) (b : List Byte) : List (Nat × Nat × Nat) :=
  engs.filterMap fun e =>
    let w := imgAt b (0x108 + 16 * engNum e) 8
    if fld w 1 1 = 0 then none else some (region, w % 2 ^ 48 / 32 * 32, 0)

/-- The chain of engine `e` reloaded from its descriptor (R298); one that cannot be read is inactive. -/
def State.reloadChain (s : State) (b : List Byte) (e : Eng) : State :=
  let w := imgAt b (0x108 + 16 * engNum e) 8
  let desc := w % 2 ^ 48 / 32 * 32
  let put := fun (s : State) (x : Chain) => s.modCore fun c => c.setEng e { c.eng e with chain := x }
  if fld w 1 1 = 0 then put s .none
  else
    match s.dev.hwRead s.core.region desc 32 with
    | none => put { s with dev := s.dev.event (.chainDrop s.core.num (engNum e) (BitVec.ofNat 64 desc)) } .none
    | some d => put s (Chain.ofImage (BitVec.ofNat 64 desc) (BitVec.ofNat 64 (imgAt b (0x100 + 16 * engNum e) 8)) (fld w 0 1 = 1) d)

/-- The syllable waits while the walk to one of the descriptors, by region, address and kind, is held (R295, R379). -/
def chainsFree (l : List (Nat × Nat × Nat)) : M Unit := l.forM fun r => do
  if ← unitHeld r.1 r.2.1 r.2.2 then holdOther

/-- CTXLOAD (R190). DESIGN CHOICE (log 129): the capability is checked over the register part, then over the whole image that
its length word gives, before CTXBAD is; a poisoned byte of the image traps POISON. -/
def execCtxload (g : Guard) (a : Reg) (s : State) : Host.Outcome State Fault Refusal :=
  guarded g (do
    needPriv 0x105
    needStopped
    let va0 ← quarterCap a.toNat 0 0x40000 permR 1 [2]
    let h ← ctxRead va0 0x18 a.toNat
    let n := imageLen (imgAt h 0x10 8)
    let va ← quarterCap a.toNat 0 n permR 1 [2]
    let b ← ctxRead va n a.toNat
    let s ← get
    match s.core.imageBad s.dev b with
    | some (k, o) =>
      qtrap { cause := .ctxbad, info0 := BitVec.ofNat 64 k, info1 := BitVec.ofNat 64 o }
    | none =>
      chainsFree (imgChains s.core.region b)
      act fun s => s.loadImage b
      act fun s => (engs.foldl (fun s e => s.reloadChain b e) s).qcDone) s

/-! ### SCRUB -/

/-- The bytes that wait in a tape buffer cleared (R191, R258). -/
def Quarter.scrubTape (x : Quarter) : Quarter :=
  { x with tape := { x.tape with buf := bytesOf x.tape.buf.length 0 } }

/-- The parts a mask names cleared (R191). -/
def State.scrub (s : State) (mask : BitVec 16) : State :=
  let s := if mask.getLsbD 1 then s.l1Empty else s
  s.modCore fun c =>
    let clr := fun (b : Bool) (lo hi : Nat) (c : Core) => if b then { c with pool := c.pool.clear lo hi } else c
    let c := clr (mask.getLsbD 0) (4096 * c.rowV) (4096 * c.rowS) c
    let c := clr (mask.getLsbD 1) (4096 * c.rowS) (4096 * c.rowC) c
    let c := clr (mask.getLsbD 2) (4096 * c.rowC) (4096 * 1536) c
    let c := clr (mask.getLsbD 4) 65536 (4096 * c.rowV) c
    let c := if mask.getLsbD 2 then c.mapQuarters Quarter.scrubTape else c
    if mask.getLsbD 3 then { c with acc := .zero } else c

/-- SCRUB (R191). -/
def execScrub (g : Guard) (mask : BitVec 16) (s : State) : Host.Outcome State Fault Refusal :=
  guarded g (do
    needPriv 0x106
    needStopped
    act fun s => s.scrub mask) s

/-! ### CKPT -/

/-- The bytes of an image with its binding block (R270, R302). -/
def areaLen (l : Nat) : Nat := cdiv (imageLen l) 64 * 64 + 256

/-- Pages of a range, as accesses of an agent outside the cores. -/
def pageAccess (region va n kind : Nat) : List (Nat × Nat × Nat) := (partsOf va n).map fun p => (region, p.1, kind)

/-- A walk that ends in a page, or will once its D bit is set. -/
def Walk.good : Walk → Bool
  | .ok .. => true
  | .dirty .. => true
  | .absent .. => true
  | .fail .. => false

/-- CKBASE and CKLEN of a region (R301). -/
def rcbCkbase (t : Rcbs) (i : Nat) : Nat := rcbF t i 0x40 0 64
def rcbCklen (t : Rcbs) (i : Nat) : Nat := rcbF t i 0x48 0 64

/-- The card of a run. -/
def Device.cardOf (d : Device) (r : Run) : Option Card := d.findCard r.qid r.ctr

/-- The run of a core can be checkpointed: its card says so and is not cancelled (R26), the image fits its region's area (R302), the area
translates, and it holds no image of a run not yet resumed. -/
def State.checkpointable (s : State) (c : Core) : Bool :=
  match c.run with
  | none => false
  | some r =>
    let n := areaLen c.scratchLen
    (match s.dev.cardOf r with | some k => cardCkpt k.bytes && !k.finished | none => false)
      && n ≤ rcbCklen s.dev.rcbs r.region
      && (pageAccess r.region (rcbCkbase s.dev.rcbs r.region) n 1).all (fun x => (s.dev.hwWalk (opSave c.num) x.1 x.2.1 x.2.2).good)
      && !(s.dev.disp.ckpts.any fun k => k.run.region = r.region)

/-- CKPT (R188). -/
def execCkpt (g : Guard) (d : Reg) (s : State) : Host.Outcome State Fault Refusal :=
  pureOp g (fun s =>
    if s.core.depth ≠ 0 || !s.checkpointable s.core then s.wrS 1 d 1
    else s.modCore fun c => { c with stopping := some (.ckpt (some (c.issue.q, d.toNat))) }) s

end Sys2Proof.Machine
end

