-- ==== Sys2Proof/Machine/Fetch.lean ====
section
/-! DEFINITION. Fetching and issue: lines, groups and bundles (R61, R62, R70 to R73), the order of streams (R30),
latency modes (R32), redirection (R117), discarded bundles (R122), waits (R342) and pending traps (R180, R185). The
instructions themselves are a parameter. -/

namespace Sys2Proof.Machine

/-- The outcome of a step. -/
abbrev Out := Host.Outcome State Fault Refusal
/-- The meaning of an instruction, as fetching is given it. -/
abbrev Exec := Instr → State → Out

/-! ### Lines -/

/-- LAT of a line (R61). -/
def latOf (l : BitVec 512) : Bool := l.getLsbD 27
/-- KIND of a line. -/
def kindOf (l : BitVec 512) : Nat := bfld l 25 2
/-- The line a KIND 00 link names, from the line's own address. -/
def linkTo (a : Word) (l : BitVec 512) : Word := a + 64 * sext64 (bfld l 0 25) 25
/-- The 15 words of a quarter line. -/
def lineWords (l : BitVec 512) : List (BitVec 32) := (List.range 15).map fun p => l.extractLsb' (32 + 32 * p) 32
/-- A quarter stream of this OWNER may execute the line (R61, R62). -/
def lineOk (owner : Nat) (l : BitVec 512) : Bool :=
  ownerOf l = owner && (kindOf l = 0 || (kindOf l = 1 && bfld l 0 25 = 0))
/-- Position 0 holds the end marker (R70). -/
def lineEmpty (l : BitVec 512) : Bool := (lineWords l).all (· == 0)

/-! ### Groups and bundles -/

/-- A group: its position, its prefixes, its target's words, and whether it lies within the line (R70). -/
structure Group where
  pos : Nat
  pre : List (BitVec 32)
  words : List (BitVec 32)
  whole : Bool
  deriving DecidableEq, Repr

/-- A bundle: its first position, its groups, and the position after it. -/
structure Bundle where
  pos : Nat
  groups : List Group
  next : Nat
  deriving DecidableEq, Repr

/-- Majors of the prefixes (R72). -/
def isPre (m : Nat) : Bool := 0x6C ≤ m && m ≤ 0x6F
/-- Positions a target of this major takes (R64). -/
def targetLen (m : Nat) : Nat := if 0x60 ≤ m ∧ m ≤ 0x64 then 8 else if 0x70 ≤ m then 2 else 1

/-- The group at the head of the rest of a line. -/
def takeGroup (pos : Nat) : List (BitVec 32) → List (BitVec 32) → Group × List (BitVec 32)
  | pre, [] => ({ pos, pre, words := [], whole := false }, [])
  | pre, w :: r =>
    if isPre (majorOf w) then takeGroup pos (pre ++ [w]) r
    else
      let n := targetLen (majorOf w)
      ({ pos, pre, words := (w :: r).take n, whole := n ≤ r.length + 1 }, (w :: r).drop n)

/-- STOP of a group's target. -/
def Group.stop (g : Group) : Bool := stopOf (g.words.headD 0)
/-- SLOT of a group's target, or of its first prefix when the line ends before the target. -/
def Group.slot (g : Group) : BitVec 2 := slotOf (g.words.headD (g.pre.headD 0))

/-- The groups up to the first target with STOP, or to the line's end. -/
def takeBundle : Nat → List (BitVec 32) → List Group × List (BitVec 32)
  | 0, r => ([], r)
  | n + 1, ws =>
    match ws with
    | [] => ([], [])
    | _ =>
      let (g, r) := takeGroup (15 - ws.length) [] ws
      if g.stop || r.isEmpty then ([g], r)
      else
        let (gs, r') := takeBundle n r
        (g :: gs, r')

/-- The bundles of the rest of a line, up to its end marker (R70). DEDUCED (log 101): a word after an end marker that is
not 0 makes no bundle before it illegal; the stream traps at the end marker when it comes there. -/
def bundlesFrom : Nat → List (BitVec 32) → List Bundle
  | 0, _ => []
  | n + 1, ws =>
    if ws.isEmpty || ws.head? = some 0 then []
    else
      let (gs, r) := takeBundle 15 ws
      { pos := 15 - ws.length, groups := gs, next := 15 - r.length } :: bundlesFrom n r

/-- The bundles of a line. -/
def bundlesOf (l : BitVec 512) : List Bundle := bundlesFrom 15 (lineWords l)

/-- The slots strictly ascend. -/
def slotsAscend : List Group → Bool
  | a :: b :: r => a.slot.toNat < b.slot.toNat && slotsAscend (b :: r)
  | _ => true

/-- A prefixed group that runs out of the line: the breach is its prefixes' (R73). -/
def Group.cut (g : Group) : Bool := !g.whole && !g.pre.isEmpty

/-- Placement under R70, breaches of prefixes apart. -/
def Bundle.placed (b : Bundle) (joint : Bool) : Bool :=
  let gs := b.groups.filter fun g => !g.cut
  gs.all (·.whole) && (b.groups.any Group.cut || (gs.getLast?.map Group.stop).getD false)
    && (if joint then slotsAscend gs else b.groups.length = 1 && gs.all fun g => g.slot == 0)

/-- What a group's target decodes to. -/
def Group.instr (g : Group) : Option Instr :=
  match decodeSyllable g.words with
  | .ok y => some y.instr
  | .error _ => none

/-- No two redirecting syllables, and none that must stand alone shares the bundle (R71, R117, R186). -/
def Bundle.shares (b : Bundle) : Bool :=
  let is := b.groups.filterMap Group.instr
  (is.filter Instr.redirects).length ≤ 1 && (b.groups.length = 1 || !is.any Instr.alone)

/-- Q of a form L word. -/
def wordQ (w : BitVec 32) (n : Nat) : Bool := w.getLsbD (10 + n)
/-- FN of a form L word. -/
def wordFn (w : BitVec 32) : Nat := (w.extractLsb' 16 6).toNat

/-- The targets a prefix of major `p` may stand before (R72, with the chapters' own lists). -/
def takesPrefix (p : Nat) (ws : List (BitVec 32)) : Bool :=
  let w := ws.headD 0
  let m := majorOf w
  let f := wordFn w
  match p with
  | 0x6C =>
    (0x30 ≤ m && m ≤ 0x4F) || (m = 0x7E && 0x30 ≤ f && f ≤ 0x3F) || (m = 0x7F && f ≤ 0x0F)
      || (m = 0x71 && ((f = 21 && wordQ w 0) || (f = 25 && wordQ w 2))) || (m = 0x74 && f = 5)
      || (m = 0x75 && (f = 3 || f = 6)) || (m = 0x76 && f = 2) || (m = 0x77 && (f = 0 || f = 1 || f = 5))
  | 0x6D => (0x50 ≤ m && m ≤ 0x53) || (m = 0x7F && 0x10 ≤ f && f ≤ 0x13) || (m = 0x72 && f ≤ 9)
  | 0x6E => m = 0x61 && bfld (ws.getD 1 0) 6 2 ≠ 0
  | _ =>
    m ≤ 0x1C || (0x30 ≤ m && m ≤ 0x3B) || m = 0x50 || m = 0x52 || (0x54 ≤ m && m ≤ 0x5F) || m = 0x71
      || (m = 0x7E && (f ≤ 0x1C || (0x30 ≤ f && f ≤ 0x3B)))
      || (m = 0x7F && (f = 0x10 || f = 0x12 || (0x14 ≤ f && f ≤ 0x1F)))

/-- The bits R72 marks 0. -/
def prefixRsv (w : BitVec 32) : Bool :=
  match majorOf w with
  | 0x6C => bfld w 20 2 ≠ 0
  | 0x6D => bfld w 4 18 ≠ 0
  | _ => bfld w 0 22 ≠ 0

/-- The first prefix that breaches R73, with the prefixes before it. -/
def badPrefix (g : Group) : List (BitVec 32) → List (BitVec 32) → Option Nat
  | _, [] => none
  | seen, w :: r =>
    if stopOf w || slotOf w != g.slot || prefixRsv w || seen.any (fun x => majorOf x = majorOf w)
      || !takesPrefix (majorOf w) g.words then some (majorOf w)
    else badPrefix g (seen ++ [w]) r

/-- The major of the prefix that breaches R73, if one does. -/
def Group.prefixFault (g : Group) : Option Nat :=
  if g.cut then g.pre.head?.map majorOf else badPrefix g [] g.pre

/-! ### Time -/

/-- TIME advanced by `n` units; for every 1024 of them one of a pending offset is absorbed (R339, R340). -/
def Device.advance (d : Device) (n : Nat) : Device :=
  let k := BitVec.ofNat 64 (min d.slew.toInt.natAbs ((d.slewAt + n) / 1024))
  let slew := if d.slew.slt 0 then d.slew + k else d.slew - k
  { d with time := if d.slew.slt 0 then d.time + BitVec.ofNat 64 n - k else d.time + BitVec.ofNat 64 n + k, slew,
           slewAt := if slew = 0 then 0 else (d.slewAt + n) % 1024 }

/-- A quarter's next group was last held at a wait slot (R342). -/
def Quarter.atSlot (x : Quarter) : Bool :=
  match x.waitAt with
  | some (.slot ..) => true
  | _ => false
/-- A quarter held at a wait slot for `n` cycles more (R342). -/
def Quarter.waitOn (x : Quarter) (n : Nat) : Quarter :=
  if x.atSlot then { x with waitCtr := x.waitCtr + BitVec.ofNat 32 n } else x
/-- Quarters held at a wait slot (R343). -/
def Core.slotted (c : Core) : Nat := ([c.q0, c.q1, c.q2, c.q3].filter Quarter.atSlot).length

/-- `n` cycles of the core in focus and `late` more in which a late access stalls it, and what passes of TIME meanwhile
(R32, R339, R343); a quarter at a wait slot has counted one of them (R342, R343). -/
def State.elapse (s : State) (n late : Nat) : State :=
  let k := BitVec.ofNat 64 (n + late)
  let c := (s.core.count 0 (n + late)).count 8 (Config.perf 8 s.fresh)
  let c := { c with
    cyc := s.core.cyc + k, clock := s.core.clock + n + late, tick := s.core.tick + n,
    runcyc := if s.core.run.isSome then s.core.runcyc + k else s.core.runcyc }
  let c := if n + late ≤ 1 then c else
    (c.mapQuarters fun x => x.waitOn (n + late - 1)).count 9 (c.slotted * (n + late - 1))
  { s with core := c, dev := s.dev.advance (Config.elapsed s.fresh), fresh := s.fresh + 1 }

/-- Results that have come due are delivered (R32, R133). -/
def Core.deliverDue (c : Core) : Core := c.mapQuarters fun x => x.deliverBy c.tick

/-! ### Fetch -/

/-- The line of the stream's next bundle: the line buffer, else memory translated for fetch (R63, R211). -/
def State.fetchLine (s : State) (pc : Nat) : Except Stop (BitVec 512) × State :=
  match tfind s.core.lines (pc / 64) with
  | some l => (.ok l, s)
  | none =>
    match s.xlate s.core.issue.q.toNat pc 2 with
    | (.ok pa p, s') =>
      let l := s'.dev.codeLine p pa
      (.ok l, s'.keepLine (pc / 64) l)
    | (.fail r l, s') =>
      (.error (.trap { cause := .xlate, info0 := BitVec.ofNat 64 pc, info1 := xlInfo 2 l r, fq := s.core.issue.q }), s')
    | (.held, s') => (.error (.hold .other), s')

/-- Where a stream goes on: the address, whether a line reached through a link word is still to be looked at there, and
the empty lines passed on the way (R70). -/
structure Cont where
  a : Word
  via : Bool
  passed : Nat
  deriving DecidableEq, Repr

/-- The first bundle at or after a line, at most `n` more empty lines passed of the 64 that R70 allows; a line that
cannot be read yet is still to be looked at. -/
def State.passLines (s : State) (owner : Nat) : Nat → Word → Cont
  | 0, a => { a := a + 4, via := true, passed := 64 }
  | n + 1, a =>
    match s.lineNow a.toNat with
    | none => { a := a + 4, via := true, passed := 63 - n }
    | some l =>
      if lineOk owner l && lineEmpty l && kindOf l = 0 then s.passLines owner n (linkTo a l)
      else { a := a + 4, via := false, passed := 0 }

/-- The continuation of a bundle of line `l` at `a` that ends before position `next` (R117); the flag also marks the
position after the last bundle of a line that leads no further, which R62 refuses at the line's first syllable. -/
def State.contOf (s : State) (owner : Nat) (a : Word) (l : BitVec 512) (next : Nat) : Cont :=
  if ((lineWords l).drop next).all (· == 0) then
    if kindOf l = 0 then s.passLines owner 64 (linkTo a l)
    else { a := a + 4 + 4 * BitVec.ofNat 64 next, via := true, passed := 0 }
  else { a := a + 4 + 4 * BitVec.ofNat 64 next, via := false, passed := 0 }

/-- The line at hand is an empty one that the stream passes: it was reached through a link word (R70). -/
def passes (via : Bool) (l : BitVec 512) (pc : Word) : Bool := via && lineEmpty l && kindOf l = 0 && pc.toNat % 64 = 4

/-! ### Groups of a bundle -/

/-- The trap of a breach, at an address. -/
def illegalAt (a : Word) (q : BitVec 2) : TrapRec := { cause := .illegal, info0 := a, fq := q }

/-- An instruction, unless the bundle has stopped. -/
def andThen (x : Out) (f : State → Out) : Out :=
  match x with
  | .next s => if s.core.issue.stop.isSome then .next s else f s
  | o => o

/-- The prefixes of a group. -/
def runPrefixes (x : Exec) : List (BitVec 32) → State → Out
  | [], s => .next s
  | w :: r, s =>
    match decodeSyllable [w] with
    | .ok y => andThen (x y.instr s) (runPrefixes x r)
    | .error _ => x .reservedEncoding s

/-- The target of a group. -/
def runTarget (x : Exec) (g : Group) (s : State) : Out :=
  match g.instr with
  | some i => x i s
  | none => x .reservedEncoding s

/-- The context of a group: its quarter, its address, no prefix yet. -/
def groupIssue (g : Group) (i : Issue) : Issue :=
  { i with q := if i.joint then g.slot else i.q,
           gaddr := BitVec.ofNat 64 (i.baddr.toNat / 64 * 64) + 4 + 4 * BitVec.ofNat 64 g.pos,
           ext := none, capx := none, spec := false, tape := false }

/-- One group: its prefixes, then its target (R71, R73). -/
def runGroup (x : Exec) (g : Group) (s : State) : Out :=
  let s := s.modIssue (groupIssue g)
  match g.prefixFault with
  | some m =>
    .next (s.trapped { cause := .illprefix, info0 := s.core.issue.gaddr, info1 := BitVec.ofNat 64 m,
                       fq := s.core.issue.q })
  | none => andThen (runPrefixes x g.pre s) (runTarget x g)

/-- The groups of a bundle in slot order, until one stops it. -/
def runGroups (x : Exec) : List Group → State → Out
  | [], s => .next s
  | g :: r, s => andThen (runGroup x g s) (runGroups x r)

/-! ### Commit and hold -/

/-- A quarter whose bundle has issued (R120, R342). -/
def Quarter.issued1 (x : Quarter) (lat : Bool) : Quarter :=
  { x with issued := x.issued + 1, lat := some lat, waitCtr := 0, waitAt := none, late := false, joinB := none,
           denial := 0, promoted := false }

/-- The address of a stream set: the joint stream's stands in q0. -/
def Core.setPc (c : Core) (k : BitVec 2) (n : Cont) : Core :=
  let k := if c.joint then 0 else k
  c.setQuarter k { c.quarter k with pc := n.a, viaLink := n.via, passed := n.passed }
/-- An address reached by no link word. -/
def Cont.at (a : Word) : Cont := { a, via := false, passed := 0 }

/-- TLDM no longer applies: LDV and TLDM become 0 (R184). -/
def Core.dropLdm (c : Core) : Core :=
  if c.ldArmed then { c with ldArmed := false, tr := { c.tr with tstat := setBit c.tr.tstat 12 false, tldm := 0 } }
  else c

/-- The group of the stream FQ has issued (R184). -/
def Core.fqIssued (c : Core) (k : BitVec 2) : Bool := c.joint || bfld c.tr.tstat 16 2 = k.toNat

/-- Strand `k` issues nothing before cycle `t`; in exposed mode no strand does (R120). -/
def Core.waitUntil (c : Core) (k : BitVec 2) (all : Bool) (t : Nat) : Core :=
  let f := fun (x : Quarter) => { x with readyAt := max x.readyAt t }
  if all then c.mapQuarters f else c.setQuarter k (f (c.quarter k))

/-- What every issued bundle does besides its groups: counters, and the cycles it takes with its penalty and what it
waits for memory. A forked strand waits for its own penalty and its own memory alone, but in exposed mode its penalty
holds every strand (R32, R120). -/
def State.issuedBundle (s : State) (k : BitVec 2) (n pen : Nat) : State :=
  let lat := s.core.issue.exposed
  let c := s.core
  let c := if c.issue.joint then c.mapQuarters fun x => x.issued1 lat else c.setQuarter k ((c.quarter k).issued1 lat)
  let c := if c.fqIssued k then c.dropLdm else c
  let c := { (c.count 1 1).count 2 n with bundles := c.bundles + 1 }
  if c.issue.joint then { s with core := c }.elapse (1 + pen) (Config.stall s.fresh)
  else
    let wait := if lat then 0 else Config.stall s.fresh
    let c := if pen = 0 then c else c.waitUntil k lat (c.clock + 1 + pen)
    let c := if wait = 0 then c else c.waitUntil k false (c.clock + 1 + pen + wait)
    { s with core := c, fresh := s.fresh + 1 }

/-- The redirection of a bundle's penalty. -/
def Redirect.penalty : Redirect → Nat
  | .to _ p => p
  | _ => 0

/-- Discarding from an address until past a LEND of loop register `l` in slot `q` (R122): where the stream goes on, the
cycles taken, or what stops it: a breach traps at the address at which the stream would in execution (R62, R117). -/
def State.discardFrom (s : State) (owner : Nat) (q : BitVec 2) (l : Nat) :
    Nat → Cont → Nat → Except Stop (Cont × Nat) × State
  | 0, _, _ => (.error (.hold .other), s)
  | f + 1, n, cyc =>
    let a := n.a
    let bad := fun (a : Word) => (.error (.trap (illegalAt a q)) : Except Stop (Cont × Nat))
    if a.toNat % 4 ≠ 0 ∨ a.toNat % 64 = 0 then (bad (if n.via && a.toNat % 64 = 0 then a - 60 else a), s)
    else
      match s.fetchLine a.toNat with
      | (.error t, s) => (.error t, s)
      | (.ok line, s) =>
        let la := BitVec.ofNat 64 (a.toNat / 64 * 64)
        if !lineOk owner line then (bad (la + 4), s)
        else if passes n.via line a && n.passed < 64 then
          s.discardFrom owner q l f (s.passLines owner (63 - n.passed) (linkTo la line)) cyc
        else
          match (bundlesOf line).find? fun b => 4 + 4 * b.pos = a.toNat % 64 with
          | none => (bad (if n.via then la + 4 else a), s)
          | some b =>
            let fq := if owner = 4 then (b.groups.head?.map Group.slot).getD 0 else q
            if !b.placed (owner = 4) then (.error (.trap (illegalAt a fq)), s)
            else
              match b.groups.find? fun g => g.prefixFault.isSome with
              | some g =>
                (.error (.trap { cause := .illprefix, info0 := la + 4 + 4 * BitVec.ofNat 64 g.pos,
                                 info1 := BitVec.ofNat 64 (g.prefixFault.getD 0),
                                 fq := if owner = 4 then g.slot else q }), s)
              | none =>
                let c := s.contOf owner la line b.next
                let ends := b.groups.any fun g =>
                  (owner ≠ 4 || g.slot == q) &&
                    (match g.instr with | some (.lend _ r _) => r.toNat = l | _ => false)
                if ends then (.ok (c, cyc + 1), s) else s.discardFrom owner q l f c (cyc + 1)

/-- The cycles of discarded bundles: of the core, or of one strand (R122). -/
def State.discardTime (s : State) (k : BitVec 2) (joint : Bool) (cyc : Nat) : State :=
  if joint then s.elapse cyc 0
  else s.modCore fun c => c.setQuarter k { c.quarter k with readyAt := max (c.quarter k).readyAt (c.clock + 1) + cyc }

/-- The bundle takes effect: the stream moves on, redirected or not (R117). `s0` is the state it issued in. DESIGN CHOICE
(log 130): where what is discarded traps, the bundle that armed the loop has not taken effect, and TEPC names it: after RTE
the stream arms the loop and discards again, and never executes the body of a loop of no trip (R122). -/
def State.commit (s0 s : State) (k : BitVec 2) (n : Nat) (via : Bool) : State :=
  let i := s.core.issue
  let owner := if i.joint then 4 else k.toNat
  let cont : Cont := { a := i.cont, via, passed := i.passed }
  let s1 := s.issuedBundle k n i.redirect.penalty
  match i.redirect with
  | .none => (s1.modCore fun c => c.setPc k cont).modIssue fun _ => .idle
  | .to a _ => (s1.modCore fun c => c.setPc k (.at a)).modIssue fun _ => .idle
  | .placed => s1.modIssue fun _ => .idle
  | .discard q l =>
    match s1.discardFrom owner q l (2 ^ 48) cont 0 with
    | (.ok (c, cyc), s2) => ((s2.discardTime k i.joint cyc).modCore fun x => x.setPc k c).modIssue fun _ => .idle
    | (.error (.trap t), s2) => (keepWalks s0 s2).trapped t
    | (.error (.hold h), s2) => (keepWalks s0 s2).held h

/-- A hold that in exposed mode stalls every quarter of the core: a late access, a busy unit, an empty granule (R32,
R109, R147, R235). -/
def Hold.stalls : Hold → Bool
  | .late => true
  | .slot kind _ => kind = 1
  | _ => false

/-- A held stream: its wait counter, when the hold is a wait slot; of a joint bundle the lowest held slot's alone runs
(R342). -/
def State.waited (s : State) (k : BitVec 2) (h : Hold) : State :=
  let i := s.core.issue
  let late := i.exposed && h.stalls
  let q := if i.joint then i.q else k
  let c := if i.joint then s.core.mapQuarters fun x => { x with late := late } else s.core
  let x := { c.quarter q with late := late, denial := 0, promoted := false }
  match h with
  | .slot .. =>
    let go := fun (x : Quarter) => { x with waitCtr := 0, waitAt := none }
    let c := if i.joint then c.mapQuarters go else c
    { s with core := (c.setQuarter q { x with waitCtr := x.waitCtr + 1, waitAt := some h }).count 9 1 }
  | _ => { s with core := c.setQuarter q { x with waitCtr := 0, waitAt := none } }

/-! ### Issue -/

/-- The bundle in issue before its first group; beside other strands a trap is only remembered (R180). -/
def issueOf (k : BitVec 2) (joint exposed : Bool) (pc : Word) (n : Cont) : Issue :=
  { Issue.idle with q := k, joint := joint, exposed := exposed, gaddr := pc, baddr := pc, cont := n.a,
                    passed := n.passed, defer := !joint }

/-- What becomes of a bundle whose groups have run from `s0` (R71); of a held one only what a JOIN has set stays
(R127). -/
def settleBundle (s0 : State) (k : BitVec 2) (n : Nat) (via : Bool) (o : Out) : Out :=
  match o with
  | .next s =>
    match s.core.issue.stop with
    | none => .next (s0.commit s k n via)
    | some (.trap t) => .next (if n = 1 then s else (keepWalks s0 s).trapped t)
    | some (.hold h) =>
      let c := (keepWalks s0 s).core
      let c := { c with jsync := s.core.jsync }.setQuarter k { c.quarter k with joinB := (s.core.quarter k).joinB }
      let s1 := { (keepWalks s0 s) with core := c }
      .next (((s1.modIssue fun i => { i with q := s.core.issue.q }).held h).waited k h)
  | o => o

/-- ILLEGAL of a stream at an address, where it then stands (R62, R70, R180). -/
def State.trapAt (s : State) (k : BitVec 2) (a : Word) : State :=
  (s.modCore fun c => c.setPc k (.at a)).trapped (illegalAt a k)

/-- The stream of quarter `k` comes from a line of the other latency mode than `lat`: the joint stream does when one of the
quarters that run in it does (R32). -/
def Core.otherMode (c : Core) (k : BitVec 2) (lat : Bool) : Bool :=
  if c.joint then [c.q0, c.q1, c.q2, c.q3].any fun x => x.lat = some (!lat) else (c.quarter k).lat = some (!lat)
/-- The latency mode of the streams a bundle belongs to is not the line's, and commands are still queued (R32). -/
def Core.modeWaits (c : Core) (k : BitVec 2) (l : BitVec 512) : Bool := c.otherMode k (latOf l) && !c.enginesEmpty

/-- A quarter that has come to a line: on a scoreboard line its results in flight are waited for (R32). -/
def Quarter.settled (x : Quarter) (exposed : Bool) : Quarter :=
  { (if exposed then x else x.flush) with lat := some exposed }
/-- The quarters that a line belongs to have come to it: all four come to a joint one, the strand's own to a forked one
(R32). -/
def Core.settled (c : Core) (k : BitVec 2) (exposed : Bool) : Core :=
  if c.joint then c.mapQuarters fun x => x.settled exposed else c.setQuarter k ((c.quarter k).settled exposed)

/-- The bundle of line `l` at a stream's address (R70, R71, R32). A line that the stream may not execute traps at its
first syllable where a link word led to it (R62), and at the target where a redirection did (R117). -/
def issueLine (x : Exec) (k : BitVec 2) (pc : Word) (l : BitVec 512) (s : State) : Out :=
  let owner := if s.core.joint then 4 else k.toNat
  let la := BitVec.ofNat 64 (pc.toNat / 64 * 64)
  let via := (s.core.quarter k).viaLink
  if !lineOk owner l then .next (s.trapAt k (if via then la + 4 else pc))
  else if passes via l pc && (s.core.quarter k).passed < 64 then
    .next (s.modCore fun c => c.setPc k (s.passLines owner (63 - (s.core.quarter k).passed) (linkTo la l)))
  else
    match (bundlesOf l).find? fun b => 4 + 4 * b.pos = pc.toNat % 64 with
    | none => .next (s.trapAt k (if via then la + 4 else pc))
    | some b =>
      if s.core.modeWaits k l then .next ((s.held .other).waited k .other)
      else if !b.placed s.core.joint || !b.shares then
        .next (s.trapped (illegalAt pc (if s.core.joint then (b.groups.head?.map Group.slot).getD 0 else k)))
      else
        let n := s.contOf owner la l b.next
        let c := s.core.settled k (latOf l)
        let s1 := { s with core := { c with issue := { issueOf k c.joint (latOf l) pc n with perf := c.perf } } }
        settleBundle s1 k b.groups.length n.via (runGroups x b.groups s1)

/-- One stream tries its next bundle: it issues, traps or is held. -/
def issueStream (x : Exec) (k : BitVec 2) (s : State) : Out :=
  let c := s.core.deliverDue
  let pc := (c.quarter k).pc
  let s := { s with core := { c with issue := issueOf k c.joint false pc (.at pc) } }
  if pc.toNat % 4 ≠ 0 ∨ pc.toNat % 64 = 0 then
    .next (s.trapAt k (if (s.core.quarter k).viaLink && pc.toNat % 64 = 0 then pc - 60 else pc))
  else
    match s.fetchLine pc.toNat with
    | (.error (.trap t), s') => .next ((keepWalks s s').trapped t)
    | (.error (.hold h), s') => .next (((keepWalks s s').held h).waited k h)
    | (.ok l, s') => issueLine x k pc l s'

/-! ### Which stream issues -/

/-- Rank of a role: loader, arithmetic, epilogue (R30, R114). -/
def roleRank (r : BitVec 2) : Nat := if r = 1 then 0 else if r = 0 then 1 else 2

/-- AGE.LIMIT (R31). -/
def Core.ageLimit (c : Core) : Nat := bfld c.sys.age 0 16
/-- A strand has been denied long enough to be promoted (R30). -/
def Core.promoted (c : Core) (k : BitVec 2) : Bool := (c.quarter k).promoted
/-- Its denial counter has reached AGE.LIMIT - 4 (R30). -/
def Core.denied (c : Core) (k : BitVec 2) : Bool := c.ageLimit - 4 ≤ (c.quarter k).denial.toNat

/-- Strand `a` goes before strand `b` (R30). -/
def Core.before (c : Core) (a b : BitVec 2) : Bool :=
  let x := c.quarter a
  let y := c.quarter b
  match c.promoted a, c.promoted b with
  | true, true => y.denial.toNat < x.denial.toNat || (x.denial = y.denial && a.toNat < b.toNat)
  | true, false => true
  | false, true => false
  | false, false =>
    roleRank x.role < roleRank y.role || (roleRank x.role = roleRank y.role && a.toNat < b.toNat)

/-- A strand placed in the arbiter's order. -/
def Core.rank (c : Core) (a : BitVec 2) : List (BitVec 2) → List (BitVec 2)
  | [] => [a]
  | b :: r => if c.before a b then a :: b :: r else b :: c.rank a r

/-- A quarter's stream may issue in cycle `t`. -/
def Quarter.issues (x : Quarter) (t : Nat) : Bool := x.st = .running && x.readyAt ≤ t
/-- The streams that may issue, in the arbiter's order (R30, R127, R129). -/
def Core.streams (c : Core) : List (BitVec 2) :=
  if c.joint then (if c.q0.issues c.clock then [0] else [])
  else ([0, 1, 2, 3].filter fun k => (c.quarter k).issues c.clock && !(c.quarter k).yielded).foldl
    (fun l k => c.rank k l) []

/-- YIELD has been honoured for one cycle (R129). -/
def Core.clearYield (c : Core) : Core :=
  if c.joint then c else c.mapQuarters fun x => { x with yielded := false }

/-- A strand promoted once its counter has reached AGE.LIMIT - 4 (R30). -/
def Core.promote (c : Core) (k : BitVec 2) : Core :=
  if c.denied k then c.setQuarter k { c.quarter k with promoted := true } else c
/-- A strand that was ready and lost counts a denial (R30, R343). -/
def Core.deny (c : Core) (k : BitVec 2) : Core :=
  ((c.setQuarter k { c.quarter k with denial := (c.quarter k).denial + 1 }).count 10 1).promote k

/-- The shared resource a syllable wants: the pool ports, or an engine's command queue (R30). -/
def Instr.wants : Instr → Option Nat
  | .ld .. | .st .. | .vld .. | .vst .. | .vlds .. | .vsts .. | .vgath .. | .vscat .. | .vamo .. | .lstream ..
  | .barinit .. => some 0
  | .cmdCe .. => some 1
  | .cmdMe .. => some 2
  | .cmdNi .. => some 3
  | .cmdTape .. => some 4
  | .cmdCmu .. => some 5
  | _ => none

/-- The shared resource a strand's next bundle wants, as far as its line is at hand. -/
def State.wants (s : State) (k : BitVec 2) : Option Nat :=
  let pc := (s.core.quarter k).pc.toNat
  match s.lineNow pc with
  | none => none
  | some l =>
    match (bundlesOf l).find? fun b => 4 + 4 * b.pos = pc % 64 with
    | none => none
    | some b => (b.groups.head?.bind Group.instr).bind Instr.wants

/-- A strand has a syllable ready to issue: tried now, its bundle would issue (R30). -/
def State.ready (x : Exec) (s : State) (k : BitVec 2) : Bool :=
  match issueStream x k s with
  | .next t => t.core.issue.stop.isNone
  | _ => false

/-- How many strands an engine's queue has room for, as `Instr.wants` numbers it (R30, R179). -/
def Core.roomFor (c : Core) (w : Nat) : Option Nat := (engs[w - 1]?).filter (fun _ => w ≠ 0) |>.map fun e => c.slipLimit - c.queued e
/-- The strands that lose in one cycle: each is ready and wants what a ready strand before it in the arbiter's order
wants, where the two cannot both have it: an engine's queue serves no more than it has room for (R30, R179; how many more
the resource serves is open). -/
def State.losers (x : Exec) (s : State) : List (BitVec 2) → List Nat → List (BitVec 2)
  | [], _ => []
  | k :: r, used =>
    match s.wants k with
    | none => s.losers x r used
    | some w =>
      if !s.ready x k then s.losers x r used
      else if used.contains w
          && (Config.contend s.fresh k.toNat || (s.core.roomFor w).any fun n => n ≤ used.count w) then k :: s.losers x r used
      else s.losers x r (w :: used)

/-- The engine has a chain line to fetch, or a line fault to raise. -/
def Engine.fetches (x : Engine) : Bool := x.chain.active || x.lpend.isSome

/-- Work of one engine: a chain line where there is room, then the command at its head (R77, R179, R297). -/
def engineStep (x : Exec) (e : Eng) (s : State) : Out :=
  let c := s.core
  let o := if (c.eng e).fetches && (c.eng e).queue.length < c.slipLimit then x (.chainFetch e) s else .next s
  match o with
  | .next s =>
    match (s.core.eng e).queue with
    | [] => .next s
    | h :: _ =>
      if (s.core.eng e).phase = .done then x (.engineCommandComplete e) s else x (decodeCommand e h.bits) s
  | o => o

/-- Work done one after another. -/
def chainOut : List (State → Out) → State → Out
  | [], s => .next s
  | f :: r, s =>
    match f s with
    | .next s => chainOut r s
    | o => o

/-- A quarter's tape has bytes to drain (R271). -/
def drainStep (x : Exec) (q : BitVec 2) (s : State) : Out :=
  if (s.core.quarter q).tape.buf.isEmpty then .next s else x (.tapeDrain q) s

/-- Every engine works, the tapes drain. -/
def engineWork (x : Exec) (s : State) : Out :=
  chainOut [engineStep x .ce, engineStep x .me, engineStep x .ni, engineStep x .tape, engineStep x .cmu,
            drainStep x 0, drainStep x 1, drainStep x 2, drainStep x 3] s

/-- The end of a cycle for the engines: issued commands enter, and every engine comes to its work (R173, R325). -/
def engineCycle (x : Exec) (s : State) : Out := engineWork x (s.modCore fun c => c.enterBy c.clock)

/-- A cycle in which no stream issues: the engines work. A late access stalls it in exposed mode (R32). -/
def progress (x : Exec) (late : Bool) (s : State) : Out :=
  engineCycle x (if late then s.elapse 0 1 else s.elapse 1 0)

/-- The waits of the engines alone: each command at the head of a queue that may start is tested (R77, R325). -/
def State.testWaits (s : State) : State :=
  engs.foldl (fun (s : State) e =>
    let x := s.core.eng e
    match x.queue with
    | [] => s
    | c :: _ =>
      if x.flt || x.phase ≠ .waiting || !s.core.mayStart || s.waitsStill c.hdr then s
      else s.passWait e c.hdr c) s

/-- The engines beside a stream that has issued: their waits are tested in its cycle (R325); whether they come to their
work in it is open. -/
def beside (x : Exec) (n : Nat) (s : State) : Out :=
  match s.core.issue.stop with
  | none =>
    if Config.engineWorks n then engineCycle x s
    else .next (State.testWaits (s.modCore fun c => c.enterBy c.clock))
  | some _ => .next s

/-- The joint stream's next bundle; while it is held the engines work. -/
def jointCycle (x : Exec) (s : State) : Out :=
  match issueStream x 0 s with
  | .next s' =>
    match s'.core.issue.stop with
    | some (.hold _) => progress x s'.core.q0.late s'
    | _ => beside x s.fresh s'
  | o => o

/-- What the strands of one cycle have come to so far. -/
structure Cycle where
  /-- one has issued -/
  some' : Bool
  /-- one has issued from an exposed line -/
  exposed : Bool
  /-- the trap of the lowest strand that has trapped (R180) -/
  trap : Option TrapRec
  deriving DecidableEq, Repr

/-- The end of a cycle of strands: the trap is taken; else the engines work, and memory that is late for an exposed line
stalls every strand (R32, R180). -/
def cycleEnd (x : Exec) (n : Nat) (y : Cycle) (s : State) : Out :=
  match y.trap with
  | some t => .next ((s.elapse 1 0).trapped t)
  | none =>
    if y.some' then beside x n (s.elapse 1 (if y.exposed then Config.stall n else 0)) else progress x false s

/-- Strands issue in ascending order, each what is its own; a trap is taken at the end of the cycle, and a second one
leaves nothing of its bundle (R180). -/
def strandCycle (x : Exec) (n : Nat) : List (BitVec 2) → Cycle → State → Out
  | [], y, s => cycleEnd x n y (s.modIssue fun _ => .idle)
  | k :: r, y, s =>
    if s.core.joint then cycleEnd x n y s
    else
      match issueStream x k s with
      | .next s' =>
        match s'.core.issue.stop with
        | some (.hold _) => strandCycle x n r y s'
        | some (.trap t) =>
          match y.trap with
          | none => strandCycle x n r { y with trap := some t } s'
          | some _ => strandCycle x n r y (keepWalks s s')
        | none => strandCycle x n r { y with some' := true, exposed := y.exposed || (s'.core.quarter k).lat = some true } s'
      | o => o

/-- A strand whose stream is not tried in this cycle, for a penalty or memory that it waits for, and whose next group is held
at a wait slot counts the cycle (R120, R342, R343). -/
def State.keptOut (s : State) (ks : List (BitVec 2)) : State :=
  [0, 1, 2, 3].foldl (fun (s : State) k =>
    let x := s.core.quarter k
    if !ks.contains k && x.st = .running && x.atSlot then { s with core := (s.core.setQuarter k (x.waitOn 1)).count 9 1 }
    else s) s

/-- What a stream comes to when it is tried now, if it is held (R71). -/
def State.heldNow (x : Exec) (s : State) (k : BitVec 2) : Option State :=
  match issueStream x k s with
  | .next t => (match t.core.issue.stop with | some (.hold _) => some t | _ => none)
  | _ => none
/-- A strand tried now is held so that every quarter of the core stalls (R32, R109, R147, R235). DEDUCED (log 131): whether one
is shows as the cycle begins. -/
def State.stallsAll (x : Exec) (s : State) (k : BitVec 2) : Bool := (s.heldNow x k).any fun t => (t.core.quarter k).late

/-- The strands of a cycle that is stalled: those held so stay held, and one that was at its wait slot counts the cycle where
it is there still (R32, R342). -/
def State.stalled (x : Exec) (ks : List (BitVec 2)) (s : State) : State :=
  ([0, 1, 2, 3].foldl (fun (s : State) k =>
    if ks.contains k && (s.stallsAll x k || (s.core.quarter k).atSlot) then (s.heldNow x k).getD s else s) s).modIssue
      fun _ => .idle

/-- One cycle of forked strands: every strand that may issue and does not lose; while an access or a unit is late for one in
exposed mode, none issues (R30, R32). -/
def forkedCycle (x : Exec) (ks : List (BitVec 2)) (s : State) : Out :=
  let s := s.keptOut ks
  if ks.any fun k => s.stallsAll x k then progress x true (s.stalled x ks)
  else
    let lost := s.losers x ks []
    strandCycle x s.fresh ([0, 1, 2, 3].filter fun k => ks.contains k && !lost.contains k)
      { some' := false, exposed := false, trap := none }
      (s.modCore fun c => lost.foldl (fun (c : Core) k => c.deny k) c)

/-- One cycle of the streams: joint, or of the strands. -/
def streamCycle (x : Exec) (s : State) : Out :=
  let ks := s.core.streams
  let s := s.modCore Core.clearYield
  if s.core.joint then (if ks.isEmpty then progress x false s else jointCycle x s) else forkedCycle x ks s

/-! ### Pending traps -/

/-- WDOG.LIMIT in cycles; 0 behaves as 1 (R341). -/
def Core.waitLimit (c : Core) : Nat := max 1 (bfld c.sys.wdog 0 24) * 256

/-- The WAITLONG of a quarter whose counter has reached its limit (R342). -/
def Core.waitlong (c : Core) (q : BitVec 2) : Option TrapRec :=
  let x := c.quarter q
  match x.waitAt with
  | some (.slot kind obj) =>
    if c.sys.wdog.getLsbD 31 && c.waitLimit ≤ x.waitCtr.toNat then
      some { cause := .waitlong, info0 := kind.setWidth 64, info1 := obj, info2 := x.waitCtr.setWidth 64,
             src := 2 }
    else none
  | _ => none

/-- The engine fault to be taken: the lowest engine's, outside handlers only (R180, R185). -/
def Core.engineTrap (c : Core) : Option TrapRec :=
  if c.depth ≠ 0 || c.frozen then none
  else (engs.filterMap fun e => if (c.eng e).flt then (c.eng e).fault else none).head?

/-- MCHECK with its unit and syndrome (R181). -/
def mcheckRec (unit synd : Word) : TrapRec := { cause := .mcheck, info0 := unit, info1 := synd, src := 2 }
/-- The trap pending, an engine fault before an event; a machine check that had to wait for one waits for the window
too (R185). -/
def Core.pendingTrap (c : Core) : Option TrapRec :=
  match c.engineTrap with
  | some t => some t
  | none =>
    match ([0, 1, 2, 3].filterMap c.waitlong).head? with
    | some t => some t
    | none => if c.trapEn then c.mcheck.map fun m => mcheckRec m.1 m.2 else none

/-- Every stream of the run has ended, every engine queue is empty and no chain has a line left to fetch (R29,
R297). -/
def Core.runOver (c : Core) : Bool :=
  c.run.isSome && c.enginesEmpty
    && (if c.joint then c.q0.st = .ended else c.pmask = 0)
    && engs.all fun e => (c.eng e).lpend.isNone && (!(c.eng e).chain.active || (c.eng e).chain.atTail)

/-! ### The step -/

/-- The device acts on nothing: it has no power (R213, R355). -/
def Device.down (d : Device) : Option Fault :=
  if d.plat.power = .d3cold then some .poweredOff else none

/-- No engine has a line fault still to raise (R297). -/
def Core.noLineFault (c : Core) : Bool := engs.all fun e => (c.eng e).lpend.isNone

/-- Nothing of a run whose domain has failed works on: each engine has finished its started command, or waits for an access
that is held, which is abandoned with the run (R37, R373). -/
def State.failNow (s : State) : Bool :=
  engs.all fun e => (s.core.eng e).stopped
    || s.dev.holds.any fun h => h.core = s.core.num && h.agent = agentNo e && h.failed = none

/-- The engines brought to complete their queues for a checkpoint that is made within a handler: those whose fault it has
cleared restart (R185, R188). -/
def State.restartAll (s : State) : State :=
  if s.core.frozen then engs.foldl (fun (s : State) e => (s.chainHeld e).getD (s.restartEng e)) s else s

/-- One step of a core whose streams have stopped for a checkpoint or a kill (R37, R188). -/
def haltStep (x : Exec) (s : State) : Out :=
  match s.core.stopping with
  | some .kill => if s.core.enginesStopped then x (.kill s.core.num) s else progress x false s
  | some (.fail _) => if s.failNow then x (.kill s.core.num) s else progress x false s
  | _ =>
    let s := s.restartAll
    if s.core.enginesEmpty && s.core.noLineFault then x (.checkpoint s.core.num) s else progress x false s

/-- One step of the core in focus: the kill of a run whose domain has failed, a pending trap, a checkpoint or kill (R24,
R188), the end of the run, or an issue. -/
def coreStep (x : Exec) (s : State) : Out :=
  if s.core.pendingTrap.isSome && !s.core.failing then x .trapEntry (s.modIssue fun _ => .idle)
  else if s.core.stopsNow then haltStep x s
  else if s.core.runOver then x .runEnd s
  else streamCycle x s

/-- What still acts in a fatal device: the host reads its dump through BAR2, its sensors and limits work on, and a reset or a
loss of power ends it (R183, R347, R354, R355; log 111). -/
def actsFatal : Instr → Bool
  | .bar2Read .. => true
  | .bar2Write .. => true
  | .timeAdvance _ => true
  | .clockThrottle .. => true
  | .thermalShutdown => true
  | .d3coldEntry => true
  | .coldReset => true
  | _ => false
/-- What still acts in D3hot: its memory refreshes itself, and its cores, dispatcher and queues stand still (R355; log
111). -/
def actsD3hot : Instr → Bool
  | .d3hotExit => true
  | .timeAdvance _ => true
  | .clockThrottle .. => true
  | .thermalShutdown => true
  | .d3coldEntry => true
  | .coldReset => true
  | _ => false
/-- The device is fatal (R347). -/
def Device.fatal (d : Device) : Bool := bfld d.plat.bootstat 0 2 = 3
/-- An event acts in the state the device is in. -/
def Device.admits (d : Device) (i : Instr) : Bool :=
  if d.fatal then actsFatal i else if d.plat.power = .d3hot then actsD3hot i else true
/-- The cores run (R183, R355). -/
def Device.awake (d : Device) : Bool := !d.fatal && d.plat.power != .d3hot

/-- A memory error as it is read: corrected and counted, or its granule or sector poisoned, in the line of its slice too; an
L2 line given up; BAR2 resized (R200, R204, R343, R344). -/
def State.flip (s : State) (f : Flip) : State :=
  let pool := fun (c : Core) (g : Nat) => { c with pool := { c.pool with pois := tset false c.pool.pois g true } }
  let line := fun (c : Core) (n g : Nat) =>
    { c with l1 := c.l1.map fun l => if l.line = n then { l with pois := setBit l.pois (g % 4) true } else l }
  match f with
  | .corrected n =>
    let s := if n < 132 then s.setCoreAt n ((s.coreAt n).count 15 1) else s
    s.modDev fun d => { d with corr := d.corr + 1 }
  | .pool n g => if n < 132 && g < 0x60000 then s.setCoreAt n (pool (s.coreAt n) g) else s
  | .l1 n l g => if n < 132 then s.setCoreAt n (line (s.coreAt n) l g) else s
  | .sector k => if 64 * k < devTop then s.modDev fun d => { d with pois := tset false d.pois k true, l2p := terase d.l2p k } else s
  | .evict k => s.modDev fun d => d.l2Evict k
  | .resize k => s.modDev fun d => { d with plat := { d.plat with bar2Log := k } }

/-- An outcome with the events of the step in the order the arbiter gives them (R231). -/
def arbitrated (n : Nat) (o : Out) : Out :=
  match o with
  | .next s => .next { s with dev := s.dev.arbitrate n }
  | .fault f => .fault f
  | .refused r => .refused r

/-- One step of the machine before the arbiter: what the agenda names, else a change of focus, else a memory error, else
the dispatch round that is due (R34), else the core in focus. -/
def stepCore (x : Exec) (s : State) : Out :=
  match s.agenda, s.dev.down with
  | .coldReset :: r, _ => x .coldReset { s with agenda := r }
  | _, some f => .fault f
  | e :: r, none =>
    if s.dev.admits e then x e ({ s with agenda := r }.modIssue fun _ => .idle) else .next { s with agenda := r }
  | [], none =>
    match s.turns, s.flips with
    | n :: r, _ => .next (if n < 132 then { s with turns := r }.focus n else { s with turns := r })
    | [], f :: r => .next ({ s with flips := r }.flip f)
    | [], [] =>
      if !s.dev.awake then .next s
      else if s.dev.disp.due then x .dispatchRound (s.modIssue fun _ => .idle)
      else coreStep x s

/-- One step of the machine. -/
def stepWith (x : Exec) (s : State) : Out := arbitrated s.dev.events.length (stepCore x s)

end Sys2Proof.Machine
end

