-- ==== Sys2Proof/Machine/Queues.lean ====
section
/-! DEFINITION. The ring queues and their controller (R272 to R281), the checks of a job card (R283, R284), and the
command chains (R296, R297). -/

namespace Sys2Proof.Machine

/-! ### Queues and their ids -/

/-- Queues of a kind (R272). -/
def kindCount (k : Nat) : Nat :=
  match k with
  | 0 => 4096
  | 1 => 256
  | 2 => 256
  | 3 => 128
  | 4 => 1
  | 5 => 1
  | _ => 0

/-- The id an operand names, if it names a queue (R272). -/
def queueId (v : Word) : Option Nat :=
  if v.toNat < 65536 && v.toNat % 4096 < kindCount (v.toNat / 4096) then some v.toNat else none

/-- The queue an operand names, as the QC holds it; one that it has never loaded is disabled, its descriptor and counters 0
(R272, R281; log 137). -/
def Device.loaded (d : Device) (v : Word) : Option (Nat × Queue) :=
  (queueId v).map fun id => (id, tget .off d.queues id)
/-- One that is enabled. -/
def Device.enabled (d : Device) (v : Word) : Option (Nat × Queue) :=
  (d.loaded v).filter fun x => x.2.en

/-- The device with a queue replaced. -/
def Device.setQueue (d : Device) (id : Nat) (q : Queue) : Device := { d with queues := tset .off d.queues id q }

/-- A result word (R276). -/
def qword (st v : Nat) : Word := BitVec.ofNat 64 (st * 2 ^ 56 + v)

/-- Claimed ranges not yet published (R275). -/
def outstanding (l : List Claim) : Nat := (l.filter fun c => !c.done).length

/-- A claim of `k` entries: status, counter, queue (R279). -/
def Queue.claim (q : Queue) (cons : Bool) (k : Nat) : Nat × Nat × Queue :=
  let c : Claim := { first := if cons then q.cclaim else q.pclaim, count := k, done := false }
  if q.slots < k then (if cons then 2 else 1, 0, q)
  else if !cons && q.slots < (q.pclaim - q.head).toNat + k then (1, 0, q)
  else if cons && (q.tail - q.cclaim).toNat < k then (2, 0, q)
  else if k = 0 then (0, c.first.toNat, q)
  else if 32 ≤ outstanding (if cons then q.claimsH else q.claimsT) then (7, 0, q)
  else if cons then (0, c.first.toNat, { q with cclaim := q.cclaim + BitVec.ofNat 32 k, claimsH := q.claimsH ++ [c] })
  else (0, c.first.toNat, { q with pclaim := q.pclaim + BitVec.ofNat 32 k, claimsT := q.claimsT ++ [c] })

/-- The claim of `[f, f + k)` done, none when it is not one outstanding claim (R279); `Queue.advance` then moves the
counter. -/
def Queue.publish (q : Queue) (cons : Bool) (f : BitVec 32) (k : Nat) : Option Queue :=
  let hit := fun (c : Claim) => c.first = f && c.count = k && !c.done
  let mark := fun (l : List Claim) => l.map fun c => if hit c then { c with done := true } else c
  if k = 0 || !((if cons then q.claimsH else q.claimsT).any hit) then none
  else if cons then some { q with claimsH := mark q.claimsH }
  else some { q with claimsT := mark q.claimsT }

/-- Bytes of an entry of a queue, and the address of the entry of a counter (R272, R274). -/
def entryBytes (id : Nat) : Nat := if id / 4096 = 5 then 16 else 64
def Queue.entryVa (q : Queue) (id : Nat) (ctr : BitVec 32) : Nat := q.ring + entryBytes id * (ctr.toNat % q.slots)

/-- The region test of R280: the queue's region is the run's or below it; a service core passes. -/
def State.regionOk (s : State) (q : Queue) : Bool :=
  s.core.isService || inSubtree s.dev.rcbs q.region s.core.region

/-- The sides of R280 that a quarter may use. -/
def State.sideOk (s : State) (id : Nat) (q : Queue) (cons : Bool) : Bool :=
  let svc := s.core.isService
  match id / 4096, cons with
  | 0, false => !q.host && s.regionOk q
  | 1, false => !q.host && s.regionOk q
  | 2, true => s.regionOk q
  | 3, false => s.regionOk q
  | 4, true => svc
  | 5, false => svc
  | _, _ => false

/-! ### Claims, publishes -/

/-- An operation of the QC on the enabled queue that a register names: ENOQ where there is none, else in its turn (R276,
R379). -/
def queueOp (g : Guard) (d a : Reg) (f : Nat → Queue → State → State) (s : State) : Host.Outcome State Fault Refusal :=
  guarded g (do
    match (← get).dev.enabled ((← get).rdS a) with
    | none => act fun s => (s.wrS 60 d (qword 6 0)).qcDone
    | some (id, q) =>
      qcTurn id
      act fun s => (f id q s).qcDone) s

/-- What QCLAIM does on its queue: a claim that takes entries acquires at system scope what published them, or freed their
slots (R275, R279). -/
def State.claimBy (s : State) (d b : Reg) (head : Bool) (id : Nat) (q : Queue) : State :=
  if !s.sideOk id q head then s.wrS 60 d (qword 5 0)
  else
    let k := (s.rdS b).toNat
    let (st, r, q') := q.claim head k
    let s1 := { s with dev := s.dev.setQueue id q' }
    (if k ≠ 0 && st = 0 then s1.l1Acquire .system else s1).wrS 60 d (qword st r)

/-- QCLAIM (R279); the counters it moves are those whose final values R377 tables for its fault and page queues. -/
def execQclaim (g : Guard) (d a b : Reg) (head : Bool) (s : State) : Host.Outcome State Fault Refusal :=
  queueOp g d a (fun id q s => s.claimBy d b head id q) s

/-! ### Descriptors -/

/-- Address of a queue's descriptor (R273). -/
def Device.descAddr (d : Device) (id : Nat) : Nat := d.plat.qtbase.toNat + 64 * id

/-- Rounded up to a multiple of 4096. -/
def up4096 (n : Nat) : Nat := (n + 4095) / 4096 * 4096
/-- PITCH, and bytes of the picture of a slot (R288). -/
def pitchOf (w : Nat) : Nat := 64 * cdiv w 64
def picBytes (w h : Nat) : Nat := pitchOf w * (2 * cdiv h 2) * 3 / 2
/-- Blocks of a picture (R288, R291). -/
def blocksOf (w h : Nat) : Nat := cdiv w 16 * cdiv h 16
/-- Bytes of a picture buffer: four parts, each from a 4096-byte boundary (R288). -/
def bufferBytes (w h : Nat) : Nat :=
  up4096 (picBytes w h) + up4096 (4 * blocksOf w h) + up4096 (2 * blocksOf w h) + blocksOf w h

/-- Fields of a slot configuration (R288). -/
def slotMode (x : BitVec 512) : Nat := f512 x 0x21 0 8
def slotNb (x : BitVec 512) : Nat := f512 x 0x22 0 8
def slotMaxW (x : BitVec 512) : Nat := f512 x 0x24 0 16
def slotMaxH (x : BitVec 512) : Nat := f512 x 0x26 0 16
def slotBase (x : BitVec 512) : Nat := f512 x 0x28 0 64
def slotStride (x : BitVec 512) : Nat := f512 x 0x30 0 32
def slotDpb (x : BitVec 512) : Nat := f512 x 0x38 0 64
def slotOw (x : BitVec 512) : Nat := f512 x 0x34 0 16
def slotOh (x : BitVec 512) : Nat := f512 x 0x36 0 16

/-- A slot configuration that obeys R288. -/
def slotOk (x : BitVec 512) : Bool :=
  let w := slotMaxW x
  let h := slotMaxH x
  let dim := fun (n : Nat) => 16 ≤ n && n ≤ 8192 && n % 2 = 0
  let out := fun (n m : Nat) => n ≠ 0 && n % 2 = 0 && n ≤ m
  f512 x 0x20 0 8 ≤ 2 && slotMode x ≤ 1 && 2 ≤ slotNb x && slotNb x ≤ 16 && f512 x 0x23 0 8 = 0
    && dim w && dim h && slotStride x % 4096 = 0 && bufferBytes w h ≤ slotStride x
    && (if slotMode x = 1 then out (slotOw x) w && out (slotOh x) h else slotOw x = 0 && slotOh x = 0)

/-- A descriptor that obeys R273, R274 and R288. -/
def descOk (id : Nat) (x : BitVec 512) : Bool :=
  let kind := id / 4096
  let lg := f512 x 8 0 8
  let c := fun (i : Nat) => BitVec.ofNat 32 (f512 x (0x10 + 4 * i) 0 32)
  let from0 := fun (i : Nat) => (c i - c 0).toNat
  f512 x 0 0 64 % 4096 = 0 && 2 ≤ lg && lg ≤ 20 && f512 x 9 2 6 = 0 && (f512 x 9 1 1 = 0 || kind ≤ 1)
    && f512 x 0xA 0 16 < 4096 && f512 x 0xC 0 32 = 0
    && from0 1 ≤ from0 2 && from0 2 ≤ from0 3 && from0 3 ≤ 2 ^ lg
    && (if kind = 0 then f512 x 0x28 0 192 = 0 else if kind = 1 then slotOk x else f512 x 0x20 0 256 = 0)

/-- The queue a descriptor in memory describes (R273, R281). -/
def Queue.ofDesc (x : BitVec 512) : Queue :=
  let c := fun (i : Nat) => BitVec.ofNat 32 (f512 x (0x10 + 4 * i) 0 32)
  { en := f512 x 9 0 1 = 1, desc := x, head := c 0, cclaim := c 1, tail := c 2, pclaim := c 3, claimsT := [],
    claimsH := [] }

/-- The side array of a job queue zeroed; none when some of it cannot be written (R281, R379). -/
def Device.zeroSide (d : Device) (q : Queue) : Option Device :=
  (List.range q.slots).foldlM (fun d k => d.hwWrite q.region (f512 q.desc 0x20 0 64 + 4 * k) (bytesOf 4 0)) d

/-- A descriptor reloaded from memory (R281); enabling an input queue starts its slot's frame count (R290), but buffers
whose entries are not consumed stay taken (R17). -/
def Device.reloadQueue (d : Device) (id : Nat) (q : Queue) : Device :=
  let d1 := d.setQueue id q
  let d1 := { d1 with disp := d1.disp.forget id }
  if id = faultQ then d1.postWaiting
  else if id / 4096 = 0 then
    match d1.zeroSide q with
    | some d2 => d2
    | none => d1.queueFailed id q.head 1
  else if id / 4096 = 1 && q.en then
    let c := tget .idle d1.codecs (id % 4096)
    { d1 with codecs := tset .idle d1.codecs (id % 4096) { Codec.idle with used := c.used } }
  else d1

/-! ### QSTAT -/

/-- What QSTAT reads of a queue (R281). -/
def Queue.stat (q : Queue) (sel : Nat) : Nat :=
  if sel = 0 then q.head.toNat
  else if sel = 1 then q.cclaim.toNat
  else if sel = 2 then q.tail.toNat
  else if sel = 3 then q.pclaim.toNat
  else if sel = 4 then (setBit (q.desc.extractLsb' 64 64) 8 q.en).toNat
  else outstanding q.claimsT + 256 * outstanding q.claimsH

/-- The reload of QSTAT sel 6 by the quarter: the result word follows the descriptor in memory; a page of the side
array that is held is waited for (R281, R379). -/
def reloadBy (d a : Reg) : M Unit := do
  let s ← get
  match queueId (s.rdS a) with
  | none => act fun s => s.wrS 60 d (qword 6 0)
  | some id =>
    qcTurn id
    let x := BitVec.ofNat 512 (s.dev.view (s.dev.descAddr id) 64)
    if !descOk id x then act fun s => (s.wrS 60 d (qword 9 0)).qcDone
    else
      let q := Queue.ofDesc x
      if id / 4096 = 0 then
        forUp (cdiv (4 * q.slots) 65536 + 1) fun i => do
          let va := (f512 x 0x20 0 64 + 65536 * i) / 4 * 4
          if va < f512 x 0x20 0 64 + 4 * q.slots then qcHeld id q.region va 1
      act fun s => ({ s with dev := s.dev.reloadQueue id q }.qcDone).wrS 60 d (qword 0 0)

/-- Trap privilege for QSTAT sel 6 and 7 (R181, R281). -/
def qstatPriv : M Unit := needPriv 0x203

/-- QSTAT: a selection that EXT has made 6 or 7 cannot arise, since they are the other two instructions; above 7 it is
ILLEGAL (R277, R281). -/
def execQstat (g : Guard) (d a : Reg) (sel : BitVec 16) (s : State) : Host.Outcome State Fault Refusal :=
  within (.long sel) (· ≤ 7) g (do
    match (← get).dev.loaded ((← get).rdS a) with
    | none => act fun s => s.wrS 60 d (qword 6 0)
    | some (id, q) =>
      qcTurn id
      act fun s =>
        (if s.regionOk q then s.wrS 60 d (BitVec.ofNat 64 (q.stat (s.imm16 sel))) else s.wrS 60 d (qword 5 0)).qcDone) s

/-- QSTAT sel 6 (R281). -/
def execQstatReload (g : Guard) (d a : Reg) (s : State) : Host.Outcome State Fault Refusal :=
  fated s.unextended (guarded g do
    qstatPriv
    reloadBy d a) s

/-- QSTAT sel 7 (R281); a queue that has never been loaded has no counters to write back (log 137). -/
def execQstatDisable (g : Guard) (d a : Reg) (s : State) : Host.Outcome State Fault Refusal :=
  fated s.unextended (guarded g do
    qstatPriv
    match (← get).dev.loaded ((← get).rdS a) with
    | none => act fun s => s.wrS 60 d (qword 6 0)
    | some (id, q) =>
      qcTurn id
      act fun s => ((if q = .off then s else { s with dev := s.dev.disableQueue id }).wrS 60 d (qword 0 0)).qcDone) s

/-! ### Cards -/

/-- DONE obeys R284. -/
def doneOk (x : Nat) : Bool :=
  match fld x 62 2 with
  | 0 => x = 0
  | 1 => fld x 24 38 = 0 && 1 ≤ fld x 16 8 && fld x 8 8 ≤ 131
  | 2 => fld x 48 14 = 0 && x % 8 = 0
  | _ => false

/-- The valid keys of a card. -/
def cardKeys (x : BitVec 512) : List Nat := ((List.range 4).filter fun m => cardKv x m).map fun m => cardKey x m

/-- What R283 asks of the card's own 64 bytes, COUNT apart. -/
def cardShape (t : Rcbs) (region : Nat) (x : BitVec 512) : Bool :=
  let lay := layoutOf t region (cardPool x)
  let ks := cardKeys x
  cardEntry x % 4 = 0 && cardEntry x < 2 ^ 48 && cardRecbase x % 16 = 0 && cardRecbase x < 2 ^ 48
    && f512 x 0x16 7 1 = 0 && f512 x 0x17 6 2 = 0 && f512 x 0x18 48 16 = 0
    && decide (ks.Pairwise (· ≠ ·)) && cardNsucc x ≤ 8 && cardNops x ≤ 4 && cardDeps x % 64 = 0
    && (cardDeps x == 0) == (cardNsucc x == 0 && cardNops x == 0)
    && fld (cardPool x) 25 7 = 0 && (cardPool x = 0 || layoutOk lay)
    && cardPbase x % 16 = 0 && cardPlen x % 16 = 0
    && (cardPlen x = 0 || (4096 * lay.1 ≤ cardPbase x && cardPbase x + cardPlen x ≤ 4096 * lay.2.1))
    && doneOk (cardDone x)

/-- Every SUCC names an enabled job queue of the same key slot, and a slot of it (R283). -/
def Device.succOk (d : Device) (region : Nat) (x deps : BitVec 512) : Bool :=
  (List.range (cardNsucc x)).all fun i =>
    let (j, slot) := depSucc deps i
    let q := d.jobQ j
    q.en && slot < q.slots && ksOf d.rcbs q.region = ksOf d.rcbs region

/-- The checks of R283 on a card of a region: ECOUNT, EBADCARD or OK, and its dependence block. -/
def Device.cardCheck (d : Device) (region : Nat) (x : BitVec 512) : Nat × BitVec 512 :=
  if 2 ^ 24 ≤ cardCount x then (3, 0)
  else if !cardShape d.disp.rcbs region x then (4, 0)
  else if cardDeps x = 0 then (0, 0)
  else
    match d.hwRead region (cardDeps x) 64 with
    | none => (4, 0)
    | some b =>
      let deps := BitVec.ofNat 512 (ofBytes b)
      if d.succOk region x deps then (0, deps) else (4, 0)

/-- The dependence block of a card that is to be read is held (R278, R283). -/
def Device.depsAccess (region : Nat) (x : BitVec 512) : List (Nat × Nat × Nat) :=
  if cardCount x < 2 ^ 24 && cardDeps x ≠ 0 && cardDeps x % 64 = 0 then [(region, cardDeps x, 0)] else []

/-- `n` bytes from an offset through a capability, as a quarter reads them, granule by granule (R278). -/
def quarterBytes (ci n : Nat) : M (List Byte) := do
  let a ← quarterCap ci 0 n permR 1 [0, 2]
  let parts := granPartsOf a n
  let bs ← parts.mapM fun p => do
    let b ← quarterRead (← quarterPlace ci ((p.1 : Int) - a) p.2 permR 1 false [0, 2]) p.2 false false
    pure b.1
  pure bs.flatten
where
  /-- `[a, a + n)` cut at granules. -/
  granPartsOf (a n : Nat) : List (Nat × Nat) :=
    (List.range (granCount a n)).map fun k =>
      let lo := max a (16 * (a / 16 + k))
      (lo, min (a + n) (16 * (a / 16 + k) + 16) - lo)

/-! ### When TAIL passes a card -/

/-- A card that fails R283: an event, its completion when DONE is well formed, and it counts as finished. -/
def State.retireCard (s : State) (c : Card) (st : Nat) : State :=
  let d := s.dev.event (.cardRetired c.qid c.ctr (BitVec.ofNat 8 st))
  let slot := c.ctr.toNat % (d.jobQ c.qid).slots
  let d := { d with disp := { d.disp with
    cards := (d.disp.cards.filter fun k => !(k.qid = c.qid && k.ctr = c.ctr)) ++ [{ c with st := .complete }]
    doomed := d.disp.doomed.filter fun y => !(y.qid = c.qid && y.slot = slot) } }
  let s := { s with dev := d }
  if doneOk (cardDone c.bytes) then s.finishCard (c.owed st 0) else { s with dev := d.settleHead c.qid }

/-- A published card that has passed its check remembered, with the dependence block it was checked by. -/
def Device.passed (d : Device) (qid : Nat) (ctr : BitVec 32) (x deps : BitVec 512) : Device :=
  { d with disp := { d.disp with checked := d.disp.checked ++ [{ qid, ctr, bytes := x, deps }] } }

/-- The check of the card of a counter that TAIL has passed: one that fails is retired; whether it waits for a held access
(R283, R379). -/
def State.checkCard (s : State) (qid : Nat) (ctr : BitVec 32) : Bool × State :=
  let q := s.dev.jobQ qid
  let op := opCheck qid ctr
  let va := q.entryVa qid ctr
  match s.dev.hwWaits op [(q.region, va, 0)] with
  | (true, d) => (true, { s with dev := d })
  | (false, d) =>
    match d.hwRead q.region va 64 with
    | none => (false, { s with dev := (d.queueFailed qid ctr (d.hwOutcome q.region va 0)).hwForget op })
    | some b =>
      let x := BitVec.ofNat 512 (ofBytes b)
      match d.hwWaits op (Device.depsAccess q.region x) with
      | (true, d) => (true, { s with dev := d })
      | (false, d) =>
        let (st, deps) := d.cardCheck q.region x
        let d := d.hwForget op
        (false, if st = 0 then { s with dev := d.passed qid ctr x deps }
                else { s with dev := d }.retireCard (q.card qid ctr x 0) st)

/-- The checks that are still to be made, in the order of their queues (R283, R379). -/
def State.checkCards (s : State) : State :=
  let later := fun (s : State) (x : Nat × BitVec 32) =>
    { s with dev := { s.dev with disp := { s.dev.disp with toCheck := s.dev.disp.toCheck ++ [x] } } }
  s.dev.disp.toCheck.foldl (fun s x =>
    if !(s.dev.jobQ x.1).en then s
    else if s.dev.disp.toCheck.any fun y => y.1 = x.1 then later s x
    else
      match s.checkCard x.1 x.2 with
      | (true, s) => later s x
      | (false, s) => s) { s with dev := { s.dev with disp := { s.dev.disp with toCheck := [] } } }

/-- Ranges of a queue published: those of a job queue are noted, and their cards checked, but for one that SUBMIT has checked
(R278, R283, R361). -/
def State.published (s : State) (id : Nat) (l : List (BitVec 32 × Nat)) : State :=
  if 4096 ≤ id then s
  else
    let p := s.dev.disp
    let rs := l.map fun r => { qid := id, first := r.1, count := r.2 : PubRange }
    let cs := l.flatMap fun r => (List.range r.2).map fun k => (id, r.1 + BitVec.ofNat 32 k)
    let new := cs.filter fun x => !p.checked.any fun y => y.qid = x.1 && y.ctr = x.2
    { s with dev := { s.dev with disp := { p with ranges := p.ranges ++ rs, toCheck := p.toCheck ++ new } } }.checkCards

/-- TAIL and HEAD of a queue moved over the ranges that are done; faults that wait for room in the fault queue are posted
(R275, R283, R295). -/
def State.advanceQueue (s : State) (id : Nat) (q : Queue) : State :=
  let l := (passDone q.claimsT q.tail).2.1.map fun c => (c.first, c.count)
  let d := s.dev.setQueue id q.advance
  { s with dev := if id = faultQ then d.postWaiting else d }.published id l

/-- What QPUBLISH does on its queue (R279). -/
def State.publishBy (s : State) (d b c : Reg) (head : Bool) (id : Nat) (q : Queue) : State :=
  if !s.sideOk id q head then s.wrS 60 d (qword 5 0)
  else
    match q.publish head ((s.rdS b).setWidth 32) (s.rdS c).toNat with
    | none => s.wrS 60 d (qword 8 0)
    | some q' => ((s.l1Release .system).advanceQueue id q').wrS 60 d (qword 0 0)

/-- QPUBLISH (R279); the counters it moves are those whose final values R377 tables for its fault and page queues. -/
def execQpublish (g : Guard) (d a b c : Reg) (head : Bool) (s : State) : Host.Outcome State Fault Refusal :=
  queueOp g d a (fun id q s => s.publishBy d b c head id q) s

/-- Status of a SUBMIT to queue `q`, in the order of R278. -/
def State.submitStatus (s : State) (q : Queue) (x : BitVec 512) : Nat :=
  if q.host || !s.regionOk q then 5
  else
    let st := (s.dev.cardCheck q.region x).1
    if st ≠ 0 then st
    else if q.slots ≤ (q.pclaim - q.head).toNat then 1
    else if 32 ≤ outstanding q.claimsT then 7
    else 0

/-- A card placed on its queue and published, its check made (R278); a ring entry that cannot be written disables the
queue, and there is none (R379). -/
def State.submitCard (s : State) (id : Nat) (q : Queue) (x : BitVec 512) (d : Reg) : State :=
  let s1 := s.l1Release .system
  match s1.dev.hwWrite q.region (q.entryVa id q.pclaim) (bytesOf 64 x.toNat) with
  | some v =>
    let v := v.passed id q.pclaim x (v.cardCheck q.region x).2
    ({ s1 with dev := v }.advanceQueue id q.claim1).wrS 60 d (qword 0 q.pclaim.toNat)
  | none => { s1 with dev := s1.dev.queueFailed id q.pclaim 1 }.wrS 60 d (qword 6 0)

/-- SUBMIT (R278). -/
def execSubmit (g : Guard) (d a b : Reg) (s : State) : Host.Outcome State Fault Refusal :=
  guarded g (do
    let x := BitVec.ofNat 512 (ofBytes (← quarterBytes a.toNat 64))
    let s ← get
    match (if s.rdS b < 4096 then s.dev.enabled (s.rdS b) else none) with
    | none => act fun s => (s.wrS 60 d (qword 6 0)).qcDone
    | some (id, q) =>
      qcTurn id
      if !q.host && s.regionOk q then
        (Device.depsAccess q.region x).forM fun r => qcHeld id r.1 r.2.1 r.2.2
      let st := s.submitStatus q x
      if st ≠ 0 then act fun s => (s.wrS 60 d (qword st 0)).qcDone
      else
        qcHeld id q.region (q.entryVa id q.pclaim) 1
        act fun s => (s.submitCard id q x d).qcDone) s

/-! ### Command chains -/

/-- A service core has neither ME, tape engine nor CMU queue: ILLEGAL there whatever the guard (R12, R277). -/
def engineOp (e : Eng) (g : Guard) (m : M Unit) (s : State) : Host.Outcome State Fault Refusal :=
  if s.core.isService && (e = .me || e = .tape || e = .cmu) then finish illegal s else guarded g m s

/-- An engine's chain replaced. -/
def State.modChain (s : State) (e : Eng) (f : Chain → Chain) : State :=
  s.modCore fun c => c.setEng e { c.eng e with chain := f (c.eng e).chain }

/-- KICK (R296, R297). -/
def execKick (g : Guard) (d a b : Reg) (e : Eng) (s : State) : Host.Outcome State Fault Refusal :=
  engineOp e g (do
    let va ← quarterCap a.toNat 0 32 (permR + permW) 32 [2]
    let s ← get
    if (s.core.eng e).chain.active then act fun s => s.wrS 2 d (qword 7 0)
    else
      let b0 ← quarterRead (← quarterPlace a.toNat 0 32 (permR + permW) 32 false [2]) 32 false false
      let n := fun (o w : Nat) => ofBytes ((b0.1.drop o).take w)
      let t := (s.rdS b).toNat
      if n 0 8 % 64 ≠ 0 || n 8 4 = 0 || 2 ^ 20 < n 8 4 || 1 < n 12 4 || n 0x18 8 ≠ 0 then
        act fun s => s.wrS 2 d (qword 9 0)
      else if n 8 4 < t then act fun s => s.wrS 2 d (qword 1 0)
      else
        act fun s => ((s.l1Release .core).modChain e fun _ =>
          { active := true, desc := BitVec.ofNat 64 va, base := BitVec.ofNat 64 (n 0 8),
            nlines := BitVec.ofNat 32 (n 8 4), code := n 12 4 = 1, tail := BitVec.ofNat 32 t, fidx := 0, line := 0,
            slot := false, inEntry := false, q := s.core.issue.q }).wrS 2 d (qword 0 0)) s

/-- LINK (R297). -/
def execLink (g : Guard) (d b : Reg) (e : Eng) (s : State) : Host.Outcome State Fault Refusal :=
  engineOp e g (act fun s =>
    let x := (s.core.eng e).chain
    let k := (s.rdS b).toNat
    if !x.active then s.wrS 2 d (qword 6 0)
    else if x.nlines.toNat < (x.tail - x.fidx).toNat + k then s.wrS 2 d (qword 1 0)
    else
      let t := x.tail + BitVec.ofNat 32 k
      ((s.l1Release .core).modChain e fun x => { x with tail := t }).wrS 2 d (qword 0 t.toNat)) s

/-- What CHAINSTAT answers (R297). -/
def Engine.chainStat (x : Engine) (sel : Nat) : Nat :=
  if sel = 0 then x.chain.active.toNat + 2 * x.chain.atTail.toNat + 4 * x.flt.toNat + 256 * (x.queue.length % 256)
  else if sel = 1 then x.chain.fidx.toNat
  else if sel = 2 then x.chain.tail.toNat
  else x.done.toNat

/-- CHAINSTAT (R277, R297). -/
def execChainstat (g : Guard) (d : Reg) (sel : BitVec 16) (e : Eng) (s : State) : Host.Outcome State Fault Refusal :=
  fated (s.imm16 sel ≤ 3) (engineOp e g do
    act fun s => s.wrS 2 d (BitVec.ofNat 64 ((s.core.eng e).chainStat (s.imm16 sel)))) s

/-! ### Fetch of chain lines -/

/-- The address of the line to fetch; none at the tail (R296). -/
def Chain.next (x : Chain) : Option Word :=
  if !x.active then Option.none
  else if x.inEntry || x.slot then some x.line
  else if x.fidx == x.tail then Option.none
  else some (x.base + 64 * BitVec.ofNat 64 (x.fidx.toNat % x.nlines.toNat))

/-- A line fault: the engine stops once every earlier command is complete (R62, R178). -/
def State.lineFault (s : State) (e : Eng) (t : TrapRec) : State :=
  let x := s.core.eng e
  if x.queue.isEmpty then
    let y := { x with flt := true, lf := true, sig := false, wp := false, cause := BitVec.ofNat 8 t.cause.code,
                      fault := some t, lpend := none }
    { s with core := s.core.setEng e y }
  else s

/-- COMMAND of a line (R181). -/
def lineCommand (e : Eng) (x : Engine) (sub : Nat) (line : Word) : TrapRec :=
  { cause := .command, info0 := x.next.setWidth 64, info1 := BitVec.ofNat 64 sub,
    info2 := line, src := 1, eng := BitVec.ofNat 3 (engNum e) }

/-- The subcause of a line that breaks R61 or R75, if it does. -/
def lineBad (e : Eng) (l : BitVec 512) : Option Nat :=
  if ownerOf l ≠ engOwner e || latOf l || kindOf l = 3 || (kindOf l ≠ 0 && bfld l 0 25 ≠ 0) then some 2
  else if bfld l 480 32 ≠ 0 then some 1
  else none

/-- The line fault of a line that the engine may not execute: on a service core one of an engine that it lacks is ILLEGAL (R12,
R62; log 128). -/
def lineRec (svc : Bool) (e : Eng) (x : Engine) (a : Word) (l : BitVec 512) : Option TrapRec :=
  if svc && (ownerOf l = 6 || ownerOf l = 8 || ownerOf l = 9) then
    some { cause := .illegal, info0 := a, src := 1, eng := BitVec.ofNat 3 (engNum e) }
  else (lineBad e l).map fun sub => lineCommand e x sub a

/-- The command slots of a line from the one reached: each enters while there is room; true when none is left (R75,
R179, R296). -/
def State.enterSlots (s : State) (e : Eng) (a : Word) (l : BitVec 512) (second : Bool) : State × Bool :=
  let c0 : CmdWord := l.extractLsb' 32 224
  let c1 : CmdWord := l.extractLsb' 256 224
  let room := fun (s : State) => (s.core.eng e).queue.length < s.core.slipLimit
  let put := fun (s : State) (c : CmdWord) (f : Option CmdWord) =>
    s.modCore fun k => k.enqueue e c false (c.extractLsb' 58 2) [] f a
  let last := fun (s : State) =>
    if c1 = 0 then (s, true)
    else if room s then (put s c1 none, true)
    else (s.modChain e fun x => { x with line := a, slot := true }, false)
  if second then last s
  else if c0 = 0 then last s
  else if !room s then (s, false)
  else if e = .ce && c0.getLsbD 10 && c1 ≠ 0 then (put s c0 (some c1), true)
  else last (put s c0 none)

/-- After the last slot of a line: its link is followed (R75, R296). -/
def State.followLink (s : State) (e : Eng) (a : Word) (l : BitVec 512) : State :=
  if kindOf l = 0 then s.modChain e fun x => { x with line := linkTo a l, slot := false, inEntry := true }
  else
    let s := s.modChain e fun x => { x with fidx := x.fidx + 1, slot := false, inEntry := false }
    if kindOf l = 1 then s.endChain e else s

/-- A chain's last line waits while the write-back of its descriptor would be held (R297). -/
def State.endHeld (s : State) (e : Eng) (l : BitVec 512) : Option State := if kindOf l = 1 then s.backHeld e else none

/-- The chain line at an address: the one the engine is within; a line of code space as the core's buffer holds it; else
memory, translated for fetch or read (R63, R211, R296). -/
def State.chainLine (s : State) (e : Eng) (a : Nat) : Except (Nat × Xl) (BitVec 512) × State :=
  let x := s.core.eng e
  match x.held, (if x.chain.code then tfind s.core.lines (a / 64) else none) with
  | some l, _ => (.ok l, s)
  | none, some l => (.ok l, s)
  | none, none =>
    match s.xlateRange (agentNo e) a 64 (if x.chain.code then 2 else 0) with
    | (.error r, s1) => (.error r, s1)
    | (.ok p, s1) =>
      let l := BitVec.ofNat 512 (ofBytes ((s1.readParts p).map (·.1)))
      (.ok l, if x.chain.code then s1.keepLine (a / 64) l else s1)

/-- The slots of a line enter; the line is kept while the engine is within it (R63, R75). -/
def State.takeLine (s : State) (e : Eng) (a : Word) (l : BitVec 512) : State :=
  match s.enterSlots e a l (s.core.eng e).chain.slot with
  | (s1, true) => (s1.modCore fun c => c.setEng e { c.eng e with held := none }).followLink e a l
  | (s1, false) =>
    s1.modCore fun c => c.setEng e { c.eng e with held := if (c.eng e).chain.slot then some l else none }

/-- CHAIN_FETCH: the next published line is fetched and its slots enter the queue; nothing at the tail, nothing while
the engine is stopped. A line fault that waits is raised once every earlier command is complete, at a checkpoint too (R62,
R75, R178, R188, R296, R297). -/
def execChainFetch (e : Eng) (s : State) : Host.Outcome State Fault Refusal :=
  let x := s.core.eng e
  if x.flt || s.core.frozen then .next s
  else
    match x.lpend with
    | some t => .next (s.lineFault e { t with info2 := x.next.setWidth 64 })
    | none =>
      if s.core.stopsNow then .next s
      else
        match x.chain.next with
        | none => .next s
        | some a =>
          match s.chainLine e a.toNat with
          | (.error (va, .fail r lv), s1) =>
            .next (s1.lineFault e { cause := .xlate, info0 := BitVec.ofNat 64 va,
                                    info1 := xlInfo (if x.chain.code then 2 else 0) lv r, info2 := x.next.setWidth 64,
                                    src := 1, eng := BitVec.ofNat 3 (engNum e) })
          | (.error _, s1) => .next s1
          | (.ok l, s1) =>
            match lineRec s1.core.isService e x a l with
            | some t => .next (s1.lineFault e t)
            | none =>
              match s1.endHeld e l with
              | some s2 => .next s2
              | none => .next (s1.takeLine e a l)

end Sys2Proof.Machine
end

