-- ==== Sys2Proof/Machine/Tables.lean ====
section
/-! DEFINITION. The table instructions (R300): TLBINV, TLBPROBE, KEYPROBE, SWZSET, THRSET, DLTLOAD and RCBSET (R302, R305,
R310, R311, R314 to R320). -/

namespace Sys2Proof.Machine

/-! ### TLBINV -/

/-- `[a, b)` and `[c, d)` meet. -/
def meets (a b c d : Nat) : Bool := a < d && c < b

/-- The lines pinned through a context at an address of a range (R310). -/
def Device.pinsIn (d : Device) (ctx va n : Nat) : List Pin :=
  d.pins.filter fun p => p.ctx = ctx && va ≤ p.va && p.va < va + n

/-- The regions of pins, each once. -/
def pinRegions (l : List Pin) : List Nat :=
  l.foldl (fun r p => if r.contains p.region then r else r ++ [p.region]) []

/-- A stale-pin entry of a region that is not in use (R301). -/
def Device.staleFree (d : Device) (region : Nat) : Option Nat := (List.range 8).find? fun k => (d.staleAt region k).isNone

/-- A range added to the STALE of a region (R301, R310). -/
def Device.addStale (d : Device) (region va pages : Nat) : Device :=
  match d.staleFree region with
  | some k => d.rcbPut region (0xA0 + 8 * k) 8 (2 ^ 63 + va + (pages - 1))
  | none => d

/-- Bytes that a non-leaf PTE of a level covers (R306). -/
def upperSize (level : Nat) : Nat := if level = 0 then 2 ^ 39 else if level = 1 then 2 ^ 30 else 2 ^ 21
/-- The TLB and walker cache entries of a context that meet a range, dropped in every core (R310). -/
def Device.tlbDrop (d : Device) (ctx va n : Nat) : Device :=
  { d with tlb := d.tlb.filter fun e => !(e.ctx = ctx && meets e.va (e.va + e.size) va (va + n)),
           wcache := d.wcache.filter fun e => !(e.ctx = ctx && meets e.va (e.va + upperSize e.level) va (va + n)) }

/-- TLBINV on a VALID context, after its release (R310). -/
def State.tlbInv (s : State) (d : Reg) (rcb va pages : Nat) (force : Bool) : State :=
  let ctx := tenantOf s.dev.rcbs rcb
  let n := 65536 * pages
  let p := s.dev.pinsIn ctx va n
  let rs := pinRegions p
  if !p.isEmpty && !force then s.wrS 60 d (qword 11 0)
  else if rs.any fun r => decide (65536 < pages) || (s.dev.staleFree r).isNone then s.wrS 60 d (qword 1 0)
  else
    let v := { s.dev with pins := s.dev.pins.filter fun x => !p.contains x }
    let v := rs.foldl (fun v r => v.addStale r va pages) v
    { s with dev := v.tlbDrop ctx va n }.wrS 60 d (qword 0 (p.length % 2 ^ 32))

/-- TLBINV (R310); its release is that of FENCE.full.device. -/
def execTlbinv (g : Guard) (d a b c : Reg) (force : Bool) (s : State) : Host.Outcome State Fault Refusal :=
  guarded g (do
    needPriv 0x300
    let s ← get
    let va := (s.rdS a).toNat
    let n := (s.rdS b).toNat
    let i := (s.rdS c).toNat
    if va % 65536 ≠ 0 || n = 0 || 2 ^ 32 < n || 2 ^ 48 < va + 65536 * n then illegal
    act fun s =>
      if !rcbValid s.dev.rcbs i then s.wrS 60 d (qword 6 0)
      else ((s.quarterRelease .device).l1Acquire .device).tlbInv d i va n force) s

/-! ### TLBPROBE -/

/-- The outcome code of a walk (R311). -/
def Walk.code : Walk → Nat
  | .ok .. => 0
  | .fail 0 _ _ => 1
  | .fail 6 _ _ => 3
  | .fail 3 _ _ => 5
  | .fail .. => 2
  | .absent .. => 4
  | .dirty .. => 0
/-- The last PTE a walk read, and the level it ended at. -/
def Walk.last : Walk → Word × Nat
  | .ok p _ l => (p, l)
  | .fail _ l p => (p, l)
  | .absent p _ l => (p, l)
  | .dirty p _ l => (p, l)

/-- TLBPROBE (R311). -/
def execTlbprobe (g : Guard) (d a b : Reg) (s : State) : Host.Outcome State Fault Refusal :=
  guarded g (do
    needPriv 0x301
    act fun s =>
      let i := (s.rdS b).toNat
      if 4096 ≤ i then s.wrS 60 d (qword 6 0)
      else
        let w := s.dev.walk (ptrootOf s.dev.rcbs i) (s.rdS a).toNat 0
        s.wrS 60 d (setBits (setBits w.last.1 62 2 w.last.2) 56 6 w.code)) s

/-! ### KEYPROBE -/

/-- What KEYPROBE answers for key `k` of a tenant, from the table of the last dispatch round (R305). -/
def Device.keyProbe (d : Device) (t k sel : Nat) : Nat :=
  let i := rcbF d.rcbs t 0xE 0 12 + k % 2 ^ rcbF d.rcbs t 0xE 12 4
  let x : Key := tget .free d.disp.keysSeen i
  if sel = 0 then x.held.toNat + 2 * x.reserved.toNat + 256 * i
  else if sel = 1 then 2 ^ 32 * x.held.toNat + x.holder.toNat
  else 2 ^ 32 * x.reserved.toNat + x.reserver.toNat

/-- KEYPROBE (R305). -/
def execKeyprobe (g : Guard) (d a : Reg) (sel : BitVec 16) (s : State) : Host.Outcome State Fault Refusal :=
  within (.long sel) (· ≤ 2) g (do
    act fun s =>
      let k := (s.rdS a).toNat
      if 4096 ≤ k then s.wrS 60 d (qword 9 0)
      else s.wrS 60 d (BitVec.ofNat 64 (s.dev.keyProbe (tenantOf s.dev.rcbs s.core.region) k (s.imm16 sel)))) s

/-! ### SWZSET -/

/-- A swizzle entry that is valid (R314). -/
def swzOk (w : Nat) : Bool :=
  let e := fld w 0 5
  let d := fld w 8 5
  let k := fld w 16 4
  (k = 0 && e = 0 && d = 0) || (1 ≤ k && k ≤ 8 && 4 ≤ d && d + k ≤ 12 && d + k ≤ e && e + k ≤ 23)

/-- SWZSET (R315). -/
def execSwzset (g : Guard) (a : Reg) (s : State) : Host.Outcome State Fault Refusal :=
  guarded g (do
    let w := (← get).rdS a
    if w &&& ~~~0x1F0F1F1F ≠ 0 || !swzOk w.toNat then illegal
    act fun s => s.modCore fun c =>
      { c with swz := tset 0 c.swz (bfld w 24 5) (w.setWidth 32 &&& 0x000F1F1F) }) s

/-! ### THRSET -/

/-- The region test of R317 for a stream slot: ENOQ, EPERM or OK. -/
def State.slotTest (s : State) (slot : Nat) : Nat :=
  let q := tget .off s.dev.queues (4096 + slot)
  if !q.en then 6 else if s.regionOk q then 0 else 5

/-- THRSET: a busy pair is waited for (R317). -/
def execThrset (g : Guard) (d a b : Reg) (rd : Bool) (s : State) : Host.Outcome State Fault Refusal :=
  guarded g (do
    let s ← get
    let p := (s.rdS a).toNat
    let v := if rd then 0 else s.rdS b
    if 4096 ≤ p || bfld v 40 24 ≠ 0 || 6 < bfld v 28 4 then act fun s => s.wrS 60 d (qword 9 0)
    else if s.slotTest (p % 256) ≠ 0 then act fun s => s.wrS 60 d (qword (s.slotTest (p % 256)) 0)
    else if tget false s.dev.busy p then holdOther
    else
      act fun s =>
        let old := tget 0 s.dev.thr p
        let s := if rd then s else s.modDev fun x => { x with thr := tset 0 x.thr p v }
        s.wrS 60 d old) s

/-! ### DLTLOAD -/

/-- A lane's table image that obeys R318, with ACTs that exist (R320). -/
def dltOk (b : List Byte) : Bool :=
  let num := fun o n => ofBytes ((b.drop o).take n)
  let nst := num 0x100 2
  let ncls := num 0x102 2
  let n := nst * ncls
  1 ≤ nst && nst ≤ 4096 && 1 ≤ ncls && ncls ≤ 256 && n ≤ 16256
    && (b.take 256).all (fun x => x.toNat < ncls)
    && ((b.drop 0x104).take 252).all (· == 0)
    && (b.drop (0x200 + 4 * n)).all (· == 0)
    && (words 4 ((b.drop 0x200).take (4 * n))).all fun t => fld t 0 12 < nst && fld t 12 4 ≤ 9 && fld t 24 8 = 0

/-- The bytes of translated parts as the slices hold them. -/
def Device.sliceBytes (d : Device) (l : List Part) : List (Byte × Bool) :=
  l.flatMap fun p => (List.range p.2.2).map fun i => d.read1 (some p.2.1) (p.1 + i)

/-- A range of space 2 read at the slices by a quarter; a poisoned byte traps (R236, R320). -/
def sliceRead (va n ci : Nat) : M (List Byte) := do
  let l ← ctxParts va n 0 ci
  let b := (← get).dev.sliceBytes l
  match b.findIdx? (·.2) with
  | some i => stopWith (poisonTrap (va + i)) []
  | none => pure (b.map (·.1))

/-- The statuses of DLTLOAD that need no image: ENOQ, EPERM, EBUSY or OK (R320). -/
def State.laneTest (s : State) (k : Nat) : Nat :=
  let q := tget .off s.dev.queues (3 * 4096 + k)
  if 128 ≤ k || !q.en then 6
  else if !s.regionOk q then 5
  else if (tget .idle s.dev.lanes k).busy.isSome || q.cclaim != q.tail then 7
  else 0

/-- A lane's table replaced whole (R318). -/
def Device.setTable (d : Device) (k : Nat) (b : List Byte) : Device :=
  { d with dlt := upTo b.length (fun i m => tset 0 m (65536 * k + i) (b.getD i 0)) d.dlt }

/-- DLTLOAD (R320). -/
def execDltload (g : Guard) (d a b : Reg) (s : State) : Host.Outcome State Fault Refusal :=
  guarded g (do
    let va ← quarterCap a.toNat 0 65536 permR 1 [2]
    let s ← get
    let k := (s.rdS b).toNat
    if s.laneTest k ≠ 0 then act fun s => s.wrS 60 d (qword (s.laneTest k) 0)
    else
      let img ← sliceRead va 65536 a.toNat
      if dltOk img then act fun s => (s.modDev fun x => x.setTable k img).wrS 60 d (qword 0 0)
      else act fun s => s.wrS 60 d (qword 9 0)) s

/-! ### RCBSET -/

/-- `w` bits at byte `off`, bit `b` of an RCB. -/
def rcbX (x : BitVec 2048) (off b w : Nat) : Nat := bfld x (8 * off + b) w

/-- The fields that only the device writes: kept from the cached copy at a load (R301). -/
def roFields : List (Nat × Nat × Nat) := [(2, 2, 1), (3, 0, 8), (0x1E, 0, 16), (0x50, 0, 64), (0x60, 0, 512)]
/-- An RCB read from memory with the device's own fields as it holds them. -/
def withRo (old x : BitVec 2048) : BitVec 2048 :=
  roFields.foldl (fun x f => setBits x (8 * f.1 + f.2.1) f.2.2 (rcbX old f.1 f.2.1 f.2.2)) x

/-- Some card of the subtree of node `i` is neither Complete nor Cancelled, one not read yet included (R25, R302). -/
def Device.liveCards (d : Device) (i : Nat) : Bool :=
  (d.disp.cards.any fun c => !c.finished && inSubtree d.rcbs c.region i)
    || d.queues.any fun e => e.1 < 4096 && e.2.en && e.2.cclaim != e.2.tail && inSubtree d.rcbs e.2.region i

/-- A field is the node's own: its INH bit is clear, or it is the root (R23). -/
def rcbOwn (i : Nat) (x : BitVec 2048) (k : Nat) : Bool := i = 0 || rcbX x 4 k 1 = 0

/-- Every field of RCB `i` lies in its range (R301). -/
def rcbRanges (i : Nat) (x : BitVec 2048) : Bool :=
  (!rcbOwn i x 0 || (1 ≤ rcbX x 8 0 16 && rcbX x 8 0 16 ≤ 132)) && (!rcbOwn i x 3 || 1 ≤ rcbX x 0xA 0 16)
    && (!rcbOwn i x 6 || 1 ≤ rcbX x 0xC 0 16) && (!rcbOwn i x 7 || rcbX x 0x30 22 3 ≤ 4)
    && (!rcbOwn i x 8 || rcbX x 0x28 0 64 % 256 = 0) && rcbX x 0xE 12 4 ≤ 12 && rcbX x 0x20 0 64 % 4096 = 0
    && rcbX x 0x40 0 64 % 4096 = 0 && (i ≠ 0 || rcbX x 7 0 8 = 0)

/-- Every reserved bit of an RCB is 0 (R301). -/
def rcbReserved (i : Nat) (x : BitVec 2048) : Bool :=
  rcbX x 2 3 5 = 0 && rcbX x 4 9 7 = 0 && rcbX x 6 3 1 = 0 && rcbX x 6 6 2 = 0 && rcbX x 0x34 0 32 = 0
    && rcbX x 0x38 18 46 = 0 && rcbX x 0xE0 0 256 = 0 && (!rcbOwn i x 7 || rcbX x 0x30 25 7 = 0)

/-- No path to a node with this parent passes 8 nodes, and each reaches the root (R23, R302): `t` holds the new copy. -/
def pathsOk (t : Rcbs) (i : Nat) : Bool :=
  let ok := fun (j : Nat) => (rcbPath t j).getLast? = some 0
  ok i && (t.map Prod.fst).all fun j => !rcbValid t j || !inSubtree t j i || ok j

/-- The image that CKLEN must hold under the region's default layout (R302). -/
def imgOf (t : Rcbs) (i : Nat) : Nat :=
  let l := layoutOf t i 0
  areaLen (4096 * (l.2.1 - l.1))

/-- The checks of R302 that answer EBADQ, on the new copy `x` of RCB `i`. -/
def Device.rcbGood (d : Device) (i : Nat) (x : BitVec 2048) : Bool :=
  let t := tput d.rcbs i x
  let tenant := i ≠ 0 && rcbX x 0 0 16 = 0
  (rcbX x 2 0 1 = 1 || !d.liveCards i) && (i = 0 || rcbValid d.rcbs (rcbX x 0 0 16)) && (i ≠ 0 || rcbX x 0 0 16 = 0)
    && pathsOk t i && rcbRanges i x && rcbReserved i x
    && (i = 0 || tenant || (rcbX x 7 0 8 = 0 && rcbX x 0xE 0 16 = 0 && rcbX x 0x20 0 64 = 0))
    && rcbX x 0xE 0 12 + 2 ^ rcbX x 0xE 12 4 ≤ 4096 && imgOf t i ≤ rcbX x 0x48 0 64

/-- PARENT, KS, KEYR or PTROOT differ (R302). -/
def rcbMoved (a b : BitVec 2048) : Bool :=
  rcbX a 0 0 16 != rcbX b 0 0 16 || rcbX a 7 0 8 != rcbX b 7 0 8 || rcbX a 0xE 0 16 != rcbX b 0xE 0 16
    || rcbX a 0x20 0 64 != rcbX b 0x20 0 64

/-- RCB `i` made effective: the cached copy replaced, DEPTH and TOKENS written (R35, R302). -/
def Device.rcbLoad (d : Device) (i : Nat) (x : BitVec 2048) : Device :=
  let was := rcbValid d.rcbs i
  let d1 := { d with rcbs := tput d.rcbs i x }
  let depth := effTdepth d1.rcbs i
  let tok := if was then min (rcbF d1.rcbs i 0x1E 0 16) depth else depth
  (d1.rcbPut i 3 1 (rcbPath d1.rcbs i).length).rcbPut i 0x1E 2 tok

/-- RCBSET.load (R302). -/
def State.rcbLoadBy (s : State) (d : Reg) (i : Nat) : State :=
  if 4096 ≤ i then s.wrS 60 d (qword 6 0)
  else
    let v := s.dev
    let old := tget 0 v.rcbs i
    let x := withRo old (BitVec.ofNat 2048 (v.view (v.plat.rcbbase.toNat + 256 * i) 256))
    if !v.rcbGood i x then s.wrS 60 d (qword 9 0)
    else if rcbMoved old x && v.liveCards i then s.wrS 60 d (qword 7 0)
    else { s with dev := v.rcbLoad i x }.wrS 60 d (qword 0 0)

/-- RCBSET.load (R302). -/
def execRcbsetLoad (g : Guard) (d a : Reg) (s : State) : Host.Outcome State Fault Refusal :=
  guarded g (do
    needPriv 0x306
    act fun s => s.rcbLoadBy d (s.rdS a).toNat) s

/-- A published card that operation `op` failed is still to be read: its check had not found it yet (R24, R283). -/
def Device.dooming (d : Device) (op : Nat) : Bool :=
  d.disp.doomed.any fun y =>
    let q := d.jobQ y.qid
    y.waits = some op && q.en && (y.slot + q.slots - q.cclaim.toNat % q.slots) % q.slots < (q.tail - q.cclaim).toNat
/-- RCBSET.fail as operation `op` has runs to wait for that it has failed and that are to be killed, or cards that are to be
cancelled (R302). -/
def State.failWaits (s : State) (op : Nat) : Bool :=
  (s.busyCores.any fun n => (s.coreAt n).stopping = some (.fail (some op))) || s.dev.dooming op
/-- The failure of the domain of region `i`, once: one that has failed is not failed again (R302; log 53). -/
def State.failOnce (s : State) (i reason op : Nat) : State :=
  if rcbFailed s.dev.disp.rcbs (domainOf s.dev.disp.rcbs i) then s else s.acted (.fail i reason op)

/-- RCBSET.fail: it waits until every run of the domain has been killed and every card cancelled; where the issuing core's own
run is one of them, its bundle ends there (R24, R302, R373, R377; log 61). -/
def execRcbsetFail (g : Guard) (d a b : Reg) (s : State) : Host.Outcome State Fault Refusal :=
  guarded g (do
    needPriv 0x306
    let s ← get
    let i := (s.rdS a).toNat
    let reason := bfld (s.rdS b) 0 8
    if 4096 ≤ i then act fun s => s.wrS 60 d (qword 6 0)
    else if reason ≠ 1 && reason ≠ 3 then act fun s => s.wrS 60 d (qword 9 0)
    else
      act fun s => s.failOnce i reason s.qcOp
      if (← get).failWaits s.qcOp then holdOther
      else act fun s => s.wrS 60 d (qword 0 0)) s

end Sys2Proof.Machine
end

