-- ==== Sys2Proof/Machine/Cmu.lean ====
section
/-! DEFINITION. The change-mask unit: CMSCAN, CMRESET and CMSTAT (R18, R20, R330 to R337). -/

namespace Sys2Proof.Machine

/-! ### What the three commands share -/

/-- The pair of stream slot and layer group, as the CMU's tables number it (R316). -/
def pairOf (o : CmuOp) : Nat := o.slot.toNat + 256 * o.grp.toNat

/-- The checks of a capability that need no extent: tag, space, version, permissions (R94, R95, R378). -/
def Ctx.capKind (x : Ctx) (ci : BitVec 4) (off perm : Nat) (spaces : List Nat) : M Unit := do
  let s ← get
  match capCheck (x.under s.core) s.dev (x.cap ci) 0 0 perm spaces with
  | .error sub => x.capFault sub ci.toNat off
  | .ok _ => pure ()

/-- The region test of R332 for a command's slot: COMMAND 1 where the input queue is disabled, CAPFAULT 8 where it is
another region's. -/
def Ctx.slotTest (x : Ctx) (o : CmuOp) : M Unit := do
  let st := (← get).slotTest o.slot.toNat
  if st = 6 then x.command 1
  if st = 5 then x.capFault 8 o.cf.toNat 0

/-- A range of a capability's space, translated for an access kind. -/
def Ctx.span (x : Ctx) (space a n kind : Nat) : M TRng := x.place kind { space, a, n, sw := none }

/-- A command for a pair passed to its core group's scan pipe, unless it is there (R18). -/
def Device.toPipe (d : Device) (core p : Nat) : Device :=
  if d.pipes.contains (core, p) then d else { d with pipes := d.pipes ++ [(core, p)] }
/-- The pipe of core `n`'s group may serve its command for a pair: the pair is not busy, and no command for it that the
pipe received earlier is still there (R18). -/
def Device.pipeFree (d : Device) (n p : Nat) : Bool :=
  !tget false d.busy p && (d.pipes.takeWhile fun e => e.1 ≠ n).all fun e => e.1 / 8 ≠ n / 8 || e.2 ≠ p
/-- The pair taken by the command of the core: its busy bit set, which completion clears (R18, R332, R336). -/
def Device.serve (d : Device) (n p : Nat) : Device :=
  { d with busy := tset false d.busy p true, pipes := d.pipes.filter fun e => e.1 ≠ n, served := d.served ++ [n] }

/-- The command received by its pipe; it waits there until it can be served, and then holds the pair (R18). -/
def takePair (p : Nat) : M Unit := do
  act fun s => s.modDev fun d => d.toPipe s.core.num p
  let s ← get
  if !s.dev.pipeFree s.core.num p then fun s => .error (.hold .part) s
  act fun s => s.modDev fun d => d.serve s.core.num p

/-- `n` bytes from `off` of translated parts. -/
def sliceParts : Nat → Nat → List Part → List Part
  | _, _, [] => []
  | off, n, (pa, pte, k) :: r =>
    if k ≤ off then sliceParts (off - k) n r
    else
      let m := min n (k - off)
      if m = 0 then [] else (pa + off, pte, m) :: sliceParts 0 (n - m) r

/-! ### The change estimate -/

/-- Threshold-entry fields (R316). -/
def thrMvw (w : Word) : Nat := bfld w 32 8
def thrSsh (w : Word) : Nat := bfld w 28 4
def thrRsh (w : Word) : Nat := bfld w 24 4
def thrRefresh (w : Word) : Nat := bfld w 16 8
def thrThr (w : Word) : Nat := bfld w 0 16

/-- A block's side-tensor elements: class, residual energy, motion vector (R291); a poisoned one is class 1 with no
residual (R333). -/
structure Block where
  cls : Nat
  res : Nat
  dx : Int
  dy : Int
  deriving DecidableEq, Repr

/-- Block `b` from the three tensors. -/
def blockAt (mv res cls : List (Byte × Bool)) (b : Nat) : Block :=
  let m := (mv.drop (4 * b)).take 4
  let r := (res.drop (2 * b)).take 2
  let c := (cls.drop b).take 1
  let num := fun (l : List (Byte × Bool)) => ofBytes (l.map (·.1))
  let dx := sint (num (m.take 2)) 16
  let dy := sint (num (m.drop 2)) 16
  if (m ++ r ++ c).any (·.2) then { cls := 1, res := 0, dx, dy } else { cls := num c, res := num r, dx, dy }

/-- A quotient rounded to nearest, ties away from zero, clamped to 9 signed bits (R333). -/
def vecRound (sum : Int) (den : Nat) : Int :=
  let q : Nat := (2 * sum.natAbs + den) / (2 * den)
  max (-256) (min 255 (if sum < 0 then -q else q))

/-- Indices of the 16-pixel blocks that overlap `[lo, hi)`, at most `n` pixels wide in all (R333). -/
def blocksIn (lo hi n : Nat) : List Nat :=
  let hi := min hi n
  (List.range ((hi + 15) / 16 - lo / 16)).map (lo / 16 + ·)

/-- What the scan finds of one tile (R333). -/
structure Change where
  qx : Int
  qy : Int
  e : Nat
  intra : Bool
  hidden : Bool
  deriving DecidableEq, Repr

/-- The change estimate over a tile's blocks (R333). -/
def changeOf (thr : Word) (bs : List Block) : Change :=
  let z := bs.filter fun b => b.cls = 0
  let unit : Nat := 4 * 2 ^ thrSsh thr
  let q := fun (f : Block → Int) => if z = [] then 0 else vecRound (z.foldl (fun a b => a + f b) 0) (z.length * unit)
  let qx := q Block.dx
  let qy := q Block.dy
  let m := z.foldl (fun a b => a + ((b.dx - unit * qx).natAbs + (b.dy - unit * qy).natAbs)) 0
  let rs := bs.foldl (fun a b => if b.cls ≤ 1 then a + b.res / 2 ^ thrRsh thr else a) 0
  { qx, qy, e := min 65535 (rs + thrMvw thr * m / 16), intra := bs.any fun b => b.cls = 1,
    hidden := bs.any fun b => 2 ≤ b.cls }

/-! ### A tile -/

/-- The scan of one tile (R334): its mode, its new counter word, its list entry. -/
structure TileOut where
  mode : Nat
  cw : Nat
  entry : Nat
  moved : Bool
  deriving DecidableEq, Repr

/-- The update of R334 from the tile's column, its counter word as read, and its change. -/
def tileUpdate (thr : Word) (nd : Bool) (tx cw : Nat) (c : Change) : TileOut :=
  let f := fld cw 24 1
  let st := min 255 (fld cw 16 8 + 1)
  let d := min 65535 (fld cw 0 16 + c.e)
  let moved := c.qx ≠ 0 || c.qy ≠ 0
  let force := c.intra || f = 1 || thrRefresh thr ≤ st
  let mark := force || thrThr thr < d
  let mode := if !mark then 0 else if force || nd || moved then 1 else 2
  let q := fun (v : Int) => (v % 512).toNat
  { mode, cw := if mark && !c.hidden then 0 else d + 2 ^ 16 * st + 2 ^ 24 * f,
    entry := tx + 2 ^ 12 * mode + 2 ^ 14 * q c.qx + 2 ^ 23 * q c.qy, moved }

/-- A counter word as read: a poisoned one reads as R334 says. -/
def counterAt (b : List (Byte × Bool)) (i : Nat) : Nat :=
  let w := (b.drop (4 * i)).take 4
  if w.any (·.2) then 0x01FFFFFF else ofBytes (w.map (·.1))

/-! ### CMSCAN -/

/-- The frame entry a scan works from (R290). -/
structure Frame where
  frame : Nat
  w : Nat
  h : Nat
  status : Nat
  flags : Nat
  mv : Nat
  res : Nat
  cls : Nat
  deriving DecidableEq, Repr

/-- The entry of 64 bytes. -/
def Frame.ofBytes (b : List Byte) : Frame :=
  let n := fun o k => Machine.ofBytes ((b.drop o).take k)
  { frame := n 0 4, w := n 4 2, h := n 6 2, status := n 8 1, flags := n 9 1, mv := n 0x20 8, res := n 0x28 8, cls := n 0x30 8 }

/-- A frame that CMSCAN accepts: OK or TRUNCATED, VALID, not a sample (R332). -/
def Frame.ok (f : Frame) : Bool := f.status ≤ 1 && fld f.flags 2 1 = 1 && fld f.flags 1 1 = 0

/-- The geometry of a scan (R332, R335): tiles, rows and entries to be written. -/
structure Scan where
  tw : Nat
  th : Nat
  rows : Nat
  ovf : Bool
  deriving DecidableEq, Repr

/-- The scan of a frame under a threshold entry: a row is written only whole, within MAXENT and 65 535 (R335). -/
def Scan.of (thr : Word) (f : Frame) (row0 maxent : Nat) : Scan :=
  let p := 8 * 2 ^ thrSsh thr
  let tw := cdiv f.w p
  let th := cdiv f.h p
  let left := th - row0
  let rows := if maxent = 0 then 0 else if tw = 0 then left else min left (maxent / tw)
  { tw, th, rows, ovf := rows < left }

/-- Tile (tx, ty) scanned. -/
def scanTile (thr : Word) (nd : Bool) (f : Frame) (mv res cls cnt : List (Byte × Bool)) (tw tx ty : Nat) : TileOut :=
  let p := 8 * 2 ^ thrSsh thr
  let bw := cdiv f.w 16
  let bs := (blocksIn (p * ty) (p * ty + p) f.h).flatMap fun by' =>
    (blocksIn (p * tx) (p * tx + p) f.w).map fun bx => blockAt mv res cls (by' * bw + bx)
  tileUpdate thr nd tx (counterAt cnt (ty * tw + tx)) (changeOf thr bs)

/-- Row pointers (R335). -/
def rowPtrs (g : Scan) (row0 : Nat) : List Byte :=
  (List.range (g.th + 1)).flatMap fun r => bytesOf 2 (min (r - row0) g.rows * g.tw)

/-- The summary of R335. -/
def summary (g : Scan) (f : Frame) (l : List TileOut) : List Byte :=
  let n := fun (p : TileOut → Bool) => (l.filter p).length
  bytesOf 2 l.length ++ bytesOf 2 g.rows ++ bytesOf 2 (n fun t => t.mode = 1) ++ bytesOf 2 (n fun t => t.mode = 2)
    ++ bytesOf 2 (n fun t => t.mode = 0) ++ bytesOf 2 (n fun t => t.mode = 0 && t.moved)
    ++ bytesOf 1 (g.ovf.toNat + 2 * (decide (f.status = 1)).toNat) ++ bytesOf 1 0 ++ bytesOf 2 f.frame

/-- LAST as a scan leaves it (R337). -/
def lastOf (g : Scan) (f : Frame) : BitVec 32 := setBit (BitVec.ofNat 32 f.frame) 31 g.ovf

/-- The event of a scan whose list overflowed (R335). -/
def Device.scanned (d : Device) (o : CmuOp) (g : Scan) : Device :=
  if g.ovf then d.event (.listOvf o.slot.toNat o.grp.toNat (o.row0.toNat + g.rows)) else d

/-- What CMSCAN has checked and translated before it reads anything for the scan: the frame, the scan, and the ranges of the
counters, row pointers, entries, summary and the three side tensors. -/
structure ScanPlan where
  f : Frame
  g : Scan
  ct : TRng
  rt : TRng
  et : TRng
  st : TRng
  mt : TRng
  qt : TRng
  kt : TRng

/-- The checks and translations of CMSCAN, in the order of R378 (R332): of the ranges, only that of the summary is known before
the frame has been read. -/
def Ctx.scanCheck (x : Ctx) (o : CmuOp) : M ScanPlan := do
  x.header (o.rsv = 0)
  let off := fun (v : BitVec 20) => 16 * v.toNat
  let fa ← x.capAt o.cf (off o.foff) 64 (permR + permENG) 1 [2]
  x.capKind o.cc (off o.coff) (permR + permW + permENG) [2]
  x.capKind o.cl (off o.rpoff) (permW + permENG) [0, 2]
  let sa ← x.capAt o.cl (off o.sumoff) 16 (permW + permENG) 1 [0, 2]
  x.slotTest o
  let ft ← x.span 2 fa 64 0
  let f := Frame.ofBytes (((← get).bytesIn ft).map (·.1))
  let thr := tget 0 (← get).dev.thr (pairOf o)
  let g := Scan.of thr f o.row0.toNat (min o.maxent.toNat 65535)
  x.need (f.ok && o.row0.toNat < g.th) 1
  let sp := x.space o.cl
  let ca ← x.capAt o.cc (off o.coff) (4 * (g.tw * g.th)) (permR + permW + permENG) 1 [2]
  let ra ← x.capAt o.cl (off o.rpoff) (2 * (g.th + 1)) (permW + permENG) 1 [0, 2]
  let ea ← x.capAt o.cl (off o.enoff) (4 * (g.rows * g.tw)) (permW + permENG) 1 [0, 2]
  let nb := blocksOf f.w f.h
  let ct ← x.span 2 ca (4 * (g.tw * g.th)) 1
  let rt ← x.span sp ra (2 * (g.th + 1)) 1
  let et ← x.span sp ea (4 * (g.rows * g.tw)) 1
  let st ← x.span sp sa 16 1
  let mt ← x.span 2 f.mv (4 * nb) 0
  let qt ← x.span 2 f.res (2 * nb) 0
  let kt ← x.span 2 f.cls nb 0
  pure { f, g, ct, rt, et, st, mt, qt, kt }

/-- The scan itself: everything is read, then the counters, the list and the summary are written; what the statistics will
be told is kept for the completion (R333 to R335, R337). -/
def State.scanDo (s : State) (x : Ctx) (o : CmuOp) (p : ScanPlan) : State :=
  let thr := tget 0 s.dev.thr (pairOf o)
  let (mv, res, cls, cnt) := (s.bytesIn p.mt, s.bytesIn p.qt, s.bytesIn p.kt, s.bytesIn p.ct)
  let l := (List.range p.g.rows).flatMap fun r => (List.range p.g.tw).map fun tx =>
    scanTile thr o.nd p.f mv res cls cnt p.g.tw tx (o.row0.toNat + r)
  let k := s.sink x none
  let at0 := 4 * (p.g.tw * o.row0.toNat)
  let s := s.writeParts (sliceParts at0 (4 * l.length) p.ct.parts) (clean (l.flatMap fun t => bytesOf 4 t.cw))
  let s := s.putIn k p.rt (clean (rowPtrs p.g o.row0.toNat))
  let s := s.putIn k p.et (clean (l.flatMap fun t => bytesOf 4 t.entry))
  ((s.putIn k p.st (clean (summary p.g p.f l))).modDev fun d => d.scanned o p.g).modEng .cmu fun e =>
    { e with last := some (lastOf p.g p.f) }

/-- CMSCAN (R332 to R335): everything is checked and translated before anything is read for the scan. -/
def execCmscan (h : CmdHdr) (o : CmuOp) (s : State) : Host.Outcome State Fault Refusal :=
  runCommand .cmu 0x01 h (fun x => do
    let p ← x.scanCheck o
    takePair (pairOf o)
    act fun s => s.scanDo x o p) s

/-! ### CMRESET and CMSTAT -/

/-- Rules of the operand bits of CMRESET (R81, R331). -/
def resetOk (o : CmuOp) : Bool :=
  o.rsv = 0 && o.cf = 0 && o.cl = 0 && o.foff = 0 && o.rpoff = 0 && o.enoff = 0 && o.sumoff = 0
    && o.maxent.toNat / 8192 = 0

/-- CMRESET (R336). -/
def execCmreset (h : CmdHdr) (o : CmuOp) (s : State) : Host.Outcome State Fault Refusal :=
  runCommand .cmu 0x02 h (fun x => do
    x.header (resetOk o)
    let n := o.row0.toNat * (o.maxent.toNat % 4096)
    let ca ← x.capAt o.cc (16 * o.coff.toNat) (4 * n) (permR + permW + permENG) 1 [2]
    x.slotTest o
    let t ← x.span 2 ca (4 * n) 1
    takePair (pairOf o)
    act fun s =>
      let f := fld o.maxent.toNat 12 1
      let old := s.bytesIn t
      let b := (List.range n).flatMap fun i =>
        let w := (old.drop (4 * i)).take 4
        if o.nd then
          (w.take 3) ++ [(BitVec.ofNat 8 f, false)]
        else clean (bytesOf 4 (2 ^ 24 * f))
      s.writeParts t.parts b) s

/-- Rules of the operand bits of CMSTAT (R81, R331). -/
def statOk (o : CmuOp) : Bool :=
  o.rsv = 0 && o.cf = 0 && o.cc = 0 && o.foff = 0 && o.coff = 0 && o.rpoff = 0 && o.enoff = 0 && o.maxent = 0
    && o.row0 = 0 && !o.nd

/-- The record CMSTAT writes (R337). -/
def Device.statRecord (d : Device) (p : Nat) : List Byte :=
  let x := tget .zero d.stats p
  bytesOf 4 x.scans.toNat ++ bytesOf 4 x.ovfs.toNat ++ bytesOf 4 x.last.toNat
    ++ bytesOf 4 (tget false d.busy p).toNat ++ bytesOf 16 (bfld (tget 0 d.thr p) 0 40)

/-- CMSTAT (R337). -/
def execCmstat (h : CmdHdr) (o : CmuOp) (s : State) : Host.Outcome State Fault Refusal :=
  runCommand .cmu 0x03 h (fun x => do
    x.header (statOk o)
    let a ← x.capAt o.cl (16 * o.sumoff.toNat) 32 (permW + permENG) 1 [0, 2]
    x.slotTest o
    let t ← x.span (x.space o.cl) a 32 1
    act fun s => s.putIn (s.sink x none) t (clean (s.dev.statRecord (pairOf o)))) s

end Sys2Proof.Machine
end

