-- ==== Sys2Proof/Machine/HostQueues.lean ====
section
/-! DEFINITION. The host's side of the queues and of device memory: tail mirrors (R15, R287), capture (R352), BAR2
(R204, R230, R344) and the controller's write-back of counters (R273). -/

namespace Sys2Proof.Machine

/-! ### Capture -/

/-- Bytes written to host memory. -/
def Device.hostPut (d : Device) (a : Nat) (b : List Byte) : Device :=
  { d with host := upTo b.length (fun i m => tset 0 m (a + i) (b.getD i 0)) d.host }

/-- A capture record of 160 bytes: event position, kind, queue id, entry, dependence block (R352). -/
def captureRec (pos kind id : Nat) (entry deps : List Byte) : List Byte :=
  let b := bytesOf 8 pos ++ bytesOf 4 kind ++ bytesOf 4 id ++ entry ++ deps
  b ++ bytesOf (160 - b.length) 0

/-- A record placed in the capture ring under CAP; one that would pass its end sets CFULL and stops capture (R352). -/
def Device.capture (d : Device) (pos kind id : Nat) (entry deps : List Byte) : Device :=
  let p := d.plat
  if !p.mode.getLsbD 0 || p.mode.getLsbD 3 then d
  else if p.caplen.toNat < p.cappos + 160 then { d with plat := { p with mode := setBit p.mode 3 true } }
  else
    { d with plat := { p with cappos := p.cappos + 160 } }.hostPut (p.capbuf.toNat + p.cappos)
      (captureRec pos kind id entry deps)

/-- The record of a card the host has published, with what of it can be read (R352). -/
def Device.captureCard (d : Device) (id : Nat) (q : Queue) (ctr : BitVec 32) : Device :=
  let e := (d.hwRead q.region (q.entryVa id ctr) 64).getD (bytesOf 64 0)
  let x := BitVec.ofNat 512 (ofBytes e)
  let deps := if cardDeps x = 0 then [] else (d.hwRead q.region (cardDeps x) 64).getD []
  d.capture d.eventPos.toNat 1 id e deps

/-! ### Tails -/

/-- The queue whose TAIL word lies at a BAR4 offset (R287). -/
def tailQueue (off : Nat) : Option Nat :=
  if off % 8 ≠ 0 then none
  else if off < 0x8000 then some (off / 8)
  else if off < 0x8800 then some (4096 + (off - 0x8000) / 8)
  else none

/-- The TAIL of a host-side queue moved to `t`: within the room of its ring, else an event; its cards are captured and
checked (R283, R287, R352). -/
def State.moveTail (s : State) (id : Nat) (q : Queue) (t : BitVec 32) : State :=
  let n := (t - q.tail).toNat
  if 0 < n && n ≤ q.slots - (q.tail - q.head).toNat then
    let d1 := s.dev.setQueue id { q with tail := t, pclaim := t }
    let d1 := if id < 4096 then upTo n (fun k d => d.captureCard id q (q.tail + BitVec.ofNat 32 k)) d1 else d1
    { s with dev := d1 }.published id [(q.tail, n)]
  else { s with dev := s.dev.event (.badTail id) }

/-- HOST_TAIL_WRITE: ignored before FWIF is written, and on a queue that is not the host's or is disabled (R15, R287). -/
def execHostTailWrite (off : Nat) (v : BitVec 32) (s : State) : Host.Outcome State Fault Refusal :=
  .next (match (if s.dev.plat.fwif = 0 || !s.dev.plat.linkUp then none else tailQueue off) with
    | none => s
    | some id =>
      let q := s.dev.jobQ id
      if q.en && q.host then s.moveTail id q v else s)

/-- A word the host reads through BAR4: the mirror's TAIL below its HEAD; other bytes read 0 (R287, R344). -/
def Device.bar4Word (d : Device) (off : Nat) : Word :=
  match tailQueue off with
  | some id => (d.jobQ id).head ++ (d.jobQ id).tail
  | none => 0

/-! ### BAR2 -/

/-- Bytes of BAR2: a power of two from 1 GiB to 256 GiB (R344). -/
def Device.bar2Size (d : Device) : Nat := 2 ^ (30 + d.plat.bar2Log.val)
/-- One past the last byte of device memory that BAR2 reaches at its size (R344). -/
def Device.bar2End (d : Device) : Nat := min devTop d.bar2Size

/-- BAR2_WRITE: bytes at 192 GiB and above are ignored, and none past the BAR's size is the device's (R204, R230, R344). -/
def execBar2Write (addr : Nat) (b : List Byte) (s : State) : Host.Outcome State Fault Refusal :=
  .next (if s.dev.plat.linkUp then { s with dev := s.dev.put addr (b.take (s.dev.bar2End - addr)) } else s)

/-- What the host reads through BAR2: 0xFF at 192 GiB and above (R204, R208, R344). -/
def Device.bar2Byte (d : Device) (a : Nat) : Byte := if a < devTop then (d.read1 none a).1 else 0xFF

/-- BAR2_READ: the slices serve what lies within the BAR's size, and nothing of the device changes but what the host has
been given (R204, R344). -/
def execBar2Read (addr len : Nat) (s : State) : Host.Outcome State Fault Refusal :=
  .next (if s.dev.plat.linkUp then
    let b := (List.range (min len (s.dev.bar2Size - addr))).map fun i => s.dev.bar2Byte (addr + i)
    s.modDev fun d => { d with plat := { d.plat with bar2Data := b } }
  else s)

/-! ### Counters -/

/-- QUEUE_COUNTER_WRITEBACK: the four counters of an enabled queue into its descriptor (R273). -/
def execQueueCounterWriteback (qid : Nat) (s : State) : Host.Outcome State Fault Refusal :=
  let q := s.dev.jobQ qid
  .next (if q.en then { s with dev := s.dev.backCounters qid q } else s)

end Sys2Proof.Machine
end

