-- ==== Sys2Proof/Machine/Codec.lean ====
section
/-! DEFINITION. The codec engines' side of their queues (R16, R17, R288 to R293, R379). The bitstream standards are
outside the spec: what a picture decodes to comes with the event, block by block; the tensors, concealment and the order of
the entries are made here. -/

namespace Sys2Proof.Machine

/-! ### Input -/

/-- Fields of an input-queue entry (R289). -/
def inEos (x : BitVec 512) : Bool := f512 x 0xC 0 1 = 1
def inDisc (x : BitVec 512) : Bool := f512 x 0xC 1 1 = 1
def inSample (x : BitVec 512) : Bool := f512 x 0xC 2 1 = 1
def inCx (x : BitVec 512) : Nat := f512 x 0x20 0 16
def inCy (x : BitVec 512) : Nat := f512 x 0x22 0 16
def inFlip (x : BitVec 512) : Bool := f512 x 0x24 0 1 = 1
def inLofs (x : BitVec 512) : Int := sint (f512 x 0x25 0 8) 8

/-- The reserved fields of an entry are 0 and LEN lies in its range (R289). -/
def inOk (x : BitVec 512) : Bool :=
  f512 x 8 0 32 ≤ 2 ^ 24 && f512 x 0xC 3 29 = 0 && f512 x 0x18 0 64 = 0 && f512 x 0x24 1 7 = 0 && f512 x 0x26 0 208 = 0

/-- Bytes of a chunk: none where its entry is malformed (R289). -/
def inLen (x : BitVec 512) : Nat := if inOk x then f512 x 8 0 32 else 0
def inPts (x : BitVec 512) : Nat := f512 x 0x10 0 64

/-- A chunk taken, in counter order; one of a stream that holds nothing and ends nothing is passed over (R16, R289). -/
def Codec.take (c : Codec) (mode : Nat) (x : BitVec 512) : Codec :=
  if mode = 1 || inEos x || inDisc x || inLen x ≠ 0 then { c with chunks := c.chunks ++ [x] } else c

/-- Accesses of a chunk's data. -/
def chunkAccess (region : Nat) (x : BitVec 512) : List (Nat × Nat × Nat) :=
  if inOk x then pageAccess region (f512 x 0 0 64) (f512 x 8 0 32) 0 else []

/-- CODEC_INPUT_CHUNK: the next entry of a slot's input queue; HEAD passes it once its bytes have been read; one with a
nonzero reserved field counts as empty, with an event (R289, R379). -/
def execCodecInputChunk (slot : Nat) (s : State) : Host.Outcome State Fault Refusal :=
  let id := 4096 + slot
  let q := s.dev.jobQ id
  let op := opChunk slot
  if !(slot < 256 && q.en && q.cclaim != q.tail) then .next s
  else
    let va := q.entryVa id q.cclaim
    match s.dev.hwWaits op [(q.region, va, 0)] with
    | (true, d) => .next { s with dev := d }
    | (false, d) =>
      match d.hwRead q.region va 64 with
      | none => .next { s with dev := (d.queueFailed id q.cclaim (d.hwOutcome q.region va 0)).hwForget op }
      | some b =>
        let x := BitVec.ofNat 512 (ofBytes b)
        match d.hwWaits op (chunkAccess q.region x) with
        | (true, d) => .next { s with dev := d }
        | (false, d) =>
          let d := d.hwForget op
          let d := if inOk x then d else d.event (.badInput slot)
          let d := d.setQueue id { q with cclaim := q.cclaim + 1, head := q.head + 1 }
          let c := (tget .idle d.codecs slot).take (slotMode q.desc) x
          .next { s with dev := { d with codecs := tset .idle d.codecs slot c } }

/-! ### Pictures -/

/-- NV12 picture of `w` by `h` in rows of `pitch` bytes (R291): `y` and `c` give the luma and chroma bytes. -/
def nv12 (w h pitch : Nat) (y c : Nat → Nat → Byte) : List Byte :=
  let h2 := cdiv h 2
  (List.range (2 * h2)).flatMap (fun r => (List.range pitch).map fun x => if r < h && x < w then y r x else 0)
    ++ (List.range h2).flatMap fun r => (List.range pitch).map fun x => if x < w then c r x else 0

/-- Luma and chroma bytes of a decoded picture. -/
def lumaAt (f : DecodedFrame) (r x : Nat) : Byte := f.pic.getD (r * f.w.toNat + x) 0
def chromaAt (f : DecodedFrame) (r x : Nat) : Byte := f.pic.getD ((f.h.toNat + r) * f.w.toNat + x) 0

/-- Block `b` of a picture; one the data did not reach was not decoded. -/
def blockOf (f : DecodedFrame) (b : Nat) : DecodedBlock :=
  f.blocks.getD b { decoded := false, intra := false, coefs := [] }
/-- Number of the block that holds luma sample (x, r). -/
def blockNo (f : DecodedFrame) (r x : Nat) : Nat := r / 16 * cdiv f.w.toNat 16 + x / 16
/-- Class of a block: concealed, with an intra-coded part, or inter (R291, R292). -/
def DecodedBlock.cls (b : DecodedBlock) : Nat := if !b.decoded then 2 else if b.intra then 1 else 0
/-- Every block of it was decoded. -/
def frameWhole (f : DecodedFrame) : Bool :=
  (List.range (blocksOf f.w.toNat f.h.toNat)).all fun b => (blockOf f b).decoded
/-- Blocks concealed. -/
def missingOf (f : DecodedFrame) : Nat :=
  ((List.range (blocksOf f.w.toNat f.h.toNat)).filter fun b => DecodedBlock.cls (blockOf f b) = 2).length

/-- A vector component over the distance to its reference, rounded to nearest with ties away from zero, and clamped to s16
(R291). A picture is no reference of its own: the distance is never 0. -/
def mvScale (v dist : Int) : Int :=
  let q : Nat := (2 * v.natAbs + dist.natAbs) / (2 * dist.natAbs)
  max (-32768) (min 32767 (if v.sign * dist.sign < 0 then -(q : Int) else q))
/-- A prediction unit covers luma sample (x, y). -/
def PredUnit.covers (u : PredUnit) (x y : Nat) : Bool := u.x ≤ x && x < u.x + u.w && u.y ≤ y && y < u.y + u.h
/-- The vector of a block: the list-0 vector, or the only one, of the prediction unit covering luma sample
(min(16bx + 8, W − 1), min(16by + 8, H − 1)) (R291). -/
def vecOf (f : DecodedFrame) (i : Nat) : Option MotionVec :=
  let bw := cdiv f.w.toNat 16
  let x := min (16 * (i % bw) + 8) (f.w.toNat - 1)
  let y := min (16 * (i / bw) + 8) (f.h.toNat - 1)
  (f.units.find? fun u => PredUnit.covers u x y).bind fun u => u.list0 <|> u.list1
/-- The three side tensors (R291): no vector in blocks that are not inter, no residual in concealed ones. -/
def mvTensor (f : DecodedFrame) (n : Nat) : List Byte :=
  (List.range n).flatMap fun i =>
    match if DecodedBlock.cls (blockOf f i) = 0 then vecOf f i else none with
    | some v => bytesOf 2 ((mvScale v.dx v.dist % 65536).toNat) ++ bytesOf 2 ((mvScale v.dy v.dist % 65536).toNat)
    | none => bytesOf 4 0
def resTensor (f : DecodedFrame) (n : Nat) : List Byte :=
  (List.range n).flatMap fun i =>
    let b := blockOf f i
    bytesOf 2 (if DecodedBlock.cls b = 2 then 0 else min 65535 (b.coefs.foldl (fun a v => a + v.natAbs) 0))
def clsTensor (f : DecodedFrame) (n : Nat) : List Byte := (List.range n).map fun i => BitVec.ofNat 8 (DecodedBlock.cls (blockOf f i))

/-- A slot's private store as its codec reads it: place of a picture and offset in it to the byte, where it can be read
(R288). -/
abbrev Store := Nat → Nat → Option Byte
/-- Where the picture at place `k` of a slot's private store lies (R288; DESIGN CHOICE, log 67: the spec gives the store's size
and not how pictures lie in it; the model keeps 16 of them, each laid out as a buffer's). -/
def dpbAt (x : BitVec 512) (k : Nat) : Nat := slotDpb x + k * slotStride x
/-- The private store of the slot of an input queue, in memory (R288). -/
def Device.store (d : Device) (q : Queue) : Store := fun k o =>
  (d.hwRead q.region (dpbAt q.desc k + o) 1).map fun b => b.getD 0 0
/-- The reference that missing blocks are copied from: its place in the store, width and height. -/
def refOf (c : Codec) (f : DecodedFrame) : Option (Nat × Nat × Nat) := f.ref.bind fun i => c.refs[i]?
/-- A byte of the reference that missing blocks are copied from; none where there is no reference, or it does not reach there
(R292; log 67). -/
def refByte (pitch : Nat) (m : Store) (c : Codec) (f : DecodedFrame) (chroma : Bool) (r x : Nat) : Option Byte :=
  match refOf c f with
  | none => none
  | some (k, w, h) =>
    if x < w && r < (if chroma then cdiv h 2 else h) then m k ((if chroma then 2 * cdiv h 2 + r else r) * pitch + x) else none
/-- Luma and chroma with missing blocks concealed (R292). -/
def lumaShown (pitch : Nat) (m : Store) (c : Codec) (f : DecodedFrame) (r x : Nat) : Byte :=
  if (blockOf f (blockNo f r x)).decoded then lumaAt f r x else (refByte pitch m c f false r x).getD 0
def chromaShown (pitch : Nat) (m : Store) (c : Codec) (f : DecodedFrame) (r x : Nat) : Byte :=
  if (blockOf f (blockNo f (2 * r) x)).decoded then chromaAt f r x else (refByte pitch m c f true r x).getD 0x80
/-- A place of the store that none of the last 15 pictures takes. -/
def Codec.freePlace (c : Codec) : Nat := ((List.range 16).find? fun k => !((c.refs.take 15).any fun r => r.1 = k)).getD 0

/-- A luma byte moved by LOFS (R293). -/
def lumaAdd (y : Byte) (ofs : Int) : Byte := BitVec.ofInt 8 (max 0 (min 255 ((y.toNat : Int) + ofs)))
/-- Column `x` of a window `w` wide, mirrored when FLIP. -/
def mirror (flip : Bool) (w x : Nat) : Nat := if flip then w - 1 - x else x
/-- Byte column `x` of interleaved chroma, mirrored by pairs. -/
def mirrorUv (flip : Bool) (w x : Nat) : Nat := if flip then w - 2 - x / 2 * 2 + x % 2 else x

/-- The window of a decoded picture that an entry asks for (R293). -/
def window (f : DecodedFrame) (x : BitVec 512) (ow oh pitch : Nat) : List Byte :=
  nv12 ow oh pitch
    (fun r c => lumaAdd (lumaAt f (inCy x + r) (inCx x + mirror (inFlip x) ow c)) (inLofs x))
    (fun r c => chromaAt f (inCy x / 2 + r) (inCx x + mirrorUv (inFlip x) ow c))

/-- A sample is corrupt (R293). -/
def sampleBad (f : DecodedFrame) (x : BitVec 512) (ow oh : Nat) : Bool :=
  !inOk x || !inSample x || !frameWhole f || !f.intra || inCx x % 2 = 1 || inCy x % 2 = 1 || f.w.toNat < inCx x + ow || f.h.toNat < inCy x + oh

/-! ### Posting -/

/-- What is to be posted: the entry's fields, and the buffer's parts as offsets and bytes. -/
structure Posting where
  status : Nat
  flags : Nat
  w : Nat
  h : Nat
  missing : Nat
  pts : Nat
  /-- it takes a buffer, and its entry the addresses of the first `parts` of the four -/
  buffer : Bool
  parts : Nat
  bytes : List (Nat × List Byte)
  /-- the picture as later ones refer to it, with its place in the private store (R288) -/
  store : List (Nat × List Byte)
  deriving DecidableEq, Repr

/-- Offsets of the four parts of a buffer (R288). -/
def partOffs (w h : Nat) : List Nat :=
  let a := up4096 (picBytes w h)
  let b := a + up4096 (4 * blocksOf w h)
  [0, a, b, b + up4096 (2 * blocksOf w h)]

/-- The picture fits the slot (R292). -/
def fits (x : BitVec 512) (f : DecodedFrame) : Bool := f.w.toNat ≤ slotMaxW x && f.h.toNat ≤ slotMaxH x

/-- The codec with the first `n` of its chunks used up and the next one in hand; DISC among them, or on that one, drops the
reference state, once (R289). -/
def Codec.reach (c : Codec) (n : Nat) : Codec :=
  let disc := (c.chunks.take (n + 1)).any inDisc
  { c with
    chunks := match c.chunks.drop n with
      | [] => []
      | x :: r => setBits x (8 * 0xC + 1) 1 0 :: r
    refs := if disc then [] else c.refs }

/-- The codec as it comes to a picture: its reference state is gone where bytes were being discarded (R289, R292). -/
def Codec.comesTo (c : Codec) (f : DecodedFrame) : Codec :=
  let c := c.reach f.chunk
  if c.dropping then { c with refs := [] } else c

/-- The chunk that a picture begins in, if there is one: it holds bytes, and no stream has ended before it (R16, R289). -/
def Codec.chunkOf (c : Codec) (f : DecodedFrame) : Option (BitVec 512) :=
  if (c.chunks.take f.chunk).any inEos then none
  else (c.chunks[f.chunk]?).filter fun x => inLen x ≠ 0

/-- The entry of a picture of a stream, and the codec with it made: none while bytes are being discarded, and none where the
picture begins in no chunk that has been taken (R16, R289 to R292). -/
def streamPost (x : BitVec 512) (m : Store) (c : Codec) (f : DecodedFrame) : Option (Posting × Codec) :=
  match c.chunkOf f with
  | none => none
  | some e =>
    if c.dropping && !(f.key && fits x f) then none
    else
      let c := c.comesTo f
      let w := f.w.toNat
      let h := f.h.toNat
      if !fits x f then
        some ({ status := 2, flags := f.key.toNat, w, h, missing := 0, pts := inPts e, buffer := false, parts := 0,
                bytes := [], store := [] }, { c with dropping := true })
      else
        let n := blocksOf w h
        let o := partOffs (slotMaxW x) (slotMaxH x)
        let pitch := pitchOf (slotMaxW x)
        let pic := nv12 w h pitch (lumaShown pitch m c f) (chromaShown pitch m c f)
        some ({ status := (!frameWhole f).toNat, flags := 4 + f.key.toNat, w, h, missing := missingOf f, pts := inPts e,
                buffer := true, parts := 4,
                bytes := [(o.getD 0 0, pic),
                          (o.getD 1 0, mvTensor f n), (o.getD 2 0, resTensor f n), (o.getD 3 0, clsTensor f n)],
                store := [(c.freePlace, pic)] },
              { c with dropping := false, refs := ((c.freePlace, w, h) :: c.refs).take 16 })

/-- The entry of a sample (R293). -/
def samplePost (x : BitVec 512) (e : BitVec 512) (f : DecodedFrame) : Posting :=
  let bad := sampleBad f e (slotOw x) (slotOh x)
  { status := if bad then 3 else 0, flags := 2 + f.key.toNat + 4 * (!bad).toNat, w := slotOw x, h := slotOh x,
    missing := 0, pts := f512 e 0x10 0 64, buffer := true, parts := 1,
    bytes := [if bad then (0, bytesOf (bufferBytes (slotMaxW x) (slotMaxH x)) 0)
              else (0, window f e (slotOw x) (slotOh x) (pitchOf (slotMaxW x)))],
    store := [] }

/-- The end of a stream, and the codec with its reference state dropped; none while no chunk taken ends it (R292). -/
def eosPost (c : Codec) : Option (Posting × Codec) :=
  match (c.chunks.dropWhile fun x => !inEos x) with
  | [] => none
  | x :: r =>
    some ({ status := 4, flags := 0, w := 0, h := 0, missing := 0, pts := inPts x, buffer := false, parts := 0, bytes := [],
            store := [] },
          { c with chunks := r, refs := [] })

/-- The 64 bytes of a frame-queue entry (R290); `buf` is its buffer and that buffer's address. -/
def frameEntry (frame pitch : Nat) (p : Posting) (buf : Option (Nat × Nat)) (offs : List Nat) : List Byte :=
  let at' := fun (i : Nat) => match buf with
    | some (_, a) => if i < p.parts then a + offs.getD i 0 else 0
    | none => 0
  bytesOf 4 frame ++ bytesOf 2 p.w ++ bytesOf 2 p.h ++ bytesOf 1 p.status ++ bytesOf 1 p.flags
    ++ bytesOf 1 (match buf with | some (b, _) => b | none => 0xFF) ++ bytesOf 1 0 ++ bytesOf 4 p.missing
    ++ bytesOf 8 p.pts ++ (List.range 4).flatMap (fun i => bytesOf 8 (at' i)) ++ bytesOf 4 pitch ++ bytesOf 4 0

/-- The bytes from `a` on are free: HEAD has passed the entry of every picture that lies in them (R17, R290). -/
def bufFree (c : Codec) (q : Queue) (a n : Nat) : Bool :=
  c.used.all fun e =>
    e.1 + e.2.1 ≤ a || a + n ≤ e.1 || (1 ≤ (q.head - e.2.2).toNat && (q.head - e.2.2).toNat ≤ 2 ^ 31)

/-- Bytes of a buffer written where they translate (R379 says nothing of those that do not). -/
def Device.bufPut (d : Device) (region va : Nat) (b : List Byte) : Device :=
  (partsOf va b.length).foldl (fun d p => (d.hwWrite region p.1 ((b.drop (p.1 - va)).take p.2)).getD d) d

/-- The codec after an entry: its number and its buffer, of which the entry at counter `ctr` has to be consumed. -/
def Codec.posted (c : Codec) (p : Posting) (buf : Option (Nat × Nat)) (n : Nat) (ctr : BitVec 32) : Codec :=
  { c with
    frame := if p.status = 4 then c.frame else c.frame + 1
    bufs := if p.buffer then c.bufs + 1 else c.bufs
    used := match buf with
      | some (_, a) => tput c.used a (n, ctr)
      | none => c.used }

/-- The accesses that a posting makes to a slot's buffer and private store (R288). -/
def Posting.access (p : Posting) (iq : Queue) (base : Nat) : List (Nat × Nat × Nat) :=
  (p.bytes.flatMap fun e => pageAccess iq.region (base + e.1) e.2.length 1)
    ++ p.store.flatMap fun e => pageAccess iq.region (dpbAt iq.desc e.1) e.2.length 1
/-- What a posting writes to a slot's buffer and private store (R288). -/
def Device.putFrame (d : Device) (iq : Queue) (base : Nat) (p : Posting) : Device :=
  p.store.foldl (fun d e => d.bufPut iq.region (dpbAt iq.desc e.1) e.2)
    (p.bytes.foldl (fun d e => d.bufPut iq.region (base + e.1) e.2) d)

/-- One entry posted, with its buffer, when there is room for both; `c` is what the codec is with it made, and `ref` the
accesses to the reference it conceals from (R16, R17, R288, R290, R379). -/
def State.postFrame (s : State) (slot : Nat) (iq : Queue) (p : Posting) (c : Codec) (ref : List (Nat × Nat × Nat)) : State :=
  let id := 2 * 4096 + slot
  let d := s.dev
  let q := d.jobQ id
  let x := iq.desc
  let b := c.bufs % max 1 (slotNb x)
  let base := slotBase x + b * slotStride x
  if !q.en || q.room = 0 || (p.buffer && !bufFree c q base (slotStride x)) then s
  else
    let va := q.entryVa id q.pclaim
    match d.hwWaits (opFrame slot) ((q.region, va, 1) :: (ref ++ p.access iq base)) with
    | (true, d) => { s with dev := d }
    | (false, d) =>
      let buf := if p.buffer then some (b, base) else none
      let offs := partOffs (slotMaxW x) (slotMaxH x)
      let num := if p.status = 4 then (Config.eosFrame s.fresh).toNat else c.frame.toNat
      let e := frameEntry num (pitchOf (slotMaxW x)) p buf offs
      let d1 := d.putFrame iq base p
      match d1.hwWrite q.region va e with
      | none => { s with dev := (d1.queueFailed id q.pclaim (d1.hwOutcome q.region va 1)).hwForget (opFrame slot) }
      | some d2 =>
        let d2 := { d2 with codecs := tset .idle d2.codecs slot (c.posted p buf (slotStride x) q.pclaim) }
        let d2 := (d2.setQueue id q.post).event (.framePost slot q.pclaim)
        { s with dev := (d2.capture d.eventPos.toNat 0 id e []).hwForget (opFrame slot), fresh := s.fresh + 1 }

/-- The accesses to the reference that a picture is concealed from (R288, R292). -/
def refAccess (q : Queue) (p : Posting) (c : Codec) (f : DecodedFrame) : List (Nat × Nat × Nat) :=
  match refOf (c.comesTo f) f with
  | some (k, _, h) =>
    if frameWhole f || !p.buffer then [] else pageAccess q.region (dpbAt q.desc k) (pitchOf (slotMaxW q.desc) * (3 * cdiv h 2)) 0
  | none => []

/-- CODEC_FRAME_POST: in sample mode the entry of the next input entry, else a picture of the stream, or its end once an
EOS chunk has been read (R290 to R293). -/
def execCodecFramePost (slot : Nat) (f : DecodedFrame) (s : State) : Host.Outcome State Fault Refusal :=
  let q := s.dev.jobQ (4096 + slot)
  let c := tget .idle s.dev.codecs slot
  .next (if !(slot < 256 && q.en) then s
    else if slotMode q.desc = 1 then
      match c.chunks with
      | [] => s
      | e :: r => s.postFrame slot q (samplePost q.desc e f) { c with chunks := r } []
    else
      match if f.eos then eosPost c else streamPost q.desc (s.dev.store q) c f with
      | none => s
      | some (p, c1) => s.postFrame slot q p c1 (refAccess q p c f))

end Sys2Proof.Machine
end

