-- ==== Sys2Proof/Machine/Control.lean ====
section
/-! DEFINITION. Branch and loop registers, control flow and strands (R117 to R129), the trap instructions (R187), and
the prefixes (R72). -/

namespace Sys2Proof.Machine

/-! ### Prefixes -/

/-- EXT (R72). -/
def execExt (x : BitVec 20) (s : State) : Host.Outcome State Fault Refusal :=
  .next (s.modIssue fun i => { i with ext := some x })
/-- CAPX (R72). -/
def execCapx (ci : BitVec 4) (s : State) : Host.Outcome State Fault Refusal :=
  .next (s.modIssue fun i => { i with capx := some ci })
/-- SPEC (R72); ILLEGAL on a service core (R12). -/
def execSpec (s : State) : Host.Outcome State Fault Refusal :=
  tileOnly none (act fun s => s.modIssue fun i => { i with spec := true }) s
/-- TAPE (R72); ILLEGAL on a service core (R12). -/
def execTape (s : State) : Host.Outcome State Fault Refusal :=
  tileOnly none (act fun s => s.modIssue fun i => { i with tape := true }) s

/-! ### Branches -/

/-- Cycles a redirection through a branch register costs beyond the next (R120). -/
def Quarter.penalty (x : Quarter) (b : Reg) : Nat :=
  let w := tget 0 x.bAt b.toNat
  if w = 0 then 3 else 3 - (x.issued - w)

/-- The stream continues at an address after the bundle. -/
def State.goTo (s : State) (a : Word) (pen : Nat) : State := s.modIssue fun i => { i with redirect := .to a pen }
/-- The stream continues at the address in a branch register (R120). -/
def State.branch (s : State) (b : Reg) : State := s.goTo (s.rdB b) (s.qtr.penalty b)
/-- The streams have been placed by the instruction itself. -/
def State.placedBy (s : State) : State := s.modIssue fun i => { i with redirect := .placed }

/-- PTBR (R118). -/
def execPtbr (g : Guard) (d a : Reg) (s : State) : Host.Outcome State Fault Refusal :=
  pureOp g (fun s => s.wrB d (s.rdS a)) s
/-- PTBR.rd (R118). -/
def execPtbrRd (g : Guard) (d a : Reg) (s : State) : Host.Outcome State Fault Refusal :=
  pureOp g (fun s => s.wrS 1 d (s.rdB a)) s
/-- PTB (R118). -/
def execPtb (g : Guard) (d : Reg) (i : Imm) (s : State) : Host.Outcome State Fault Refusal :=
  pureOp g (fun s => s.wrB d (s.core.issue.gaddr + 4 * s.immS i)) s

/-- The predicate of a conditional branch (R119). -/
def State.taken (s : State) (p : Reg) (inv : Bool) : Bool := (s.rdP p).getLsbD 0 != inv

/-- BR with a predicate (R119); .rec records the decision (R261). -/
def execBr (g : Guard) (a b : Reg) (inv rcd : Bool) (s : State) : Host.Outcome State Fault Refusal :=
  if rcd then
    guarded g (do
      let t := (← get).taken b inv
      recordDecision t
      act fun s => if t then s.branch a else s) s
  else pureOp g (fun s => if s.taken b inv then s.branch a else s) s
/-- BR without a predicate (R119). -/
def execBrUnconditional (g : Guard) (a : Reg) (s : State) : Host.Outcome State Fault Refusal :=
  pureOp g (fun s => s.branch a) s
/-- BRL: the target is read before the link is written, which is written whether or not taken (R119). -/
def execBrl (g : Guard) (a b : Reg) (inv : Bool) (s : State) : Host.Outcome State Fault Refusal :=
  pureOp g (fun s =>
    let s1 := s.wrB 7 s.core.issue.cont
    if s.taken b inv then s1.goTo (s.rdB a) (s.qtr.penalty a) else s1) s
/-- BRL without a predicate (R119). -/
def execBrlUnconditional (g : Guard) (a : Reg) (s : State) : Host.Outcome State Fault Refusal :=
  pureOp g (fun s => (s.wrB 7 s.core.issue.cont).goTo (s.rdB a) (s.qtr.penalty a)) s

/-! ### Loops -/

/-- A loop register armed for `count` trips of at most `mx` (R121); no trip discards the body (R122). -/
def State.arm (s : State) (d : Reg) (mx count : Nat) : State :=
  let limit := min count (mx + 1)
  let l : Loop := { act := limit ≠ 0, start := s.core.issue.cont, max := BitVec.ofNat 32 mx,
                    trip := if limit = 0 then 0 else 1, limit := BitVec.ofNat 32 limit }
  let s := s.wrL d l
  if limit = 0 then s.modIssue fun i => { i with redirect := .discard i.q d.toNat } else s

/-- The maximum of LARM and LSTREAM (R121). -/
def maxOk (mx : Nat) : Bool := mx ≠ 0 && mx ≤ 2 ^ 32 - 2

/-- LARM (R121). -/
def execLarm (g : Guard) (d a : Reg) (i : Imm) (s : State) : Host.Outcome State Fault Refusal :=
  guarded g (do
    needImm i maxOk
    act fun s => s.arm d (s.immZ i) (s.rdS a).toNat) s

/-- The two row pointers LSTREAM reads, as accesses of their granules (R121). -/
def rowPointers (ci : Nat) : M (Nat × Nat) := do
  let a ← quarterCap ci 0 4 permR 2 [0, 2]
  if a % 16 = 14 then
    let lo ← quarterRead (← quarterPlace ci 0 2 permR 2 false [0, 2]) 2 false false
    let hi ← quarterRead (← quarterPlace ci 2 2 permR 2 false [0, 2]) 2 false false
    pure (ofBytes lo.1, ofBytes hi.1)
  else
    let b ← quarterRead (← quarterPlace ci 0 4 permR 2 false [0, 2]) 4 false false
    pure (ofBytes (b.1.take 2), ofBytes (b.1.drop 2))

/-- LSTREAM (R121). -/
def execLstream (g : Guard) (d a : Reg) (i : Imm) (s : State) : Host.Outcome State Fault Refusal :=
  guarded g (do
    needImm i maxOk
    let (lo, hi) ← rowPointers a.toNat
    act fun s => s.arm d (s.immZ i) ((hi + 65536 - lo) % 65536)) s

/-- A quarter whose rotating files have moved by one (R123). -/
def Quarter.rotate (x : Quarter) : Quarter := { x with vwin := x.vwin + 1, pwin := x.pwin + 1 }

/-- LEND (R123, R124). -/
def execLend (g : Guard) (a : Reg) (rot : Bool) (s : State) : Host.Outcome State Fault Refusal :=
  guarded g (do
    let s ← get
    let l := s.rdL a
    if l.act then
      if l.trip.ult l.limit && l.trip == l.max then
        qtrap { cause := .loopmax, info0 := a.setWidth 64, info1 := l.start, info2 := s.core.issue.gaddr,
                info3 := l.max.setWidth 64 }
      act fun s => if rot then s.modQtr Quarter.rotate else s
      act fun s =>
        if l.trip.ult l.limit then (s.wrL a { l with trip := l.trip + 1 }).goTo l.start 0
        else s.wrL a { l with act := false }) s

/-- LBREAK (R125). -/
def execLbreak (g : Guard) (a b : Reg) (s : State) : Host.Outcome State Fault Refusal :=
  pureOp g (fun s => (s.wrL a { s.rdL a with act := false }).branch b) s

/-! ### Strands -/

/-- Each participant releases, and acquires every other participant's new epoch (R226). -/
def Race.syncQuarters (r : Race) (mask : Nat) : Race :=
  let part := fun (k : Nat) => mask / 2 ^ k % 2 = 1
  let r := upTo 4 (fun k r => if part k then r.release k else r) r
  upTo 4 (fun k r => if part k then
    upTo 4 (fun j r => if part j && j != k then { r with acq := tset 1 r.acq (8 * k + j) (r.curOf j) } else r) r
    else r) r

/-- A quarter forked off, to issue from cycle `t` on, or parked (R126). -/
def Quarter.forked (x : Quarter) (on : Bool) (a : Reg) (t : Nat) : Quarter :=
  if on then { x with st := .running, pc := x.rdB a, viaLink := false, passed := 0, joinB := none, readyAt := t }
  else { x with st := .parked }

/-- The core forked: each strand waits for its own penalty, in exposed mode every strand for the longest (R120, R126).
DEDUCED (log 102): a branch register that another slot of the same bundle writes is read after the write by a FORK in a
higher slot only. -/
def Core.fork (c : Core) (mask : Nat) (a : Reg) : Core :=
  let on := fun (k : Nat) => decide (mask / 2 ^ k % 2 = 1)
  let pen := fun (k : Nat) => (c.quarter (BitVec.ofNat 2 k)).penalty a
  let worst := ([0, 1, 2, 3].filter on).foldl (fun m k => max m (pen k)) 0
  let t := fun (k : Nat) => c.clock + 1 + if c.issue.exposed then worst else pen k
  { c with
    joint := false, pmask := BitVec.ofNat 4 mask, jsync := 0, race := c.race.syncQuarters mask,
    q0 := c.q0.forked (on 0) a (t 0), q1 := c.q1.forked (on 1) a (t 1),
    q2 := c.q2.forked (on 2) a (t 2), q3 := c.q3.forked (on 3) a (t 3) }

/-- FORK (R126). -/
def execFork (g : Guard) (a : Reg) (i : Imm) (s : State) : Host.Outcome State Fault Refusal :=
  if !s.core.issue.joint then finish illegal s
  else
    guarded g (do
      needImm i fun m => m ≠ 0 && m ≤ 15
      act fun s => (s.modCore fun c => c.fork (s.immZ i) a).placedBy) s

/-- Every participating strand has joined (R127). -/
def Core.allJoined (c : Core) : Bool := c.jsync &&& c.pmask == c.pmask && c.pmask != 0
/-- The lowest participating strand. -/
def Core.lowest (c : Core) : Nat := (findBelow 4 fun k => c.pmask.getLsbD k).getD 0
/-- Strand `k` waits at a JOIN that names branch register `a` (R127). -/
def Core.joinBit (c : Core) (k : BitVec 2) (a : Reg) : Core :=
  { c with jsync := setBit c.jsync k.toNat true }.setQuarter k { c.quarter k with joinB := some a }
/-- A quarter that a completed join has running again from cycle `r` on; one that was parked comes from no line (R32, R127). -/
def Quarter.rejoin (x : Quarter) (took : Bool) (r : Nat) : Quarter :=
  { x with st := .running, waitCtr := 0, waitAt := none, late := false, joinB := none, readyAt := r,
           lat := if took then x.lat else none }
/-- The join completed at an address, its first bundle after a penalty (R120, R127). -/
def Core.joined (c : Core) (t : Word) (pen : Nat) : Core :=
  let r := c.clock + 1 + pen
  let c1 := { c with q0 := c.q0.rejoin (c.pmask.getLsbD 0) r, q1 := c.q1.rejoin (c.pmask.getLsbD 1) r,
                     q2 := c.q2.rejoin (c.pmask.getLsbD 2) r, q3 := c.q3.rejoin (c.pmask.getLsbD 3) r }
  { c1 with joint := true, pmask := 0, jsync := 0, race := c.race.syncQuarters c.pmask.toNat,
            q0 := { c1.q0 with pc := t, viaLink := false, passed := 0 } }
/-- The join completed when every participating strand waits: at the register that the JOIN of the lowest of them names
(R127); a strand that has its bit and does not stand at a JOIN has yet to come to it. -/
def Core.tryJoin (c : Core) : Option Core :=
  let x := c.quarter (BitVec.ofNat 2 c.lowest)
  if c.allJoined then x.joinB.map fun a => c.joined (x.rdB a) (x.penalty a) else none

/-- JOIN: the strand waits; the last of them to come completes the join in its cycle (R127). -/
def execJoin (g : Guard) (a : Reg) (s : State) : Host.Outcome State Fault Refusal :=
  if s.core.issue.joint then finish illegal s
  else if !s.executes g then .next s
  else
    let c := s.core.joinBit s.core.issue.q a
    match c.tryJoin with
    | some c1 => .next { s with core := c1 }.placedBy
    | none => .next ({ s with core := c }.held (.slot 3 s.core.issue.gaddr))

/-- The end of a stream: the joint one's, or a strand's, with which the others' join may be complete (R128). -/
def Core.halted (c : Core) (k : BitVec 2) (joint : Bool) : Core :=
  if joint then c.mapQuarters fun x => { x with st := .ended }
  else
    let c1 := { c.setQuarter k { c.quarter k with st := .ended } with pmask := setBit c.pmask k.toNat false }
    c1.tryJoin.getD c1

/-- HALT (R128). -/
def execHalt (g : Guard) (s : State) : Host.Outcome State Fault Refusal :=
  pureOp g (fun s => (s.modCore fun c => c.halted c.issue.q c.issue.joint).placedBy) s
/-- NOP (R129). -/
def execNop (g : Guard) (s : State) : Host.Outcome State Fault Refusal := pureOp g id s
/-- YIELD (R129). -/
def execYield (g : Guard) (s : State) : Host.Outcome State Fault Refusal :=
  pureOp g (fun s => if s.core.issue.joint then s else s.modQtr fun x => { x with yielded := true, denial := 0, promoted := false }) s
/-- ROLE (R129). -/
def execRole (g : Guard) (i : Imm) (s : State) : Host.Outcome State Fault Refusal :=
  guarded g (do
    needImm i (· < 3)
    act fun s => s.modQtr fun x => { x with role := BitVec.ofNat 2 (s.immZ i) }) s

/-! ### Trap instructions -/

/-- TRAP (R187). -/
def execTrap (g : Guard) (a : Reg) (i : Imm) (s : State) : Host.Outcome State Fault Refusal :=
  guarded g (do
    let s ← get
    qtrap { cause := .swtrap, src := 3, info0 := BitVec.ofNat 64 (s.immZ i), info1 := s.core.issue.cont,
            info2 := s.rdS a }) s
/-- TRAPEN (R187). -/
def execTrapen (g : Guard) (s : State) : Host.Outcome State Fault Refusal :=
  guarded g (do
    needPriv 0x101
    act fun s => s.modCore fun c => { c with tr := { c.tr with tstat := setBit c.tr.tstat 8 true } }) s
/-- TRAPDIS (R187). -/
def execTrapdis (g : Guard) (s : State) : Host.Outcome State Fault Refusal :=
  guarded g (do
    needPriv 0x102
    act fun s => s.modCore fun c => { c with tr := { c.tr with tstat := setBit c.tr.tstat 8 false } }) s
/-- RTE (R187). -/
def execRte (g : Guard) (s : State) : Host.Outcome State Fault Refusal :=
  guarded g (do
    needPriv 0x100
    if (← get).core.depth = 0 then illegal
    if !(← get).core.enginesStopped then holdOther
    if (← get).core.restarts then engs.forM fun e => do
      let s ← get
      match s.chainHeld e with
      | some s1 => do
        act fun _ => s1
        holdOther
      | none => pure ()
    act State.returnTrap) s

/-- An encoding that is no instruction (R81). -/
def execReservedEncoding (s : State) : Host.Outcome State Fault Refusal := finish illegal s

/-- A pending trap is taken (R180, R182); with none pending nothing happens. -/
def execTrapEntry (s : State) : Host.Outcome State Fault Refusal :=
  .next (match s.core.pendingTrap with
    | some t => (if t.cause = .mcheck then s.modCore fun c => { c with mcheck := none } else s).trapped t
    | none => s)
/-- The watchdog of a quarter: WAITLONG once its counter has reached the limit, after an engine fault that is pending
(R185, R342). -/
def execWaitlong (q : BitVec 2) (s : State) : Host.Outcome State Fault Refusal :=
  .next (match s.core.engineTrap, s.core.waitlong q with
    | some t, some _ => s.trapped t
    | none, some t => s.trapped t
    | _, none => s)
/-- A machine check, at a bundle boundary; an engine fault that is pending comes first (R181, R185, R200). -/
def execMcheck (unit synd : Word) (s : State) : Host.Outcome State Fault Refusal :=
  .next (match s.core.engineTrap with
    | some t => (s.modCore fun c => { c with mcheck := some (unit, synd) }).trapped t
    | none => s.trapped (mcheckRec unit synd))

/-- The stream of quarter `k` stands before a line of the other latency mode than `lat` (R32). -/
def State.atOtherMode (s : State) (k : BitVec 2) : Option Bool :=
  match s.lineNow (s.core.quarter k).pc.toNat with
  | some l => if s.core.otherMode k (latOf l) then some (latOf l) else none
  | none => none
/-- A stream before a line of the other mode passes to it: its results in flight are waited for (R32). -/
def State.passMode (s : State) (k : BitVec 2) : State :=
  match s.atOtherMode k with
  | none => s
  | some m =>
    let f := fun (x : Quarter) => { x.flush with lat := some m }
    s.modCore fun c => if c.joint then c.mapQuarters f else c.setQuarter k (f (c.quarter k))
/-- The switch of latency mode completes once every engine queue is empty (R32). -/
def execLatencyModeSwitch (s : State) : Host.Outcome State Fault Refusal :=
  .next (if s.core.enginesEmpty then s.core.streams.foldl (fun s k => s.passMode k) s else s)
/-- Results that are due land (R32, R133). -/
def execResultDelivery (s : State) : Host.Outcome State Fault Refusal := .next (s.modCore Core.deliverDue)
/-- A strand whose denial counter has reached AGE.LIMIT - 4 is promoted (R30). -/
def execStrandPromotion (q : BitVec 2) (s : State) : Host.Outcome State Fault Refusal :=
  .next (s.modCore fun c => if c.joint || (c.quarter q).st ≠ .running then c else c.promote q)
/-- TIME advances by 16 each nanosecond (R339). -/
def execTimeAdvance (ns : Nat) (s : State) : Host.Outcome State Fault Refusal :=
  .next { s with dev := s.dev.advance (16 * ns) }

end Sys2Proof.Machine
end

