-- ==== Sys2Proof/Machine/Counters.lean ====
section
/-! DEFINITION. Counters of a quarter's making: semaphores (R324, R325), barriers (R326 to R328), FENCE (R221), time
(R339, R340) and performance counters (R343). -/

namespace Sys2Proof.Machine

/-! ### Semaphores -/

/-- SEMOVF with its info words (R324, R328). -/
def semovf (obj v n : Nat) : M Unit :=
  qtrap { cause := .semovf, info0 := BitVec.ofNat 64 obj, info1 := BitVec.ofNat 64 v, info2 := BitVec.ofNat 64 n }

/-- The result register, unless its field is 0 (R323). -/
def State.wrS0 (s : State) (lat : Nat) (d : Reg) (v : Word) : State := if d = 0 then s else s.wrS lat d v
/-- An amount field: 0 names the value 1 (R323). -/
def State.orOne (s : State) (a : Reg) : Word := if a = 0 then 1 else s.rdS a

/-- A quarter's signal: the value replaced, a release at core scope (R223, R324). -/
def State.signal (s : State) (i v : Nat) : State :=
  s.modCore fun c => (c.setSemV i v).relSem c.issue.q.toNat i
/-- A quarter's passing wait (R223, R324). -/
def State.passSem (s : State) (i : Nat) : State := s.modCore fun c => c.acqSem c.issue.q.toNat i

/-- SEMINIT (R324). -/
def execSeminit (g : Guard) (a : Reg) (i : BitVec 16) (s : State) : Host.Outcome State Fault Refusal :=
  within (.long i) (· ≤ 255) g (do
    let s ← get
    let v := bfld (s.rdS a) 0 16
    let c := bfld (s.rdS a) 16 16
    if c < v then semovf (s.imm16 i) v 0
    act fun s => s.modCore fun k =>
      k.setSem (s.imm16 i) { v := BitVec.ofNat 16 v, ceil := BitVec.ofNat 16 c }) s

/-- SEMWAIT (R324). -/
def execSemwait (g : Guard) (d a : Reg) (i : Imm) (cons : Bool) (s : State) : Host.Outcome State Fault Refusal :=
  within i (· ≤ 255) g (do
    let s ← get
    let n := s.immZ i
    let v := (s.core.semOf n).v.toNat
    let t := (s.orOne a).toNat
    if v < t then holdAt 0 (BitVec.ofNat 64 n)
    act fun s =>
      let s := s.passSem n
      let s := if cons then s.modCore fun c => c.setSemV n (v - t) else s
      s.wrS0 1 d (BitVec.ofNat 64 v)) s

/-- SEMSIG (R324). -/
def execSemsig (g : Guard) (a : Reg) (i : Imm) (s : State) : Host.Outcome State Fault Refusal :=
  within i (· ≤ 255) g (do
    let s ← get
    let n := s.immZ i
    let x := s.core.semOf n
    let k := (s.orOne a).toNat
    if x.ceil.toNat < x.v.toNat + k then semovf n x.v.toNat k
    act fun s => s.signal n (x.v.toNat + k)) s

/-- SEMADD (R324). -/
def execSemadd (g : Guard) (d a : Reg) (i : Imm) (s : State) : Host.Outcome State Fault Refusal :=
  within i (· ≤ 255) g (do
    let s ← get
    let n := s.immZ i
    let x := s.core.semOf n
    let w : Int := x.v.toNat + (s.rdS a).toInt
    if w < 0 || (x.ceil.toNat : Int) < w then semovf n x.v.toNat (s.rdS a).toNat
    act fun s => (s.signal n w.toNat).wrS0 2 d (x.v.setWidth 64)) s

/-- SEMCAS (R324). -/
def execSemcas (g : Guard) (d a : Reg) (i : BitVec 16) (s : State) : Host.Outcome State Fault Refusal :=
  within (.long i) (· ≤ 255) g (do
    let s ← get
    let n := s.imm16 i
    let x := s.core.semOf n
    let new := bfld (s.rdS a) 16 16
    if x.v.toNat = bfld (s.rdS a) 0 16 then
      if x.ceil.toNat < new then semovf n x.v.toNat new
      act fun s => s.signal n new
    act fun s => s.wrS0 2 d (x.v.setWidth 64)) s

/-- SEMRD (R324). -/
def execSemrd (g : Guard) (d : Reg) (i : Imm) (s : State) : Host.Outcome State Fault Refusal :=
  within i (· ≤ 255) g (do
    act fun s =>
      let x := s.core.semOf (s.immZ i)
      s.wrS 2 d (BitVec.ofNat 64 (x.v.toNat + 65536 * x.ceil.toNat))) s

/-! ### Barriers -/

/-- Barrier index and phase of a token (R323). -/
def tokenIdx (t : Word) : Nat := bfld t 0 11
/-- Phase of a token. -/
def tokenPhase (t : Word) : Nat := bfld t 16 12

/-- CAPFAULT UNBOUND (R327). -/
def unbound (i : Nat) : M Unit :=
  qtrap { cause := .capfault, sub := 9, info0 := 9, info2 := BitVec.ofNat 64 i }

/-- The object a barrier index is bound to, or UNBOUND (R327). -/
def boundAt (i : Nat) : M Nat := do
  match (← get).core.barAt i with
  | some a => pure a
  | none => stopWith (unbound i) 0

/-- BARINIT (R327). -/
def execBarinit (g : Guard) (a b c : Reg) (s : State) : Host.Outcome State Fault Refusal :=
  guarded g (do
    let s ← get
    let at_ ← quarterCap a.toNat 0 16 (permW + permFE) 16 [0]
    let n := bfld (s.rdS c) 0 16
    act fun s => s.modCore fun k =>
      let k := { k with bars := tset 0 k.bars (tokenIdx (s.rdS b)) (BitVec.ofNat 32 (2 ^ 31 + at_ / 16)) }
      let k := k.barPut at_ { bytes := 0, reload := n, arr := n, phase := 0, valid := true }
      { k with pool := { k.pool with pois := tset false k.pool.pois (at_ / 16) false } }) s

/-- BARARRIVE: a release before the decrement; 0 arrivals change nothing else (R328). -/
def execBararrive (g : Guard) (d a : Reg) (i : Imm) (s : State) : Host.Outcome State Fault Refusal :=
  within i (· ≤ 65535) g (do
    let s ← get
    let k := s.immZ i
    let n := tokenIdx (s.rdS a)
    let at_ ← boundAt n
    let b := s.core.barGet at_
    if b.arr < k then semovf (0x800 + n) b.arr k
    act fun s =>
      let s := s.modCore fun c =>
        let r := c.race.release c.issue.q.toNat
        let c := { c with race := r.toBar n c.issue.q.toNat (r.curOf c.issue.q.toNat) }
        if k = 0 then c else c.barPut at_ ({ b with arr := b.arr - k }).complete
      s.wrS0 2 d (BitVec.ofNat 64 (n + 65536 * b.phase))) s

/-- BAREXP (R328). -/
def execBarexp (g : Guard) (a b : Reg) (s : State) : Host.Outcome State Fault Refusal :=
  guarded g (do
    let s ← get
    let at_ ← boundAt (tokenIdx (s.rdS a))
    act fun s => s.modCore fun c =>
      let o := c.barGet at_
      c.barPut at_ ({ o with bytes := o.bytes + s.rdS b }).complete) s

/-- BARWAIT (R328). -/
def execBarwait (g : Guard) (a : Reg) (s : State) : Host.Outcome State Fault Refusal :=
  fated s.unextended (guarded g do
    let s ← get
    let n := tokenIdx (s.rdS a)
    let at_ ← boundAt n
    if (s.core.barGet at_).phase = tokenPhase (s.rdS a) then holdAt 2 (BitVec.ofNat 64 n)
    act fun s => s.modCore fun c => c.acqBar c.issue.q.toNat n) s

/-! ### FENCE -/

/-- A fence: its release, then its acquire (R203, R221, R223). -/
def fence (g : Guard) (rel acq : Bool) (sc : Scope) (s : State) : Host.Outcome State Fault Refusal :=
  fated s.unextended (guarded g do
    act fun s =>
      let s := if rel then s.quarterRelease sc else s
      if acq then s.l1Acquire sc else s) s

/-- FENCE.acq (R221). -/
def execFenceAcq (g : Guard) (sc : Scope) (s : State) : Host.Outcome State Fault Refusal := fence g false true sc s
/-- FENCE.rel (R221). -/
def execFenceRel (g : Guard) (sc : Scope) (s : State) : Host.Outcome State Fault Refusal := fence g true false sc s
/-- FENCE.full (R221). -/
def execFenceFull (g : Guard) (sc : Scope) (s : State) : Host.Outcome State Fault Refusal := fence g true true sc s
/-- FENCE.settle: ILLEGAL in a forked line; it holds until every engine queue is empty, then settles (R221, R226). -/
def execFenceSettle (g : Guard) (s : State) : Host.Outcome State Fault Refusal :=
  if !s.core.issue.joint then finish illegal s
  else
    fated s.unextended (guarded g do
      if !(← get).core.enginesEmpty then holdOther
      act fun s => s.modCore Core.settle) s

/-! ### Time and performance -/

/-- Deterministic mode (R352). -/
def State.det (s : State) : Bool := s.dev.plat.mode.getLsbD 1

/-- TREAD (R339). -/
def execTread (g : Guard) (d : Reg) (i : Imm) (s : State) : Host.Outcome State Fault Refusal :=
  within i (· ≤ 2) g (do
    act fun s =>
      let n := s.immZ i
      let v := if s.det then s.core.bundles
        else if n = 0 then s.dev.time else if n = 1 then s.core.cyc else s.core.runcyc
      s.wrS (if n = 0 then 20 else 2) d v) s

/-- TSYNC needs trap privilege, FN 4 of major 0x77; its result comes after a latency (R181, R323, R340). -/
def tsync (g : Guard) (d : Reg) (lat : State → Nat) (f : State → Word × State) (s : State) :
    Host.Outcome State Fault Refusal :=
  guarded g (do
    needPriv 0x404
    act fun s => ((f s).2).wrS (lat s) d (f s).1) s
/-- Cycles that a PTM exchange takes: at most 20 us at the clock of TELEM, in units of 100 MHz (R340, R355; log 139). -/
def State.ptmLat (s : State) : Nat := 1 + Config.ptmDelay s.fresh % (2000 * max 1 (bfld s.dev.plat.telem 32 8))

/-- TSYNC, slew (R340). -/
def execTsync (g : Guard) (d a : Reg) (s : State) : Host.Outcome State Fault Refusal :=
  tsync g d (fun _ => 20) (fun s => (s.dev.slew, s.modDev fun v => { v with slew := v.slew + s.rdS a })) s
/-- TSYNC.step (R340). -/
def execTsyncStep (g : Guard) (d a : Reg) (s : State) : Host.Outcome State Fault Refusal :=
  tsync g d (fun _ => 20) (fun s => (s.dev.time, s.modDev fun v => { v with time := v.time + s.rdS a })) s
/-- TSYNC.ptm: the root port's time, and the moment within 20 us at which the exchange completes, are free (R340). -/
def execTsyncPtm (g : Guard) (d : Reg) (s : State) : Host.Outcome State Fault Refusal :=
  tsync g d State.ptmLat (fun s => (Config.ptmRoot s.fresh - s.dev.time, { s with fresh := s.fresh + 1 })) s

/-- PMCRD: the counters as they stood before the bundle (R343). -/
def execPmcrd (g : Guard) (d : Reg) (sel : BitVec 16) (s : State) : Host.Outcome State Fault Refusal :=
  within (.long sel) (fun n => n ≤ 15 || n = 32) g (do
    if (← get).imm16 sel = 32 then needPriv 0x405
    act fun s =>
      let n := s.imm16 sel
      s.wrS 2 d (if s.det then 0 else if n = 32 then s.dev.corr else tget 0 s.core.issue.perf n)) s

end Sys2Proof.Machine
end

