-- ==== Sys2Proof/Machine/Runs.lean ====
section
/-! DEFINITION. Runs on cores: their start (R29, R38), their end (R29, R270, R297), checkpoint, kill and resumption
(R37, R188, R270). -/

namespace Sys2Proof.Machine

/-! ### Cards and their runs -/

/-- A card of the dispatcher changed, if it is there. -/
def Device.modCard (d : Device) (qid : Nat) (ctr : BitVec 32) (f : Card → Card) : Device :=
  match d.findCard qid ctr with
  | some c => d.setCard (f c)
  | none => d

/-- Every chunk of a Draining card has ended (R25). -/
def Card.drained (c : Card) : Bool := c.st = .draining && c.live = 0 && c.redeal = []

/-- A drained card completed, unless an access its completion needs is held (R27, R379). -/
def State.tryComplete (s : State) (c : Card) : State :=
  if s.dev.disp.owed.any fun o => o.qid = c.qid then s
  else
    let op := opDone c.qid c.ctr
    match s.dev.hwWaits op (s.dev.completionAccess c) with
    | (true, d) => { s with dev := d }
    | (false, d) =>
      let s := { s with dev := d }.completeCard c
      { s with dev := s.dev.hwForget op }

/-- Every drained card completed that can be (R27). -/
def State.completeDrained (s : State) : State :=
  (s.dev.disp.cards.filter Card.drained).foldl (fun s c => s.tryComplete c) s

/-! ### Start -/

/-- The run's capabilities c1 and c2 (R29, R282). -/
def recCap (ver : Nat) (x : BitVec 512) (first count : Nat) : CapWord :=
  mkCap true ver 2 (permR + permLC) (cardRecsize x * count) (cardRecbase x + cardRecsize x * first)
def cardCap (ver va : Nat) : CapWord := mkCap true ver 2 permR 64 va

/-- A quarter at run start (R29). -/
def Quarter.start (n k first count : Nat) (c1 c2 : CapWord) : Quarter :=
  { Quarter.reset with
    s := tset 0 (tset 0 (tset 0 (tset 0 [] 0 (BitVec.ofNat 64 first)) 1 (BitVec.ofNat 64 count)) 2 (BitVec.ofNat 64 n))
           3 (BitVec.ofNat 64 k),
    c := tset 0 (tset 0 [] 1 c1) 2 c2, st := .running }

/-- The persistent span that survives a switch (R38): both cards of one region name it. -/
def keptSpan (old : Option Run) (r : Run) : Nat × Nat :=
  match old with
  | some o =>
    if o.region = r.region && o.pbase = r.pbase && o.plen = r.plen then (r.pbase, r.pbase + r.plen) else (0, 0)
  | none => (0, 0)

/-- The system registers at a switch (R95, R194): the layout of the card, the versions of the region. -/
def SysRegs.switched (x : SysRegs) (lay : Nat × Nat × Nat) (capv : Nat) : SysRegs :=
  { x with poolv := BitVec.ofNat 32 lay.1, pools := BitVec.ofNat 32 lay.2.1, poolc := BitVec.ofNat 32 lay.2.2,
           capver := BitVec.ofNat 64 capv }

/-- A core after the switch scrub for a run (R38): its system registers loaded, the handler table that is effective taken
for the run (R194, R302, R321). -/
def Core.switched (c : Core) (d : Device) (r : Run) (pool : Nat) : Core :=
  let k := keptSpan c.lastRun r
  let x := (c.scrubbed k.1 k.2).settle
  { x with run := some r, sys := c.sys.switched (layoutOf d.disp.rcbs r.region pool) (rcbCapv d.rcbs r.region),
           tvt := effTvt d.disp.rcbs (if c.isService then 0 else r.region) }

/-- A run of records `[first, first + count)` of a card started on core `n` (R29). -/
def State.startRun (s : State) (n : Nat) (card : Card) (first count : Nat) : State :=
  let x := card.bytes
  let q := s.dev.jobQ card.qid
  let r : Run :=
    { qid := card.qid, ctr := card.ctr, region := card.region, ks := BitVec.ofNat 8 (ksOf s.dev.rcbs card.region),
      first := BitVec.ofNat 64 first, count := BitVec.ofNat 64 count, order := s.dev.disp.dealt,
      round := s.dev.disp.rounds, drain := none, taker := none, pbase := cardPbase x, plen := cardPlen x, charged := 0 }
  let s := { s with dev := { s.dev with disp := { s.dev.disp with dealt := s.dev.disp.dealt + 1 } } }
  s.onCore n fun s =>
    let c := s.core.switched s.dev r (cardPool x)
    let ver := bfld c.sys.capver 6 3
    let q0 := Quarter.start n 0 first count (recCap ver x first count) (cardCap ver (q.entryVa card.qid card.ctr))
    let nth := fun (k : Nat) => { q0 with s := tset 0 q0.s 3 (BitVec.ofNat 64 k) }
    { s with core := { c with q0 := { q0 with pc := BitVec.ofNat 64 (cardEntry x) }, q1 := nth 1, q2 := nth 2,
                              q3 := nth 3 } }

/-! ### Tapes at the end of a run and at a checkpoint -/

/-- What became of a tape's write-back. -/
inductive Back
  | done
  | waits
  | failed (t : TrapRec)
  deriving DecidableEq, Repr

/-- The tape of quarter `q` of the focused core closed off: its open decision record closed, its buffer drained, its
descriptor written (R270). A failed binding, and one in replay, write nothing. -/
def State.closeOff (s : State) (q : BitVec 2) (bound : Bool) : Back × State :=
  let t := (s.core.quarter q).tape
  if t.phase ≠ .record || t.failed then (.done, s)
  else
    let s1 := { s with core := s.core.setTape q t.close }.drainAll q
    let t1 := (s1.core.quarter q).tape
    if t1.failed then (.failed { cause := .xlate, info0 := t1.failVa, info1 := 1, fq := q }, s1)
    else if t1.buf ≠ [] then (.waits, s1)
    else
      match s1.xlateRange agTape (t1.va 0) 4096 1 with
      | (.ok l, s2) => (.done, s2.writeParts l (clean (t1.descriptor bound false)))
      | (.error (a, .fail r lv), s2) =>
        (.failed { cause := .xlate, info0 := BitVec.ofNat 64 a, info1 := xlInfo 1 lv r, fq := q }, s2)
      | (.error _, s2) => (.waits, s2)

/-- The four tapes in turn, until one waits or fails. -/
def State.closeTapes (s : State) (bound : Bool) : List (BitVec 2) → Back × State
  | [] => (.done, s)
  | q :: r =>
    match s.closeOff q bound with
    | (.done, s1) => s1.closeTapes bound r
    | x => x

/-- The tapes at a run's end, each given up once it is written back; one whose write-back fails is dropped with an event
(R270). -/
def State.endTapes (s : State) : List (BitVec 2) → Bool × State
  | [] => (true, s)
  | q :: r =>
    match s.closeOff q false with
    | (.done, s1) => { s1 with core := s1.core.setTape q .none }.endTapes r
    | (.waits, s1) => (false, s1)
    | (.failed _, s1) =>
      let va := BitVec.ofNat 64 ((s1.core.quarter q).tape.va 0)
      { s1 with dev := s1.dev.event (.tapeDrop s1.core.num q.toNat va), core := s1.core.setTape q .none }.endTapes r

/-! ### End -/

/-- The reservation a drained run leaves for the card that asked for it, while that card stands (R36). -/
def Device.reserveFor (d : Device) (n : Nat) (r : Run) : Device :=
  match r.drain with
  | some (_, qid, ctr) =>
    if (d.findCard qid ctr).any fun c => !c.finished then
      { d with disp := { d.disp with reservedFor := tput d.disp.reservedFor n (qid, ctr) } }
    else d
  | none => d

/-- The run of the focused core ended (R27, R29, R33): its tapes and chains have been written back. -/
def State.endRun (s : State) (r : Run) : State :=
  let s := s.dropChains
  let d := (s.dev.pushCore s.core).dropCoreHolds s.core.num
  let d := ((d.chargeRun r s.core.runcyc.toNat).reserveFor s.core.num r).modCard r.qid r.ctr
    fun c => { c with live := c.live - 1 }
  { s with core := s.core.ended, dev := d }.completeDrained

/-- RUN_END: nothing until every stream has ended and every command is complete; held write-backs are waited for (R29,
R270, R297). -/
def execRunEnd (s : State) : Host.Outcome State Fault Refusal :=
  .next (match s.core.run with
    | none => s
    | some r =>
      if !s.core.runOver then s
      else
        match s.backsHeld with
        | some s1 => s1
        | none =>
          match s.endTapes [0, 1, 2, 3] with
          | (false, s1) => s1
          | (true, s1) => s1.endRun r)

/-! ### Kill -/

/-- A kill may be made now: its window is open, no trap is pending, nothing of it is held, every started command has
finished (R37, R188, R295). -/
def State.killNow (s : State) : Bool :=
  s.core.trapEn && s.core.pendingTrap.isNone && s.core.enginesStopped && !s.dev.runHeld s.core.num

/-- The run of core `n` killed and its chunk put back to be dealt again whole (R28, R37). -/
def State.killAndRedeal (s : State) (n : Nat) (r : Run) : State :=
  let s := s.killRun n
  { s with dev := (s.dev.reserveFor n r).modCard r.qid r.ctr fun c =>
      { c with live := c.live - 1, redeal := c.redeal ++ [(r.first.toNat, r.count.toNat)] } }

/-- Pre-emption class and card of a run allow a kill (R35), which deterministic mode never chooses (R353). -/
def Device.mayKill (d : Device) (r : Run) : Bool :=
  effPclass d.disp.rcbs r.region = 3 && !d.plat.mode.getLsbD 1
    && (match d.cardOf r with | some k => cardIdem k.bytes | none => false)

/-- KILL of core `n`'s run: made once it has been decided and can be; the chains' write-backs that are held are waited for
(R37, R188, R297). A run whose domain has failed is killed without re-dealing, and waits for no held access (R24, R373). -/
def execKill (n : Nat) (s : State) : Host.Outcome State Fault Refusal :=
  .next (s.onCore n fun s =>
    match s.core.run, s.core.stopping with
    | some r, some .kill =>
      if s.killNow then
        match s.backsHeld with
        | some s1 => s1
        | none => s.killAndRedeal s.core.num r
      else s
    | some _, some (.fail _) => if s.failNow then s.killRun s.core.num else s
    | _, _ => s)

/-! ### Checkpoint -/

/-- The binding block of one quarter (R270). -/
def Tape.block (t : Tape) : List Byte :=
  if t.phase = .unbound || t.failed then bytesOf 64 0
  else
    let rst := match t.rstate with | .before => 0 | .inside => 1 | .lost => 2 | .exhausted => 3
    padTo 64 (bytesOf 16 (t.cap.toNat % 2 ^ 128)
      ++ bytesOf 1 ((capTag t.cap).toNat + 2 + 4 * (decide (t.phase = .replay)).toNat + 8 * t.ring.toNat)
      ++ bytesOf 1 (if t.phase = .replay then rst else 0) ++ bytesOf 1 (if t.phase = .replay then t.cur else 0)
      ++ bytesOf 1 t.dleft ++ bytesOf 4 (if t.phase = .replay then t.dseg else t.decisions.toNat)
      ++ bytesOf 4 t.values.toNat ++ bytesOf 4 0 ++ bytesOf 8 t.cursor)

/-- Bytes written page by page in the context of a region; none when a page does not translate. -/
def Device.hwPut (d : Device) (region va : Nat) (b : List Byte) : Option Device :=
  (partsOf va b.length).foldlM (fun d p => d.hwWrite region p.1 ((b.drop (p.1 - va)).take p.2)) d
/-- Bytes read page by page. -/
def Device.hwGet (d : Device) (region va n : Nat) : Option (List Byte) :=
  ((partsOf va n).mapM fun p => d.hwRead region p.1 p.2).map List.flatten

/-- The streams stopped for a checkpoint: addresses and masks as a trap entry saves them (R188). -/
def Core.stopForCkpt (c : Core) : Core :=
  let c1 := c.mapQuarters Quarter.atStop
  let w := setBit (setBits (setBits c.tr.tstat 28 4 c.pmask.toNat) 24 4 c.jsync.toNat) 23 c.joint
  { c1 with tr := { c.tr with tepc := c.stopPcs, tstat := w } }

/-- The bytes of the checkpoint area: the image, and the binding block at its next 64-byte boundary (R189, R270). -/
def State.areaBytes (s : State) : List Byte :=
  let b := s.core.image s.dev
  padTo (cdiv b.length 64 * 64) b ++ s.core.q0.tape.block ++ s.core.q1.tape.block ++ s.core.q2.tape.block
    ++ s.core.q3.tape.block

/-- The image written, and the core free for the switch that scrubs it (steps 3 to 5 of R188, R38). DESIGN CHOICE (log 106): an area that no longer
translates ends the checkpoint, and the run goes on; where CKPT had asked for it, s[RD] keeps what it held. -/
def State.saveRun (s : State) (r : Run) (ret : Option (BitVec 2 × Nat)) : State :=
  let s1 := { s with core := s.core.stopForCkpt }.l1Empty
  let base := rcbCkbase s1.dev.rcbs r.region
  let l := pageAccess r.region base (areaLen s.core.scratchLen) 1
  match s1.dev.hwWaits (opSave s.core.num) l with
  | (true, d) => { s1 with dev := d }
  | (false, d) =>
    let s2 := { s1 with dev := d.raiseGen r.region }
    match s2.dev.hwPut r.region base s2.areaBytes with
    | none => s.modCore fun c => { c with stopping := none }
    | some d =>
      let d := ((d.hwForget (opSave s.core.num)).dropCoreHolds s.core.num).chargeRun r s.core.runcyc.toNat
      let k : Ckpt :=
        { run := { r with drain := none, taker := none, charged := s.core.runcyc.toNat }, service := s.core.isService, ret,
          bundles := s.core.bundles }
      let d := (d.reserveFor s.core.num r)
      { s2 with
        core := s2.core.ended,
        dev := { d with disp := { d.disp with ckpts := d.disp.ckpts ++ [k] } } }

/-- The line fault of a chain whose write-back fails (R297). -/
def State.backFails (s : State) (e : Eng) : Option (Eng × TrapRec) :=
  let x := s.core.eng e
  if x.chain.active then
    match s.backXl e with
    | (.fail r l, _) => some (e, x.chain.backRec e r l x.next)
    | _ => none
  else none
/-- Every active chain written back; it stays in the image (R189, R297). -/
def State.writeChains (s : State) : State :=
  engs.foldl (fun (s : State) e => if (s.core.eng e).chain.active then (s.chainBack e).2 else s) s

/-- A checkpoint of the focused core carried on: chains and tapes are written back, a failure of which is a trap taken
first; then the image (R188, R270, R297). -/
def State.checkpointOn (s : State) (r : Run) (ret : Option (BitVec 2 × Nat)) : State :=
  match s.backsHeld with
  | some s1 => s1
  | none =>
    match engs.findSome? s.backFails with
    | some (e, t) => s.lineFault e t
    | none =>
      match s.closeTapes true [0, 1, 2, 3] with
      | (.waits, s1) => s1
      | (.failed t, s1) => s1.trapped t
      | (.done, s1) => s1.writeChains.saveRun r ret

/-- A checkpoint may be made now: nothing of its run is held, no command is queued, no line fault is still to be raised (R188,
R295, R297). -/
def State.checkpointNow (s : State) : Bool :=
  s.core.stopsNow && s.core.pendingTrap.isNone && s.core.enginesEmpty && s.core.noLineFault && !s.dev.runHeld s.core.num

/-- Pre-emption class and card of a run allow a checkpoint (R35). -/
def State.mayCkpt (s : State) (c : Core) (r : Run) : Bool := 2 ≤ effPclass s.dev.disp.rcbs r.region && s.checkpointable c

/-- CHECKPOINT of core `n`'s run: made once it has been decided and its queued commands are complete (R37, R188); the run of a
card that has been cancelled meanwhile goes on instead (R26; log 114). -/
def execCheckpoint (n : Nat) (s : State) : Host.Outcome State Fault Refusal :=
  .next (s.onCore n fun s =>
    match s.core.run, s.core.stopping with
    | some r, some (.ckpt ret) =>
      if (s.dev.cardOf r).any Card.finished then s.modCore fun c => { c with stopping := none }
      else if s.checkpointNow then s.checkpointOn r ret
      else s
    | _, _ => s)

/-! ### Resumption -/

/-- A tape binding reloaded from its block and its descriptor (R270); unbound when it cannot be. -/
def State.reloadTape (s : State) (b : List Byte) (q : BitVec 2) : State :=
  let f := imgAt b 16 1
  let cap : CapWord := BitVec.ofNat 129 (imgAt b 0 16 + 2 ^ 128 * fld f 0 1)
  let rep := fld f 2 1 = 1
  let put := fun (t : Tape) => s.modCore fun c => c.setTape q t
  if fld f 1 1 = 0 then put .none
  else
    match s.dev.hwGet s.core.region (capBase cap) 0x900 with
    | none => put .none
    | some d =>
      let t := Tape.ofDescriptor cap d
      match capCheck s.core s.dev cap 0 (4096 + t.size) (if rep then permR else permR + permW) [2] with
      | .error _ => put .none
      | .ok _ =>
        let rst := match imgAt b 17 1 with | 1 => RepState.inside | 2 => .lost | 3 => .exhausted | _ => .before
        put { t with
          phase := if rep then .replay else .record, ring := fld f 3 1 = 1, rstate := rst, cur := imgAt b 18 1,
          dleft := imgAt b 19 1, dseg := if rep then imgAt b 20 4 else 0,
          decisions := if rep then 0 else BitVec.ofNat 32 (imgAt b 20 4), values := BitVec.ofNat 32 (imgAt b 24 4),
          cursor := imgAt b 32 8, bufAt := t.head }

/-- The streams of a resumed run where its image says they stood; a VAMO that was to go on still is (R184, R188). DESIGN
CHOICE (log 132): in a handler TSTAT.LDV is the mask to be armed at RTE; a mask already armed by a nested RTE is not. -/
def Core.resumed (c : Core) : Core :=
  let pm := bfld c.tr.tstat 28 4
  let jt := c.tr.tstat.getLsbD 23
  let place := fun (k : Nat) (x : Quarter) =>
    { x with pc := tget 0 c.tr.tepc k, st := if jt || pm / 2 ^ k % 2 = 1 then .running else .parked }
  { c with
    q0 := place 0 c.q0, q1 := place 1 c.q1, q2 := place 2 c.q2, q3 := place 3 c.q3, joint := jt,
    pmask := if jt then 0 else BitVec.ofNat 4 pm,
    jsync := if jt then 0 else BitVec.ofNat 4 (bfld c.tr.tstat 24 4), frozen := c.depth ≠ 0,
    ldArmed := c.tr.tstat.getLsbD 12 && c.depth = 0 }

/-- The descriptors of the tapes that a checkpoint area names (R270). -/
def areaTapes (region : Nat) (blocks : List Byte) : List (Nat × Nat × Nat) :=
  (List.range 4).flatMap fun q =>
    let b := (blocks.drop (64 * q)).take 64
    if fld (imgAt b 16 1) 1 1 = 0 then []
    else pageAccess region (capBase (BitVec.ofNat 129 (imgAt b 0 16 % 2 ^ 128))) 0x900 0

/-- The focused core as an accepted image of a checkpointed run gives it (R188, R270, R298). -/
def State.resumeFrom (s : State) (k : Ckpt) (img blocks : List Byte) : State :=
  let s := s.loadImage img
  let c := { s.core.resumed with bundles := k.bundles }
  let c := match k.ret with
    | some (q, i) => c.setQuarter q { c.quarter q with s := tset 0 (c.quarter q).s i 0 }
    | none => c
  let s := engs.foldl (fun (s : State) e => s.reloadChain img e) { s with core := c }
  let blk := fun (q : Nat) => (blocks.drop (64 * q)).take 64
  (((s.reloadTape (blk 0) 0).reloadTape (blk 1) 1).reloadTape (blk 2) 2).reloadTape (blk 3) 3

/-- A checkpointed run resumed on core `n` (R37, R188), in the layout of its image, which an MTS may have changed from its
card's (DESIGN CHOICE, log 133): its image is checked as CTXLOAD checks one; one that is not
accepted fails the run's domain. Held pages of the area and of the descriptors it names are waited for (R270, R298). -/
def State.resumeRun (s : State) (n : Nat) (k : Ckpt) (card : Card) : State :=
  let r := { k.run with round := s.dev.disp.rounds }
  let t := s.dev.rcbs
  let base := rcbCkbase t r.region
  let drop := fun (d : Device) =>
    { d with disp := { d.disp with ckpts := d.disp.ckpts.filter fun x => x ≠ k } }
  let bad := fun (s : State) => { s with dev := drop s.dev }.failDomain r.region 1 none
  let len := match s.dev.hwGet r.region base 0x40 with | some h => areaLen (imgAt h 0x10 8) | none => 0x40
  let l := pageAccess r.region base (if len ≤ rcbCklen t r.region then len else 0x40) 0
  let op := opResume n
  match s.dev.hwWaits op l with
  | (true, d) => { s with dev := d }
  | (false, d) =>
    let s := { s with dev := d }
    match (if len ≤ rcbCklen t r.region then s.dev.hwGet r.region base len else none) with
    | none => bad { s with dev := s.dev.hwForget op }
    | some b =>
      let img := b.take (imageLen (imgAt b 0x10 8))
      let c0 := { (s.coreAt n).switched s.dev { r with plen := 0 } (cardPool card.bytes) with run := some r }
      if (c0.imageBad s.dev img).isSome then bad { s with dev := s.dev.hwForget op }
      else
        let blocks := b.drop (len - 256)
        let ds := imgChains r.region img ++ areaTapes r.region blocks
        match s.dev.hwWaits op ds with
        | (true, d) => { s with dev := d }
        | (false, d) =>
          { s with dev := drop d }.onCore n fun s =>
            let s1 := { s with core := c0 }.resumeFrom k img blocks
            { s1 with dev := s1.dev.hwForget op }

end Sys2Proof.Machine
end

