-- ==== Sys2Proof/Machine/Dispatcher.lean ====
section
/-! DEFINITION. The dispatcher: reading cards (R25, R283, R285, R286), dispatch rounds and the key table (R33, R34, R303,
R304), dealing chunks (R28, R33, R353), pre-emption (R35, R36), tokens, and the walkers' queue events (R295, R308). -/

namespace Sys2Proof.Machine

/-! ### Order -/

/-- An element placed before the first one it precedes. -/
def insBy {α : Type} (lt : α → α → Bool) (a : α) : List α → List α
  | [] => [a]
  | b :: r => if lt a b then a :: b :: r else b :: insBy lt a r
/-- A list in the order `lt`, elements that tie keeping theirs. -/
def sortBy {α : Type} (lt : α → α → Bool) (l : List α) : List α := l.foldl (fun acc a => insBy lt a acc) []

/-- How far a card is from the head of its queue (R274). -/
def Device.cardPos (d : Device) (c : Card) : Nat := (c.ctr - (d.jobQ c.qid).head).toNat
/-- Key-wait order: the round of entry, then job-queue index and counter (R303). -/
def Device.olderKey (d : Device) (a b : Card) : Bool :=
  a.kwOrder < b.kwOrder
    || (a.kwOrder = b.kwOrder && (a.qid < b.qid || (a.qid = b.qid && d.cardPos a < d.cardPos b)))

/-! ### Reading a card -/

/-- A Waiting card whose count is 0 enters key-wait where it can (R286, R361). -/
def Device.promote (d : Device) (c : Card) : Device :=
  if c.st = .waiting && (d.sideRead c.qid (c.ctr.toNat % (d.jobQ c.qid).slots)) = some (2 ^ 31) then d.toKeyWait c else d

/-- The card of a counter has been read: with the last of its published range, the cards of the queue whose count is 0
enter key-wait together (R361). -/
def Device.cardRead (d : Device) (qid : Nat) (ctr : BitVec 32) : Device :=
  let last := fun (r : PubRange) => r.qid = qid && (ctr - r.first).toNat + 1 = r.count
  let d1 := { d with disp := { d.disp with ranges := d.disp.ranges.filter fun r => !last r,
                                           checked := d.disp.checked.filter fun y => !(y.qid = qid && y.ctr = ctr) } }
  (d1.disp.cards.filter fun c => c.qid = qid).foldl (fun d c => d.promote c) d1

/-- A well-formed card read: its side entry becomes the count still to come, and it waits or goes to key-wait (R285,
R286); one whose region or predecessor has failed is cancelled (R24, R27). -/
def State.admitCard (s : State) (c : Card) (slot val : Nat) : State :=
  let n := cardNpred c.bytes - val
  let d := s.dev.sideWriteTo c.qid slot (2 ^ 31 + n)
  let d := { d with disp := { d.disp with cards := d.disp.cards ++ [c] } }
  match d.disp.doomed.find? fun x => x.qid = c.qid && x.slot = slot with
  | some x =>
    let d := { d with disp := { d.disp with doomed := d.disp.doomed.filter fun y => !(y.qid = c.qid && y.slot = slot) } }
    { s with dev := d.cardRead c.qid c.ctr }.cancelCards (9 * (d.disp.cards.length + 1)) [(c.qid, c.ctr, x.reason)]
  | none => { s with dev := d.cardRead c.qid c.ctr }

/-- The status of a published card and its dependence block, as they were when TAIL passed it. DESIGN CHOICE (log 112): a
card whose ring entry has changed since is checked again. -/
def Device.readCheck (d : Device) (qid : Nat) (q : Queue) (x : BitVec 512) : Nat × BitVec 512 :=
  match d.disp.checked.find? fun y => y.qid = qid && y.ctr = q.cclaim with
  | some y => if y.bytes = x then (0, y.deps) else d.cardCheck q.region x
  | none => d.cardCheck q.region x

/-- The card of counter CCLAIM read from its ring entry's bytes, nothing of it being held (R283, R285, R286). -/
def State.takeCard (s : State) (qid : Nat) (q : Queue) (x : BitVec 512) : State :=
  let d := s.dev
  let slot := q.cclaim.toNat % q.slots
  match d.sideRead qid slot with
  | none =>
    { s with dev := d.queueFailed qid q.cclaim (d.hwOutcome q.region (f512 q.desc 0x20 0 64 + 4 * slot) 0) }
  | some e =>
    let (st, deps) := d.readCheck qid q x
    let s := { s with dev := d.setQueue qid { q with cclaim := q.cclaim + 1 } }
    let c := q.card qid q.cclaim x deps
    if st ≠ 0 then { s with dev := s.dev.cardRead qid q.cclaim }.retireCard c st else s.admitCard c slot (fld e 0 16)

/-- A retired card passed: nothing of it is read (R283). -/
def State.passRetired (s : State) (qid : Nat) (q : Queue) : State :=
  let d := s.dev.setQueue qid { q with cclaim := q.cclaim + 1 }
  { s with dev := (d.cardRead qid q.cclaim).settleHead qid }

/-- The entry of counter CCLAIM read, where nothing of it is held (R286, R379). -/
def State.readCard (s : State) (qid : Nat) (q : Queue) : State :=
  let va := q.entryVa qid q.cclaim
  let op := opCard qid
  match s.dev.hwWaits op [(q.region, va, 0)] with
  | (true, d) => { s with dev := d }
  | (false, d) =>
    match d.hwRead q.region va 64 with
    | none => { s with dev := (d.queueFailed qid q.cclaim (d.hwOutcome q.region va 0)).hwForget op }
    | some b =>
      let x := BitVec.ofNat 512 (ofBytes b)
      match d.hwWaits op (Device.depsAccess q.region x ++ d.sideAccess qid (q.cclaim.toNat % q.slots)) with
      | (true, d) => { s with dev := d }
      | (false, d) =>
        let s := { s with dev := d }.takeCard qid q x
        { s with dev := s.dev.hwForget op }

/-- CARD_READ: the next published card of job queue `qid`; nothing when there is none; what is held of the queue's earlier
operations, and its own accesses, are waited for (R286, R379). -/
def execCardRead (qid : Nat) (s : State) : Host.Outcome State Fault Refusal :=
  let s := s.checkCards.payOwed
  let q := s.dev.jobQ qid
  .next (if !(qid < 4096 && q.en && q.cclaim != q.tail) then s
    else if (s.dev.disp.toCheck.any fun x => x.1 = qid) || s.dev.disp.owed.any fun o => o.qid = qid then s
    else if (s.dev.findCard qid q.cclaim).isSome then s.passRetired qid q
    else s.readCard qid q)

/-! ### The ready pool -/

/-- Cards in the ready pool (R26). -/
def Device.readyCount (d : Device) : Nat := (d.disp.cards.filter fun c => c.st = .ready).length

/-- Node `i`'s subtree has ready work of class `k`. -/
def Device.readyWork (d : Device) (k i : Nat) : Bool :=
  d.disp.cards.any fun c => c.st = .ready && effClass d.disp.rcbs c.region = k && inSubtree d.disp.rcbs c.region i

/-- The other children of a node's parent. -/
def siblingsOf (t : Rcbs) (i : Nat) : List Nat :=
  (t.map Prod.fst).filter fun j => j ≠ 0 && j ≠ i && rcbValid t j && rcbParent t j = rcbParent t i

/-- The least of a list of numbers. -/
def leastOf : List Nat → Option Nat
  | [] => none
  | a :: r => some (r.foldl min a)

/-- The virtual times of a region and its ancestors that had no ready work of class `k` raised to the least among their
siblings that have some (R33). -/
def Device.raiseVtime (d : Device) (region k : Nat) : Device :=
  ((rcbPath d.disp.rcbs region).filter (· ≠ 0)).foldl (fun d i =>
    if d.readyWork k i then d
    else
      match leastOf (((siblingsOf d.disp.rcbs i).filter fun j => d.readyWork k j).map fun j => d.vtime j k) with
      | some v => if d.vtime i k < v then d.rcbPut i (0x60 + 8 * k) 8 v else d
      | none => d) d

/-- A card enters the ready pool: E is fixed (R28); a card of no record is Draining at once (R286). -/
def Device.enterReady (d : Device) (c : Card) : Device :=
  let d := d.raiseVtime c.region (effClass d.disp.rcbs c.region)
  let n := if cardService c.bytes then 4 else 128
  let d := d.setCard { c with st := if cardCount c.bytes = 0 then .draining else .ready, rdOrder := d.disp.rdCount,
                              cap := min n (effMaxc d.disp.rcbs c.region) }
  { d with disp := { d.disp with rdCount := d.disp.rdCount + 1 } }

/-! ### The key table -/

/-- Key-table entry `k` (R303). -/
def Device.keyAt (d : Device) (k : Nat) : Key := tget .free d.disp.keys k
/-- It replaced. -/
def Device.setKey (d : Device) (k : Nat) (x : Key) : Device :=
  { d with disp := { d.disp with keys := tset .free d.disp.keys k x } }

/-- All the keys of a card held by it, its own reservations spent (R304). -/
def Device.takeKeys (d : Device) (c : Card) : Device :=
  let r := d.cardRef c.qid c.ctr
  (d.keysOf c).foldl (fun d k =>
    let x := d.keyAt k
    let own := x.reserved && x.reserver = r
    d.setKey k { held := true, holder := r, reserved := x.reserved && !own,
                 reserver := if own then 0 else x.reserver }) d
/-- Every key of a card that is not reserved becomes reserved for it (R304). -/
def Device.reserveKeys (d : Device) (c : Card) : Device :=
  (d.keysOf c).foldl (fun d k =>
    let x := d.keyAt k
    if x.reserved then d else d.setKey k { x with reserved := true, reserver := d.cardRef c.qid c.ctr }) d

/-- Every key of a card is free for it (R304). -/
def Device.keysFree (d : Device) (c : Card) : Bool :=
  (d.keysOf c).all fun k => !(d.keyAt k).held && (!(d.keyAt k).reserved || (d.keyAt k).reserver == d.cardRef c.qid c.ctr)

/-- Refusals after which a card's keys are reserved: KAGE, 0 behaving as 1 (R34, R304). -/
def Device.kage (d : Device) : Nat := max 1 (bfld d.plat.dschedEff 40 8)

/-- One card of a dispatch round (R304). -/
def State.tryKeys (s : State) (x : Card) : State :=
  let d := s.dev
  match d.findCard x.qid x.ctr with
  | none => s
  | some c =>
    if c.st ≠ .keyWait then s
    else if d.readyCount < 1024 && d.keysFree c then
      let d := (d.takeKeys c).enterReady c
      let s := { s with dev := d }
      if cardCount c.bytes = 0 then
        match d.findCard c.qid c.ctr with
        | some c => s.tryComplete c
        | none => s
      else s
    else
      let c := { c with refused := c.refused + 1 }
      let d := d.setCard c
      { s with dev := if d.kage ≤ c.refused then d.reserveKeys c else d }

/-- The cards in key-wait that have been refused KAGE rounds, oldest first (R303, R304). -/
def Device.aged (d : Device) : List Card :=
  sortBy d.olderKey (d.disp.cards.filter fun c => c.st = .keyWait && decide (d.kage ≤ c.refused))

/-- KEY_RESERVATION: a card in key-wait that has been refused KAGE rounds reserves its keys, after every such card that is
older; a key released since the last round is first tried for in the round that is due (R34, R304). -/
def execKeyReservation (qid ctr : Nat) (s : State) : Host.Outcome State Fault Refusal :=
  .next (match s.dev.findCard qid (BitVec.ofNat 32 ctr) with
    | none => s
    | some c =>
      if c.st = .keyWait && decide (s.dev.kage ≤ c.refused) && !s.dev.disp.due then
        let l := s.dev.aged.filter fun x => s.dev.olderKey x c || (x.qid = c.qid && x.ctr = c.ctr)
        { s with dev := l.foldl (fun d x => d.reserveKeys x) s.dev }
      else s)

/-! ### A dispatch round -/

/-- No card stands between Queued and Draining, no run occupies a core (R352). -/
def State.idle (s : State) : Bool :=
  s.busyCores.isEmpty && s.dev.disp.cards.all Card.finished
    && s.dev.queues.all fun e => 4096 ≤ e.1 || !e.2.en || e.2.cclaim == e.2.tail

/-- The pending mode takes effect where the device is idle (R352). -/
def State.applyMode (s : State) : State :=
  let p := s.dev.plat
  if p.mode.getLsbD 2 && s.idle then
    let m := setBit (setBits p.mode 0 2 p.modeNext.toNat) 2 false
    { s with dev := { s.dev with plat := { p with mode := m, modeNext := 0 } } }
  else s

/-- MODE_CHANGE: the pending mode at an idle point (R352). -/
def execModeChange (s : State) : Host.Outcome State Fault Refusal := .next s.applyMode

/-- The register and table values that take effect at a round (R34, R302). -/
def Device.startRound (d : Device) : Device :=
  { d with plat := { d.plat with dschedEff := d.plat.dsched },
           disp := { d.disp with rcbs := d.rcbs, rounds := d.disp.rounds + 1, due := false } }

/-- DISPATCH_ROUND: keys tried, oldest card first, unless the ready pool is full; held completions are paid, and HEAD
moves where it can (R34, R286, R302, R304, R352, R379). -/
def execDispatchRound (s : State) : Host.Outcome State Fault Refusal :=
  let s := s.applyMode
  let s := { s with dev := s.dev.startRound }
  let s :=
    if 1024 ≤ s.dev.readyCount then s
    else (sortBy s.dev.olderKey (s.dev.disp.cards.filter fun c => c.st = .keyWait)).foldl (fun s c => s.tryKeys c) s
  let s := s.payOwed.completeDrained
  let d := s.dev.disp.cards.foldl (fun d c => d.promote c) s.dev
  let d := ((d.queues.map Prod.fst).filter (· < 4096)).foldl (fun d id => d.settleHead id) d
  .next { s with dev := { d with disp := { d.disp with keysSeen := d.disp.keys } } }

/-! ### Dealing -/

/-- The scheduler window of DSCHED in cycles, over which R39 states a region's share (R34). -/
def Device.window (d : Device) : Nat := 2 ^ max 16 (min 30 (bfld d.plat.dschedEff 32 8))

/-- Cores that a node's subtree occupies (R23). -/
def State.occupied (s : State) (i : Nat) : Nat :=
  (s.busyCores.filter fun n => inSubtree s.dev.disp.rcbs (s.coreAt n).region i).length
/-- Every node on a region's path occupies fewer cores than its budget (R23, R28). -/
def State.withinBudget (s : State) (region : Nat) : Bool :=
  (rcbPath s.dev.disp.rcbs region).all fun i => s.occupied i < effMaxc s.dev.disp.rcbs i
/-- Cores that runs of a card occupy. -/
def State.cardCores (s : State) (c : Card) : Nat :=
  (s.busyCores.filter fun n => (s.coreAt n).run.any fun r => r.qid = c.qid && r.ctr = c.ctr).length

/-- The card has a chunk to deal: one awaiting re-dealing, or records not yet dealt (R25, R28). -/
def Card.toDeal (c : Card) : Bool := (c.st = .ready || c.st = .draining) && (c.redeal != [] || c.next < cardCount c.bytes)
/-- A chunk of a card may be dealt to a core of class `svc` now. -/
def State.dealable (s : State) (svc : Bool) (c : Card) : Bool :=
  c.toDeal && cardService c.bytes == svc && s.withinBudget c.region && s.cardCores c < c.cap

/-- The child with work whose virtual time is least, the lower index first (R33). -/
def Device.leastChild (d : Device) (k i : Nat) (regions : List Nat) : Option Nat :=
  let t := d.disp.rcbs
  let kids := (t.map Prod.fst).filter fun j =>
    j ≠ 0 && rcbValid t j && rcbParent t j = i && regions.any fun r => inSubtree t r j
  kids.foldl (fun best j =>
    match best with
    | none => some j
    | some b => if d.vtime j k < d.vtime b k then some j else some b) none

/-- The region chosen by descending the tree from a node (R33). -/
def Device.descend (d : Device) (k : Nat) (regions : List Nat) : Nat → Nat → Nat
  | 0, i => i
  | n + 1, i =>
    if regions.contains i then i
    else match d.leastChild k i regions with
      | some j => d.descend k regions n j
      | none => i

/-- The card to be dealt to a core of class `svc`: the highest class, the region by descent, in it a chunk of a killed
run first and then the order of entry (R33). -/
def State.chooseCard (s : State) (svc : Bool) : Option Card :=
  let t := s.dev.disp.rcbs
  let l := s.dev.disp.cards.filter fun c => s.dealable svc c
  let k := l.foldl (fun m c => max m (effClass t c.region)) 0
  let l := l.filter fun c => effClass t c.region = k
  let r := s.dev.descend k (l.map Card.region) 8 0
  let l := sortBy (fun a b => a.rdOrder < b.rdOrder) (l.filter fun c => c.region = r)
  (l.find? fun c => c.redeal != []) <|> l.head?

/-- Size of the next chunk (R28). -/
def Card.chunk (c : Card) (m : Nat) : Nat :=
  let remaining := cardCount c.bytes - c.next
  min (max m (cdiv remaining (2 * c.cap))) remaining

/-- The operand identities a card declares (R282). -/
def Card.ops (c : Card) : List Word := (List.range (cardNops c.bytes)).map fun i => depOp c.deps i
/-- A chunk of a card dealt to core `n`: one awaiting re-dealing, else the next (R28). DESIGN CHOICE (log 134): of several that
await re-dealing, the one killed first. -/
def State.deal (s : State) (n : Nat) (c : Card) : State :=
  let (first, count, c1) :=
    match c.redeal with
    | (f, k) :: r => (f, k, { c with redeal := r, live := c.live + 1 })
    | [] =>
      let k := c.chunk (effMinchunk s.dev.disp.rcbs c.region)
      (c.next, k, { c with next := c.next + k, live := c.live + 1 })
  let c1 := { c1 with st := if c1.next < cardCount c.bytes then c1.st else .draining }
  let d := s.dev.setCard c1
  let d := { d with disp := { d.disp with opsOf := tset [] d.disp.opsOf (n / 8) c.ops,
                                          reservedFor := terase d.disp.reservedFor n } }
  { s with dev := d }.startRun n c1 first count

/-- Cores of a class that hold no run, in ascending number. -/
def State.freeCores (s : State) (svc : Bool) : List Nat :=
  (List.range 132).filter fun n => (decide (128 ≤ n)) == svc && (s.coreAt n).run.isNone

/-- The core a chunk goes to when several are free: one whose group last ran a card of the same operand (R28); the
lowest in deterministic mode (R353). -/
def State.placeFor (s : State) (n : Nat) (c : Card) : Nat :=
  let free := (s.freeCores (128 ≤ n)).filter fun m => (tfind s.dev.disp.reservedFor m).isNone
  if s.dev.plat.mode.getLsbD 1 then free.headD n
  else (free.find? fun m => (tget [] s.dev.disp.opsOf (m / 8)).any fun o => c.ops.contains o).getD n

/-- The checkpointed run to resume on a core of class `svc`: the highest class (R33). DESIGN CHOICE (log 135): of several of
one class, the longest checkpointed. -/
def State.chooseCkpt (s : State) (svc : Bool) : Option (Ckpt × Card) :=
  let t := s.dev.disp.rcbs
  let l := s.dev.disp.ckpts.filterMap fun k =>
    if k.service == svc && s.withinBudget k.run.region then
      (s.dev.findCard k.run.qid k.run.ctr).bind fun c => if s.cardCores c < c.cap then some (k, c) else none
    else none
  let m := l.foldl (fun m x => max m (effClass t x.1.run.region)) 0
  l.find? fun x => effClass t x.1.run.region = m

/-- The card a core is reserved for, while it is Ready (R36). -/
def Device.reservation (d : Device) (n : Nat) : Option Card :=
  (tfind d.disp.reservedFor n).bind fun x => (d.findCard x.1 x.2).filter fun c => c.st = .ready
/-- A free core given what it runs next: what it is reserved for, a checkpointed run, or a chunk (R33, R36). -/
def State.giveCore (s : State) (n : Nat) : State :=
  let svc := decide (128 ≤ n)
  match s.dev.reservation n with
  | some c => if s.dealable svc c then s.deal n c else s
  | none =>
    let s := { s with dev := { s.dev with disp := { s.dev.disp with reservedFor := terase s.dev.disp.reservedFor n } } }
    match s.chooseCkpt svc with
    | some (k, c) => s.resumeRun n k c
    | none =>
      match s.chooseCard svc with
      | some c => s.deal (s.placeFor n c) c
      | none => s

/-- DISPATCH_CORE: nothing when core `n` is not free (R33). -/
def execDispatchCore (n : Nat) (s : State) : Host.Outcome State Fault Refusal :=
  .next (if n < 132 && (s.coreAt n).run.isNone then s.giveCore n else s)

/-! ### Pre-emption -/

/-- DRAINMAX in cycles (R34). -/
def Device.drainMax (d : Device) : Nat := bfld d.plat.dschedEff 48 16 * 1024

/-- The run on core `n` may be pre-empted for card `c` of class `k`: it is of a lower class and on a core of the card's
class, it is not being taken off already, and the budgets allow the core to change hands (R35). -/
def State.preemptible (s : State) (c : Card) (k n : Nat) : Bool :=
  let t := s.dev.disp.rcbs
  match (s.coreAt n).run with
  | none => false
  | some r =>
    decide (128 ≤ n) == cardService c.bytes && effClass t r.region < k && r.drain.isNone && (s.coreAt n).stopping.isNone
      && (rcbPath t c.region).all fun i =>
        s.occupied i - (inSubtree t r.region i).toNat < effMaxc t i

/-- The candidate: the lowest class, then the most recently dealt, the higher core at a tie (R35). -/
def State.candidate (s : State) (c : Card) (k : Nat) : Option (Nat × Run) :=
  let t := s.dev.disp.rcbs
  (s.busyCores.filter fun n => s.preemptible c k n).foldl (fun best n =>
    match (s.coreAt n).run, best with
    | none, _ => best
    | some r, none => some (n, r)
    | some r, some (_, b) =>
      if effClass t r.region < effClass t b.region
          || (effClass t r.region = effClass t b.region && b.order ≤ r.order) then some (n, r) else best) none

/-- Cores that are already on their way to a card: reserved for it, or with a run that is drained, checkpointed or killed for
it (R35). -/
def State.coming (s : State) (c : Card) : Nat :=
  let mine := fun (x : Nat × BitVec 32) => x.1 = c.qid && x.2 = c.ctr
  (s.dev.disp.reservedFor.filter fun e => mine e.2).length
    + (s.busyCores.filter fun n =>
        (s.coreAt n).run.any fun r => (r.drain.any fun x => mine x.2) || r.taker.any mine).length

/-- Core `n` marked with how its run is to be taken off. -/
def State.stopRun (s : State) (n : Nat) (h : Halting) : State :=
  s.setCoreAt n { s.coreAt n with stopping := some h }
/-- The run on core `n` to be taken off for a card (R35). -/
def State.stopRunFor (s : State) (n : Nat) (r : Run) (c : Card) (h : Halting) : State :=
  s.setCoreAt n { s.coreAt n with stopping := some h, run := some { r with taker := some (c.qid, c.ctr) } }
/-- The run on core `n` to be drained for a card (R35). -/
def State.drainRun (s : State) (n : Nat) (r : Run) (c : Card) : State :=
  let k := s.coreAt n
  s.setCoreAt n { k with run := some { r with drain := some (k.clock, c.qid, c.ctr) } }

/-- What is left of a run by its card's estimate (R35). -/
def State.remCycles (s : State) (n : Nat) (r : Run) : Nat :=
  let est := match s.dev.findCard r.qid r.ctr with | some k => cardEst k.bytes | none => 0
  est * 1024 * r.count.toNat - (s.coreAt n).runcyc.toNat

/-- Tokens held by a region (R301). -/
def Device.tokens (d : Device) (i : Nat) : Nat := rcbF d.rcbs i 0x1E 0 16

/-- The first action of R35 that applies to the run on core `n`; none keeps the token. -/
def State.preempt (s : State) (c : Card) (n : Nat) (r : Run) : Option State :=
  let det := s.dev.plat.mode.getLsbD 1
  if 1 ≤ effPclass s.dev.disp.rcbs r.region && s.remCycles n r ≤ s.dev.drainMax && !det then some (s.drainRun n r c)
  else if s.mayCkpt (s.coreAt n) r then some (s.stopRunFor n r c (.ckpt none))
  else if s.dev.mayKill r then some (s.stopRunFor n r c .kill)
  else none

/-- A card is a pre-empting card: Ready, with a chunk to deal and no free core of its class, and it may use more cores
than are coming to it (R35). -/
def State.preempting (s : State) (c : Card) : Bool :=
  c.st = .ready && c.toDeal && (s.freeCores (cardService c.bytes)).isEmpty && s.cardCores c + s.coming c < c.cap

/-- PREEMPTION_DECISION for one core and the card `qid`, `ctr`: a token of its region is spent when an action is taken
(R35). -/
def execPreemptionDecision (qid ctr : Nat) (s : State) : Host.Outcome State Fault Refusal :=
  .next (match s.dev.findCard qid (BitVec.ofNat 32 ctr) with
    | none => s
    | some c =>
      if s.preempting c && s.dev.tokens c.region ≠ 0 then
        match s.candidate c (effClass s.dev.disp.rcbs c.region) with
        | none => s
        | some (n, r) =>
          match s.preempt c n r with
          | some s1 => { s1 with dev := s1.dev.rcbPut c.region 0x1E 2 (s1.dev.tokens c.region - 1) }
          | none => s
      else s)

/-- DRAIN_TIMEOUT: a drained run still there after twice DRAINMAX is checkpointed, else killed, where it may be (R36). -/
def execDrainTimeout (n : Nat) (s : State) : Host.Outcome State Fault Refusal :=
  .next (match (s.coreAt n).run with
    | none => s
    | some r =>
      match r.drain with
      | none => s
      | some (t, _, _) =>
        if (s.coreAt n).stopping.isNone && t + 2 * s.dev.drainMax ≤ (s.coreAt n).clock then
          if s.mayCkpt (s.coreAt n) r then s.stopRun n (.ckpt none)
          else if s.dev.mayKill r then s.stopRun n .kill
          else s
        else s)

/-- TOKEN_REFILL: what a region's bucket gains in `cycles`, up to its depth (R35). DESIGN CHOICE (log 136): what is less than a
whole token is lost. -/
def execTokenRefill (rcb cycles : Nat) (s : State) : Host.Outcome State Fault Refusal :=
  let d := s.dev
  .next (if rcbValid d.rcbs rcb then
    let t := d.disp.rcbs
    { s with dev := d.rcbPut rcb 0x1E 2 (min (effTdepth t rcb) (d.tokens rcb + effTrate t rcb * cycles / 65536)) }
  else s)

/-! ### Walkers -/

/-- PAGE_WALK: D is set, an absent page is posted once and held, a translation fills the TLB of the core's group (R295,
R308, R309). -/
def execPageWalk (rcb va : Nat) (kind : BitVec 2) (agent core : Nat) (s : State) : Host.Outcome State Fault Refusal :=
  let d := s.dev
  let k := kind.toNat
  let fill := fun (s : State) (l : Nat) (p : Word) =>
    if core < 132 then s.onCore core fun s => s.tlbFill (tenantOf d.rcbs rcb) va l p else s
  .next (match d.walkIn rcb va k with
      | .ok p _ l => fill s l p
      | .dirty p a l => fill { s with dev := d.setD a } l (setBit p 9 true)
      | .fail .. => s
      | .absent _ a _ =>
        let open1 := d.holds.any fun h => h.core = core && h.rcb = rcb && h.va = va && h.kind = k && h.agent = agent
        if open1 then s else { s with dev := d.postFault rcb va k agent core a 0 })

/-- The access held under a FID answered by the page queue: replay, or fail (R295). -/
def Device.answer (d : Device) (fid : BitVec 32) (fail : Bool) : Device :=
  { d with holds := d.holds.map fun x => if x.posted && x.fid = fid then { x with failed := some fail } else x }
/-- A held access answered with a replay: it walks again, and one still absent is posted anew (R295). -/
def Device.replay (d : Device) (h : Held) : Device :=
  match d.walkIn h.rcb h.va h.kind with
  | .absent _ a _ => (d.dropHold h.fid).postFault h.rcb h.va h.kind h.agent h.core a h.op
  | _ => d.answer h.fid false

/-- A page-queue entry carried out: replay, fail, or an event where it names no held access or breaks its format, the FID of
an access that a failing domain abandoned among them (R295, R373, R377). -/
def Device.pageEntry (d : Device) (b : List Byte) : Device :=
  let fid := BitVec.ofNat 32 (ofBytes (b.take 4))
  let act := ofBytes ((b.drop 4).take 1)
  match d.holds.find? fun h => h.posted && h.fid = fid && h.failed = none with
  | some h =>
    if (b.drop 5).any (· != 0) || 1 < act then d.event (.badPage fid)
    else if act = 0 then d.replay h
    else d.answer fid true
  | none => d.event (.badPage fid)

/-- PAGE_QUEUE_ENTRY: the next published entry of the page queue consumed; nothing when there is none. What the QC and the
dispatcher were waiting for goes on where it can (R295, R379). -/
def execPageQueueEntry (s : State) : Host.Outcome State Fault Refusal :=
  let q := tget .off s.dev.queues pageQ
  if !(q.en && q.cclaim != q.tail) then .next s
  else
    let va := q.entryVa pageQ q.cclaim
    match s.dev.hwWaits opPage [(q.region, va, 0)] with
    | (true, d) => .next { s with dev := d }
    | (false, d) =>
      match d.hwRead q.region va 16 with
      | none => .next { s with dev := (d.queueFailed pageQ q.cclaim (d.hwOutcome q.region va 0)).hwForget opPage }
      | some b =>
        let d := d.setQueue pageQ { q with cclaim := q.cclaim + 1, head := q.head + 1 }
        .next ({ s with dev := (d.pageEntry b).postWaiting.hwForget opPage }.checkCards.payOwed.completeDrained)

end Sys2Proof.Machine
end

