-- ==== Sys2Proof/Machine/Distiller.lean ====
section
/-! DEFINITION. The Distiller lanes (R13, R294, R318, R319). -/

namespace Sys2Proof.Machine

/-! ### The transition table -/

/-- `n` bytes of lane `k`'s table (R318). -/
def Device.dltNum (d : Device) (k off n : Nat) : Nat :=
  ofBytes ((List.range n).map fun i => tget 0 d.dlt (65536 * k + off + i))
/-- Transition of a state on an input byte (R318). -/
def Device.transition (d : Device) (k st : Nat) (b : Byte) : Nat :=
  d.dltNum k (0x200 + 4 * (st * d.dltNum k 0x102 2 + d.dltNum k b.toNat 1)) 4

/-- The groups of a base-128 varint, low group first; at most `n` (R319). -/
def varint : Nat → Nat → List Byte
  | 0, _ => []
  | n + 1, x => if x < 128 then [BitVec.ofNat 8 x] else BitVec.ofNat 8 (128 + x % 128) :: varint n (x / 128)

/-- A lane in the course of an entry. -/
structure LaneRun where
  st : Nat
  acc : BitVec 32
  sh : Nat
  out : List Byte
  used : Nat
  status : Nat
  deriving DecidableEq, Repr

/-- What an ACT emits, and ACC and SH after it (R319). -/
def laneAct (act l : Nat) (b : Byte) (acc : BitVec 32) (sh : Nat) : List Byte × BitVec 32 × Nat :=
  match act with
  | 1 => ([BitVec.ofNat 8 l], acc, sh)
  | 2 => ([b], acc, sh)
  | 3 => ([], acc ||| ((b &&& 0x7F).setWidth 32 <<< sh), min (sh + 7) 35)
  | 4 => (bytesOf 4 acc.toNat, 0, 0)
  | 5 => ([], acc + 1, sh)
  | 6 => (varint 5 acc.toNat, 0, 0)
  | 7 => ([], acc <<< 8 ||| b.setWidth 32, sh)
  | 8 => ([], 0, 0)
  | _ => ([], acc, sh)

/-- A lane over its input bytes, each with its poison (R294, R319). -/
def Device.laneLoop (d : Device) (k outlim : Nat) : List (Byte × Bool) → LaneRun → LaneRun
  | [], r => r
  | (b, bad) :: rest, r =>
    if bad then { r with status := 4 }
    else
      let t := d.transition k r.st b
      let (o, acc, sh) := laneAct (fld t 12 4) (fld t 16 8) b r.acc r.sh
      if outlim < r.out.length + o.length then { r with status := 1 }
      else
        let r := { r with st := fld t 0 12, acc, sh, out := r.out ++ o, used := r.used + 1 }
        if fld t 12 4 = 9 then { r with status := 2 } else d.laneLoop k outlim rest r

/-! ### Entries -/

/-- Fields of a lane-queue entry (R294). -/
def laneIn (x : BitVec 512) : Nat := f512 x 0 0 64
def laneOut (x : BitVec 512) : Nat := f512 x 8 0 64
def laneInlen (x : BitVec 512) : Nat := f512 x 0x10 0 16
def laneOutlim (x : BitVec 512) : Nat := f512 x 0x12 0 16
def laneDone (x : BitVec 512) : Nat := f512 x 0x18 0 64

/-- The reserved fields of an entry are 0 and its lengths lie in their ranges (R294). -/
def laneOk (x : BitVec 512) : Bool :=
  f512 x 0x14 12 3 = 0 && f512 x 0x16 0 16 = 0 && f512 x 0x20 0 192 = 0 && laneInlen x ≤ 4096 && laneOutlim x ≤ 4096
    && doneOk (laneDone x)

/-- `[a, a + n)` lies within one 4 KiB block. -/
def inBlock (a n : Nat) : Bool := n = 0 || a / 4096 = (a + n - 1) / 4096

/-- Where a range of an entry lies: physical address and PTE; or the status that ends the entry, 3 for another channel
and 5 for no translation (R294). An empty range lies nowhere. -/
def Device.lanePlace (d : Device) (k region va n kind : Nat) : Except Nat (Nat × Word × Device) :=
  if n = 0 then .ok (0, 0, d)
  else if !inBlock va n then .error 3
  else
    match d.walkIn region va kind with
    | .ok p _ l => if channelOf (pagePa p l va) = k then .ok (pagePa p l va, p, d) else .error 3
    | .dirty p a l => if channelOf (pagePa p l va) = k then .ok (pagePa p l va, p, d.setD a) else .error 3
    | _ => .error 5

/-- The entry with its RESULT in place (R294). -/
def withResult (x : BitVec 512) (r : LaneRun) : BitVec 512 :=
  setBits x 0x1C0 64 (r.out.length + 2 ^ 16 * r.used + 2 ^ 32 * r.st + 2 ^ 44 * r.status)

/-- A lane's state at the start of an entry (R294, R319). -/
def Lane.begin (l : Lane) (x : BitVec 512) : LaneRun :=
  if f512 x 0x14 15 1 = 1 then { st := l.st.toNat, acc := l.acc, sh := l.sh.toNat, out := [], used := 0, status := 0 }
  else { st := f512 x 0x14 0 12, acc := 0, sh := 0, out := [], used := 0, status := 0 }

/-- The run of an entry by lane `k`: the output bytes are written from OUT (R294). -/
def Device.laneRun (d : Device) (k region : Nat) (x : BitVec 512) (r : LaneRun) : LaneRun × Device :=
  if !laneOk x then ({ r with status := 3 }, d)
  else
    match d.lanePlace k region (laneIn x) (laneInlen x) 0 with
    | .error e => ({ r with status := e }, d)
    | .ok (ia, ip, d) =>
      match d.lanePlace k region (laneOut x) (laneOutlim x) 1 with
      | .error e => ({ r with status := e }, d)
      | .ok (oa, op, d) =>
        if d.dltNum k 0x100 2 ≤ r.st then ({ r with status := 2 }, d)
        else
          let b := (List.range (laneInlen x)).map fun i => d.read1 (some ip) (ia + i)
          let r := d.laneLoop k (laneOutlim x) b r
          (r, if r.out = [] then d else d.write (some op) oa r.out fun _ => false)

/-- Accesses of an entry's ranges. -/
def laneAccess (region : Nat) (x : BitVec 512) : List (Nat × Nat × Nat) :=
  if laneOk x then
    (if laneInlen x = 0 then [] else [(region, laneIn x, 0)]) ++ (if laneOutlim x = 0 then [] else [(region, laneOut x, 1)])
  else []

/-- DISTILLER_LANE_ENTRY: lane `k` takes its next entry, unless it is within one; held accesses are waited for (R294,
R379). -/
def execDistillerLaneEntry (k : Nat) (s : State) : Host.Outcome State Fault Refusal :=
  let id := 3 * 4096 + k
  let q := s.dev.jobQ id
  let lane := tget .idle s.dev.lanes k
  if !(k < 128 && q.en && q.cclaim != q.tail && lane.busy.isNone) then .next s
  else
    let va := q.entryVa id q.cclaim
    match s.dev.hwWaits (opLane k) [(q.region, va, 0)] with
    | (true, d) => .next { s with dev := d }
    | (false, d) =>
      match d.hwRead q.region va 64 with
      | none => .next { s with dev := (d.queueFailed id q.cclaim (d.hwOutcome q.region va 0)).hwForget (opLane k) }
      | some b =>
        let x := BitVec.ofNat 512 (ofBytes b)
        match d.hwWaits (opLane k) (laneAccess q.region x) with
        | (true, d) => .next { s with dev := d }
        | (false, d) =>
          let (r, d) := d.laneRun k q.region x (lane.begin x)
          let d := d.hwForget (opLane k)
          let d := d.setQueue id { q with cclaim := q.cclaim + 1 }
          let lane := { lane with st := BitVec.ofNat 12 r.st, acc := r.acc, sh := BitVec.ofNat 8 r.sh, 
                                  busy := some { ctr := q.cclaim, region := q.region, va, bytes := withResult x r } }
          .next { s with dev := { d with lanes := tset .idle d.lanes k lane } }

/-- The lane free, and HEAD past the entry of counter `ctr` where it stands there still: a reload may have moved it. A queue
that has been disabled meanwhile stops there, and has its counters written back (R281, R294). -/
def Device.laneLeave (d : Device) (k : Nat) (ctr : BitVec 32) : Device :=
  let id := 3 * 4096 + k
  let d := { d with lanes := tset .idle d.lanes k { tget (α := Lane) .idle d.lanes k with busy := none } }
  let q := d.jobQ id
  if q.head = ctr && q.head ≠ q.cclaim then
    let q := { q with head := q.head + 1 }
    let d := d.setQueue id q
    if q.en then d else d.backCounters id q
  else d

/-- DISTILLER_LANE_COMPLETION: RESULT is written into the entry the lane is within, the event posted, DONE made, HEAD moved, in
this order, once none of it is held; nothing when the lane is within no entry (R294, R379). -/
def execDistillerLaneCompletion (k : Nat) (s : State) : Host.Outcome State Fault Refusal :=
  let id := 3 * 4096 + k
  match (tget .idle s.dev.lanes k).busy with
  | none => .next s
  | some j =>
    let va := j.va + 0x38
    let done := if doneOk (laneDone j.bytes) then laneDone j.bytes else 0
    match s.dev.hwWaits (opLane k) ((j.region, va, 1) :: doneAccess j.region done) with
    | (true, d) => .next { s with dev := d }
    | (false, d) =>
      match d.hwWrite j.region va (bytesOf 8 (f512 j.bytes 0x38 0 64)) with
      | none =>
        let d := d.queueFailed id j.ctr (d.hwOutcome j.region va 1)
        .next { s with dev := ({ d with lanes := tset .idle d.lanes k { tget (α := Lane) .idle d.lanes k with busy := none } }).hwForget
                         (opLane k) }
      | some d =>
        let s := { s with dev := d.event (.laneDone k) }.signalDone
          { region := j.region, qid := id, ctr := j.ctr, done, status := 0, reason := 0 }
        .next { s with dev := (s.dev.laneLeave k j.ctr).hwForget (opLane k) }

end Sys2Proof.Machine
end

