-- ==== Sys2Proof/Machine/Me.lean ====
section
/-! DEFINITION. The matrix engine: ACCZ, ACCLD, ACCST, MMA, MMA.SP and MMA.D (R42, R56, R57, R153 to R167, R173). -/

namespace Sys2Proof.Machine

/-! ### Elements and products -/

/-- The format a raw code names (R80). -/
def codeFmt (n : BitVec 4) : Option Fmt :=
  match n.toNat with
  | 0 => some .bf16
  | 1 => some .f16
  | 2 => some .e4m3
  | 3 => some .e5m2
  | 4 => some .int8
  | 5 => some .uint8
  | 6 => some .td8
  | 7 => some .e3m2
  | 8 => some .e2m3
  | 9 => some .e2m1
  | 10 => some .int4
  | 11 => some .fp32
  | _ => none

/-- Value of an element code, its scale apart (R40). -/
def Fmt.elem (f : Fmt) (x : Nat) : FVal :=
  match Fmt.ffmt f with
  | some k => k.val x
  | none => match f with
    | .uint8 => ofInt x
    | _ => ofInt (sint x (Fmt.bits f))
/-- The value under an E8M0 scale (R42). -/
def scaleVal (v : FVal) (e : Nat) : FVal := if e = 0xFF then .nan else v.shift (e - 127)

/-- The format takes scales as an operand (R42, R154). -/
def Fmt.blockScaled (f : Fmt) : Bool := (Fmt.emax f).isSome
/-- The accumulator type of an operand format is INT32 (R158). -/
def Fmt.intAcc (f : Fmt) : Bool := f = .int8 || f = .uint8 || f = .int4
/-- K of a format's shapes (R154). -/
def Fmt.k (f : Fmt) : Nat :=
  match f with
  | .bf16 => 32
  | .f16 => 32
  | .e3m2 => 128
  | .e2m3 => 128
  | .e2m1 => 128
  | .int4 => 128
  | .fp32 => 16
  | _ => 64
/-- Bytes of a dense operand row, and of its scales (R154). -/
def Fmt.rowBytes (f : Fmt) : Nat := Fmt.k f * Fmt.bits f / 8
def Fmt.scaleBytes (f : Fmt) : Nat := if Fmt.blockScaled f then Fmt.k f / 32 else 0

/-- The pairings of R158. -/
def pairing (a b : Fmt) : Bool :=
  match a with
  | .bf16 => b = .bf16
  | .f16 => b = .f16
  | .e4m3 => b = .e4m3 || b = .e5m2
  | .e5m2 => b = .e4m3 || b = .e5m2
  | .int8 => b = .int8 || b = .uint8
  | .uint8 => b = .int8 || b = .uint8
  | .td8 => b = .int8 || b = .td8
  | .e3m2 => b = .e3m2 || b = .e2m3 || b = .e2m1
  | .e2m3 => b = .e3m2 || b = .e2m3 || b = .e2m1
  | .e2m1 => b = .e3m2 || b = .e2m3 || b = .e2m1
  | .int4 => b = .int4
  | .fp32 => b = .fp32

/-! ### The K-step -/

/-- |p| truncated at 2^t, with its sign, in units of 2^t (R56). -/
def truncAt (t : Int) (v : FVal) : Int :=
  match v with
  | .fin s m e =>
    let n : Int := if t ≤ e then m * 2 ^ (e - t).toNat else m / 2 ^ (t - e).toNat
    if s then -n else n
  | _ => 0

/-- The K-step of an FP32 accumulator (R56). DEDUCED (log 104): a step of MMA.D whose A elements are all zero is taken as
R56 says, which a NaN scale of B or a NaN in the accumulator makes NaN, for R162 has omission change timing only. -/
def kstepF (acc : BitVec 32) (ps : List FVal) : BitVec 32 :=
  let a := fp32.val acc.toNat
  let pos := ps.any (· = .inf false)
  let neg := ps.any (· = .inf true)
  if a.isNan || ps.any FVal.isNan || (pos && neg) then 0x7FC00000
  else if pos || neg then BitVec.ofNat 32 (fp32.conv .rne true (a.add .rne (.inf neg)))
  else
    match maxExp ps with
    | none => acc
    | some k =>
      let t := k - 40
      let n := ps.foldl (fun n p => n + truncAt t p) 0
      if n = 0 then acc
      else BitVec.ofNat 32 (fp32.conv .rne true (a.add .rne (.fin (n < 0) n.natAbs t)))

/-- The K-step of an INT32 accumulator: the new value, and whether it was clamped (R56). -/
def kstepI (acc : BitVec 32) (ps : List FVal) : BitVec 32 × Bool :=
  let n := acc.toInt + ps.foldl (fun n p => n + truncAt 0 p) 0
  let c := max (-2 ^ 31) (min (2 ^ 31 - 1) n)
  (BitVec.ofInt 32 c, c != n)

/-- The high and low part of an FP32 operand (R57). -/
def split (x : Nat) : FVal × FVal :=
  match fp32.val x with
  | .nan => (.nan, .fin false 0 0)
  | .inf s => (.inf s, .fin false 0 0)
  | v =>
    let hi := fp32.val (x / 65536 * 65536)
    (hi, bf16.val (bf16.conv .rne true (v.add .rne hi.neg)))
/-- A product of which a low part is a factor; omitted when that part is 0 (R57). -/
def lowProd (lo v : FVal) : List FVal := if lo.isZero then [] else [lo.mul v]
/-- The products of two FP32 operands (R57). -/
def prods32 (a b : Nat) : List FVal :=
  let (ah, al) := split a
  let (bh, bl) := split b
  ah.mul bh :: (lowProd bl ah ++ lowProd al bh)

/-! ### Operands as they are read -/

/-- A row of bytes, each with its poison. -/
abbrev RowBytes := List (Byte × Bool)

/-- Element `i` of `w` bits of a packed row (R41). -/
def elAt (w : Nat) (b : RowBytes) (i : Nat) : Nat :=
  ofBytes (((b.drop (w * i / 8)).take 3).map (·.1)) / 2 ^ (w * i % 8) % 2 ^ w
/-- Element `i` of 32 bits. -/
def wordAt (b : RowBytes) (i : Nat) : Nat := ofBytes (((b.drop (4 * i)).take 4).map (·.1))
/-- A byte of `[lo, lo + n)` is poisoned. -/
def badIn (b : RowBytes) (lo n : Nat) : Bool := ((b.drop lo).take n).any (·.2)

/-- An operand row: its elements' bytes, its scales, and the elements the K-step `s` takes from it. -/
structure OpRow where
  data : RowBytes
  scales : RowBytes
  deriving DecidableEq, Repr

/-- The element of code `i`, whose place along K is `k` (R42). -/
def OpRow.val (r : OpRow) (f : Fmt) (i k : Nat) : FVal :=
  let v := Fmt.elem f (elAt (Fmt.bits f) r.data i)
  if Fmt.blockScaled f then scaleVal v (r.scales.getD (k / 32) (0, false)).1.toNat else v
/-- A byte of K-step `s` of the row is poisoned; `half` says that the row holds half the elements (R161, R167). -/
def OpRow.bad (r : OpRow) (f : Fmt) (half : Bool) (s : Nat) : Bool :=
  let n := Fmt.bits f * 2 / (if half then 2 else 1)
  badIn r.data (n * s) n || (Fmt.blockScaled f && badIn r.scales (s / 2) 1)

/-- Products of K-step `s` of an A row and a B row, both dense (R57, R160). -/
def denseProds (fa fb : Fmt) (a b : OpRow) (s : Nat) : List FVal :=
  (List.range 16).flatMap fun t =>
    let k := 16 * s + t
    if fa = .fp32 then prods32 (wordAt a.data k) (wordAt b.data k)
    else [(a.val fa k k).mul (b.val fb k k)]

/-- Products of K-step `s` of a 2:4 A row and a B row; `m` is the A row's metadata (R161). -/
def sparseProds (fa fb : Fmt) (a b : OpRow) (m : RowBytes) (s : Nat) : List FVal :=
  (List.range 4).flatMap fun u =>
    let g := 4 * s + u
    let nib := elAt 4 m g
    let k0 := 4 * g + nib % 4
    let k1 := 4 * g + nib / 4
    [(a.val fa (2 * g) k0).mul (b.val fb k0 k0), (a.val fa (2 * g + 1) k1).mul (b.val fb k1 k1)]

/-! ### ACCZ, ACCLD, ACCST -/

/-- Bits of AccOp no command of the three uses (R164). -/
def AccOp.rsvOk (o : AccOp) : Bool :=
  o.rsvA = 0 && o.rsvB = 0 && o.rsvC = 0 && o.rsvD = 0 && o.rsvE = 0 && o.rsvF = 0
/-- Speculation conflict of R163. -/
def Ctx.noSpec (x : Ctx) (k : Nat) : M Unit := do x.need (!(← get).core.acc.sv k) 4

/-- ME cycles performing K-steps (R343). -/
def State.meCycles (s : State) (n : Nat) : State := s.count 3 n

/-- ACCZ (R163, R164). -/
def execAccz (h : CmdHdr) (o : AccOp) (s : State) : Host.Outcome State Fault Refusal :=
  runCommand .me 0x01 h (fun x => do
    x.header (AccOp.rsvOk o && o.lfmt = 0 && o.ca = 0 && o.swa = 0 && !o.swae && o.offa = 0 && o.stra = 0)
    let k := o.acc.toNat
    x.noSpec k
    act fun s => s.modAcc fun t =>
      let t := { t with elems := tclear t.elems (2048 * k) (2048 * k + 2048) }
      (t.setFlags k (setBit (setBit (t.flags k) 0 o.ty) 1 false)).setPoison false k 0) s

/-- Bytes of a row of ACCLD and ACCST (R164). -/
def AccOp.rowBytes (o : AccOp) : Nat := if o.lfmt = 0 then 128 else 64
/-- The rows of ACCLD and ACCST, from the address of row 0 (R164). -/
def AccOp.ranges (o : AccOp) (space a : Nat) (sw : Option (BitVec 32)) : List Rng :=
  (List.range 64).map fun r => { space, a := a + 16 * o.stra.toNat * r, n := AccOp.rowBytes o, sw }

/-- What ACCLD and ACCST check alike before their own state: fields and capability (R153, R164). -/
def Ctx.accMove (x : Ctx) (o : AccOp) (perm : Nat) : M Nat := do
  x.header (AccOp.rsvOk o && o.lfmt ≠ 3 && (o.swae || o.swa = 0))
  x.capAt o.ca (16 * o.offa.toNat) (16 * o.stra.toNat * 63 + AccOp.rowBytes o) (perm + permENG) 1 [0, 2]

/-- An element of a row of ACCLD: raw, or widened exactly (R164). -/
def AccOp.load (o : AccOp) (b : RowBytes) (j : Nat) : BitVec 32 :=
  match o.lfmt with
  | 1 => BitVec.ofNat 32 (fp32.conv .rne true (bf16.val (elAt 16 b j)))
  | 2 => BitVec.ofNat 32 (fp32.conv .rne true (fp16.val (elAt 16 b j)))
  | _ => BitVec.ofNat 32 (wordAt b j)
/-- An element as ACCST stores it (R49, R164). -/
def AccOp.store (o : AccOp) (v : BitVec 32) : List Byte :=
  match o.lfmt with
  | 1 => bytesOf 2 (bf16.conv .rne false (fp32.val v.toNat))
  | 2 => bytesOf 2 (fp16.conv .rne false (fp32.val v.toNat))
  | _ => bytesOf 4 v.toNat

/-- Ranges translated in order. -/
def Ctx.placeAll (x : Ctx) (kind : Nat) (l : List Rng) : M (List TRng) := l.mapM fun r => x.place kind r

/-- ACCLD (R164). -/
def execAccld (h : CmdHdr) (o : AccOp) (s : State) : Host.Outcome State Fault Refusal :=
  runCommand .me 0x02 h (fun x => do
    let k := o.acc.toNat
    let a ← x.accMove o permR
    x.need (o.lfmt = 0 || !o.ty) 3
    x.noSpec k
    x.need (!o.swae || x.space o.ca = 0) 5
    let l := AccOp.ranges o (x.space o.ca) a (x.swizzle o.swae o.swa)
    let t ← x.placeAll 0 l
    l.forM fun r => x.race false r
    act fun s =>
      let rows := t.map s.bytesIn
      s.modAcc fun c =>
        let c := upTo 64 (fun r c => upTo 32 (fun j c =>
          c.setEl false k r j (AccOp.load o (rows.getD r []) j)) c) c
        let p := upTo 64 (fun r p => setBit p r ((rows.getD r []).any (·.2))) (0 : Word)
        (c.setFlags k (setBit (setBit (c.flags k) 0 (o.lfmt = 0 && o.ty)) 1 false)).setPoison false k p) s

/-- ACCST (R164). -/
def execAccst (h : CmdHdr) (o : AccOp) (s : State) : Host.Outcome State Fault Refusal :=
  runCommand .me 0x03 h (fun x => do
    let k := o.acc.toNat
    let a ← x.accMove o permW
    let c := (← get).core.acc
    x.need (if o.lfmt = 0 then o.ty = c.isInt false k else !o.ty && !c.isInt false k) 3
    x.need (!o.swae || x.space o.ca = 0) 5
    if c.poison false k ≠ 0 then
      x.stop { cause := .poison, info0 := BitVec.ofNat 64 k, info1 := x.seq.setWidth 64 }
    let l := AccOp.ranges o (x.space o.ca) a (x.swizzle o.swae o.swa)
    let t ← x.placeAll 1 l
    l.forM fun r => x.race true r
    act fun s =>
      let sink := s.sink x none
      (t.mapIdx fun r t => (r, t)).foldl (fun s p =>
        s.putIn sink p.2 (clean ((List.range 32).flatMap fun j => AccOp.store o (c.el false k p.1 j)))) s) s

/-! ### The MMA family -/

/-- Which command of the family (R80). -/
inductive MmaKind | dense | sparse | delta
  deriving DecidableEq, Repr

/-- A command with its shape worked out (R154, R155, R159). -/
structure Mma where
  kind : MmaKind
  o : MmaOp
  fa : Fmt
  fb : Fmt
  sh : Bool
  /-- rows of A, and rows of B -/
  m : Nat
  n : Nat
  deriving DecidableEq, Repr

/-- The command as its fields describe it; none when a format or pairing is not admitted (R158). -/
def mmaOf (kind : MmaKind) (h : CmdHdr) (o : MmaOp) : Option Mma :=
  match codeFmt o.fmt, codeFmt o.bfmt with
  | some fa, some fb =>
    if pairing fa fb then
      some { kind, o, fa, fb, sh := h.s, m := if o.shape = 0 then 64 else if o.shape = 1 then 32 else 16,
             n := if o.shape = 2 then 64 else 32 }
    else none
  | _, _ => none

/-- K, K-steps and L of a command (R154, R173). -/
def Mma.k (c : Mma) : Nat := Fmt.k c.fa
def Mma.steps (c : Mma) : Nat := c.k / 16
def Mma.cycles (c : Mma) : Nat :=
  let l := if c.fa = .fp32 then (if c.o.shape = 0 then 48 else 24) else if c.o.shape = 0 then 32 else 16
  if c.kind = .sparse then l / 2 else l
/-- Bytes of an A row. -/
def Mma.aBytes (c : Mma) : Nat := if c.kind = .sparse then Fmt.rowBytes c.fa / 2 else Fmt.rowBytes c.fa
/-- PRE of MMA.D, Z of the others (R160). -/
def Mma.pre (c : Mma) : Bool := c.kind = .delta && c.o.zpre
def Mma.zero (c : Mma) : Bool := c.kind ≠ .delta && c.o.zpre
/-- Bytes of a preload row. -/
def Mma.preBytes (c : Mma) : Nat := if c.o.pb then 64 else 128

/-- The next 16-byte boundary. -/
def up16 (n : Nat) : Nat := 16 * cdiv n 16
/-- Offsets of the parts of the X region, and its length; 0 when the command uses none (R159). -/
def Mma.ascOff (c : Mma) : Nat := if c.kind = .sparse then c.m * (c.k / 8) else 0
def Mma.bscOff (c : Mma) : Nat := up16 (up16 c.ascOff + c.m * Fmt.scaleBytes c.fa)
def Mma.preOff (c : Mma) : Nat := up16 (c.bscOff + c.n * Fmt.scaleBytes c.fb)
def Mma.xLen (c : Mma) : Nat :=
  if c.pre then c.preOff + 16 * c.o.strx.toNat * (c.m - 1) + c.preBytes
  else if Fmt.scaleBytes c.fb ≠ 0 then c.bscOff + c.n * Fmt.scaleBytes c.fb
  else if Fmt.scaleBytes c.fa ≠ 0 then up16 c.ascOff + c.m * Fmt.scaleBytes c.fa
  else c.ascOff

/-- Rules of the operand bits (R76, R155, R156). -/
def Mma.ok (c : Mma) : Bool :=
  let o := c.o
  o.rsv = 0 && (o.swae || o.swa = 0) && (o.swbe || o.swb = 0) && (o.shape ≠ 0 || !o.row0)
    && (c.pre || (!o.pb && o.strx = 0)) && (c.xLen ≠ 0 || (o.cx = 0 && o.offx = 0))

/-- Accumulator rows of A row `i` (R155). -/
def Mma.accRows (c : Mma) (i : Nat) : List Nat :=
  let r := (if c.o.row0 then 32 else 0) + i
  if c.o.shape = 2 then [r, r + 16] else [r]
/-- Where result (i, j) stands (R155). -/
def Mma.cell (c : Mma) (i j : Nat) : Nat × Nat :=
  let r := (if c.o.row0 then 32 else 0) + i
  if c.o.shape = 2 then (r + 16 * (j / 32), j % 32) else (r, j)

/-- Addresses of the operands once their capabilities have passed. -/
structure MmaAt where
  a : Nat
  b : Nat
  x : Nat
  deriving DecidableEq, Repr

/-- The checks at start, in the order of R378 (R153, R165). -/
def Ctx.mmaStart (x : Ctx) (c : Mma) : M MmaAt := do
  x.header c.ok
  let o := c.o
  let k := o.acc.toNat
  let a ← x.capAt o.ca (16 * o.offa.toNat) (16 * o.stra.toNat * (c.m - 1) + c.aBytes) (permR + permENG) 1 [0, 2]
  let b ← x.capAt o.cb (16 * o.offb.toNat) (16 * o.strb.toNat * (c.n - 1) + Fmt.rowBytes c.fb) (permR + permENG) 1
    [0, 2]
  let xa ← if c.xLen = 0 then pure 0 else
    x.capAt o.cx (16 * o.offx.toNat) c.xLen
      (permR + permENG + if c.kind = .sparse && x.space o.cx = 0 then permFE else 0) 1 [0, 2]
  let acc := (← get).core.acc
  x.need (c.zero || c.pre || acc.isInt (c.sh && acc.sv k) k = Fmt.intAcc c.fa) 3
  x.need (c.sh || !acc.sv k) 4
  x.need ((!o.swae || x.space o.ca = 0) && (!o.swbe || x.space o.cb = 0)) 5
  pure { a, b, x := xa }

/-- A range read by the ME: translated, race-checked, then its bytes (R153, R224). -/
def Ctx.meRead (x : Ctx) (r : Rng) : M RowBytes := do
  if r.n = 0 then pure []
  else
    let t ← x.place 0 r
    x.race false r
    pure ((← get).bytesIn t)

/-- A part of the X region, at an offset from its start. -/
def Ctx.meX (x : Ctx) (c : Mma) (p : MmaAt) (off n : Nat) : M RowBytes :=
  x.meRead { space := x.space c.o.cx, a := p.x + off, n, sw := none }

/-- The range of the metadata of A row `i` (R159). -/
def Ctx.mdRng (x : Ctx) (c : Mma) (p : MmaAt) (i : Nat) : Rng :=
  { space := x.space c.o.cx, a := p.x + c.k / 8 * i, n := c.k / 8, sw := none }
/-- The checks of the metadata of A row `i`, which are made with B's, before any row (R153, R166). -/
def Ctx.mdCheck (x : Ctx) (c : Mma) (p : MmaAt) (i : Nat) : M Unit := do
  let t ← x.place 0 (x.mdRng c p i)
  x.race false t.r
/-- In space 0 the metadata of A row `i` is waited for granule by granule until it is full (R161). -/
def Ctx.mdWait (x : Ctx) (c : Mma) (p : MmaAt) (i : Nat) : M Unit := do
  if x.space c.o.cx = 0 then
    let s ← get
    if (poolGran (p.x + c.k / 8 * i) (c.k / 8)).any fun g => !tget false s.core.pool.full g then holdOther
where
  /-- Granules of a pool range. -/
  poolGran (a n : Nat) : List Nat := (List.range (granCount a n)).map (a / 16 + ·)
/-- Metadata of A row `i`, once its block is reached (R161). -/
def Ctx.metadata (x : Ctx) (c : Mma) (p : MmaAt) (i : Nat) : M RowBytes := x.meX c p (c.k / 8 * i) (c.k / 8)

/-- B row `j` with its scales, which are read first (R157, R159; log 99). -/
def Ctx.bRow (x : Ctx) (c : Mma) (p : MmaAt) (j : Nat) : M OpRow := do
  let scales ← x.meX c p (c.bscOff + Fmt.scaleBytes c.fb * j) (Fmt.scaleBytes c.fb)
  let data ← x.meRead { space := x.space c.o.cb, a := p.b + 16 * c.o.strb.toNat * j, n := Fmt.rowBytes c.fb,
                        sw := x.swizzle c.o.swbe c.o.swb }
  pure { data, scales }
/-- A row `i` with its scales. -/
def Ctx.aRow (x : Ctx) (c : Mma) (p : MmaAt) (i : Nat) : M OpRow := do
  let scales ← x.meX c p (up16 c.ascOff + Fmt.scaleBytes c.fa * i) (Fmt.scaleBytes c.fa)
  let data ← x.meRead { space := x.space c.o.ca, a := p.a + 16 * c.o.stra.toNat * i, n := c.aBytes,
                        sw := x.swizzle c.o.swae c.o.swa }
  pure { data, scales }
/-- Preload row `i`, if there is one. -/
def Ctx.preRow (x : Ctx) (c : Mma) (p : MmaAt) (i : Nat) : M RowBytes :=
  if c.pre then x.meX c p (c.preOff + 16 * c.o.strx.toNat * i) c.preBytes else pure []

/-- What one A row of a block brings. -/
structure ARow where
  i : Nat
  a : OpRow
  md : RowBytes
  pre : RowBytes
  deriving DecidableEq, Repr

/-- Products of K-step `s` of an A row and B row `j`. -/
def Mma.prods (c : Mma) (r : ARow) (b : OpRow) (s : Nat) : List FVal :=
  if c.kind = .sparse then sparseProds c.fa c.fb r.a b r.md s else denseProds c.fa c.fb r.a b s

/-- A byte among the inputs of K-step `s` of an A row is poisoned (R167). -/
def Mma.badStep (c : Mma) (r : ARow) (bs : List OpRow) (s : Nat) : Bool :=
  r.a.bad c.fa (c.kind = .sparse) s || (bs.any fun b => b.bad c.fb false s)
    || (c.kind = .sparse && badIn r.md (2 * s) 2)
/-- K-steps a row takes before poison stops it (R167). -/
def Mma.goodSteps (c : Mma) (r : ARow) (bs : List OpRow) : Nat :=
  if r.pre.any (·.2) then 0 else ((List.range c.steps).find? fun s => c.badStep r bs s).getD c.steps
/-- The row ends poisoned. -/
def Mma.rowBad (c : Mma) (r : ARow) (bs : List OpRow) : Bool := r.pre.any (·.2) || c.goodSteps r bs < c.steps

/-- Element `j` of a preload row, widened exactly; a NaN so made is the canonical one (R46, R160). -/
def Mma.preEl (c : Mma) (b : RowBytes) (j : Nat) : BitVec 32 :=
  if c.o.pb then BitVec.ofNat 32 (fp32.conv .rne true (bf16.val (elAt 16 b j))) else BitVec.ofNat 32 (wordAt b j)

/-- One element stepped through `n` K-steps from `v`: its value, and whether it was clamped (R56). -/
def Mma.stepEl (c : Mma) (r : ARow) (b : OpRow) (n : Nat) (v : BitVec 32) : BitVec 32 × Bool :=
  upTo n (fun s p =>
    if Fmt.intAcc c.fa then
      let (w, o) := kstepI p.1 (c.prods r b s)
      (w, p.2 || o)
    else (kstepF p.1 (c.prods r b s), p.2)) (v, false)

/-- An A row applied to the accumulators (R160, R167). -/
def Mma.applyRow (c : Mma) (bs : List OpRow) (r : ARow) (t : Acc) : Acc :=
  let k := c.o.acc.toNat
  let n := c.goodSteps r bs
  let t := upTo c.n (fun j t =>
    let (row, col) := c.cell r.i j
    let v0 := if c.zero then 0 else if c.pre then c.preEl r.pre j else t.el c.sh k row col
    let (v, o) := c.stepEl r (bs.getD j { data := [], scales := [] }) n v0
    let t := t.setEl c.sh k row col v
    if o then t.setFlags k (setBit (t.flags k) (ovfBit c.sh) true) else t) t
  let bad := c.rowBad r bs
  (c.accRows r.i).foldl (fun t row =>
    let p := t.poison c.sh k
    if bad then t.setPoison c.sh k (setBit p row true)
    else if c.zero || c.pre then t.setPoison c.sh k (setBit p row false) else t) t

/-- The type that Z and PRE set as the first block is written (R160). -/
def Mma.setType (c : Mma) (t : Acc) : Acc :=
  let k := c.o.acc.toNat
  let ty := Fmt.intAcc c.fa
  if !(c.zero || c.pre) || t.isInt c.sh k = ty then t
  else t.setFlags k (setBit (setBit (t.flags k) (typeBit c.sh) ty) (ovfBit c.sh) false)

/-- The shadow copy at start (R163). -/
def Mma.shadowed (c : Mma) (t : Acc) : Acc :=
  let k := c.o.acc.toNat
  if c.sh && !t.sv k then
    let t := t.copyTile false true k
    t.setFlags k (setBit (t.flags k) svBit true)
  else t

/-- The POISON of a command that met poison, to be raised at its completion (R167). -/
def State.notePoison (s : State) (x : Ctx) (k : Nat) : State :=
  let t : TrapRec := { cause := .poison, info0 := BitVec.ofNat 64 k, info1 := x.seq.setWidth 64, src := 1, eng := 1 }
  s.modEng .me fun e => { e with pend := some (e.pend.getD t) }

/-- K-step `s` has an A element that is not 0 in some row (R162). -/
def Mma.active (c : Mma) (rows : List ARow) (s : Nat) : Bool :=
  rows.any fun r => (List.range 16).any fun t => elAt (Fmt.bits c.fa) r.a.data (16 * s + t) ≠ 0

/-- One block: everything it needs is read, then its rows are written; the K-steps with work in them (R160, R162,
R166). -/
def Ctx.mmaBlock (x : Ctx) (c : Mma) (p : MmaAt) (bs : List OpRow) (blk : Nat) : M (List Nat) := do
  if c.kind = .sparse then (List.range 8).forM fun u => x.mdWait c p (8 * blk + u)
  let rows ← collect 8 fun u => do
    let i := 8 * blk + u
    let md ← if c.kind = .sparse then x.metadata c p i else pure []
    let a ← x.aRow c p i
    let pre ← x.preRow c p i
    pure ({ i, a, md, pre } : ARow)
  act fun s =>
    let s := s.modAcc fun t => rows.foldl (fun t r => c.applyRow bs r t) (if blk = 0 then c.setType t else t)
    if rows.any fun r => c.rowBad r bs then s.notePoison x c.o.acc.toNat else s
  pure ((List.range c.steps).filter (c.active rows))

/-- MEPROG of a command stopped before block `blk` (R151, R166). -/
def Mma.meprog (c : Mma) (x : Ctx) (blk : Nat) : Word :=
  BitVec.ofNat 64 (2 ^ 63 + c.o.acc.toNat * 2 ^ 53 + c.sh.toNat * 2 ^ 52 + 8 * blk * 2 ^ 45 + x.seq.toNat)

/-- ME cycles that `n` blocks take: MMA.D omits the K-steps without work (R162, R173). -/
def Mma.taken (c : Mma) (work : List Nat) (n : Nat) : Nat :=
  let per := c.cycles / (c.m / 8)
  let idle := if c.kind = .delta then ((List.range c.steps).filter fun s => !work.contains s).length else 0
  n * (per - per / c.steps * idle)

/-- MEPROG written where `m` faults in block `blk` (R166). -/
def Ctx.faultAt {α : Type} (x : Ctx) (c : Mma) (blk : Nat) (m : M α) : M α := fun s =>
  match m s with
  | .error (.trap t) s' =>
    .error (.trap t) (s'.modCore fun k => { k with tr := { k.tr with meprog := c.meprog x blk } })
  | r => r
/-- Block `blk` where it waits: the blocks before it stand, and the command goes on from it (R161). -/
def Ctx.waitAt {α : Type} (p : MmaAt) (bs : List OpRow) (blk : Nat) (m : M α) : M α := fun s =>
  match m s with
  | .error (.hold _) s' =>
    .error (.hold .part) ((keepWalks s s').modEng .me fun e =>
      { e with part := some { blk, a := p.a, b := p.b, x := p.x, rows := bs.map fun r => (r.data, r.scales) } })
  | r => r
/-- The K-steps of the blocks before one that does not complete are counted (R343). -/
def countAt {α : Type} (n : Nat) (m : M α) : M α := fun s =>
  match m s with
  | .error h s' => .error h (s'.meCycles n)
  | r => r

/-- The blocks from `blk` on, after `k` of this go, whose K-steps with work are `work`: a fault leaves MEPROG naming the block
that met it, a wait the block to go on from (R161, R166). -/
def Ctx.mmaBlocks (x : Ctx) (c : Mma) (p : MmaAt) (bs : List OpRow) : Nat → Nat → Nat → List Nat → M Unit
  | 0, _, k, work => act fun s => s.meCycles (c.taken work k)
  | n + 1, blk, k, work => do
    let a ← countAt (c.taken work k) (Ctx.waitAt p bs blk (x.faultAt c blk (x.mmaBlock c p bs blk)))
    x.mmaBlocks c p bs n (blk + 1) (k + 1) (work ++ a)

/-- The block a command resumes at, when MEPROG describes it (R166). -/
def Core.resumeAt (k : Core) (x : Ctx) : Option Nat :=
  let w := k.tr.meprog
  if w.getLsbD 63 && bfld w 0 32 = x.seq.toNat then some (bfld w 45 7 / 8) else none

/-- MEPROG at the completion of the command it describes: VALID returns to 0 (R166). -/
def Core.progDone (k : Core) (x : Ctx) : Core :=
  if (k.resumeAt x).isSome then { k with tr := { k.tr with meprog := setBit k.tr.meprog 63 false } } else k

/-- B and the checks of the metadata of the rows from block `blk` on: what the first block of a go reads (R166). -/
def Ctx.mmaB (x : Ctx) (c : Mma) (p : MmaAt) (blk : Nat) : M (List OpRow) := x.faultAt c blk do
  let bs ← collect c.n fun j => x.bRow c p j
  if c.kind = .sparse then (List.range c.m).forM fun i => if 8 * blk ≤ i then x.mdCheck c p i else pure ()
  pure bs

/-- A command that starts, or resumes at the block MEPROG names: its checks, the shadow copy unless it resumes, then B: the block
it begins at, its addresses and B (R160, R163, R166). -/
def Ctx.mmaEnter (x : Ctx) (c : Mma) : M (Nat × MmaAt × List OpRow) := do
  let p ← x.mmaStart c
  let res := (← get).core.resumeAt x
  if res.isNone then act fun s => s.modAcc c.shadowed
  let bs ← x.mmaB c p (res.getD 0)
  pure (res.getD 0, p, bs)

/-- An MMA-family command: it starts or resumes, or goes on from the block that waited, and takes its blocks (R160 to R167). -/
def mmaBody (kind : MmaKind) (h : CmdHdr) (o : MmaOp) (x : Ctx) : M Unit := do
  match mmaOf kind h o with
  | none => x.header false
  | some c =>
    let (blk, p, bs) ← match ((← get).core.eng .me).part with
      | some r => pure (r.blk, { a := r.a, b := r.b, x := r.x }, r.rows.map fun e => { data := e.1, scales := e.2 })
      | none => x.mmaEnter c
    x.mmaBlocks c p bs (c.m / 8 - blk) blk 0 []
    act fun s => s.modCore fun k => k.progDone x

/-- MMA (R160). -/
def execMma (h : CmdHdr) (o : MmaOp) (s : State) : Host.Outcome State Fault Refusal :=
  runCommand .me (0x40 + 4 * o.fmt.toNat + o.shape.toNat) h (mmaBody .dense h o) s
/-- MMA.SP (R161). -/
def execMmaSp (h : CmdHdr) (o : MmaOp) (s : State) : Host.Outcome State Fault Refusal :=
  runCommand .me (0x80 + 4 * o.fmt.toNat + o.shape.toNat) h (mmaBody .sparse h o) s
/-- MMA.D (R162). -/
def execMmaD (h : CmdHdr) (o : MmaOp) (s : State) : Host.Outcome State Fault Refusal :=
  runCommand .me (0xC0 + 4 * o.fmt.toNat + o.shape.toNat) h (mmaBody .delta h o) s

end Sys2Proof.Machine
end

