-- ==== Sys2Proof/Machine/Memory.lean ====
section
/-! DEFINITION. Loads, stores, strided and indexed syllables, L1 and L2 maintenance, and VAMO (R232 to R243). -/

namespace Sys2Proof.Machine

/-! ### Scalar loads and stores -/

/-- Bytes of an access size (R232). -/
def sizeBytes (sz : Size) : Nat :=
  match sz with
  | .d => 8
  | .w => 4
  | .h => 2
  | .b => 1

/-- The load takes part in full/empty synchronisation (R235). -/
def LdSync.fullEmpty (k : LdSync) : Bool := k = .fe || k = .fec
/-- Spaces a load or store reaches: full/empty bits exist in space 0 only (R199, R233). -/
def syncSpaces (fe : Bool) : List Nat := if fe then [0] else [0, 2]

/-- .fe and .fec wait until the granule is full (R235). -/
def needFull (p : Place) : M Unit := do
  match p with
  | .pool a => if !tget false (← get).core.pool.full (a / 16) then holdAt 1 (BitVec.ofNat 64 a)
  | .dev .. => pure ()
/-- .fec empties the granule (R235). -/
def State.emptied (s : State) (p : Place) : State :=
  match p with
  | .pool a => s.modCore fun c => { c with pool := { c.pool with full := tset false c.pool.full (a / 16) false } }
  | .dev .. => s
/-- What the read of a place acquires (R203, R223). -/
def State.acquired (s : State) (k : LdSync) (p : Place) : State :=
  match k with
  | .none => s
  | .acq sc =>
    let s := s.l1Acquire sc
    match p with
    | .pool a => s.acquireRecord sc (a / 16)
    | .dev .. => s
  | _ =>
    match p with
    | .pool a => s.acquireRecord .core (a / 16)
    | .dev .. => s
/-- Latency by place (R240). -/
def placeLat (p : Place) (pool dev : Nat) : Nat :=
  match p with
  | .pool _ => pool
  | .dev .. => dev

/-- LD (R233 to R236). -/
def execLd (g : Guard) (d a b : Reg) (sz : Size) (k : LdSync) (m : Bool) (s : State) :
    Host.Outcome State Fault Refusal :=
  guarded g (do
    let s ← get
    let isC := m && sz = .d
    let n := if isC then 16 else sizeBytes sz
    let fe := LdSync.fullEmpty k
    let ci := s.capIdx a
    let p ← quarterPlace ci (s.offB b n) n (if fe then permR + permFE else permR) n false (syncSpaces fe)
    if fe then needFull p
    let (bs, tag) ← quarterRead p n (k ≠ .none) isC
    let x := ofBytes bs
    let lat := placeLat p 4 8
    if s.taping then
      recordValues (if isC then [recS (BitVec.ofNat 64 x), recS (BitVec.ofNat 64 (x / 2 ^ 64))]
        else [recS (if m || sz = .d then zext64 x (8 * n) else sext64 x (8 * n))])
    act fun t =>
      let t := if k = .fec then t.emptied p else t
      let t := t.acquired k p
      if isC then
        t.wrC lat d (setBit (BitVec.ofNat 129 x) 128 (tag && capPerm (s.qtr.rdC ci) &&& permLC = permLC))
      else t.wrS lat d (if m || sz = .d then zext64 x (8 * n) else sext64 x (8 * n))) s

/-- Permissions of a store (R233). -/
def storePerm (sf : Bool) : Nat := if sf then permW + permFE else permW
/-- A store of a tagged register needs SC, and outside space 0 a register with G (R96, R234). -/
def needStoreCap (ci : Nat) (c : CapWord) (off : Int) (perm : Nat) (spaces : List Nat) : M Unit := do
  let s ← get
  match capCheck s.core s.dev (s.qtr.rdC ci) 0 0 perm spaces with
  | .error sub => capTrap sub ci off 16
  | .ok _ =>
    if capSpace (s.qtr.rdC ci) ≠ 0 && capPerm c &&& permG ≠ permG then capTrap 4 ci off 16
/-- The release a store makes before its write (R234, R235). -/
def State.released (s : State) (k : StSync) : State :=
  match k with
  | .none => s
  | .rel sc => s.quarterRelease sc
  | .sf => s.quarterRelease .core

/-- ST (R233 to R235). DEDUCED (log 107): .sf is a synchronising access, as .rel is. -/
def execSt (g : Guard) (d a b : Reg) (sz : Size) (k : StSync) (m : Bool) (s : State) :
    Host.Outcome State Fault Refusal :=
  guarded g (do
    let s ← get
    let isC := m && sz = .d
    let n := if isC then 16 else sizeBytes sz
    let sf := decide (k = .sf)
    let ci := s.capIdx a
    let off := s.offB b n
    let tag := isC && capTag (s.rdC d)
    let perm := if tag then storePerm sf + permSC else storePerm sf
    if tag then needStoreCap ci (s.rdC d) off perm (syncSpaces sf)
    let p ← quarterPlace ci off n perm n true (syncSpaces sf)
    act fun t => t.released k
    quarterWrite p (bytesOf n (if isC then (s.rdC d).toNat % 2 ^ 128 else (s.rdS d).toNat)) tag (k ≠ .none) sf) s

/-! ### Vector loads and stores -/

/-- A vector memory syllable (R67). -/
def vguarded (g : Guard) (m : M Unit) (s : State) : Host.Outcome State Fault Refusal :=
  if s.vexecutes g then finish m s else .next s

/-- Places of elements, in order, until one fails. -/
def placeEach (f : Nat → M Place) : List Nat → M (List (Nat × Place))
  | [] => pure []
  | n :: r => do
    let p ← f n
    let l ← placeEach f r
    pure ((n, p) :: l)
/-- `m` for each placed element, in order. -/
def forPlaces (m : Nat → Place → M Unit) : List (Nat × Place) → M Unit
  | [] => pure ()
  | (n, p) :: r => do
    m n p
    forPlaces m r
/-- The values of placed elements of `n` bytes. -/
def readPlaces (n : Nat) (sync : Bool) : List (Nat × Place) → M (List (Nat × Nat))
  | [] => pure []
  | (e, p) :: r => do
    let (bs, _) ← quarterRead p n sync false
    let l ← readPlaces n sync r
    pure ((e, ofBytes bs) :: l)
/-- Latency of a vector access: that of space 2 when any element lies there (R240). -/
def placesLat (l : List (Nat × Place)) (pool dev : Nat) : Nat := l.foldl (fun m e => max m (placeLat e.2 pool dev)) pool

/-- The capability checks of the lanes of VLD or VST, 4 bytes each (R233, R237). -/
def laneCaps (ci : Nat) (off : Int) (perm : Nat) (spaces : List Nat) : List Nat → M Unit
  | [] => pure ()
  | n :: r => do
    let _ ← quarterCap ci (off + 4 * n) 4 perm 1 spaces
    laneCaps ci off perm spaces r
/-- The place of lane `n` of VLD or VST. -/
def lanePlace (ci : Nat) (off : Int) (perm : Nat) (wr : Bool) (spaces : List Nat) (n : Nat) : M Place :=
  quarterPlace ci (off + 4 * n) 4 perm 1 wr spaces
/-- The places of the lanes of VLD or VST: the bounds of every active lane, then the alignment of the access of 128
bytes as a whole, then translation (R233, R237). -/
def lanePlaces (ci : Nat) (off : Int) (perm : Nat) (wr : Bool) (spaces : List Nat) (lanes : List Nat) :
    M (List (Nat × Place)) := do
  laneCaps ci off perm spaces lanes
  let s ← get
  whenM (!lanes.isEmpty && decide ((capBase (s.qtr.rdC ci) + off) % 16 ≠ 0)) (capTrap 7 ci off 128)
  placeEach (lanePlace ci off perm wr spaces) lanes

/-- The 16-bit elements `es` names. -/
def elemMask (h : Bool) (es : List Nat) : BitVec 64 :=
  es.foldl (fun m e => if h then setBit m e true else setBit (setBit m (2 * e) true) (2 * e + 1) true) 0

/-- VLD (R237). -/
def execVld (g : Guard) (d a b : Reg) (k : LdSync) (s : State) : Host.Outcome State Fault Refusal :=
  vguarded g (do
    let s ← get
    let fe := LdSync.fullEmpty k
    let lanes := lanesOf (s.lanes g)
    let l ← lanePlaces (s.capIdx a) (s.offB b 1) (if fe then permR + permFE else permR) false (syncSpaces fe) lanes
    if fe then forPlaces (fun _ p => needFull p) l
    let vs ← readPlaces 4 (k ≠ .none) l
    let v := mapEl false fun n => (tfind vs n).getD 0
    let m := elemMask false lanes
    if s.taping then recordValues [recV (mergeV (s.rdV d) v m)]
    act fun t =>
      let t := if k = .fec then l.foldl (fun t e => t.emptied e.2) t else t
      let t := l.foldl (fun t e => t.acquired k e.2) t
      t.wrV (placesLat l 6 10) d v m) s

/-- `q` begins where `n` bytes at `p` end, within the same granule. -/
def Place.goesOn (p q : Place) (n : Nat) : Bool :=
  match p, q with
  | .pool a, .pool b => b = a + n && a / 16 = b / 16
  | .dev va _ _, .dev vb _ _ => vb = va + n && va / 16 = vb / 16
  | _, _ => false
/-- The writes of a store of consecutive bytes: the bytes of one granule are written together, so that a granule that is written
whole loses its poison (R200, R236). -/
def granWrites : List (Place × List Byte) → List (Place × List Byte)
  | [] => []
  | (p, b) :: r =>
    match granWrites r with
    | [] => [(p, b)]
    | (q, c) :: t => if Place.goesOn p q b.length then (p, b ++ c) :: t else (p, b) :: (q, c) :: t
/-- Writes in order. -/
def writeAll (sync full : Bool) : List (Place × List Byte) → M Unit
  | [] => pure ()
  | (p, b) :: r => do
    quarterWrite p b false sync full
    writeAll sync full r
/-- The bytes that lanes at their places store. -/
def laneWrites (v : Vec) (l : List (Nat × Place)) : List (Place × List Byte) :=
  granWrites (l.map fun e => (e.2, bytesOf 4 (elOf false v e.1)))

/-- VST (R237). DEDUCED (log 107): .sf is a synchronising access, as .rel is. -/
def execVst (g : Guard) (d a b : Reg) (k : StSync) (s : State) : Host.Outcome State Fault Refusal :=
  vguarded g (do
    let s ← get
    let sf := decide (k = .sf)
    let l ← lanePlaces (s.capIdx a) (s.offB b 1) (storePerm sf) true (syncSpaces sf) (lanesOf (s.lanes g))
    act fun t => t.released k
    writeAll (k ≠ .none) sf (laneWrites (s.rdV d) l)) s

/-! ### Strided and indexed -/

/-- Active elements, ascending (R132). -/
def elemsOf (h : Bool) (act : BitVec 32) : List Nat := (List.range (elCount h)).filter (elActive h act)
/-- Offset of element `e` of VLDS and VSTS (R239). -/
def State.strided (s : State) (b c : Reg) (e : Nat) : Int := (s.orZero b + BitVec.ofNat 64 e * s.orZero c).toInt
/-- Offset of element `e` of VGATH and VSCAT (R239). -/
def State.indexed (s : State) (b c : Reg) (x : Bool) (e : Nat) : Int :=
  (s.orZero c + BitVec.ofNat 64 ((if x then 1 else 4) * (laneOf (s.rdV b) e).toNat)).toInt

/-- A gather of elements at given offsets. -/
def gather (g : Guard) (d a : Reg) (h : Bool) (off : State → Nat → Int) (s : State) :
    Host.Outcome State Fault Refusal :=
  vguarded g (do
    let s ← get
    let n := elWidth h / 8
    let es := elemsOf h (s.lanes g)
    let l ← placeEach (fun e => quarterPlace (s.capIdx a) (off s e) n permR n false [0, 2]) es
    let vs ← readPlaces n false l
    act fun t => t.wrV (placesLat l 8 12) d (mapEl h fun e => (tfind vs e).getD 0) (elemMask h es)) s
/-- A scatter of elements to given offsets, in ascending order. -/
def scatter (g : Guard) (d a : Reg) (h : Bool) (off : State → Nat → Int) (s : State) :
    Host.Outcome State Fault Refusal :=
  vguarded g (do
    let s ← get
    let n := elWidth h / 8
    let l ← placeEach (fun e => quarterPlace (s.capIdx a) (off s e) n permW n true [0, 2]) (elemsOf h (s.lanes g))
    forPlaces (fun e p => quarterWrite p (bytesOf n (elOf h (s.rdV d) e)) false false false) l) s

/-- VLDS (R239). -/
def execVlds (g : Guard) (d a b c : Reg) (h : Bool) (s : State) : Host.Outcome State Fault Refusal :=
  gather g d a h (fun s e => s.strided b c e) s
/-- VSTS (R239). -/
def execVsts (g : Guard) (d a b c : Reg) (h : Bool) (s : State) : Host.Outcome State Fault Refusal :=
  scatter g d a h (fun s e => s.strided b c e) s
/-- VGATH (R239). -/
def execVgath (g : Guard) (d a b c : Reg) (x : Bool) (s : State) : Host.Outcome State Fault Refusal :=
  gather g d a false (fun s e => s.indexed b c x e) s
/-- VSCAT (R239). -/
def execVscat (g : Guard) (d a b c : Reg) (x : Bool) (s : State) : Host.Outcome State Fault Refusal :=
  scatter g d a false (fun s e => s.indexed b c x e) s

/-! ### Maintenance -/

/-- PREF from byte `i` on: each line of the L1 is filled until a byte fails a check or does not translate (R241). DEDUCED
(log 109): the check asks for R, since a prefetch reads. -/
def prefLines (ci : Nat) (off : Int) (len : Nat) : Nat → Nat → State → State
  | 0, _, s => s
  | n + 1, i, s =>
    if len ≤ i then s
    else
      match capCheck s.core s.dev (s.qtr.rdC ci) (off + i) 1 permR [2] with
      | .error _ => s
      | .ok va =>
        match s.dev.walkIn s.core.region va 0 with
        | .ok p _ l =>
          let pa := pagePa p l va
          let s := if s.core.useL1 p then (s.l1Read p (pa / 64 * 64) 64 false).2 else s
          prefLines ci off len n (i + (64 - va % 64)) s
        | _ => s

/-- PREF: a hint that never traps; a space-0 range has nothing to fill (R241). -/
def execPref (g : Guard) (a b c : Reg) (l2 : Bool) (s : State) : Host.Outcome State Fault Refusal :=
  pureOp g (fun s =>
    let len := (s.orZero c).toNat
    if l2 then s else prefLines (s.capIdx a) (s.orZero b).toInt len (len / 64 + 2) 0 s) s

/-- A quarter's range of space 2, checked and translated page by page (R241, R242): its parts. -/
def quarterRange (ci : Nat) (off : Int) (len perm : Nat) : M (Nat × List Part) := do
  let va ← quarterCap ci off len perm 1 [2]
  fun s =>
    match s.xlateRange s.core.issue.q.toNat va len 0 with
    | (.ok l, s') => .ok (va, l) s'
    | (.error (x, .fail r lv), s') =>
      .error (.trap { cause := .xlate, info0 := BitVec.ofNat 64 x, info1 := xlInfo 0 lv r,
                      info2 := BitVec.ofNat 64 ci, fq := s.core.issue.q }) s'
    | (.error _, s') => .error (.hold .other) s'

/-- The bytes of an L1 line that lie in translated parts. -/
def partMask (l : List Part) (x : L1Line) : Word :=
  BitVec.ofNat 64 (upTo 64 (fun i acc =>
    let a := 64 * x.line + i
    if l.any fun p => p.1 ≤ a && a < p.1 + p.2.2 then acc + 2 ^ i else acc) 0)

/-- Dirty bytes of parts written to their slices, those of a capability all at once; `inv` drops every byte of them too
(R96, R241). -/
def State.cleanParts (s : State) (l : List Part) (inv : Bool) : State :=
  let dev := s.core.l1.foldl (fun d x => d.l1Push { x with dirty := x.dirty &&& x.whole (partMask l x) }) s.dev
  let lines := s.core.l1.map fun x =>
    let m := x.whole (partMask l x)
    { x with dirty := x.dirty &&& ~~~m, valid := if inv then x.valid &&& ~~~m else x.valid }
  { s with dev := dev, core := { s.core with l1 := lines.filter fun x => x.valid != 0 } }

/-- CLEAN and INVAL: the range is checked and translated before anything is done; length 0 does nothing (R241). -/
def maintain (g : Guard) (a b c : Reg) (inv : Bool) (s : State) : Host.Outcome State Fault Refusal :=
  guarded g (do
    let s ← get
    let len := (s.orZero c).toNat
    if len ≠ 0 then
      let (_, l) ← quarterRange (s.capIdx a) (s.orZero b).toInt len (permR + permPIN)
      act fun s => s.cleanParts l inv) s
/-- CLEAN (R241). -/
def execClean (g : Guard) (a b c : Reg) (s : State) : Host.Outcome State Fault Refusal := maintain g a b c false s
/-- INVAL (R241). -/
def execInval (g : Guard) (a b c : Reg) (s : State) : Host.Outcome State Fault Refusal := maintain g a b c true s

/-- The lines of translated parts: physical line, VA and PTE, ascending (R242). -/
def rangeLines (l : List ((Nat × Nat) × Part)) : List (Nat × Nat × Word) :=
  l.flatMap fun e =>
    let ((va, n), (pa, pte, _)) := e
    (List.range ((pa + n - 1) / 64 - pa / 64 + 1)).map fun i => (pa / 64 + i, va / 64 * 64 + 64 * i, pte)

/-- The set of a line: its slice, and one of 1024 there (R13, R204, R205). -/
def l2SetOf (line : Nat) : Nat × Nat := (channelOf (64 * line), Config.l2Set line % 1024)

/-- Lines pinned one after the other until one is refused: lines newly pinned and the status (R242). -/
def pinLines (region ctx : Nat) : List (Nat × Nat × Word) → Nat → List Pin → (Nat × Nat) × List Pin
  | [], n, ps => ((n, 0), ps)
  | (line, va, pte) :: r, n, ps =>
    if !ptePn pte then ((n, 2), ps)
    else
      match ps.find? fun p => p.line = line with
      | some p => if p.region = region then pinLines region ctx r n ps else ((n, 4), ps)
      | none =>
        if 12 ≤ (ps.filter fun p => l2SetOf p.line = l2SetOf line).length then ((n, 1), ps)
        else pinLines region ctx r (n + 1) (ps ++ [{ line, region, ctx, va }])

/-- The lines of a quarter's range for PIN and UNPIN; nothing for length 0. -/
def pinRange (ci : Nat) (off : Int) (len : Nat) : M (List (Nat × Nat × Word)) := do
  if len = 0 then pure []
  else
    let (va, l) ← quarterRange ci off len (permR + permPIN)
    pure (rangeLines ((partsOf va len).zip l))

/-- PIN (R242). DESIGN CHOICE (log 110): the capability is checked before a length above 2^24 is answered, and no page of
such a range is translated. -/
def execPin (g : Guard) (d a b c : Reg) (s : State) : Host.Outcome State Fault Refusal :=
  guarded g (do
    let s ← get
    let len := (s.orZero c).toNat
    if 2 ^ 24 < len then
      let _ ← quarterCap (s.capIdx a) (s.orZero b).toInt len (permR + permPIN) 1 [2]
      act fun s => s.wrS 1 d 3
    else
      let l ← pinRange (s.capIdx a) (s.orZero b).toInt len
      act fun s =>
        let ((n, st), ps) := pinLines s.core.region (tenantOf s.dev.rcbs s.core.region) l 0 s.dev.pins
        (s.modDev fun v => { v with pins := ps }).wrS 1 d (BitVec.ofNat 64 (256 * n + st))) s
/-- The stale-pin entries of a region that `[va, va + len)` covers wholly, cleared (R310). -/
def Device.clearStale (d : Device) (region va len : Nat) : Device :=
  (List.range 8).foldl (fun d k =>
    match d.staleAt region k with
    | some (lo, hi) => if va ≤ lo && hi ≤ va + len then d.rcbPut region (0xA0 + 8 * k) 8 0 else d
    | none => d) d

/-- UNPIN: stale-pin entries that its range covers no longer stand when its pages are translated (R242, R310). -/
def execUnpin (g : Guard) (d a b c : Reg) (s : State) : Host.Outcome State Fault Refusal :=
  guarded g (do
    let s ← get
    let n := (s.orZero c).toNat
    if n ≠ 0 then
      let va ← quarterCap (s.capIdx a) (s.orZero b).toInt n (permR + permPIN) 1 [2]
      act fun s => s.modDev fun v => v.clearStale s.core.region va n
    let l ← pinRange (s.capIdx a) (s.orZero b).toInt (s.orZero c).toNat
    act fun s =>
      let gone := fun (p : Pin) => p.region = s.core.region && l.any fun e => e.1 = p.line
      (s.modDev fun v => { v with pins := v.pins.filter fun p => !gone p }).wrS 1 d
        (BitVec.ofNat 64 (s.dev.pins.filter gone).length)) s

/-! ### VAMO -/

/-- The new word (R243). -/
def amoWord (op : AmoOp) (u : Bool) (w c old : BitVec 32) : BitVec 32 :=
  let lt := if u then w.ult c else w.slt c
  match op with
  | .add => w + c
  | .min => if lt then w else c
  | .max => if lt then c else w
  | .and => w &&& c
  | .or => w ||| c
  | .xchg => c
  | .cas => if w = old then c else w

/-- The L1 gives up its copy of the word at `pa`, its dirty bytes first (R243). -/
def State.l1Yield (s : State) (pa : Nat) : State :=
  s.cleanParts [(pa, 0, 4)] true

/-- One lane: checks, then the atomic at the slice; the old word (R204, R243). -/
def vamoLane (ci : Nat) (off : Nat) (f : BitVec 32 → BitVec 32) : M (BitVec 32) := do
  let va ← quarterCap ci off 4 (permR + permW + permAMO) 4 [2]
  let (pa, pte) ← quarterXlate va 3 ci
  act fun s => s.l1Yield pa
  let s ← get
  match (List.range 4).find? fun i => (s.dev.read1 (some pte) (pa + i)).2 with
  | some i => stopWith (poisonTrap (va + i)) 0
  | none =>
    let w := BitVec.ofNat 32 (ofBytes ((List.range 4).map fun i => (s.dev.read1 (some pte) (pa + i)).1))
    act fun s => s.modDev fun d => d.write (some pte) pa (bytesOf 4 (f w).toNat) fun _ => false
    pure w

/-- The lanes in order until one stops: the stop, the lanes applied, their old words, and the state. -/
def vamoLanes (ci : Nat) (vb : Vec) (f : Nat → BitVec 32 → BitVec 32) :
    List Nat → BitVec 32 → List (Nat × Nat) → State → Option Stop × BitVec 32 × List (Nat × Nat) × State
  | [], m, l, s => (none, m, l, s)
  | n :: r, m, l, s =>
    match vamoLane ci (4 * (laneOf vb n).toNat) (f n) s with
    | .ok w s' => vamoLanes ci vb f r (setBit m n true) ((n, w.toNat) :: l) s'
    | .error e s' => (some e, m, l, s')

/-- The mask of lanes that an interrupted VAMO has applied already (R184). -/
def State.ldMask (s : State) : BitVec 32 :=
  if s.core.ldArmed && (s.core.issue.joint || bfld s.core.tr.tstat 16 2 = s.core.issue.q.toNat)
  then s.core.tr.tldm.setWidth 32 else 0

/-- TLDM and LDV as a faulting VAMO leaves them (R184, R243). -/
def State.ldNote (s : State) (m : BitVec 32) : State :=
  s.modCore fun c => { c with tr := { c.tr with tldm := m.setWidth 64, tstat := setBit c.tr.tstat 12 true } }

/-- VAMO: the one syllable that traps after part of its effect (R184, R243). -/
def execVamo (g : Guard) (d a b c : Reg) (op : AmoOp) (u nr : Bool) (s : State) :
    Host.Outcome State Fault Refusal :=
  if s.vexecutes g then
    let skip := s.ldMask
    let f := fun (n : Nat) (w : BitVec 32) => amoWord op u w (laneOf (s.rdV c) n) (laneOf (s.rdV d) n)
    let (stop, m, l, s') := vamoLanes (s.capIdx a) (s.rdV b) f (lanesOf (s.lanes g &&& ~~~skip)) 0 [] s
    let out := fun (t : State) =>
      if nr then t else t.wrV 64 d (mapEl false fun n => (tfind l n).getD 0) (laneMask m)
    match stop with
    | none => .next (out s')
    | some (.trap t) => .next (((out s').ldNote (skip ||| m)).trapped t)
    | some (.hold h) => .next ((keepWalks s s').held h)
  else .next s

end Sys2Proof.Machine
end

