-- ==== Sys2Proof/Machine/Ni.lean ====
section
/-! DEFINITION. The network interface: RREAD, RWRITE, RSEND and what reaches a core from others (R211, R253 to
R255). -/

namespace Sys2Proof.Machine

/-! ### At the target -/

/-- Key slot of the run that issues an access; slot 0 for firmware. -/
def State.issuerKs (s : State) : BitVec 8 := (s.core.run.map Run.ks).getD 0

/-- Why core `n` refuses an access by key slot `ks` to `[a, a + len)`: 8 TENANT or 6 AREA (R254). -/
def State.refusal (s : State) (n : Nat) (ks : BitVec 8) (a len : Nat) : Option Nat :=
  let c := s.coreAt n
  if c.run.map Run.ks ≠ some ks then some 8 else if c.inArea a len then none else some 6

/-- The granules of a plain pool range. -/
def poolGrans (a n : Nat) : List (Nat × Nat) := granParts (n / 16 + 2) a n

/-- A transfer that lands at a core, written by its NI agent, which then advances; no quarter of the core owns it (R215, R223, R254). DESIGN CHOICE (log 108): an
element of an RWRITE is one transfer, as the bytes of an RSEND are. -/
def Core.inWrite (c : Core) (a : Nat) (b : List (Byte × Bool)) : Core :=
  let k : Sink := { wrec := (5, c.race.curOf agNI), own := none, bar := none, agent := agNI }
  let c := (c.putGrans k (poolGrans a b.length) b).count 5 b.length
  { c with race := c.race.release agNI }
/-- A decrement that lands at a core: refused with 9 where the barrier is unbound (R255, R327). -/
def Core.inDec (c : Core) (i n : Nat) : Except Nat Core :=
  if (c.barAt i).isNone then .error 9 else .ok (c.barDecAt agNI i n (c.race.curOf agNI))
/-- A signal that lands at a core; none when it would pass the ceiling (R255, R325). -/
def Core.inSignal (c : Core) (i n : Nat) : Option Core :=
  let x := c.semOf i
  if x.ceil.toNat < x.v.toNat + n then none
  else
    let c := c.setSemV i (x.v.toNat + n)
    some { c with race := c.race.toSem i agNI (c.race.curOf agNI) }
/-- Bytes of a core's pool with their poison, as its NI reads them. -/
def Core.inRead (c : Core) (a n : Nat) : List (Byte × Bool) :=
  (List.range n).map fun i => (c.pool.byte (a + i), tget false c.pool.pois ((a + i) / 16))

/-- NI_INBOUND_ACCESS: an access of another core's NI, admitted or refused (R254, R255). -/
def execNiInboundAccess (target : Nat) (fromKs : BitVec 8) (a : Inbound) (s : State) :
    Host.Outcome State Fault Refusal :=
  let n := target % 132
  let c := s.coreAt n
  .next (match a with
    | .read .. => s
    | .write addr b =>
      if (s.refusal n fromKs addr b.length).isSome then s else s.setCoreAt n (c.inWrite addr (clean b))
    | .decrement i len =>
      if (s.refusal n fromKs 0 0).isSome then s
      else match c.inDec (i % 2048) len with
        | .ok c => s.setCoreAt n c
        | .error _ => s
    | .signal i inc =>
      if (s.refusal n fromKs 0 0).isSome then s
      else match c.inSignal (i % 256) inc with
        | some c => s.setCoreAt n c
        | none => s)

/-! ### At the issuer -/

/-- Core and pool offset of a remote address (R211). -/
def remoteCore (a : Nat) : Nat := fld a 23 8
def remoteOff (a : Nat) : Nat := fld a 0 23

/-- The refusal to be reported with SIG once the work is done (R254). -/
def State.niRefused (s : State) (x : Ctx) (ci : BitVec 4) (why : Option (Nat × Nat)) : State :=
  match why with
  | none => s
  | some (sub, off) => s.modEng .ni fun e =>
      { e with fault := some { cause := .capfault, sub := BitVec.ofNat 8 sub, info0 := x.seq.setWidth 64,
                               info1 := BitVec.ofNat 64 sub, info2 := ci.setWidth 64,
                               info3 := BitVec.ofNat 64 off, src := 1, eng := 2 } }

/-- Element size (R253). -/
def esz (c : NiCommon) : Nat := 16 * 2 ^ c.esz.toNat

/-- Rules of the operand bits of RREAD and RWRITE (R76, R253). -/
def RrwOp.ok (o : RrwOp) : Bool :=
  o.rsv = 0 && o.c.rsv = 0 && (o.c.be || o.c.bidx = 0) && o.loff.toNat % 16 = 0 && o.roff.toNat % 16 = 0
    && o.xoff.toNat % 4 = 0

/-- The elements of a command from its indices, each remote extent checked (R94, R253). -/
def Ctx.elems (x : Ctx) (o : RrwOp) (la perm : Nat) : Nat → List Nat → M (List Elem)
  | _, [] => pure []
  | e, i :: r => do
    let off := o.roff.toNat + i * esz o.c
    let ra ← x.capAt o.c.cr off (esz o.c) perm 1 [1]
    let l ← x.elems o la perm (e + 1) r
    pure ({ l := la + e * esz o.c, r := ra, off } :: l)

/-- The check pass of RREAD and RWRITE: the elements (R253, R378). -/
def Ctx.rrwCheck (x : Ctx) (o : RrwOp) (wr : Bool) : M (List Elem) := do
  x.header (RrwOp.ok o && (wr || !o.c.be))
  let n := o.count.toNat
  let (lp, rp) := if wr then (permW + permENG, permR + permENG) else (permR + permENG, permW + permENG)
  let la ← x.capAt o.c.cl o.loff.toNat (n * esz o.c) lp 1 [0]
  let _ ← x.capAt o.c.cr o.roff.toNat 0 rp 1 [1]
  let xa ← x.capAt o.c.cx o.xoff.toNat (4 * n) (permR + permENG) 1 [0]
  x.bound o.c.be o.c.bidx.toNat
  let xr : Rng := { space := 0, a := xa, n := 4 * n, sw := none }
  let s ← get
  let l ← x.elems o la rp 0 (words 4 ((s.bytesIn { r := xr, parts := [] }).map (·.1)))
  x.need (l.all fun e => remoteCore e.r < 132) 1
  x.race false xr
  x.race wr { space := 0, a := la, n := n * esz o.c, sw := none }
  pure l

/-- An element that lands at the issuer: whole, its granules full, then the barrier by its size (R255). -/
def State.landElem (s : State) (k : Sink) (a : Nat) (b : List (Byte × Bool)) : State :=
  s.modCore fun c => ((c.putGrans { k with bar := none } (poolGrans a b.length) b).landed k b.length).count 5 b.length

/-- What is left of an RREAD: of one that starts, after its check pass, every element (R253). -/
def Ctx.replies (x : Ctx) (o : RrwOp) : M Replies := do
  match ((← get).core.eng .ni).rest with
  | some r => pure r
  | none =>
    let l ← x.rrwCheck o true
    pure { left := l.mapIdx fun i e => (i, e), why := none }
/-- Where the elements of an RREAD land: the command's sink with its barrier. -/
def State.rreadSink (s : State) (x : Ctx) (o : RrwOp) : Sink := s.sink x (if o.c.be then some o.c.bidx.toNat else none)
/-- The reply to an element lands, with the bytes `b`, or with zeros where the target refuses the access (R254, R255): the
refusal of the element. -/
def State.landReply (s : State) (k : Sink) (o : RrwOp) (e : Elem) (b : List (Byte × Bool)) :
    State × Option (Nat × Nat) :=
  match s.refusal (remoteCore e.r) s.issuerKs (remoteOff e.r) (esz o.c) with
  | some sub => (s.landElem k e.l (List.replicate (esz o.c) (0, true)), some (sub, e.off))
  | none => (s.landElem k e.l b, none)

/-- RREAD: it lands every element of which no RREAD_REPLY has landed the reply (R254, R255). -/
def execRread (h : CmdHdr) (o : RrwOp) (s : State) : Host.Outcome State Fault Refusal :=
  runCommand .ni 0x01 h (fun x => do
    let r ← x.replies o
    act fun s =>
      let k := s.rreadSink x o
      let (s, why) := r.left.foldl (fun (p : State × Option (Nat × Nat)) e =>
        let (s, w) := p.1.landReply k o e.2 ((p.1.coreAt (remoteCore e.2.r)).inRead (remoteOff e.2.r) (esz o.c))
        (s, p.2 <|> w)) (s, r.why)
      s.niRefused x o.c.cr why) s

/-- RWRITE: elements in ascending order (R254, R255). -/
def execRwrite (h : CmdHdr) (o : RrwOp) (s : State) : Host.Outcome State Fault Refusal :=
  runCommand .ni 0x02 h (fun x => do
    let l ← x.rrwCheck o false
    act fun s =>
      let ks := s.issuerKs
      let (s, why) := l.foldl (fun (p : State × Option (Nat × Nat)) e =>
        let (s, why) := p
        let n := remoteCore e.r
        match s.refusal n ks (remoteOff e.r) (esz o.c) with
        | some sub => (s, why <|> some (sub, e.off))
        | none =>
          (s.setCoreAt n ((s.coreAt n).inWrite (remoteOff e.r) (s.core.inRead e.l (esz o.c))), why)) (s, none)
      (s.count 5 (l.length * esz o.c)).niRefused x o.c.cr why) s

/-- Rules of the operand bits of RSEND (R76, R253). -/
def RsendOp.ok (o : RsendOp) : Bool :=
  o.rsv = 0 && o.c.rsv = 0 && o.c.esz = 0 && o.c.cx = 0 && !o.c.be && o.c.bidx = 0 && (o.rbe || o.rbidx = 0)
    && (o.rse || (o.rsidx = 0 && o.rsinc = 0)) && o.loff.toNat % 16 = 0 && o.roff.toNat % 16 = 0
    && o.len.toNat % 16 = 0

/-- What RSEND does at its target once the bytes have been admitted: bytes, decrement, signal (R255). -/
def State.rsendLand (s : State) (x : Ctx) (o : RsendOp) (la ra : Nat) : State :=
  let n := remoteCore ra
  let len := o.len.toNat
  let b := s.core.inRead la len
  let c := s.coreAt n
  let c1 := if len = 0 then c else c.inWrite (remoteOff ra) b
  let c2 := if o.rbe then (match c1.inDec o.rbidx.toNat len with | .ok c => (c, none) | .error e => (c1, some e))
    else (c1, none)
  let c3 := if o.rse then c2.1.inSignal o.rsidx.toNat o.rsinc.toNat else some c2.1
  match c3, c2.2 with
  | some c3, none => (s.setCoreAt n c3).count 5 len
  | some c3, some sub => ((s.setCoreAt n c3).count 5 len).niRefused x o.c.cr (some (sub, o.roff.toNat))
  | none, _ =>
    let v := (c2.1.semOf o.rsidx.toNat).v
    ((s.setCoreAt n c2.1).count 5 len).modEng .ni fun e =>
      { e with fault := some { cause := .semovf, info0 := o.rsidx.setWidth 64, info1 := v.setWidth 64,
                               info2 := o.rsinc.setWidth 64, info3 := x.seq.setWidth 64, src := 1, eng := 2 } }

/-- RSEND (R254, R255). -/
def execRsend (h : CmdHdr) (o : RsendOp) (s : State) : Host.Outcome State Fault Refusal :=
  runCommand .ni 0x03 h (fun x => do
    x.header (RsendOp.ok o)
    let len := o.len.toNat
    let la ← x.capAt o.c.cl o.loff.toNat len (permR + permENG) 1 [0]
    let ra ← x.capAt o.c.cr o.roff.toNat len (permW + permENG) 1 [1]
    x.need (remoteCore ra < 132) 1
    x.race false { space := 0, a := la, n := len, sw := none }
    act fun s =>
      match s.refusal (remoteCore ra) s.issuerKs (remoteOff ra) len with
      | some sub => (s.count 5 len).niRefused x o.c.cr (some (sub, o.roff.toNat))
      | none => s.rsendLand x o la ra) s

/-- RREAD_REPLY: the reply to element `elem`, with the bytes that the target's NI has read, lands at the issuer while its RREAD
is in progress and awaits it (R255). -/
def execRreadReply (elem : Nat) (bytes : List Byte) (poisoned : Bool) (s : State) :
    Host.Outcome State Fault Refusal :=
  match s.core.ni.queue with
  | [] => .next s
  | c :: _ =>
    match decodeCommand .ni c.bits, s.core.ni.phase with
    | .rread h o, .passed =>
      let x := ctxOf s .ni 0x01 h c
      match x.replies o s with
      | .ok r s1 =>
        match r.left.find? fun e => e.1 = elem && bytes.length = esz o.c with
        | some e =>
          let (s2, w) := s1.landReply (s1.rreadSink x o) o e.2 (bytes.map fun b => (b, poisoned))
          .next (s2.modEng .ni fun y =>
            { y with rest := some { left := r.left.filter fun e => e.1 ≠ elem, why := r.why <|> w } })
        | none => .next s
      | .error .. => .next s
    | _, _ => .next s

end Sys2Proof.Machine
end

