-- ==== Sys2Proof/Machine/Sys.lean ====
section
/-! DEFINITION. System registers (R5, R6, R88, R108): what MFS reads and MTS writes, the pool layout (R195), the cuts
of the engines (R178, R228), and the registers the host writes (R15, R34, R345, R352). -/

namespace Sys2Proof.Machine

/-! ### Reading -/

/-- TSTAT as it reads: HM and PHM read 1 on a service core (R176). -/
def Core.tstatRead (c : Core) : Word := if c.isService then c.tr.tstat ||| 0xA00 else c.tr.tstat

/-- The value of a system register other than a cut; none when the number is unassigned (R88, R175). -/
def State.sysRead (s : State) (n : Nat) : Option Word :=
  let c := s.core
  let x := s.qtr
  match n with
  | 0x00 => some s.dev.plat.devid
  | 0x01 => some (s.dev.plat.fwif.setWidth 64)
  | 0x02 => some s.dev.plat.qtbase
  | 0x03 => some s.dev.plat.rcbbase
  | 0x08 => some x.rngkey
  | 0x09 => some (x.rngctr.setWidth 64)
  | 0x0A => some (x.vwin.setWidth 64)
  | 0x0B => some (x.pwin.setWidth 64)
  | 0x0C => some (x.role.setWidth 64)
  | 0x10 => some (c.sys.slip.setWidth 64)
  | 0x11 => some (c.sys.age.setWidth 64)
  | 0x12 => some (c.sys.wdog.setWidth 64)
  | 0x13 => some (c.sys.poolv.setWidth 64)
  | 0x14 => some (c.sys.pools.setWidth 64)
  | 0x15 => some (c.sys.poolc.setWidth 64)
  | 0x16 => some c.sys.capver
  | 0x20 => some c.tstatRead
  | 0x21 => some c.tr.tcause
  | 0x2F => some c.tr.tldm
  | 0x30 => some c.tr.meprog
  | _ =>
    if 0x22 ≤ n ∧ n ≤ 0x25 then some (tget 0 c.tr.tepc (n - 0x22))
    else if 0x26 ≤ n ∧ n ≤ 0x29 then some (tget 0 c.tr.tinfo (n - 0x26))
    else if 0x31 ≤ n ∧ n ≤ 0x34 then some (tget 0 x.tscr (n - 0x31))
    else none

/-- The engine whose cut a number names (R178). -/
def cutEng (n : Nat) : Option Eng :=
  match n with
  | 0x2A => some .ce
  | 0x2B => some .me
  | 0x2C => some .ni
  | 0x2D => some .tape
  | 0x2E => some .cmu
  | _ => none

/-- Numbers that MFS may not read without privilege (R88, R175). -/
def readPriv (n : Nat) : Bool := 0x10 ≤ n
/-- Numbers that MTS may not write without privilege. -/
def writePriv (n : Nat) : Bool := 0x10 ≤ n || (1 ≤ n && n ≤ 3)
/-- The number is assigned. -/
def State.sysKnown (s : State) (n : Nat) : Bool := (s.sysRead n).isSome || (cutEng n).isSome

/-- Stops until engine `e` has stopped, while the core is stopped for a trap (R178). -/
def waitEngine (e : Eng) : M Unit := do
  let s ← get
  if s.core.frozen && !(s.core.eng e).stopped then holdOther

/-- A read of a cut acquires, at core scope, what the engine has completed (R228). -/
def Core.acquireCut (c : Core) (e : Eng) : Core :=
  match engAgent e with
  | some a => { c with race := upTo 4 (fun q r => r.acquire q a (r.curOf a)) c.race }
  | none => c

/-- What an MFS of a cut returns (R178). -/
def Core.cutValue (c : Core) (e : Eng) : Word := if c.frozen then (c.eng e).tcut else (c.eng e).tcutLive

/-! ### The pool layout -/

/-- The layout with one boundary replaced. -/
def layoutWith (r : Nat × Nat × Nat) (n row : Nat) : Nat × Nat × Nat :=
  match n with
  | 0x13 => (row, r.2.1, r.2.2)
  | 0x14 => (r.1, row, r.2.2)
  | _ => (r.1, r.2.1, row)

/-- A write of POOLV, POOLS or POOLC (R195). -/
def writeLayout (n : Nat) (v : Word) : M Unit := do
  if !(← get).core.enginesStopped then holdOther
  let r := layoutWith (← get).core.layout n (bfld v 0 11)
  if !layoutOk r then illegal
  act fun s => s.setLayout r

/-! ### Writing -/

/-- FWIF written: once, by firmware that runs (R15, R347). DEDUCED (log 115): any other write is ignored. -/
def Device.setFwif (d : Device) (v : BitVec 32) : Device :=
  if bfld d.plat.bootstat 0 2 = 1 && d.plat.fwif = 0 then { d with plat := { d.plat with fwif := v } } else d
/-- QTBASE written: once, before FWIF (R88, R273). -/
def Device.setQtbase (d : Device) (v : Word) : Device :=
  if d.plat.qtWritten || d.plat.fwif ≠ 0 then d else { d with plat := { d.plat with qtbase := v, qtWritten := true } }
/-- RCBBASE written: once, before FWIF (R88, R301). -/
def Device.setRcbbase (d : Device) (v : Word) : Device :=
  if d.plat.rcbWritten || d.plat.fwif ≠ 0 then d
  else { d with plat := { d.plat with rcbbase := v, rcbWritten := true } }

/-- The bits of TSTAT that MTS writes (R176). -/
def tstatRw : Word := 0xFF801C00

/-- TSTAT after a write; HM and PHM stay 1 on a service core (R176). -/
def Core.tstatWrite (c : Core) (v : Word) : Word :=
  let w := (c.tr.tstat &&& ~~~tstatRw) ||| (v &&& tstatRw)
  if c.isService then w ||| 0xA00 else w

/-- FLT is W1C and SKIP RW (R178). -/
def Engine.cutWrite (e : Engine) (v : Word) : Engine :=
  { e with flt := e.flt && !v.getLsbD 63, skip := v.getLsbD 62 }

/-- The limit SLIP stores (R179). -/
def slipOf (v : Word) : BitVec 32 := BitVec.ofNat 32 (max 1 (min 64 (bfld v 0 7)))
/-- The limit AGE stores (R31). -/
def ageOf (v : Word) : BitVec 32 := BitVec.ofNat 32 (max 8 (bfld v 0 16))
/-- What WDOG stores (R341). -/
def wdogOf (v : Word) : BitVec 32 := (v.setWidth 32) &&& 0x80FFFFFF

/-- The trap registers changed. -/
def State.modTr (s : State) (f : TrapRegs → TrapRegs) : State := s.modCore fun c => { c with tr := f c.tr }
/-- The core's other privileged registers changed. -/
def State.modSys (s : State) (f : SysRegs → SysRegs) : State := s.modCore fun c => { c with sys := f c.sys }
/-- The device changed, when the writer is service core 0; ignored from any other core (R108). -/
def State.svc0 (s : State) (f : Device → Device) : State := if s.core.num = 128 then s.modDev f else s

/-- A write of a register whose write needs nothing else (R88, R175). -/
def State.sysWrite (s : State) (n : Nat) (v : Word) : State :=
  match n with
  | 0x01 => s.svc0 fun d => d.setFwif (v.setWidth 32)
  | 0x02 => s.svc0 fun d => d.setQtbase v
  | 0x03 => s.svc0 fun d => d.setRcbbase v
  | 0x08 => s.modQtr fun x => { x with rngkey := v }
  | 0x09 => s.modQtr fun x => { x with rngctr := v.setWidth 32 }
  | 0x0A => s.modQtr fun x => { x with vwin := v.setWidth 6 }
  | 0x0B => s.modQtr fun x => { x with pwin := v.setWidth 5 }
  | 0x10 => s.modSys fun x => { x with slip := slipOf v }
  | 0x11 => s.modSys fun x => { x with age := ageOf v }
  | 0x12 => s.modSys fun x => { x with wdog := wdogOf v }
  | 0x16 => s.modSys fun x => { x with capver := v &&& 0x3FFFF }
  | 0x20 => s.modTr fun t => { t with tstat := s.core.tstatWrite v }
  | 0x21 => s.modTr fun t => { t with tcause := v &&& 0xFFFF }
  | 0x2F => s.modTr fun t => { t with tldm := v &&& 0xFFFFFFFF }
  | _ =>
    if 0x22 ≤ n ∧ n ≤ 0x25 then s.modTr fun t => { t with tepc := tset 0 t.tepc (n - 0x22) v }
    else if 0x26 ≤ n ∧ n ≤ 0x29 then s.modTr fun t => { t with tinfo := tset 0 t.tinfo (n - 0x26) v }
    else if 0x31 ≤ n ∧ n ≤ 0x34 then s.modQtr fun x => { x with tscr := tset 0 x.tscr (n - 0x31) v }
    else s

/-- A write of an assigned number (R108, R178, R195). -/
def writeSys (n : Nat) (v : Word) : M Unit :=
  if 0x13 ≤ n ∧ n ≤ 0x15 then writeLayout n v
  else
    match cutEng n with
    | some e => do
      waitEngine e
      act fun s => if s.core.frozen then s.modCore fun c => c.setEng e ((c.eng e).cutWrite v) else s
    | none => act fun s => s.sysWrite n v

/-- MFS (R108). -/
def execMfs (g : Guard) (d : Reg) (i : Imm) (s : State) : Host.Outcome State Fault Refusal :=
  within i (· ≤ 255) g (do
    let s ← get
    let n := s.immZ i
    if !s.sysKnown n then illegal
    if readPriv n then needPriv n
    match cutEng n with
    | some e =>
      waitEngine e
      act fun s => (s.modCore fun c => c.acquireCut e).wrS 2 d (s.core.cutValue e)
    | none => act fun s => s.wrS 2 d ((s.sysRead n).getD 0)) s

/-- MTS (R108). -/
def execMts (g : Guard) (a : Reg) (i : Imm) (s : State) : Host.Outcome State Fault Refusal :=
  within i (· ≤ 255) g (do
    let s ← get
    let n := s.immZ i
    if !s.sysKnown n then illegal
    if writePriv n then needPriv n
    writeSys n (s.rdS a)) s

/-! ### The same as events, and the registers the host writes -/

/-- The address a trap of an event reports: that of the joint stream's next bundle. -/
def State.atPc (s : State) : State := s.modIssue fun i => { i with gaddr := s.core.q0.pc, baddr := s.core.q0.pc }

/-- A write of POOLV (0x13), POOLS (0x14) or POOLC (0x15), once the engines have stopped (R195). -/
def execPoolLayoutWrite (n : BitVec 8) (v : Word) (s : State) : Host.Outcome State Fault Refusal :=
  finish (do
    if !(0x13 ≤ n.toNat && n.toNat ≤ 0x15) then illegal
    needPriv n.toNat
    writeLayout n.toNat v) s.atPc

/-- The number of an engine's cut (R88, R178). -/
def cutNum : Eng → Nat
  | .ce => 0x2A
  | .me => 0x2B
  | .ni => 0x2C
  | .tape => 0x2D
  | .cmu => 0x2E

/-- The access to a cut, once its engine has stopped; the cuts are privileged (R6, R88, R178, R228). -/
def execTcutAccess (e : Eng) (s : State) : Host.Outcome State Fault Refusal :=
  finish (do
    needPriv (cutNum e)
    waitEngine e
    act fun s => s.modCore fun c => c.acquireCut e) s

/-- Service core 0 writes FWIF (R15). -/
def execFwifWrite (v : BitVec 32) (s : State) : Host.Outcome State Fault Refusal :=
  .next (s.modDev fun d => d.setFwif v)

/-- MODE written by the host: CFULL is W1C; a change of DET or CAP waits with PEND, a later write replacing the
value that waits (R352). -/
def Plat.writeMode (p : Plat) (v : Word) : Plat :=
  let m := if v.getLsbD 3 then setBit p.mode 3 false else p.mode
  if m.getLsbD 2 || bfld v 0 2 ≠ bfld m 0 2 then { p with mode := setBit m 2 true, modeNext := v.setWidth 2 }
  else { p with mode := m }

/-- MODE_WRITE (R352). -/
def execModeWrite (v : Word) (s : State) : Host.Outcome State Fault Refusal :=
  .next (s.modDev fun d => { d with plat := d.plat.writeMode v })

/-- Bytes of the mailbox payload written (R349). -/
def Plat.writePay (p : Plat) (o : Nat) (b : List Byte) : Plat :=
  { p with mbPay := upTo b.length (fun i m => if o + i < 0xFF0 then tset 0 m (o + i) (b.getD i 0) else m) p.mbPay }

/-- A command written to the mailbox: firmware copies the payload, and what is written there later does not reach it
(R349). -/
def Plat.mbCommand (p : Plat) (v : Word) : Plat :=
  if p.mbStatus.getLsbD 0 then p
  else { p with mbCmd := v.setWidth 32 &&& 0xFF0000FF, mbStatus := setBit p.mbStatus 0 true, mbIn := p.mbPay }

/-- A 64-bit write at a BAR0 offset: RO registers and unlisted offsets ignore it (R345); a command is ignored while
BUSY (R349); DSCHED is privileged, and service core 0 writes it (R6, R34). -/
def Plat.writeReg (p : Plat) (svc0 : Bool) (off : Nat) (v : Word) : Plat :=
  if off = 0x18 then p.writeMode v
  else if off = 0x28 then { p with capbuf := v &&& ~~~(0xFFF : Word), cappos := 0 }
  else if off = 0x30 then { p with caplen := v &&& ~~~(0xFFF : Word) }
  else if off = 0x100 then if svc0 then { p with dsched := v &&& 0xFFFFFFFF00000000 } else p
  else if off = 0x1000 then p.mbCommand v
  else if 0x1010 ≤ off ∧ off < 0x2000 then p.writePay (off - 0x1010) (bytesOf 8 v.toNat)
  else p

/-- REGISTER_WRITE. DESIGN CHOICE (log 113): while service core 0 is in focus the writer is that core, else the host (R5,
R34, R345). -/
def execRegisterWrite (off : Nat) (v : Word) (s : State) : Host.Outcome State Fault Refusal :=
  .next (s.modDev fun d => { d with plat := d.plat.writeReg (s.core.num = 128) off v })

/-! ### What BAR0 and BAR4 read -/

/-- A word of BAR0 at a multiple of 8; offsets that are not listed read 0, and so does DSCHED to a reader without privilege
(R6, R345). -/
def Plat.reg (p : Plat) (svc0 : Bool) (off : Nat) : Word :=
  match off with
  | 0x0000 => p.devid
  | 0x0008 => p.fwif.setWidth 64
  | 0x0010 => p.bootstat
  | 0x0018 => p.mode
  | 0x0020 => p.telem
  | 0x0028 => p.capbuf
  | 0x0030 => p.caplen
  | 0x0038 => p.dumpptr
  | 0x0040 => p.qtbase
  | 0x0048 => p.rcbbase
  | 0x0100 => if svc0 then p.dsched else 0
  | 0x1000 => p.mbStatus ++ p.mbCmd
  | _ =>
    if 0x200 ≤ off ∧ off < 0x280 then tget 0 p.peers ((off - 0x200) / 8)
    else if 0x1010 ≤ off ∧ off < 0x2000 then
      BitVec.ofNat 64 (ofBytes ((List.range 8).map fun i => tget 0 p.mbPay (off - 0x1010 + i)))
    else 0

/-- A byte the host reads through BAR0 (R14, R15, R273, R345). -/
def Plat.bar0Byte (p : Plat) (a : Nat) : Byte := BitVec.ofNat 8 (bfld (p.reg false (8 * (a / 8))) (8 * (a % 8)) 8)

end Sys2Proof.Machine
end

