-- ==== Sys2Proof/Machine/Platform.lean ====
section
/-! DEFINITION. The platform: boot ROM (R347), mailbox and identity (R348 to R351), clock, power and thermal limits (R21,
R355), and cold reset (R213). -/

namespace Sys2Proof.Machine

/-- The platform registers changed. -/
def State.modPlat (s : State) (f : Plat → Plat) : State := s.modDev fun d => { d with plat := f d.plat }

/-! ### Boot -/

/-- A signature over the digest of bytes is good under the vendor key that comes with them, whose digest the ROM holds
(R347). -/
def FlashImage.vouched (f : FlashImage) (b sig : List Byte) : Bool :=
  Config.sha3 f.vendorKey = Config.vendorHash && Config.signed f.vendorKey (Config.sha3 b) sig

/-- Why a firmware image cannot run: the FAIL code of R347, 0 for none. -/
def bootFail (f : FlashImage) : Nat :=
  if !f.readable then 4
  else if !FlashImage.vouched f f.image f.imageSig then 1
  else if !FlashImage.vouched f f.config f.configSig then 3
  else if f.version < f.floor then 2 else 0

/-- BOOTSTAT of its fields (R347). -/
def bootWord (fwver fail img state : Nat) : Word :=
  BitVec.ofNat 64 (state + 4 * img + 256 * fail + 2 ^ 32 * fwver)

/-- The peer table of a blob (R346). -/
def peerTable (l : List (BitVec 64)) : Tab Word := upTo 16 (fun i t => tset 0 t i (l.getD i 0)) []

/-- The pool of every core and device memory scrubbed (R213, R347). -/
def State.romScrub (s : State) : State :=
  { s with
    core := { s.core with pool := .zero }
    others := (s.others.map fun e => (e.1, { e.2 with pool := .zero })).filter fun e => e.2 != .reset e.1
    dev := { s.dev with mem := [], tag := [], pois := [], l2p := [], blocks := [], sectKs := [] } }

/-- WDOG of every core from the blob (R347). -/
def State.setWdogs (s : State) (v : BitVec 32) : State :=
  upTo 132 (fun n s =>
    let c := s.coreAt n
    s.setCoreAt n { c with sys := { c.sys with wdog := v &&& 0x80FFFFFF } }) s

/-- The firmware of an image runs: what its configuration blob holds is in place (R345 to R347, R350, R355); slot 0 holds
the firmware's keys (R312). -/
def State.startImage (s : State) (f : FlashImage) (img fail : Nat) : State :=
  let s := s.setWdogs f.wdog
  let slot : KeySlot := { prov := true, xts := Config.slot0.1, gcm := Config.slot0.2, seals := 0 }
  s.modDev fun d =>
    { d with
      slots := tset .empty d.slots 0 slot
      plat := { d.plat with
        bootstat := bootWord f.version.toNat fail img 1, seed := Config.puf, qtbase := f.qtBase, qtWritten := true,
        rcbbase := f.rcbBase, rcbWritten := true, dsched := f.dsched &&& 0xFFFFFFFF00000000, peers := peerTable f.peers,
        plimit := BitVec.ofNat 16 (min 600 f.plimit.toNat), imgDigest := Config.sha3 f.image, cfgDigest := Config.sha3 f.config } }

/-- BOOT_ROM: runs once after cold reset; slot B is tried once when slot A fails (R347). -/
def execBootRom (a b : FlashImage) (s : State) : Host.Outcome State Fault Refusal :=
  .next (if bfld s.dev.plat.bootstat 0 2 ≠ 0 then s
    else
      let s := s.romScrub
      if bootFail a = 0 then s.startImage a 0 0
      else if bootFail b = 0 then s.startImage b 1 (bootFail a)
      else s.modPlat fun p => { p with bootstat := bootWord 0 (bootFail b) 0 2, seed := Config.puf })

/-! ### Cold reset and power -/

/-- COLD_RESET: every part of the device at its reset value; what lies outside it stays (R213). -/
def execColdReset (s : State) : Host.Outcome State Fault Refusal :=
  .next { State.reset with
    dev := { Device.reset with host := s.dev.host, peer := s.dev.peer, lostReads := s.dev.lostReads },
    agenda := s.agenda, turns := s.turns, fresh := s.fresh }

/-- No card is resident: none is queued, waiting, running or checkpointed (R25, R355). -/
def State.noCard (s : State) : Bool := s.idle && s.dev.disp.ckpts.isEmpty

/-- D3HOT_ENTRY: only from D0 with no card resident; device memory is kept (R355). -/
def execD3hotEntry (s : State) : Host.Outcome State Fault Refusal :=
  .next (if s.noCard && s.dev.plat.power = .d0 then s.modPlat fun p => { p with power := .d3hot } else s)

/-- D3HOT_EXIT (R355). -/
def execD3hotExit (s : State) : Host.Outcome State Fault Refusal :=
  .next (if s.dev.plat.power = .d3hot then s.modPlat fun p => { p with power := .d0 } else s)

/-- D3COLD_ENTRY: everything of the device is lost (R213, R355). -/
def execD3coldEntry (s : State) : Host.Outcome State Fault Refusal :=
  .next { State.reset with
    dev := { Device.reset with host := s.dev.host, peer := s.dev.peer, lostReads := s.dev.lostReads,
                               plat := { Plat.reset with power := .d3cold, linkUp := false } },
    agenda := s.agenda, turns := s.turns, fresh := s.fresh }

/-- Core clock in TELEM, in units of 100 MHz (R355). -/
def Plat.clock (p : Plat) : Nat := bfld p.telem 32 8

/-- The power limit: 600 W, or the lower value of the configuration blob; or the hotspot of 105 degrees is exceeded
(R355). -/
def Plat.hot (p : Plat) (watts celsius : Nat) : Bool := min 600 p.plimit.toNat < watts || 105 < celsius

/-- TELEM with a reading of power and temperature (R355). -/
def Plat.sensed (p : Plat) (watts celsius : Nat) : Plat := { p with telem := setBits (setBits p.telem 48 16 watts) 40 8 celsius }

/-- The clock moved by one step of 100 MHz: down, never below 1.4 GHz, while a limit is exceeded, else back up, never above
2.2 GHz (R21, R22, R355). -/
def Plat.clockStep (p : Plat) (down : Bool) : Plat :=
  { p with telem := setBits p.telem 32 8 (if down then max 14 (p.clock - 1) else min 22 (p.clock + 1)) }

/-- At 115 degrees the device becomes fatal, kind 3, and takes its link down (R354, R355). -/
def State.overheat (s : State) : State := (s.goFatal 3).modPlat fun p => { p with linkUp := false }

/-- CLOCK_THROTTLE: a reading of board power and hotspot temperature, and what follows from it (R21, R355). -/
def execClockThrottle (r : Reading) (s : State) : Host.Outcome State Fault Refusal :=
  let w := r.watts.toNat
  let t := r.celsius.toNat
  let s := s.modPlat fun p => p.sensed w t
  .next (if 115 ≤ t then s.overheat else s.modPlat fun p => p.clockStep (p.hot w t))

/-- THERMAL_SHUTDOWN: the hotspot reaches 115 degrees (R354, R355). -/
def execThermalShutdown (s : State) : Host.Outcome State Fault Refusal :=
  .next (s.modPlat fun p => p.sensed (bfld p.telem 48 16) 115).overheat

/-! ### The mailbox -/

/-- OP and SEQ of the command in CMD (R349). -/
def Plat.mbOp (p : Plat) : Nat := bfld p.mbCmd 0 8
def Plat.mbSeq (p : Plat) : Nat := bfld p.mbCmd 24 8
/-- A byte of the payload as firmware copied it (R349). -/
def Plat.payByte (p : Plat) (i : Nat) : Byte := tget 0 p.mbIn i
/-- A command is waiting for running firmware (R347, R349). -/
def Plat.mbBusy (p : Plat) : Bool := p.mbStatus.getLsbD 0 && bfld p.bootstat 0 2 = 1

/-- A command answered: STATUS with BUSY 0 and SEQ echoed, then MSI-X vector 0 (R349). -/
def State.mbAnswer (s : State) (code : Nat) : State :=
  let s := s.modPlat fun p => { p with mbStatus := BitVec.ofNat 32 (65536 * code + 2 ^ 24 * p.mbSeq) }
  { s with dev := s.dev.event (.msi 0) }

/-- Slots that are provisioned, as a bitmap of 32 bytes (R350). -/
def Device.slotMap (d : Device) : Nat := upTo 256 (fun i acc => acc + 2 ^ i * (d.provisioned i).toNat) 0

/-- The key-transport public key with its identity signature (R348, R350). DEDUCED (log 116): the signature is over the
key's SHA3-256 digest, as the report's is. -/
def Plat.transport (p : Plat) : List Byte :=
  let k := (List.range 1184).map (Config.transportKey p.seed)
  k ++ (List.range 2420).map (Config.identitySign p.seed (Config.sha3 k))

/-- An attestation report before its signature (R350). -/
def Device.report (d : Device) : List Byte :=
  let p := d.plat
  bytesOf 8 p.devid.toNat ++ bytesOf 8 p.bootstat.toNat ++ bytesOf 32 p.imgDigest.toNat ++ bytesOf 32 p.cfgDigest.toNat
    ++ bytesOf 8 p.mode.toNat ++ bytesOf 32 d.slotMap ++ (List.range 32).map p.payByte
    ++ p.transport

/-- The report with its signature (R350). -/
def Device.signedReport (d : Device) : List Byte :=
  d.report ++ (List.range 2420).map (Config.identitySign d.plat.seed (Config.sha3 d.report))

/-- MAILBOX_ATTEST: as much of the report as the payload holds (R349, R350). -/
def execMailboxAttest (s : State) : Host.Outcome State Fault Refusal :=
  .next (if s.dev.plat.mbBusy && s.dev.plat.mbOp = 1 then
    (s.modPlat fun p => p.writePay 0 s.dev.signedReport).mbAnswer 0
  else s)

/-- Translations that may name a key slot dropped, as by TLBINV (R313). -/
def Device.tlbFlush (d : Device) : Device := { d with tlb := [], wcache := [] }

/-- MAILBOX_KEYPROV (R349). -/
def execMailboxKeyprov (s : State) : Host.Outcome State Fault Refusal :=
  let p := s.dev.plat
  .next (if !(p.mbBusy && p.mbOp = 2) then s
    else
      let k := (p.payByte 0).toNat
      if k = 0 then s.mbAnswer 9
      else if s.dev.provisioned k then s.mbAnswer 7
      else
        match Config.kemOpen p.seed ((List.range 1200).map fun i => p.payByte (i + 1)) with
        | none => s.mbAnswer 9
        | some (xts, gcm) =>
          (s.modDev fun d =>
            { d.tlbFlush with slots := tset .empty d.slots k { prov := true, xts, gcm, seals := 0 } }).mbAnswer 0)

/-- Another provisioned slot that holds the key pair of slot `k`, under which its sectors read on (R210). -/
def Device.twinSlot (d : Device) (k : Nat) : Option Nat :=
  (d.slots.find? fun e => e.1 ≠ k && e.2.prov && e.2.xts = d.xtsKey k).map Prod.fst
/-- The bytes of sectors written under a slot, once its key is gone: what they read as is not known (R349), and their tags are
gone with it (R93; log 122). -/
def Device.loseKey (d : Device) (k fresh : Nat) : Device :=
  let sects := (d.sectKs.filter fun e => e.2.toNat = k).map Prod.fst
  match d.twinSlot k with
  | some j => { d with sectKs := sects.foldl (fun t f => tput t f (BitVec.ofNat 8 j)) d.sectKs }
  | none =>
    sects.foldl (fun d f =>
      { d with mem := upTo 64 (fun i m => tset 0 m (64 * f + i) (Config.lostKey fresh (64 * f + i))) d.mem,
               tag := tclear d.tag (4 * f) (4 * f + 4) }) d

/-- MAILBOX_KEYREVOKE: the slot's keys are zeroised (R313, R349). -/
def execMailboxKeyrevoke (s : State) : Host.Outcome State Fault Refusal :=
  let p := s.dev.plat
  .next (if !(p.mbBusy && p.mbOp = 3) then s
    else
      let k := (p.payByte 0).toNat
      if k = 0 then s.mbAnswer 9
      else
        let s1 := s.modDev fun d =>
          let d := if d.provisioned k then d.loseKey k s.fresh else d
          { d.tlbFlush with slots := tset .empty d.slots k .empty }
        { s1 with fresh := s1.fresh + 1 }.mbAnswer 0)

/-- MAILBOX_UNKNOWN_OP: ENOQ (R349). -/
def execMailboxUnknownOp (s : State) : Host.Outcome State Fault Refusal :=
  .next (if s.dev.plat.mbBusy && !([1, 2, 3].contains s.dev.plat.mbOp) then s.mbAnswer 6 else s)

end Sys2Proof.Machine
end

