-- ==== Sys2Proof/Machine/Preds.lean ====
section
/-! DEFINITION. Comparisons and predicate logic (R103, R104), and the capability instructions (R105 to R107). -/

namespace Sys2Proof.Machine

/-- CMP (R103). -/
def execCmp (g : Guard) (d a b : Reg) (w : Bool) (c : Cond) (k : Comb) (s : State) :
    Host.Outcome State Fault Refusal :=
  taped g (fun s => [recS (s.rdS a), recS (s.rdS b)])
    (fun s => s.wrP 1 d (combine k (s.rdP d) (predMask (cmpHolds w c (s.rdS a) (s.rdS b))))) s
/-- CMPI (R103). -/
def execCmpi (g : Guard) (d a : Reg) (i : Imm) (c : Cond) (k : Comb) (s : State) :
    Host.Outcome State Fault Refusal :=
  taped g (fun s => [recS (s.rdS a)])
    (fun s => s.wrP 1 d (combine k (s.rdP d) (predMask (cmpHolds false c (s.rdS a) (s.immS i))))) s
/-- PAND (R104). -/
def execPand (g : Guard) (d a b : Reg) (s : State) : Host.Outcome State Fault Refusal := pred2 g d a b (· &&& ·) s
/-- POR (R104). -/
def execPor (g : Guard) (d a b : Reg) (s : State) : Host.Outcome State Fault Refusal := pred2 g d a b (· ||| ·) s
/-- PXOR (R104). -/
def execPxor (g : Guard) (d a b : Reg) (s : State) : Host.Outcome State Fault Refusal := pred2 g d a b (· ^^^ ·) s
/-- PANDN (R104). -/
def execPandn (g : Guard) (d a b : Reg) (s : State) : Host.Outcome State Fault Refusal :=
  pred2 g d a b (fun x y => x &&& ~~~y) s
/-- PNOT (R104). -/
def execPnot (g : Guard) (d a : Reg) (s : State) : Host.Outcome State Fault Refusal :=
  pred2 g d a a (fun x _ => ~~~x) s
/-- PMOV (R104). -/
def execPmov (g : Guard) (d a : Reg) (s : State) : Host.Outcome State Fault Refusal := pred2 g d a a (fun x _ => x) s
/-- PMOV of a scalar (R104). -/
def execPmovFromScalar (g : Guard) (d a : Reg) (s : State) : Host.Outcome State Fault Refusal :=
  pureOp g (fun s => s.wrP 1 d ((s.rdS a).setWidth 32)) s

/-! ### Capabilities -/

/-- A capability with BASE and LEN moved by `n` (R105). -/
def capInc (c : CapWord) (n : Nat) : CapWord :=
  mkCap (capTag c) (capVer c) (capSpace c) (capPerm c) (capLen c + 2 ^ 48 - n % 2 ^ 48) (capBase c + n)
/-- A capability with another length (R105). -/
def capSetLen (c : CapWord) (n : Nat) : CapWord :=
  mkCap (capTag c) (capVer c) (capSpace c) (capPerm c) n (capBase c)
/-- A capability with fewer permissions (R105). -/
def capMask (c : CapWord) (m : Nat) : CapWord :=
  mkCap (capTag c) (capVer c) (capSpace c) (capPerm c &&& m) (capLen c) (capBase c)
/-- A capability with its tag replaced. -/
def capWithTag (c : CapWord) (t : Bool) : CapWord := setBit c 128 t

/-- A narrowing by `n` that traps BOUNDS when a tagged source is shorter (R105); `n` as its info word. -/
def narrow (d a : Reg) (n : Nat) (f : CapWord → Nat → CapWord) : M Unit := do
  let c := (← get).rdC a
  if capTag c && capLen c < n then
    qtrap { cause := .capfault, sub := 5, info0 := 5, info1 := a.setWidth 64, info2 := BitVec.ofNat 64 n }
  act fun s => s.wrC 1 d (f c n)

/-- CINC (R105). -/
def execCinc (g : Guard) (d a : Reg) (i : Imm) (s : State) : Host.Outcome State Fault Refusal :=
  guarded g (narrow d a (s.immZ i) capInc) s
/-- CSETB (R105). -/
def execCsetb (g : Guard) (d a : Reg) (i : Imm) (s : State) : Host.Outcome State Fault Refusal :=
  guarded g (narrow d a (s.immZ i) capSetLen) s
/-- CMOVE.inc (R105). -/
def execCmoveInc (g : Guard) (d a b : Reg) (s : State) : Host.Outcome State Fault Refusal :=
  guarded g (narrow d a (s.rdS b).toNat capInc) s
/-- CAND (R105). -/
def execCand (g : Guard) (d a b : Reg) (s : State) : Host.Outcome State Fault Refusal :=
  pureOp g (fun s => s.wrC 1 d (capMask (s.rdC a) (bfld (s.rdS b) 0 16))) s
/-- CAND.len (R105). -/
def execCandLen (g : Guard) (d a b : Reg) (s : State) : Host.Outcome State Fault Refusal :=
  pureOp g (fun s => s.wrC 1 d (capSetLen (s.rdC a) (min (capLen (s.rdC a)) (s.rdS b).toNat))) s
/-- CMOVE (R105). -/
def execCmove (g : Guard) (d a : Reg) (s : State) : Host.Outcome State Fault Refusal :=
  pureOp g (fun s => s.wrC 1 d (s.rdC a)) s
/-- CGET (R107). -/
def execCget (g : Guard) (d a : Reg) (f : CapField) (s : State) : Host.Outcome State Fault Refusal :=
  pureOp g (fun s =>
    let c := s.rdC a
    s.wrS 1 d (BitVec.ofNat 64 (match f with
      | .base => capBase c
      | .len => capLen c
      | .perm => capPerm c
      | .space => capSpace c
      | .ver => capVer c
      | .tag => (capTag c).toNat))) s

/-- The authority `a` may give pattern `b` its tag (R106). -/
def mayTag (a b : CapWord) : Bool :=
  capTag a && capSpace b = capSpace a && capVer b = capVer a && capPerm b &&& capPerm a = capPerm b
    && capPerm b < 1024 && capBase a ≤ capBase b && capBase b + capLen b ≤ capBase a + capLen a

/-- CTAG (R106). -/
def execCtag (g : Guard) (d a b : Reg) (s : State) : Host.Outcome State Fault Refusal :=
  pureOp g (fun s => s.wrC 2 d (capWithTag (s.rdC b) (mayTag (s.rdC a) (s.rdC b)))) s
/-- CTAG.clr (R106). -/
def execCtagClr (g : Guard) (d a : Reg) (s : State) : Host.Outcome State Fault Refusal :=
  pureOp g (fun s => s.wrC 2 d (capWithTag (s.rdC a) false)) s

end Sys2Proof.Machine
end

