-- ==== Sys2Proof/Machine/Tapes.lean ====
section
/-! DEFINITION. The tape syllables (R261, R263 to R267), the command TAPEREV (R268), and the engine's drain and
prefetch (R269, R271). -/

namespace Sys2Proof.Machine

/-! ### The engine's access to a tape -/

/-- Translation of a range of the tape for the tape engine, whose fault is the quarter's (R264, R269). -/
def tapeXlate (va n kind ci : Nat) : M (List Part) := fun s =>
  match s.xlateRange agTape va n kind with
  | (.ok l, s') => .ok l s'
  | (.error (a, .fail r lv), s') =>
    .error (.trap { cause := .xlate, info0 := BitVec.ofNat 64 a, info1 := xlInfo kind lv r,
                    info2 := BitVec.ofNat 64 ci, fq := s.core.issue.q }) s'
  | (.error _, s') => .error (.hold .other) s'

/-- Bytes, or POISON with the address of the first poisoned one; `va` is that of the first (R236, R266). -/
def cleanOrPoison (va : Nat) (b : List (Byte × Bool)) : M (List Byte) :=
  match b.findIdx? (·.2) with
  | some i => stopWith (poisonTrap (va + i)) []
  | none => pure (b.map (·.1))

/-- Bytes of translated parts as the slices hold them (R269). -/
def State.sliceParts (s : State) (l : List Part) : List (Byte × Bool) :=
  l.flatMap fun p => (List.range p.2.2).map fun i => s.dev.read1 (some p.2.1) (p.1 + i)

/-- A logical offset moved back (R260). -/
def backBy (c n : Nat) : Nat := (c + 2 ^ 64 - n) % 2 ^ 64

/-- `n` bytes of the region from logical offset `l`, which do not pass a multiple of 16 of it (R259, R269). -/
def regionPart (t : Tape) (l n : Nat) : M (List Byte) := do
  let va := if t.size = 0 then t.va (4096 + l) else t.at l
  let p ← tapeXlate va n 0 0
  cleanOrPoison va ((← get).sliceParts p)

/-- `k` granules of the region from logical offset `l`. -/
def regionBytes (t : Tape) (l k : Nat) : M (List Byte) := do
  let bs ← collect k fun i => regionPart t (l + 16 * i) 16
  pure bs.flatten

/-- The trailer of the record that ends at the cursor; 0 where the cursor equals TAIL (R266). -/
def trailerAt (t : Tape) : M Nat := do
  if t.cursor = t.tail then pure 0
  else
    let b ← regionPart t (backBy t.cursor 4) 4
    pure (ofBytes b)

/-- TAPEDIV (R181, R266). -/
def tapeDiv (t0 found expected : Nat) : M Unit :=
  qtrap { cause := .tapediv, info0 := BitVec.ofNat 64 t0, info1 := BitVec.ofNat 64 found,
          info2 := BitVec.ofNat 64 expected }

/-! ### Binding -/

/-- TAPEON needs a quarter without a tape (R263). -/
def needUnbound : M Unit := do if (← get).qtr.tape.phase ≠ .unbound then illegal

/-- TAPEON.rec (R264). -/
def execTapeonRec (g : Guard) (a b : Reg) (ring : Bool) (s : State) : Host.Outcome State Fault Refusal :=
  tileOnly g (do
    needUnbound
    let s ← get
    let size := (s.rdS b).toNat / 4096 * 4096
    let _ ← quarterCap a.toNat 0 (4096 + size) (permR + permW) 1 [2]
    let t : Tape := { Tape.none with phase := .record, cap := s.rdC a, ring, size }
    let l ← tapeXlate (t.va 0) 264 1 a.toNat
    act fun s => (s.writeParts l (clean (t.header true false ++ bytesOf 8 0))).modTape fun _ => t) s

/-- TAPEON.rep (R264). -/
def execTapeonRep (g : Guard) (a b : Reg) (s : State) : Host.Outcome State Fault Refusal :=
  tileOnly g (do
    needUnbound
    let s ← get
    let va ← quarterCap a.toNat 0 0x900 permR 1 [2]
    let l ← tapeXlate va 0x900 0 a.toNat
    let d ← cleanOrPoison va ((← get).readParts l)
    let t := Tape.ofDescriptor (s.rdC a) d
    let _ ← quarterCap a.toNat 0 (4096 + t.size) permR 1 [2]
    if !closedFlag d then tapeDiv t.head 0 5
    let cur := min (s.rdS b).toNat t.seg
    act fun s => s.modTape fun _ =>
      { t with phase := .replay, cur, cursor := if cur = t.seg then t.head else t.start (cur + 1),
               rstate := .before }) s

/-- The issuing quarter without a tape. -/
def State.unbindTape (s : State) : State := s.modTape fun _ => .none

/-- A release by the tape engine that the issuing quarter acquires (R264). -/
def State.tapeRelease (s : State) : State :=
  s.modCore fun c =>
    let r := c.race.release agTape
    { c with race := r.acquire c.issue.q.toNat agTape (r.curOf agTape) }

/-- The close of a tape in record phase: its mark, its records performed, its descriptor with BOUND 0 and CLOSED 1
(R264). A drain that fails on the way leaves the descriptor as it was (R269). -/
def closeTape : M Unit := do
  let t := (← get).qtr.tape
  placeMark
  let l ← tapeXlate (t.va 0) 4096 1 0
  act fun s => s.drainAll s.core.issue.q
  let t := (← get).qtr.tape
  if !t.failed then
    if t.buf ≠ [] then holdOther
    act fun s => s.writeParts l (clean (t.descriptor false true))

/-- TAPEOFF (R264, R269). -/
def execTapeoff (g : Guard) (s : State) : Host.Outcome State Fault Refusal :=
  tileOnly g (do
    let t := (← get).qtr.tape
    if t.phase ≠ .unbound then
      if t.phase = .record && !t.failed then closeTape
      act fun s => s.tapeRelease.unbindTape) s

/-! ### Recording -/

/-- The record of a register of a file (R260). -/
def State.recOf (s : State) (f : TapeFile) (a : Reg) : List Byte :=
  match f with
  | .s => recS (s.rdS a)
  | .v => recV (s.rdV a)
  | .p => recP (s.rdP a)

/-- TAPEREC (R261, R263). -/
def execTaperec (g : Guard) (f : TapeFile) (a : Reg) (s : State) : Host.Outcome State Fault Refusal :=
  fated s.unextended (tileOnly g do
    let s ← get
    recordValues [s.recOf f a]) s

/-! ### Replay -/

/-- The tape with segment cur entered (R266). -/
def enterSegment (t : Tape) : M Tape := do
  if t.lost.getLsbD t.cur then pure { t with rstate := .lost, dleft := 0, dseg := 0 }
  else
    let k := (← trailerAt t) / 2 ^ 28
    if k ≠ 5 then tapeDiv t.cursor k 5
    let m ← regionPart t (backBy t.cursor 16) 16
    pure { t with cursor := backBy t.cursor 16, dseg := ofBytes (m.take 4), dleft := 0, rstate := .inside }

/-- The tape with segment cur left, and the one before it entered (R266). -/
def leaveSegment (t : Tape) : M Tape :=
  if t.cur = 0 then pure { t with rstate := .exhausted }
  else enterSegment { t with cur := t.cur - 1, rstate := .before }

/-- TAPEMARK in replay phase (R266). -/
def replayMark (t : Tape) : M Tape := do
  match t.rstate with
  | .before => enterSegment t
  | .inside =>
    if t.cursor ≠ t.start t.cur then
      let k := (← trailerAt t) / 2 ^ 28
      tapeDiv t.cursor k t.dseg
    leaveSegment t
  | .lost => leaveSegment { t with cursor := t.start t.cur }
  | .exhausted => do
    tapeDiv t.cursor 0 5
    pure t

/-- TAPEMARK in record phase (R265, R269). -/
def recordMark : M Unit := do
  let t := (← get).qtr.tape
  if t.failed then tapeRoom 0
  if t.seg = 255 then
    qtrap { cause := .tapeovf, info0 := BitVec.ofNat 64 t.head, info1 := 256 }
  placeMark
  act fun s => s.modTape fun t =>
    { t with seg := t.seg + 1, sstart := tset 0 t.sstart (t.seg + 1) t.head, values := 0, decisions := 0 }

/-- TAPEMARK (R265, R266). -/
def execTapemark (g : Guard) (s : State) : Host.Outcome State Fault Refusal :=
  tileOnly g (do
    let t := (← get).qtr.tape
    match t.phase with
    | .unbound => pure ()
    | .record => recordMark
    | .replay =>
      let t' ← replayMark t
      act fun s => s.modTape fun _ => t') s

/-- The replay tape in state "in", or the trap of R266; `expected` is the kind the syllable expects. -/
def replayTape (expected : Nat) : M Tape := do
  let t := (← get).qtr.tape
  if t.phase ≠ .replay then stopWith (tapeDiv 0 0 expected) t
  else
    match t.rstate with
    | .inside => pure t
    | .lost =>
      stopWith (qtrap { cause := .tapelost, info0 := BitVec.ofNat 64 t.cur, info1 := BitVec.ofNat 64 t.cursor }) t
    | _ =>
      let k := (← trailerAt t) / 2 ^ 28
      stopWith (tapeDiv t.cursor k expected) t

/-- A vector register from the body of its record: the lanes of the mask take the words in order (R260). -/
def vecOfRecord (b : List Byte) : Vec :=
  let mask := ofBytes ((b.drop (b.length - 8)).take 4)
  ofLanes fun n =>
    if mask / 2 ^ n % 2 = 1 then
      let i := ((List.range n).filter fun k => mask / 2 ^ k % 2 = 1).length
      BitVec.ofNat 32 (ofBytes ((b.drop (4 * i)).take 4))
    else 0

/-- The value kind of a file, as TAPEPOP expects it (R266). -/
def fileKind : TapeFile → Nat
  | .s => 1
  | .v => 2
  | .p => 3

/-- TAPEPOP (R266). -/
def execTapepop (g : Guard) (f : TapeFile) (d : Reg) (s : State) : Host.Outcome State Fault Refusal :=
  tileOnly g (do
    let t ← replayTape (fileKind f)
    let tr ← trailerAt t
    if t.cursor = t.start t.cur || tr / 2 ^ 28 ≠ fileKind f || t.dleft ≠ 0 then
      tapeDiv t.cursor (tr / 2 ^ 28) (fileKind f)
    let len := max 1 (fld tr 24 4)
    let b ← regionBytes t (backBy t.cursor (16 * len)) len
    act fun s => s.modTape fun t => { t with cursor := backBy t.cursor (16 * len) }
    act fun s =>
      match f with
      | .s => s.wrS 6 d (BitVec.ofNat 64 (ofBytes (b.take 8)))
      | .v => s.wrV 6 d (vecOfRecord b) (BitVec.allOnes 64)
      | .p => s.wrP 6 d (BitVec.ofNat 32 (ofBytes (b.take 4)))) s

/-- BRTAPE (R266). -/
def execBrtape (g : Guard) (a : Reg) (s : State) : Host.Outcome State Fault Refusal :=
  tileOnly g (do
    let t ← replayTape 4
    let tr ← trailerAt t
    let left := if t.dleft = 0 then fld tr 0 8 else t.dleft
    if t.dleft = 0 && (tr / 2 ^ 28 ≠ 4 || left = 0) then tapeDiv t.cursor (tr / 2 ^ 28) 4
    let b ← regionBytes t (backBy t.cursor 16) 1
    let taken := ofBytes (b.take 8) / 2 ^ (left - 1) % 2 = 1
    act fun s => s.modTape fun t =>
      { t with dleft := left - 1, dseg := (t.dseg + 2 ^ 32 - 1) % 2 ^ 32,
               cursor := if left = 1 then backBy t.cursor 16 else t.cursor }
    act fun s => if taken then s.branch a else s) s

/-! ### TAPESTAT -/

/-- Code of a replay state (R267). -/
def RepState.code : RepState → Nat
  | .before => 0
  | .inside => 1
  | .lost => 2
  | .exhausted => 3
/-- Code of a phase (R267). -/
def TapePhase.code : TapePhase → Nat
  | .unbound => 0
  | .record => 1
  | .replay => 2

/-- DLEFT of R267. -/
def Tape.dleftOf (t : Tape) : Nat := if t.phase = .replay then t.dseg else t.decisions.toNat

/-- The status word of R267. -/
def Tape.status (t : Tape) : Word :=
  let rep := t.phase = .replay
  BitVec.ofNat 64 (t.phase.code + 4 * (decide (t.lost ≠ 0)).toNat + 8 * t.ring.toNat
    + 16 * (if rep then t.rstate.code else 0) + 64 * t.failed.toNat
    + 2 ^ 16 * ((if rep then t.cur else t.seg) % 256) + 2 ^ 24 * (t.oldest % 256) + 2 ^ 32 * t.dleftOf)

/-- What TAPESTAT answers (R267). -/
def Tape.stat (t : Tape) (sel : Nat) : Word :=
  if t.phase = .unbound then 0
  else if sel = 0 then t.status
  else if sel = 1 then BitVec.ofNat 64 t.head
  else if sel = 2 then BitVec.ofNat 64 t.tail
  else if sel = 3 then BitVec.ofNat 64 t.cursor
  else t.lost.extractLsb' (64 * (sel - 4)) 64

/-- TAPESTAT (R263, R267). -/
def execTapestat (g : Guard) (d : Reg) (sel : BitVec 16) (s : State) : Host.Outcome State Fault Refusal :=
  fated (s.imm16 sel ≤ 7) (tileOnly g do
    act fun s => s.wrS 2 d (s.qtr.tape.stat (s.imm16 sel))) s

/-! ### TAPEREV -/

/-- A quarter of this core that has the tape at a device address bound (R268). -/
def Core.boundTape (c : Core) (base : Nat) : Option Tape :=
  [c.q0.tape, c.q1.tape, c.q2.tape, c.q3.tape].find? fun t => t.phase ≠ .unbound && capBase t.cap = base

/-- Records of a segment from its end towards its start: values with their poison, and decisions with theirs, the
latest first; none where they are no records (R260, R268). `b` is the segment cut at the end reached. -/
def walkBack : Nat → List (Byte × Bool) → List (List (Byte × Bool)) → List (Bool × Bool) →
    Option (List (List (Byte × Bool)) × List (Bool × Bool))
  | 0, b, vs, ds => if b = [] then some (vs.reverse, ds) else none
  | n + 1, b, vs, ds =>
    if b = [] then some (vs.reverse, ds)
    else
      let g := b.drop (b.length - 16)
      let tr := ofBytes ((g.drop 12).map (·.1))
      let len := 16 * fld tr 24 4
      let r := b.drop (b.length - len)
      let rest := b.take (b.length - len)
      if len = 0 || b.length < len then none
      else if tr / 2 ^ 28 = 1 then walkBack n rest ((r.take 8 ++ clean (bytesOf 8 0)) :: vs) ds
      else if tr / 2 ^ 28 = 3 then walkBack n rest ((r.take 4 ++ clean (bytesOf 12 0)) :: vs) ds
      else if tr / 2 ^ 28 = 2 then
        let mk := (g.drop 8).take 4
        let mask := ofBytes (mk.map (·.1))
        let bad := mk.any (·.2)
        let v := (List.range 32).flatMap fun k =>
          if mask / 2 ^ k % 2 = 1 then
            (r.drop (4 * ((List.range k).filter fun j => mask / 2 ^ j % 2 = 1).length)).take 4
          else (bytesOf 4 0).map fun x => (x, bad)
        walkBack n rest (v :: vs) ds
      else if tr / 2 ^ 28 = 4 then
        let k := fld tr 0 8
        let d := (List.range k).map fun j =>
          let i := k - 1 - j
          let x := r.getD (i / 8) (0, false)
          (x.1.getLsbD (i % 8), x.2)
        walkBack n rest vs (ds ++ d)
      else none

/-- Decisions packed, the latest in bit 0, to a multiple of 16 bytes (R268). -/
def packDecisions (ds : List (Bool × Bool)) : List (Byte × Bool) :=
  (List.range (16 * cdiv ds.length 128)).map fun j =>
    let h := (ds.drop (8 * j)).take 8
    (BitVec.ofNat 8 ((h.zipIdx).foldl (fun n e => n + 2 ^ e.2 * e.1.1.toNat) 0), h.any (·.2))

/-- The output of a segment: header, values, decisions (R268). -/
def revOutput (seg : Nat) (lost : Bool) (vs : List (List (Byte × Bool))) (ds : List (Bool × Bool)) :
    List (Byte × Bool) :=
  clean (bytesOf 4 vs.length ++ bytesOf 4 ds.length ++ bytesOf 4 lost.toNat ++ bytesOf 4 seg)
    ++ vs.flatten ++ packDecisions ds

/-- The segment's bytes, in order: its range of the region is translated as it lies, in one or two parts (R259,
R378). -/
def Ctx.segment (x : Ctx) (t : Tape) (lo n : Nat) : M (List (Byte × Bool)) := do
  let first := min n (t.size - lo % t.size)
  let a ← x.xlate (t.at lo) first 0
  let b ← x.xlate (t.va 4096) (n - first) 0
  let s ← get
  pure (s.readParts a ++ s.readParts b)

/-- The output of closed segment `seg` of a tape; a segment whose records are still to be drained is waited for
(R214, R268). -/
def Ctx.revTape (x : Ctx) (t : Tape) (seg : Nat) (isOpen : Bool) : M (List (Byte × Bool)) := do
  x.need (seg ≤ t.seg && !(isOpen && seg = t.seg)) 1
  if t.lost.getLsbD seg then pure (revOutput seg true [] [])
  else
    let lo := t.start seg
    let hi := if seg = t.seg then t.head else t.start (seg + 1)
    x.need (lo ≤ hi && (hi - lo) % 16 = 0 && 16 ≤ hi - lo && hi - lo ≤ t.size) 1
    if t.buf ≠ [] && t.bufAt < hi then holdOther
    let b ← x.segment t lo (hi - lo)
    let tr := ofBytes ((b.drop (b.length - 4)).map (·.1))
    x.need (tr / 2 ^ 28 = 5 && fld tr 24 4 = 1) 1
    match walkBack (b.length / 16) (b.take (b.length - 16)) [] [] with
    | some (vs, ds) => pure (revOutput seg false vs ds)
    | none => x.command 1

/-- The rules of TAPEREV's own fields (R268). -/
def TaperevOp.ok (o : TaperevOp) : Bool :=
  o.rsvA = 0 && o.rsvB = 0 && o.len.toNat % 16 = 0 && (o.be || o.bidx = 0)

/-- TAPEREV (R268, R378). -/
def execTaperev (h : CmdHdr) (o : TaperevOp) (s : State) : Host.Outcome State Fault Refusal :=
  runCommand .tape 0x01 h (fun x => do
    x.header (TaperevOp.ok o)
    let va ← x.capAt o.ct 0 0x900 (permR + permENG) 1 [2]
    let da ← x.capAt o.cd (16 * o.doff.toNat) o.len.toNat (permW + permENG) 1 [0]
    x.bound o.be o.bidx.toNat
    let out ← (do
      match (← get).core.boundTape va with
      | some t => do
        let _ ← x.capAt o.ct 0 (4096 + t.size) (permR + permENG) 1 [2]
        x.revTape t o.seg.toNat (t.phase = .record)
      | none => do
        let l ← x.xlate va 0x900 0
        let d := ((← get).readParts l).map (·.1)
        let t := Tape.ofDescriptor (x.cap o.ct) d
        let _ ← x.capAt o.ct 0 (4096 + t.size) (permR + permENG) 1 [2]
        x.revTape t o.seg.toNat ((d.getD 0x19 0).getLsbD 0 && !closedFlag d))
    x.need (out.length ≤ o.len.toNat) 1
    let r : Rng := { space := 0, a := da, n := out.length, sw := none }
    x.race true r
    act fun s => (s.putIn (s.sink x (barOf o.be o.bidx)) { r, parts := [] } out).modEng .tape fun y =>
      { y with rev := some { base := va, seg := o.seg.toNat, out := da } }) s

/-! ### Events -/

/-- TAPE_DRAIN: one drain write of a quarter's buffer (R269, R271). -/
def execTapeDrain (q : BitVec 2) (s : State) : Host.Outcome State Fault Refusal := .next (s.drainOnce q)
/-- TAPE_REPLAY_PREFETCH: the buffer holds copies of region bytes and nothing else; it changes timing only (R271). -/
def execTapeReplayPrefetch (_ : BitVec 2) (s : State) : Host.Outcome State Fault Refusal := .next s

end Sys2Proof.Machine
end

