-- ==== Sys2Proof/Machine/Dispatch.lean ====
section
/-! DEFINITION. What each instruction does: one direct call of its meaning per constructor. -/

namespace Sys2Proof.Machine

/-- The meaning of an instruction. -/
def exec (i : Instr) (s : State) : Host.Outcome State Fault Refusal :=
  match i with
  | .add g d a b w => Sys2Proof.Machine.execAdd g d a b w s
  | .sub g d a b w => Sys2Proof.Machine.execSub g d a b w s
  | .mul g d a b w => Sys2Proof.Machine.execMul g d a b w s
  | .mulh g d a b => Sys2Proof.Machine.execMulh g d a b s
  | .mulhu g d a b => Sys2Proof.Machine.execMulhu g d a b s
  | .div g d a b w => Sys2Proof.Machine.execDiv g d a b w s
  | .divu g d a b w => Sys2Proof.Machine.execDivu g d a b w s
  | .rem g d a b w => Sys2Proof.Machine.execRem g d a b w s
  | .remu g d a b w => Sys2Proof.Machine.execRemu g d a b w s
  | .and g d a b => Sys2Proof.Machine.execAnd g d a b s
  | .or g d a b => Sys2Proof.Machine.execOr g d a b s
  | .xor g d a b => Sys2Proof.Machine.execXor g d a b s
  | .andn g d a b => Sys2Proof.Machine.execAndn g d a b s
  | .shl g d a b w => Sys2Proof.Machine.execShl g d a b w s
  | .shr g d a b w => Sys2Proof.Machine.execShr g d a b w s
  | .sra g d a b w => Sys2Proof.Machine.execSra g d a b w s
  | .rot g d a b w => Sys2Proof.Machine.execRot g d a b w s
  | .min g d a b => Sys2Proof.Machine.execMin g d a b s
  | .max g d a b => Sys2Proof.Machine.execMax g d a b s
  | .minu g d a b => Sys2Proof.Machine.execMinu g d a b s
  | .maxu g d a b => Sys2Proof.Machine.execMaxu g d a b s
  | .clz g d a => Sys2Proof.Machine.execClz g d a s
  | .ctz g d a => Sys2Proof.Machine.execCtz g d a s
  | .popc g d a => Sys2Proof.Machine.execPopc g d a s
  | .sext g d a b => Sys2Proof.Machine.execSext g d a b s
  | .zext g d a b => Sys2Proof.Machine.execZext g d a b s
  | .mov g d a => Sys2Proof.Machine.execMov g d a s
  | .movFromPredicate g d a => Sys2Proof.Machine.execMovFromPredicate g d a s
  | .sel g d a b inv => Sys2Proof.Machine.execSel g d a b inv s
  | .cmp g d a b w c k => Sys2Proof.Machine.execCmp g d a b w c k s
  | .pand g d a b => Sys2Proof.Machine.execPand g d a b s
  | .por g d a b => Sys2Proof.Machine.execPor g d a b s
  | .pxor g d a b => Sys2Proof.Machine.execPxor g d a b s
  | .pandn g d a b => Sys2Proof.Machine.execPandn g d a b s
  | .pnot g d a => Sys2Proof.Machine.execPnot g d a s
  | .pmov g d a => Sys2Proof.Machine.execPmov g d a s
  | .pmovFromScalar g d a => Sys2Proof.Machine.execPmovFromScalar g d a s
  | .cand g d a b => Sys2Proof.Machine.execCand g d a b s
  | .candLen g d a b => Sys2Proof.Machine.execCandLen g d a b s
  | .cget g d a f => Sys2Proof.Machine.execCget g d a f s
  | .cmove g d a => Sys2Proof.Machine.execCmove g d a s
  | .cmoveInc g d a b => Sys2Proof.Machine.execCmoveInc g d a b s
  | .ctag g d a b => Sys2Proof.Machine.execCtag g d a b s
  | .ctagClr g d a => Sys2Proof.Machine.execCtagClr g d a s
  | .ptbr g d a => Sys2Proof.Machine.execPtbr g d a s
  | .ptbrRd g d a => Sys2Proof.Machine.execPtbrRd g d a s
  | .br g a b inv rcd => Sys2Proof.Machine.execBr g a b inv rcd s
  | .brUnconditional g a => Sys2Proof.Machine.execBrUnconditional g a s
  | .brl g a b inv => Sys2Proof.Machine.execBrl g a b inv s
  | .brlUnconditional g a => Sys2Proof.Machine.execBrlUnconditional g a s
  | .lend g a rot => Sys2Proof.Machine.execLend g a rot s
  | .lbreak g a b => Sys2Proof.Machine.execLbreak g a b s
  | .join g a => Sys2Proof.Machine.execJoin g a s
  | .halt g => Sys2Proof.Machine.execHalt g s
  | .nop g => Sys2Proof.Machine.execNop g s
  | .yield g => Sys2Proof.Machine.execYield g s
  | .addi g d a im => Sys2Proof.Machine.execAddi g d a im s
  | .andi g d a im => Sys2Proof.Machine.execAndi g d a im s
  | .ori g d a im => Sys2Proof.Machine.execOri g d a im s
  | .xori g d a im => Sys2Proof.Machine.execXori g d a im s
  | .shli g d a im => Sys2Proof.Machine.execShli g d a im s
  | .shri g d a im => Sys2Proof.Machine.execShri g d a im s
  | .srai g d a im => Sys2Proof.Machine.execSrai g d a im s
  | .movi g d im => Sys2Proof.Machine.execMovi g d im s
  | .cmpi g d a im c k => Sys2Proof.Machine.execCmpi g d a im c k s
  | .bfx g d a im => Sys2Proof.Machine.execBfx g d a im s
  | .bfxu g d a im => Sys2Proof.Machine.execBfxu g d a im s
  | .bfi g d a im => Sys2Proof.Machine.execBfi g d a im s
  | .cinc g d a im => Sys2Proof.Machine.execCinc g d a im s
  | .csetb g d a im => Sys2Proof.Machine.execCsetb g d a im s
  | .mfs g d im => Sys2Proof.Machine.execMfs g d im s
  | .mts g a im => Sys2Proof.Machine.execMts g a im s
  | .ptb g d im => Sys2Proof.Machine.execPtb g d im s
  | .larm g d a im => Sys2Proof.Machine.execLarm g d a im s
  | .lstream g d a im => Sys2Proof.Machine.execLstream g d a im s
  | .fork g a im => Sys2Proof.Machine.execFork g a im s
  | .role g im => Sys2Proof.Machine.execRole g im s
  | .semwait g d a im cons => Sys2Proof.Machine.execSemwait g d a im cons s
  | .semsig g a im => Sys2Proof.Machine.execSemsig g a im s
  | .semadd g d a im => Sys2Proof.Machine.execSemadd g d a im s
  | .semrd g d im => Sys2Proof.Machine.execSemrd g d im s
  | .bararrive g d a im => Sys2Proof.Machine.execBararrive g d a im s
  | .barwait g a => Sys2Proof.Machine.execBarwait g a s
  | .fenceAcq g sc => Sys2Proof.Machine.execFenceAcq g sc s
  | .fenceRel g sc => Sys2Proof.Machine.execFenceRel g sc s
  | .fenceFull g sc => Sys2Proof.Machine.execFenceFull g sc s
  | .fenceSettle g => Sys2Proof.Machine.execFenceSettle g s
  | .trap g a im => Sys2Proof.Machine.execTrap g a im s
  | .taperec g f a => Sys2Proof.Machine.execTaperec g f a s
  | .tread g d im => Sys2Proof.Machine.execTread g d im s
  | .ld g d a b sz sync m => Sys2Proof.Machine.execLd g d a b sz sync m s
  | .st g d a b sz sync m => Sys2Proof.Machine.execSt g d a b sz sync m s
  | .vld g d a b sync => Sys2Proof.Machine.execVld g d a b sync s
  | .vst g d a b sync => Sys2Proof.Machine.execVst g d a b sync s
  | .vadd g d a b t rm => Sys2Proof.Machine.execVadd g d a b t rm s
  | .vsub g d a b t rm => Sys2Proof.Machine.execVsub g d a b t rm s
  | .vmul g d a b t rm => Sys2Proof.Machine.execVmul g d a b t rm s
  | .vfma g d a b t rm => Sys2Proof.Machine.execVfma g d a b t rm s
  | .vfms g d a b t rm => Sys2Proof.Machine.execVfms g d a b t rm s
  | .vmin g d a b t => Sys2Proof.Machine.execVmin g d a b t s
  | .vmax g d a b t => Sys2Proof.Machine.execVmax g d a b t s
  | .viadd g d a b h => Sys2Proof.Machine.execViadd g d a b h s
  | .visub g d a b h => Sys2Proof.Machine.execVisub g d a b h s
  | .vand g d a b => Sys2Proof.Machine.execVand g d a b s
  | .vsel g d a b inv => Sys2Proof.Machine.execVsel g d a b inv s
  | .vmov g d a => Sys2Proof.Machine.execVmov g d a s
  | .ext x => Sys2Proof.Machine.execExt x s
  | .capx ci => Sys2Proof.Machine.execCapx ci s
  | .cmdCe g cmd => Sys2Proof.Machine.execCmdCe g cmd s
  | .cmdMe g cmd => Sys2Proof.Machine.execCmdMe g cmd s
  | .cmdNi g cmd => Sys2Proof.Machine.execCmdNi g cmd s
  | .cmdTape g cmd => Sys2Proof.Machine.execCmdTape g cmd s
  | .cmdCmu g cmd => Sys2Proof.Machine.execCmdCmu g cmd s
  | .rte g => Sys2Proof.Machine.execRte g s
  | .trapen g => Sys2Proof.Machine.execTrapen g s
  | .trapdis g => Sys2Proof.Machine.execTrapdis g s
  | .ckpt g d => Sys2Proof.Machine.execCkpt g d s
  | .ctxsave g a => Sys2Proof.Machine.execCtxsave g a s
  | .ctxload g a => Sys2Proof.Machine.execCtxload g a s
  | .scrub g mask => Sys2Proof.Machine.execScrub g mask s
  | .vor g d a b => Sys2Proof.Machine.execVor g d a b s
  | .vxor g d a b => Sys2Proof.Machine.execVxor g d a b s
  | .vcmp g d a b t c hi => Sys2Proof.Machine.execVcmp g d a b t c hi s
  | .vimul g d a b t hi => Sys2Proof.Machine.execVimul g d a b t hi s
  | .vabs g d a t => Sys2Proof.Machine.execVabs g d a t s
  | .vneg g d a t => Sys2Proof.Machine.execVneg g d a t s
  | .vrcp g d a t => Sys2Proof.Machine.execVrcp g d a t s
  | .vrsq g d a t => Sys2Proof.Machine.execVrsq g d a t s
  | .vexp2 g d a t => Sys2Proof.Machine.execVexp2 g d a t s
  | .vlog2 g d a t => Sys2Proof.Machine.execVlog2 g d a t s
  | .vtanh g d a t => Sys2Proof.Machine.execVtanh g d a t s
  | .vcvt g d a dst src half rm ovs => Sys2Proof.Machine.execVcvt g d a dst src half rm ovs s
  | .vrand g d => Sys2Proof.Machine.execVrand g d s
  | .vprune g d a b => Sys2Proof.Machine.execVprune g d a b s
  | .vshl g d a b h => Sys2Proof.Machine.execVshl g d a b h s
  | .vshr g d a b h => Sys2Proof.Machine.execVshr g d a b h s
  | .vsra g d a b h => Sys2Proof.Machine.execVsra g d a b h s
  | .vimin g d a b t => Sys2Proof.Machine.execVimin g d a b t s
  | .vimax g d a b t => Sys2Proof.Machine.execVimax g d a b t s
  | .vadds g d a b t sub => Sys2Proof.Machine.execVadds g d a b t sub s
  | .vdot4 g d a b k sat => Sys2Proof.Machine.execVdot4 g d a b k sat s
  | .vbcast g d a h => Sys2Proof.Machine.execVbcast g d a h s
  | .vbcastV g d a k h => Sys2Proof.Machine.execVbcastV g d a k h s
  | .vmovs g d a b => Sys2Proof.Machine.execVmovs g d a b s
  | .vmovsFrom g d a b => Sys2Proof.Machine.execVmovsFrom g d a b s
  | .vperm g d a b h => Sys2Proof.Machine.execVperm g d a b h s
  | .vshuf g d a b pat h => Sys2Proof.Machine.execVshuf g d a b pat h s
  | .vslide g d a amt rot up => Sys2Proof.Machine.execVslide g d a amt rot up s
  | .vred g d a t op rm => Sys2Proof.Machine.execVred g d a t op rm s
  | .vscan g d a t op excl rm => Sys2Proof.Machine.execVscan g d a t op excl rm s
  | .vcompact g d a b => Sys2Proof.Machine.execVcompact g d a b s
  | .vexpand g d a b => Sys2Proof.Machine.execVexpand g d a b s
  | .vlds g d a b c h => Sys2Proof.Machine.execVlds g d a b c h s
  | .vsts g d a b c h => Sys2Proof.Machine.execVsts g d a b c h s
  | .vgath g d a b c x => Sys2Proof.Machine.execVgath g d a b c x s
  | .vscat g d a b c x => Sys2Proof.Machine.execVscat g d a b c x s
  | .pref g a b c l2 => Sys2Proof.Machine.execPref g a b c l2 s
  | .clean g a b c => Sys2Proof.Machine.execClean g a b c s
  | .inval g a b c => Sys2Proof.Machine.execInval g a b c s
  | .pin g d a b c => Sys2Proof.Machine.execPin g d a b c s
  | .unpin g d a b c => Sys2Proof.Machine.execUnpin g d a b c s
  | .vamo g d a b c op u nr => Sys2Proof.Machine.execVamo g d a b c op u nr s
  | .accrd g d a b sgn => Sys2Proof.Machine.execAccrd g d a b sgn s
  | .accwr g d a b => Sys2Proof.Machine.execAccwr g d a b s
  | .acccvt g d a b c fmt sgn rm ovs => Sys2Proof.Machine.execAcccvt g d a b c fmt sgn rm ovs s
  | .acccommit g d a => Sys2Proof.Machine.execAcccommit g d a s
  | .accdiscard g d => Sys2Proof.Machine.execAccdiscard g d s
  | .accpoison g d a b sel clr => Sys2Proof.Machine.execAccpoison g d a b sel clr s
  | .tapeonRec g a b ring => Sys2Proof.Machine.execTapeonRec g a b ring s
  | .tapeonRep g a b => Sys2Proof.Machine.execTapeonRep g a b s
  | .tapeoff g => Sys2Proof.Machine.execTapeoff g s
  | .tapemark g => Sys2Proof.Machine.execTapemark g s
  | .tapepop g f d => Sys2Proof.Machine.execTapepop g f d s
  | .brtape g a => Sys2Proof.Machine.execBrtape g a s
  | .tapestat g d sel => Sys2Proof.Machine.execTapestat g d sel s
  | .submit g d a b => Sys2Proof.Machine.execSubmit g d a b s
  | .qclaim g d a b head => Sys2Proof.Machine.execQclaim g d a b head s
  | .qpublish g d a b c head => Sys2Proof.Machine.execQpublish g d a b c head s
  | .qstat g d a sel => Sys2Proof.Machine.execQstat g d a sel s
  | .qstatReload g d a => Sys2Proof.Machine.execQstatReload g d a s
  | .qstatDisable g d a => Sys2Proof.Machine.execQstatDisable g d a s
  | .link g d b e => Sys2Proof.Machine.execLink g d b e s
  | .kick g d a b e => Sys2Proof.Machine.execKick g d a b e s
  | .chainstat g d sel e => Sys2Proof.Machine.execChainstat g d sel e s
  | .tlbinv g d a b c force => Sys2Proof.Machine.execTlbinv g d a b c force s
  | .tlbprobe g d a b => Sys2Proof.Machine.execTlbprobe g d a b s
  | .keyprobe g d a sel => Sys2Proof.Machine.execKeyprobe g d a sel s
  | .swzset g a => Sys2Proof.Machine.execSwzset g a s
  | .thrset g d a b rd => Sys2Proof.Machine.execThrset g d a b rd s
  | .dltload g d a b => Sys2Proof.Machine.execDltload g d a b s
  | .rcbsetLoad g d a => Sys2Proof.Machine.execRcbsetLoad g d a s
  | .rcbsetFail g d a b => Sys2Proof.Machine.execRcbsetFail g d a b s
  | .seminit g a im => Sys2Proof.Machine.execSeminit g a im s
  | .semcas g d a im => Sys2Proof.Machine.execSemcas g d a im s
  | .barinit g a b c => Sys2Proof.Machine.execBarinit g a b c s
  | .barexp g a b => Sys2Proof.Machine.execBarexp g a b s
  | .tsync g d a => Sys2Proof.Machine.execTsync g d a s
  | .tsyncStep g d a => Sys2Proof.Machine.execTsyncStep g d a s
  | .tsyncPtm g d => Sys2Proof.Machine.execTsyncPtm g d s
  | .pmcrd g d sel => Sys2Proof.Machine.execPmcrd g d sel s
  | .copy h o => Sys2Proof.Machine.execCopy h o s
  | .copy2d h o => Sys2Proof.Machine.execCopy2d h o s
  | .copy3d h o => Sys2Proof.Machine.execCopy3d h o s
  | .fill h o => Sys2Proof.Machine.execFill h o s
  | .mccopy h o => Sys2Proof.Machine.execMccopy h o s
  | .tgath h o => Sys2Proof.Machine.execTgath h o s
  | .tscat h o => Sys2Proof.Machine.execTscat h o s
  | .rread h o => Sys2Proof.Machine.execRread h o s
  | .rwrite h o => Sys2Proof.Machine.execRwrite h o s
  | .rsend h o => Sys2Proof.Machine.execRsend h o s
  | .taperev h o => Sys2Proof.Machine.execTaperev h o s
  | .cmscan h o => Sys2Proof.Machine.execCmscan h o s
  | .cmreset h o => Sys2Proof.Machine.execCmreset h o s
  | .cmstat h o => Sys2Proof.Machine.execCmstat h o s
  | .accz h o => Sys2Proof.Machine.execAccz h o s
  | .accld h o => Sys2Proof.Machine.execAccld h o s
  | .accst h o => Sys2Proof.Machine.execAccst h o s
  | .mma h o => Sys2Proof.Machine.execMma h o s
  | .mmaSp h o => Sys2Proof.Machine.execMmaSp h o s
  | .mmaD h o => Sys2Proof.Machine.execMmaD h o s
  | .engineCommandComplete e => Sys2Proof.Machine.execEngineCommandComplete e s
  | .reservedEngineOpcode e h op => Sys2Proof.Machine.execReservedEngineOpcode e h op s
  | .chainFetch e => Sys2Proof.Machine.execChainFetch e s
  | .niInboundAccess target fromKs a => Sys2Proof.Machine.execNiInboundAccess target fromKs a s
  | .tapeDrain q => Sys2Proof.Machine.execTapeDrain q s
  | .waitlong q => Sys2Proof.Machine.execWaitlong q s
  | .mcheck unit synd => Sys2Proof.Machine.execMcheck unit synd s
  | .cardRead qid => Sys2Proof.Machine.execCardRead qid s
  | .dispatchCore n => Sys2Proof.Machine.execDispatchCore n s
  | .checkpoint n => Sys2Proof.Machine.execCheckpoint n s
  | .kill n => Sys2Proof.Machine.execKill n s
  | .hostTailWrite off v => Sys2Proof.Machine.execHostTailWrite off v s
  | .bar2Write addr bytes => Sys2Proof.Machine.execBar2Write addr bytes s
  | .codecInputChunk slot => Sys2Proof.Machine.execCodecInputChunk slot s
  | .codecFramePost slot f => Sys2Proof.Machine.execCodecFramePost slot f s
  | .distillerLaneEntry k => Sys2Proof.Machine.execDistillerLaneEntry k s
  | .distillerLaneCompletion k => Sys2Proof.Machine.execDistillerLaneCompletion k s
  | .pageWalk rcb va kind agent core => Sys2Proof.Machine.execPageWalk rcb va kind agent core s
  | .bootRom a b => Sys2Proof.Machine.execBootRom a b s
  | .fwifWrite v => Sys2Proof.Machine.execFwifWrite v s
  | .poolLayoutWrite n v => Sys2Proof.Machine.execPoolLayoutWrite n v s
  | .tcutAccess e => Sys2Proof.Machine.execTcutAccess e s
  | .modeWrite v => Sys2Proof.Machine.execModeWrite v s
  | .registerWrite off v => Sys2Proof.Machine.execRegisterWrite off v s
  | .bar2Read addr len => Sys2Proof.Machine.execBar2Read addr len s
  | .rreadReply elem bytes poisoned => Sys2Proof.Machine.execRreadReply elem bytes poisoned s
  | .hostReadTimeout addr len => Sys2Proof.Machine.execHostReadTimeout addr len s
  | .tapeReplayPrefetch q => Sys2Proof.Machine.execTapeReplayPrefetch q s
  | .strandPromotion q => Sys2Proof.Machine.execStrandPromotion q s
  | .keyReservation qid ctr => Sys2Proof.Machine.execKeyReservation qid ctr s
  | .tokenRefill rcb cycles => Sys2Proof.Machine.execTokenRefill rcb cycles s
  | .queueCounterWriteback qid => Sys2Proof.Machine.execQueueCounterWriteback qid s
  | .clockThrottle r => Sys2Proof.Machine.execClockThrottle r s
  | .timeAdvance ns => Sys2Proof.Machine.execTimeAdvance ns s
  | .preemptionDecision qid ctr => Sys2Proof.Machine.execPreemptionDecision qid ctr s
  | .drainTimeout n => Sys2Proof.Machine.execDrainTimeout n s
  | .spec => Sys2Proof.Machine.execSpec s
  | .tape => Sys2Proof.Machine.execTape s
  | .latencyModeSwitch => Sys2Proof.Machine.execLatencyModeSwitch s
  | .trapEntry => Sys2Proof.Machine.execTrapEntry s
  | .dispatchRound => Sys2Proof.Machine.execDispatchRound s
  | .runEnd => Sys2Proof.Machine.execRunEnd s
  | .pageQueueEntry => Sys2Proof.Machine.execPageQueueEntry s
  | .coldReset => Sys2Proof.Machine.execColdReset s
  | .modeChange => Sys2Proof.Machine.execModeChange s
  | .mailboxAttest => Sys2Proof.Machine.execMailboxAttest s
  | .mailboxKeyprov => Sys2Proof.Machine.execMailboxKeyprov s
  | .mailboxKeyrevoke => Sys2Proof.Machine.execMailboxKeyrevoke s
  | .mailboxUnknownOp => Sys2Proof.Machine.execMailboxUnknownOp s
  | .thermalShutdown => Sys2Proof.Machine.execThermalShutdown s
  | .d3hotEntry => Sys2Proof.Machine.execD3hotEntry s
  | .resultDelivery => Sys2Proof.Machine.execResultDelivery s
  | .d3hotExit => Sys2Proof.Machine.execD3hotExit s
  | .d3coldEntry => Sys2Proof.Machine.execD3coldEntry s
  | .reservedEncoding => Sys2Proof.Machine.execReservedEncoding s

end Sys2Proof.Machine
end

