-- ==== Sys2Proof/Machine/Step.lean ====
section
/-! DEFINITION. One step of the machine, and how an instruction is placed where the next step fetches it. -/

namespace Sys2Proof.Machine

/-- One step. -/
def step (s : State) : Host.Outcome State Fault Refusal := stepWith exec s

/-- The words that make an instruction of bits `w` one bundle of a joint line: STOP on its target; a prefix stands
before a guarded-off target that admits it (R70, R72). -/
def bundleWords (nbits w : Nat) : List (BitVec 32) :=
  let ws := tableWords nbits w
  let w0 := ws.headD 0
  let sl := slotOf w0
  match majorOf w0 with
  | 0x6C => [w0] ++ encode (.addi (some 0) 0 0 (.long 0)) sl true
  | 0x6D => [w0] ++ encode (.ld (some 0) 0 0 0 .d .none false) sl true
  | 0x6E => [w0] ++ encode (.cmdMe (some 0) 0x40) sl true
  | 0x6F => [w0] ++ encode (.add (some 0) 0 0 0 false) sl true
  | _ => (w0 ||| (1#32 <<< 31)) :: ws.drop 1

/-- A joint scoreboard line of KIND 01 that holds these words from position 0 (R61). -/
def lineOf (ws : List (BitVec 32)) : BitVec 512 :=
  BitVec.ofNat 512 (0x42000000 +
    upTo 15 (fun p acc => acc + 2 ^ (32 + 32 * p) * (ws.getD p 0).toNat) 0)

/-- The machine with an instruction of bits `w` placed where `step` fetches next: the joint stream of the core in
focus runs, at position 0 of a line of its line buffer that holds the instruction, with a run in residence and
nothing else to do first. -/
def State.withFetchWord (s : State) (nbits w : Nat) : State :=
  let la := s.core.q0.pc.toNat / 64
  let c := s.core
  { s with
    agenda := [], turns := [], flips := [],
    dev := { s.dev with disp := { s.dev.disp with due := false } },
    core := { c with
      joint := true,
      lines := tput c.lines la (lineOf (bundleWords nbits w)),
      q0 := { c.q0 with pc := BitVec.ofNat 64 (64 * la + 4), st := .running, viaLink := false },
      q1 := { c.q1 with st := .running }, q2 := { c.q2 with st := .running }, q3 := { c.q3 with st := .running } } }

end Sys2Proof.Machine
end

