-- ==== Sys2Proof/Safety.lean ====
section
/-! DEFINITION. What counts as a sound state and a safe run: the canonical form of the memories, the legal values of the
privileged registers, and the outcomes a run may have. -/

namespace Sys2Proof.Machine

/-- A memory as the state lists it: addresses and bytes. -/
abbrev Memory := List Host.Cell

/-- The canonical form of a memory: addresses strictly rise and no listed byte is 0, which is what an unlisted address
reads as (R213). -/
def Memory.wf (m : Memory) : Bool := twf 0 m

/-- The memories of the device, with the tags and the poison of its granules, are in canonical form. -/
def Device.wf (d : Device) : Bool :=
  Memory.wf d.mem && twf false d.tag && twf false d.pois && twf none d.l2p && Memory.wf d.host && Memory.wf d.peer

/-- The memories of the whole machine are in canonical form. -/
def State.wf (s : State) : Bool := s.dev.wf

/-- The bytes, side arrays and writer records of a pool are in canonical form. -/
def Pool.canonical (p : Pool) : Prop :=
  twf 0 p.bytes = true ∧ twf false p.full = true ∧ twf false p.tag = true ∧ twf false p.pois = true
    ∧ twf (0, 0) p.wrec = true ∧ twf none p.own = true

/-- The register tables of a quarter are in canonical form. -/
def Quarter.canonical (x : Quarter) : Prop :=
  twf 0 x.s = true ∧ twf 0 x.p = true ∧ twf 0 x.c = true ∧ twf 0 x.v = true ∧ twf 0 x.b = true ∧ twf .zero x.l = true
    ∧ twf 0 x.tscr = true

/-- Claimed ranges lie in order between two counters of a queue (R275). -/
def claimsWithin : List Claim → BitVec 32 → BitVec 32 → Prop
  | [], _, _ => True
  | c :: r, t, u => (c.first - t).toNat + c.count ≤ (u - t).toNat ∧ claimsWithin r (c.first + BitVec.ofNat 32 c.count) u

/-- R274, R275: HEAD, CCLAIM, TAIL and PCLAIM stand in order within the slots of the ring, and the claimed ranges of each side
between its two counters. -/
def Queue.inOrder (q : Queue) : Prop :=
  (q.cclaim - q.head).toNat ≤ (q.tail - q.head).toNat ∧ (q.tail - q.head).toNat ≤ (q.pclaim - q.head).toNat
    ∧ (q.pclaim - q.head).toNat ≤ q.slots ∧ claimsWithin q.claimsT q.tail q.pclaim ∧ claimsWithin q.claimsH q.head q.cclaim

/-- The outcome is a next state. -/
def goesOn (o : Host.Outcome State Fault Refusal) : Prop :=
  match o with
  | .next _ => True
  | _ => False

/-- A run of `n` steps that neither stops on a fault nor on a refusal. -/
def safeFor (s : State) : Nat → Prop
  | 0 => True
  | n + 1 =>
    match step s with
    | .next t => safeFor t n
    | _ => False

/-- The bundle in issue has been stopped by nothing: the instruction has had its own effect. -/
def State.unstopped (s : State) : Prop := s.core.issue.stop = none

/-! ### What a statement about a step supposes -/

/-- The bundle `b` of line `l` at a stream's address, about to run its groups: results due are delivered, a scoreboard
line leaves none in flight (R32), and the bundle's context is laid down with its continuation (R117). -/
def bundleState (s : State) (k : BitVec 2) (l : BitVec 512) (b : Bundle) : State × Bool :=
  let c := s.core.deliverDue
  let pc := (c.quarter k).pc
  let s0 : State := { s with core := { c with issue := issueOf k c.joint false pc (.at pc) } }
  let owner := if c.joint then 4 else k.toNat
  let n := s0.contOf owner (BitVec.ofNat 64 (pc.toNat / 64 * 64)) l b.next
  let c1 := s0.core.settled k (latOf l)
  ({ s0 with core := { c1 with issue := { issueOf k c1.joint (latOf l) pc n with perf := c1.perf } } }, n.via)

/-- R70, R71: a stream stands at a bundle of one group without prefixes, in a line of its own that is in the line
buffer, and its words decode to `i`. -/
structure StandsAt (s : State) (k : BitVec 2) (l : BitVec 512) (b : Bundle) (g : Group) (y : Syllable) : Prop where
  aligned : (s.core.quarter k).pc.toNat % 4 = 0 ∧ (s.core.quarter k).pc.toNat % 64 ≠ 0
  line : tfind s.core.lines ((s.core.quarter k).pc.toNat / 64) = some l
  owner : lineOk (if s.core.joint then 4 else k.toNat) l = true
  full : lineEmpty l = false
  bundle : (bundlesOf l).find? (fun b => 4 + 4 * b.pos = (s.core.quarter k).pc.toNat % 64) = some b
  single : b.groups = [g]
  bare : g.pre = []
  whole : g.whole = true
  last : g.stop = true
  slot : s.core.joint = false → g.slot = 0
  decodes : decodeSyllable g.words = .ok y
  mode : s.core.otherMode k (latOf l) = true → s.core.enginesEmpty = true

/-- Nothing stands before the core's own work: no agenda, no turn, no memory error, the device up and awake, no dispatch
round due, no trap pending, no checkpoint or kill in its window, the run not over. -/
structure CoreActs (s : State) : Prop where
  agenda : s.agenda = []
  turns : s.turns = []
  flips : s.flips = []
  up : s.dev.down = none
  awake : s.dev.awake = true
  idle : s.dev.disp.due = false
  calm : s.core.pendingTrap = none
  stays : s.core.stopsNow = false
  runs : s.core.runOver = false

/-- R72, R101: the immediate of a form B instruction: 8 or 16 bits, or 28 or 36 with EXT standing before it. -/
def immBits (s : State) (i : Imm) : Nat × Nat :=
  match s.core.issue.ext, i with
  | none, .short v => (v.toNat, 8)
  | none, .long v => (v.toNat, 16)
  | some x, .short v => (256 * x.toNat + v.toNat, 28)
  | some x, .long v => (65536 * x.toNat + v.toNat, 36)

/-- R77, R180: an engine takes the command at the head of its queue: it is neither stopped nor done with it, may start
it, and its wait passes or has passed; what its command works with, and the state it begins in. -/
def State.begins (s : State) (e : Eng) (op : Nat) (h : CmdHdr) : Option (Ctx × State) :=
  let y := s.core.eng e
  match y.queue with
  | [] => none
  | c :: _ =>
    if y.flt || y.phase = .done then none
    else if y.phase = .waiting then
      if !s.core.mayStart || s.waitsStill h then none
      else some (ctxOf (s.passWait e h c) e op h c, s.passWait e h c)
    else some (ctxOf s e op h c, s)

/-- The work of the command at the head is complete; its signal is to come (R77). -/
def State.finished (s : State) (e : Eng) : State := s.modEng e fun y => { y with phase := .done, ver := none, part := none, rest := none }

/-- R76: the header fields of a command that hands nothing on obey their rules. -/
def CmdHdr.plain (h : CmdHdr) (inl : Bool) : Prop :=
  h.rsvA = 0 ∧ h.rsvB = 0 ∧ h.f = false ∧ (h.we = false → h.wc = false ∧ h.widx = 0 ∧ h.wthr = 0)
    ∧ (h.se = false → h.sidx = 0 ∧ h.sinc = 0) ∧ (inl = true → h.cq = 0)

/-- R164: an operand field of ACCZ, ACCLD and ACCST with nothing set. -/
def AccOp.empty : AccOp :=
  { acc := 0, rsvA := 0, lfmt := 0, ty := false, rsvB := 0, ca := 0, rsvC := 0, swa := 0, swae := false, rsvD := 0,
    offa := 0, rsvE := 0, stra := 0, rsvF := 0 }

/-- R56: one K-step takes an FP32 accumulator from `acc` to `w` by the products `ps`. -/
def FloatStep (acc : BitVec 32) (ps : List FVal) (w : BitVec 32) : Prop :=
  let a := fp32.val acc.toNat
  let rounded := fun (v : FVal) => BitVec.ofNat 32 (fp32.conv .rne true v)
  let bad := a = .nan ∨ .nan ∈ ps ∨ (.inf false ∈ ps ∧ .inf true ∈ ps)
  (bad → w = 0x7FC00000)
    ∧ (∀ g, ¬ bad → .inf g ∈ ps → w = rounded (a.add .rne (.inf g)))
    ∧ (¬ bad → (∀ p ∈ ps, p.special = false) →
        ((∀ p ∈ ps, p.log2 = none) → w = acc)
          ∧ ∀ e : Int, (∃ p ∈ ps, p.log2 = some e) → (∀ p ∈ ps, ∀ k, p.log2 = some k → k ≤ e) →
              let n := ps.foldl (fun n p => n + truncAt (e - 40) p) 0
              (n = 0 → w = acc) ∧ (n ≠ 0 → w = rounded (a.add .rne (.fin (n < 0) n.natAbs (e - 40)))))

/-! ### Destinations -/

/-- A destination register of a quarter. -/
inductive Dst | s (r : Reg) | p (r : Reg) | c (r : Reg) | v (r : Reg)
  deriving DecidableEq, Repr

end Sys2Proof.Machine

namespace Sys2Proof
open Sys2Proof.Machine

/-- The divisions, which claim the divider (R99, R109). -/
def Instr.divides : Instr → Bool
  | .div .. | .divu .. | .rem .. | .remu .. => true
  | _ => false

/-- Where a scalar, predicate or capability instruction writes (R98, R101, R103 to R107). -/
def Instr.scalarDst : Instr → Option Dst
  | .add _ d _ _ _ | .sub _ d _ _ _ | .mul _ d _ _ _ | .div _ d _ _ _ | .divu _ d _ _ _ | .rem _ d _ _ _
  | .remu _ d _ _ _ | .shl _ d _ _ _ | .shr _ d _ _ _ | .sra _ d _ _ _ | .rot _ d _ _ _ | .sel _ d _ _ _ => some (.s d)
  | .mulh _ d _ _ | .mulhu _ d _ _ | .and _ d _ _ | .or _ d _ _ | .xor _ d _ _ | .andn _ d _ _ | .min _ d _ _
  | .max _ d _ _ | .minu _ d _ _ | .maxu _ d _ _ | .sext _ d _ _ | .zext _ d _ _ => some (.s d)
  | .clz _ d _ | .ctz _ d _ | .popc _ d _ | .mov _ d _ | .movFromPredicate _ d _ | .movi _ d _ => some (.s d)
  | .addi _ d _ _ | .andi _ d _ _ | .ori _ d _ _ | .xori _ d _ _ | .shli _ d _ _ | .shri _ d _ _ | .srai _ d _ _
  | .bfx _ d _ _ | .bfxu _ d _ _ | .bfi _ d _ _ | .cget _ d _ _ => some (.s d)
  | .cmp _ d _ _ _ _ _ => some (.p d)
  | .cmpi _ d _ _ _ _ => some (.p d)
  | .pand _ d _ _ | .por _ d _ _ | .pxor _ d _ _ | .pandn _ d _ _ => some (.p d)
  | .pnot _ d _ | .pmov _ d _ | .pmovFromScalar _ d _ => some (.p d)
  | .cand _ d _ _ | .candLen _ d _ _ | .cmoveInc _ d _ _ | .ctag _ d _ _ => some (.c d)
  | .cmove _ d _ | .ctagClr _ d _ => some (.c d)
  | .cinc _ d _ _ | .csetb _ d _ _ => some (.c d)
  | _ => none

/-- The guard of a vector instruction and where it writes (R135). -/
def Instr.vectorDst : Instr → Option (Guard × Dst)
  | .vadd g d _ _ _ _ | .vsub g d _ _ _ _ | .vmul g d _ _ _ _ | .vfma g d _ _ _ _ | .vfms g d _ _ _ _ => some (g, .v d)
  | .vmin g d _ _ _ | .vmax g d _ _ _ | .viadd g d _ _ _ | .visub g d _ _ _ | .vsel g d _ _ _ => some (g, .v d)
  | .vand g d _ _ | .vor g d _ _ | .vxor g d _ _ | .vprune g d _ _ | .vcompact g d _ _ | .vexpand g d _ _ => some (g, .v d)
  | .vmov g d _ | .vrand g d | .vmovs g d _ _ => some (g, .v d)
  | .vimul g d _ _ _ _ | .vadds g d _ _ _ _ | .vdot4 g d _ _ _ _ | .vshuf g d _ _ _ _ => some (g, .v d)
  | .vimin g d _ _ _ | .vimax g d _ _ _ | .vshl g d _ _ _ | .vshr g d _ _ _ | .vsra g d _ _ _ => some (g, .v d)
  | .vabs g d _ _ | .vneg g d _ _ | .vrcp g d _ _ | .vrsq g d _ _ | .vexp2 g d _ _ | .vlog2 g d _ _ => some (g, .v d)
  | .vtanh g d _ _ | .vbcast g d _ _ => some (g, .v d)
  | .vcvt g d _ _ _ _ _ _ => some (g, .v d)
  | .vbcastV g d _ _ _ | .vperm g d _ _ _ | .vslide g d _ _ _ _ => some (g, .v d)
  | .vscan g d _ _ _ _ _ => some (g, .v d)
  | .vcmp g d _ _ _ _ _ => some (g, .p d)
  | .vmovsFrom g d _ _ => some (g, .s d)
  | .vred g d _ _ _ _ => some (g, .s d)
  | _ => none

/-- The guard of a syllable that has one (R67). -/
def Instr.guard : Instr → Option Guard
  | .add g .. | .sub g .. | .mul g .. | .mulh g .. | .mulhu g .. | .div g .. | .divu g .. | .rem g .. | .remu g ..
  | .and g .. | .or g .. | .xor g .. | .andn g .. | .shl g .. | .shr g .. | .sra g .. | .rot g .. | .min g ..
  | .max g .. | .minu g .. | .maxu g .. | .clz g .. | .ctz g .. | .popc g .. | .sext g .. | .zext g .. | .mov g ..
  | .movFromPredicate g .. | .sel g .. | .cmp g .. | .pand g .. | .por g .. | .pxor g .. | .pandn g .. | .pnot g ..
  | .pmov g .. | .pmovFromScalar g .. | .cand g .. | .candLen g .. | .cget g .. | .cmove g .. | .cmoveInc g ..
  | .ctag g .. | .ctagClr g .. | .ptbr g .. | .ptbrRd g .. | .br g .. | .brUnconditional g .. | .brl g ..
  | .brlUnconditional g .. | .lend g .. | .lbreak g .. | .join g .. | .halt g | .nop g | .yield g | .addi g ..
  | .andi g .. | .ori g .. | .xori g .. | .shli g .. | .shri g .. | .srai g .. | .movi g .. | .cmpi g .. | .bfx g ..
  | .bfxu g .. | .bfi g .. | .cinc g .. | .csetb g .. | .mfs g .. | .mts g .. | .ptb g .. | .larm g ..
  | .lstream g .. | .fork g .. | .role g .. | .semwait g .. | .semsig g .. | .semadd g .. | .semrd g ..
  | .bararrive g .. | .barwait g .. | .fenceAcq g .. | .fenceRel g .. | .fenceFull g .. | .fenceSettle g | .trap g ..
  | .taperec g .. | .tread g .. | .ld g .. | .st g .. | .vld g .. | .vst g .. | .vadd g .. | .vsub g .. | .vmul g ..
  | .vfma g .. | .vfms g .. | .vmin g .. | .vmax g .. | .viadd g .. | .visub g .. | .vand g .. | .vsel g ..
  | .vmov g .. | .cmdCe g .. | .cmdMe g .. | .cmdNi g .. | .cmdTape g .. | .cmdCmu g .. | .rte g | .trapen g
  | .trapdis g | .ckpt g .. | .ctxsave g .. | .ctxload g .. | .scrub g .. | .vor g .. | .vxor g .. | .vcmp g ..
  | .vimul g .. | .vabs g .. | .vneg g .. | .vrcp g .. | .vrsq g .. | .vexp2 g .. | .vlog2 g .. | .vtanh g ..
  | .vcvt g .. | .vrand g .. | .vprune g .. | .vshl g .. | .vshr g .. | .vsra g .. | .vimin g .. | .vimax g ..
  | .vadds g .. | .vdot4 g .. | .vbcast g .. | .vbcastV g .. | .vmovs g .. | .vmovsFrom g .. | .vperm g ..
  | .vshuf g .. | .vslide g .. | .vred g .. | .vscan g .. | .vcompact g .. | .vexpand g .. | .vlds g .. | .vsts g ..
  | .vgath g .. | .vscat g .. | .pref g .. | .clean g .. | .inval g .. | .pin g .. | .unpin g .. | .vamo g ..
  | .accrd g .. | .accwr g .. | .acccvt g .. | .acccommit g .. | .accdiscard g .. | .accpoison g .. | .tapeonRec g ..
  | .tapeonRep g .. | .tapeoff g | .tapemark g | .tapepop g .. | .brtape g .. | .tapestat g .. | .submit g ..
  | .qclaim g .. | .qpublish g .. | .qstat g .. | .qstatReload g .. | .qstatDisable g .. | .link g .. | .kick g ..
  | .chainstat g .. | .tlbinv g .. | .tlbprobe g .. | .keyprobe g .. | .swzset g .. | .thrset g .. | .dltload g ..
  | .rcbsetLoad g .. | .rcbsetFail g .. | .seminit g .. | .semcas g .. | .barinit g .. | .barexp g .. | .tsync g ..
  | .tsyncStep g .. | .tsyncPtm g .. | .pmcrd g .. => some g
  | _ => none

/-- The syllables whose guard names lanes (R67). -/
def Instr.byLanes (i : Instr) : Bool :=
  i.vectorDst.isSome ||
    match i with
    | .vld .. | .vst .. | .vlds .. | .vsts .. | .vgath .. | .vscat .. | .vamo .. | .accrd .. | .accwr .. | .acccvt .. => true
    | _ => false

/-- The vector instructions whose elements need not lie in their own lanes: VCVT at two widths names a half (R139), and
VCOMPACT fills every lane (R144). -/
def Instr.crossesLanes : Instr → Bool
  | .vcvt .. | .vcompact .. => true
  | _ => false

end Sys2Proof
end

