-- ==== Sys2Proof/Laws/State.lean ====
section
/-! SUPPORT. What each update of the state leaves as it was and what it sets, one lemma for each field, so that no proof
unfolds a record update. -/

namespace Sys2Proof.Machine

/-! ### The machine -/

@[simp] theorem State.modCore_others (s : State) (f : Core → Core) : (s.modCore f).others = s.others := rfl
@[simp] theorem State.modCore_dev (s : State) (f : Core → Core) : (s.modCore f).dev = s.dev := rfl
@[simp] theorem State.modCore_agenda (s : State) (f : Core → Core) : (s.modCore f).agenda = s.agenda := rfl
@[simp] theorem State.modCore_turns (s : State) (f : Core → Core) : (s.modCore f).turns = s.turns := rfl
@[simp] theorem State.modCore_flips (s : State) (f : Core → Core) : (s.modCore f).flips = s.flips := rfl
@[simp] theorem State.modCore_fresh (s : State) (f : Core → Core) : (s.modCore f).fresh = s.fresh := rfl
@[simp] theorem State.modCore_core (s : State) (f : Core → Core) : (s.modCore f).core = f s.core := rfl
@[simp] theorem State.modDev_core (s : State) (f : Device → Device) : (s.modDev f).core = s.core := rfl
@[simp] theorem State.modDev_others (s : State) (f : Device → Device) : (s.modDev f).others = s.others := rfl
@[simp] theorem State.modDev_agenda (s : State) (f : Device → Device) : (s.modDev f).agenda = s.agenda := rfl
@[simp] theorem State.modDev_turns (s : State) (f : Device → Device) : (s.modDev f).turns = s.turns := rfl
@[simp] theorem State.modDev_flips (s : State) (f : Device → Device) : (s.modDev f).flips = s.flips := rfl
@[simp] theorem State.modDev_fresh (s : State) (f : Device → Device) : (s.modDev f).fresh = s.fresh := rfl
@[simp] theorem State.modDev_dev (s : State) (f : Device → Device) : (s.modDev f).dev = f s.dev := rfl
@[simp] theorem State.modIssue_others (s : State) (f : Issue → Issue) : (s.modIssue f).others = s.others := rfl
@[simp] theorem State.modIssue_dev (s : State) (f : Issue → Issue) : (s.modIssue f).dev = s.dev := rfl
@[simp] theorem State.modIssue_agenda (s : State) (f : Issue → Issue) : (s.modIssue f).agenda = s.agenda := rfl
@[simp] theorem State.modIssue_turns (s : State) (f : Issue → Issue) : (s.modIssue f).turns = s.turns := rfl
@[simp] theorem State.modIssue_flips (s : State) (f : Issue → Issue) : (s.modIssue f).flips = s.flips := rfl
@[simp] theorem State.modIssue_fresh (s : State) (f : Issue → Issue) : (s.modIssue f).fresh = s.fresh := rfl
@[simp] theorem State.modIssue_core (s : State) (f : Issue → Issue) : (s.modIssue f).core = { s.core with issue := f s.core.issue } := rfl
@[simp] theorem State.modQtr_others (s : State) (f : Quarter → Quarter) : (s.modQtr f).others = s.others := rfl
@[simp] theorem State.modQtr_dev (s : State) (f : Quarter → Quarter) : (s.modQtr f).dev = s.dev := rfl
@[simp] theorem State.modQtr_agenda (s : State) (f : Quarter → Quarter) : (s.modQtr f).agenda = s.agenda := rfl
@[simp] theorem State.modQtr_turns (s : State) (f : Quarter → Quarter) : (s.modQtr f).turns = s.turns := rfl
@[simp] theorem State.modQtr_flips (s : State) (f : Quarter → Quarter) : (s.modQtr f).flips = s.flips := rfl
@[simp] theorem State.modQtr_fresh (s : State) (f : Quarter → Quarter) : (s.modQtr f).fresh = s.fresh := rfl
@[simp] theorem State.modQtr_core (s : State) (f : Quarter → Quarter) : (s.modQtr f).core = s.core.setQuarter s.core.issue.q (f s.qtr) := rfl

/-! ### A core -/

@[simp] theorem Core.setQuarter_num (c : Core) (k : BitVec 2) (x : Quarter) : (c.setQuarter k x).num = c.num := by
  unfold Core.setQuarter; split <;> rfl
@[simp] theorem Core.setQuarter_pmask (c : Core) (k : BitVec 2) (x : Quarter) : (c.setQuarter k x).pmask = c.pmask := by
  unfold Core.setQuarter; split <;> rfl
@[simp] theorem Core.setQuarter_jsync (c : Core) (k : BitVec 2) (x : Quarter) : (c.setQuarter k x).jsync = c.jsync := by
  unfold Core.setQuarter; split <;> rfl
@[simp] theorem Core.setQuarter_joint (c : Core) (k : BitVec 2) (x : Quarter) : (c.setQuarter k x).joint = c.joint := by
  unfold Core.setQuarter; split <;> rfl
@[simp] theorem Core.setQuarter_issue (c : Core) (k : BitVec 2) (x : Quarter) : (c.setQuarter k x).issue = c.issue := by
  unfold Core.setQuarter; split <;> rfl
@[simp] theorem Core.setQuarter_frozen (c : Core) (k : BitVec 2) (x : Quarter) : (c.setQuarter k x).frozen = c.frozen := by
  unfold Core.setQuarter; split <;> rfl
@[simp] theorem Core.setQuarter_ldArmed (c : Core) (k : BitVec 2) (x : Quarter) : (c.setQuarter k x).ldArmed = c.ldArmed := by
  unfold Core.setQuarter; split <;> rfl
@[simp] theorem Core.setQuarter_mcheck (c : Core) (k : BitVec 2) (x : Quarter) : (c.setQuarter k x).mcheck = c.mcheck := by
  unfold Core.setQuarter; split <;> rfl
@[simp] theorem Core.setQuarter_stopping (c : Core) (k : BitVec 2) (x : Quarter) : (c.setQuarter k x).stopping = c.stopping := by
  unfold Core.setQuarter; split <;> rfl
@[simp] theorem Core.setQuarter_tr (c : Core) (k : BitVec 2) (x : Quarter) : (c.setQuarter k x).tr = c.tr := by
  unfold Core.setQuarter; split <;> rfl
@[simp] theorem Core.setQuarter_sys (c : Core) (k : BitVec 2) (x : Quarter) : (c.setQuarter k x).sys = c.sys := by
  unfold Core.setQuarter; split <;> rfl
@[simp] theorem Core.setQuarter_acc (c : Core) (k : BitVec 2) (x : Quarter) : (c.setQuarter k x).acc = c.acc := by
  unfold Core.setQuarter; split <;> rfl
@[simp] theorem Core.setQuarter_sems (c : Core) (k : BitVec 2) (x : Quarter) : (c.setQuarter k x).sems = c.sems := by
  unfold Core.setQuarter; split <;> rfl
@[simp] theorem Core.setQuarter_bars (c : Core) (k : BitVec 2) (x : Quarter) : (c.setQuarter k x).bars = c.bars := by
  unfold Core.setQuarter; split <;> rfl
@[simp] theorem Core.setQuarter_swz (c : Core) (k : BitVec 2) (x : Quarter) : (c.setQuarter k x).swz = c.swz := by
  unfold Core.setQuarter; split <;> rfl
@[simp] theorem Core.setQuarter_pool (c : Core) (k : BitVec 2) (x : Quarter) : (c.setQuarter k x).pool = c.pool := by
  unfold Core.setQuarter; split <;> rfl
@[simp] theorem Core.setQuarter_race (c : Core) (k : BitVec 2) (x : Quarter) : (c.setQuarter k x).race = c.race := by
  unfold Core.setQuarter; split <;> rfl
@[simp] theorem Core.setQuarter_l1 (c : Core) (k : BitVec 2) (x : Quarter) : (c.setQuarter k x).l1 = c.l1 := by
  unfold Core.setQuarter; split <;> rfl
@[simp] theorem Core.setQuarter_lines (c : Core) (k : BitVec 2) (x : Quarter) : (c.setQuarter k x).lines = c.lines := by
  unfold Core.setQuarter; split <;> rfl
@[simp] theorem Core.setQuarter_ce (c : Core) (k : BitVec 2) (x : Quarter) : (c.setQuarter k x).ce = c.ce := by
  unfold Core.setQuarter; split <;> rfl
@[simp] theorem Core.setQuarter_me (c : Core) (k : BitVec 2) (x : Quarter) : (c.setQuarter k x).me = c.me := by
  unfold Core.setQuarter; split <;> rfl
@[simp] theorem Core.setQuarter_ni (c : Core) (k : BitVec 2) (x : Quarter) : (c.setQuarter k x).ni = c.ni := by
  unfold Core.setQuarter; split <;> rfl
@[simp] theorem Core.setQuarter_tp (c : Core) (k : BitVec 2) (x : Quarter) : (c.setQuarter k x).tp = c.tp := by
  unfold Core.setQuarter; split <;> rfl
@[simp] theorem Core.setQuarter_cmu (c : Core) (k : BitVec 2) (x : Quarter) : (c.setQuarter k x).cmu = c.cmu := by
  unfold Core.setQuarter; split <;> rfl
@[simp] theorem Core.setQuarter_entering (c : Core) (k : BitVec 2) (x : Quarter) : (c.setQuarter k x).entering = c.entering := by
  unfold Core.setQuarter; split <;> rfl
@[simp] theorem Core.setQuarter_perf (c : Core) (k : BitVec 2) (x : Quarter) : (c.setQuarter k x).perf = c.perf := by
  unfold Core.setQuarter; split <;> rfl
@[simp] theorem Core.setQuarter_cyc (c : Core) (k : BitVec 2) (x : Quarter) : (c.setQuarter k x).cyc = c.cyc := by
  unfold Core.setQuarter; split <;> rfl
@[simp] theorem Core.setQuarter_runcyc (c : Core) (k : BitVec 2) (x : Quarter) : (c.setQuarter k x).runcyc = c.runcyc := by
  unfold Core.setQuarter; split <;> rfl
@[simp] theorem Core.setQuarter_bundles (c : Core) (k : BitVec 2) (x : Quarter) : (c.setQuarter k x).bundles = c.bundles := by
  unfold Core.setQuarter; split <;> rfl
@[simp] theorem Core.setQuarter_clock (c : Core) (k : BitVec 2) (x : Quarter) : (c.setQuarter k x).clock = c.clock := by
  unfold Core.setQuarter; split <;> rfl
@[simp] theorem Core.setQuarter_tick (c : Core) (k : BitVec 2) (x : Quarter) : (c.setQuarter k x).tick = c.tick := by
  unfold Core.setQuarter; split <;> rfl
@[simp] theorem Core.setQuarter_run (c : Core) (k : BitVec 2) (x : Quarter) : (c.setQuarter k x).run = c.run := by
  unfold Core.setQuarter; split <;> rfl
@[simp] theorem Core.setQuarter_lastRun (c : Core) (k : BitVec 2) (x : Quarter) : (c.setQuarter k x).lastRun = c.lastRun := by
  unfold Core.setQuarter; split <;> rfl
@[simp] theorem Core.setQuarter_tvt (c : Core) (k : BitVec 2) (x : Quarter) : (c.setQuarter k x).tvt = c.tvt := by
  unfold Core.setQuarter; split <;> rfl

theorem quarter_cases (k : BitVec 2) : k = 0 ∨ k = 1 ∨ k = 2 ∨ k = 3 := by
  revert k; decide

/-- The quarter set is read back. -/
@[simp] theorem Core.quarter_setQuarter (c : Core) (k : BitVec 2) (x : Quarter) : (c.setQuarter k x).quarter k = x := by
  rcases quarter_cases k with rfl | rfl | rfl | rfl <;> rfl

/-- The other quarters keep their values. -/
theorem Core.quarter_setQuarter_ne (c : Core) {k j : BitVec 2} (x : Quarter) (h : j ≠ k) :
    (c.setQuarter k x).quarter j = c.quarter j := by
  rcases quarter_cases k with rfl | rfl | rfl | rfl <;> rcases quarter_cases j with rfl | rfl | rfl | rfl <;>
    first | rfl | exact absurd rfl h

@[simp] theorem Core.setQuarter_setQuarter (c : Core) (k : BitVec 2) (x y : Quarter) :
    (c.setQuarter k x).setQuarter k y = c.setQuarter k y := by
  rcases quarter_cases k with rfl | rfl | rfl | rfl <;> rfl

@[simp] theorem Core.setQuarter_quarter (c : Core) (k : BitVec 2) : c.setQuarter k (c.quarter k) = c := by
  rcases quarter_cases k with rfl | rfl | rfl | rfl <;> rfl

/-- The issuing quarter after it has changed. -/
@[simp] theorem State.modQtr_qtr (s : State) (f : Quarter → Quarter) : (s.modQtr f).qtr = f s.qtr := by
  simp [State.qtr]

/-- The quarter in issue after another change of the issue than of its quarter. -/
theorem State.modIssue_qtr (s : State) (f : Issue → Issue) (h : (f s.core.issue).q = s.core.issue.q) :
    (s.modIssue f).qtr = s.qtr := by
  unfold State.qtr
  rw [State.modIssue_core]
  show Core.quarter _ (f s.core.issue).q = _
  rw [h]
  rcases quarter_cases s.core.issue.q with e | e | e | e <;> rw [e] <;> rfl

@[simp] theorem Core.setEng_num (c : Core) (e : Eng) (x : Engine) : (c.setEng e x).num = c.num := by cases e <;> rfl
@[simp] theorem Core.setEng_q0 (c : Core) (e : Eng) (x : Engine) : (c.setEng e x).q0 = c.q0 := by cases e <;> rfl
@[simp] theorem Core.setEng_q1 (c : Core) (e : Eng) (x : Engine) : (c.setEng e x).q1 = c.q1 := by cases e <;> rfl
@[simp] theorem Core.setEng_q2 (c : Core) (e : Eng) (x : Engine) : (c.setEng e x).q2 = c.q2 := by cases e <;> rfl
@[simp] theorem Core.setEng_q3 (c : Core) (e : Eng) (x : Engine) : (c.setEng e x).q3 = c.q3 := by cases e <;> rfl
@[simp] theorem Core.setEng_pmask (c : Core) (e : Eng) (x : Engine) : (c.setEng e x).pmask = c.pmask := by cases e <;> rfl
@[simp] theorem Core.setEng_jsync (c : Core) (e : Eng) (x : Engine) : (c.setEng e x).jsync = c.jsync := by cases e <;> rfl
@[simp] theorem Core.setEng_joint (c : Core) (e : Eng) (x : Engine) : (c.setEng e x).joint = c.joint := by cases e <;> rfl
@[simp] theorem Core.setEng_issue (c : Core) (e : Eng) (x : Engine) : (c.setEng e x).issue = c.issue := by cases e <;> rfl
@[simp] theorem Core.setEng_frozen (c : Core) (e : Eng) (x : Engine) : (c.setEng e x).frozen = c.frozen := by cases e <;> rfl
@[simp] theorem Core.setEng_ldArmed (c : Core) (e : Eng) (x : Engine) : (c.setEng e x).ldArmed = c.ldArmed := by cases e <;> rfl
@[simp] theorem Core.setEng_mcheck (c : Core) (e : Eng) (x : Engine) : (c.setEng e x).mcheck = c.mcheck := by cases e <;> rfl
@[simp] theorem Core.setEng_stopping (c : Core) (e : Eng) (x : Engine) : (c.setEng e x).stopping = c.stopping := by cases e <;> rfl
@[simp] theorem Core.setEng_tr (c : Core) (e : Eng) (x : Engine) : (c.setEng e x).tr = c.tr := by cases e <;> rfl
@[simp] theorem Core.setEng_sys (c : Core) (e : Eng) (x : Engine) : (c.setEng e x).sys = c.sys := by cases e <;> rfl
@[simp] theorem Core.setEng_acc (c : Core) (e : Eng) (x : Engine) : (c.setEng e x).acc = c.acc := by cases e <;> rfl
@[simp] theorem Core.setEng_sems (c : Core) (e : Eng) (x : Engine) : (c.setEng e x).sems = c.sems := by cases e <;> rfl
@[simp] theorem Core.setEng_bars (c : Core) (e : Eng) (x : Engine) : (c.setEng e x).bars = c.bars := by cases e <;> rfl
@[simp] theorem Core.setEng_swz (c : Core) (e : Eng) (x : Engine) : (c.setEng e x).swz = c.swz := by cases e <;> rfl
@[simp] theorem Core.setEng_pool (c : Core) (e : Eng) (x : Engine) : (c.setEng e x).pool = c.pool := by cases e <;> rfl
@[simp] theorem Core.setEng_race (c : Core) (e : Eng) (x : Engine) : (c.setEng e x).race = c.race := by cases e <;> rfl
@[simp] theorem Core.setEng_l1 (c : Core) (e : Eng) (x : Engine) : (c.setEng e x).l1 = c.l1 := by cases e <;> rfl
@[simp] theorem Core.setEng_lines (c : Core) (e : Eng) (x : Engine) : (c.setEng e x).lines = c.lines := by cases e <;> rfl
@[simp] theorem Core.setEng_entering (c : Core) (e : Eng) (x : Engine) : (c.setEng e x).entering = c.entering := by cases e <;> rfl
@[simp] theorem Core.setEng_perf (c : Core) (e : Eng) (x : Engine) : (c.setEng e x).perf = c.perf := by cases e <;> rfl
@[simp] theorem Core.setEng_cyc (c : Core) (e : Eng) (x : Engine) : (c.setEng e x).cyc = c.cyc := by cases e <;> rfl
@[simp] theorem Core.setEng_runcyc (c : Core) (e : Eng) (x : Engine) : (c.setEng e x).runcyc = c.runcyc := by cases e <;> rfl
@[simp] theorem Core.setEng_bundles (c : Core) (e : Eng) (x : Engine) : (c.setEng e x).bundles = c.bundles := by cases e <;> rfl
@[simp] theorem Core.setEng_clock (c : Core) (e : Eng) (x : Engine) : (c.setEng e x).clock = c.clock := by cases e <;> rfl
@[simp] theorem Core.setEng_tick (c : Core) (e : Eng) (x : Engine) : (c.setEng e x).tick = c.tick := by cases e <;> rfl
@[simp] theorem Core.setEng_run (c : Core) (e : Eng) (x : Engine) : (c.setEng e x).run = c.run := by cases e <;> rfl
@[simp] theorem Core.setEng_lastRun (c : Core) (e : Eng) (x : Engine) : (c.setEng e x).lastRun = c.lastRun := by cases e <;> rfl
@[simp] theorem Core.setEng_tvt (c : Core) (e : Eng) (x : Engine) : (c.setEng e x).tvt = c.tvt := by cases e <;> rfl

/-- The engine set is read back. -/
@[simp] theorem Core.eng_setEng (c : Core) (e : Eng) (x : Engine) : (c.setEng e x).eng e = x := by cases e <;> rfl

/-- The other engines keep their values. -/
theorem Core.eng_setEng_ne (c : Core) {e f : Eng} (x : Engine) (h : f ≠ e) : (c.setEng e x).eng f = c.eng f := by
  cases e <;> cases f <;> first | rfl | exact absurd rfl h

/-! ### A quarter's registers -/

@[simp] theorem Quarter.put_s_p (x : Quarter) (i : Nat) (v : Word) : (x.put (.s i v)).p = x.p := rfl
@[simp] theorem Quarter.put_s_c (x : Quarter) (i : Nat) (v : Word) : (x.put (.s i v)).c = x.c := rfl
@[simp] theorem Quarter.put_s_v (x : Quarter) (i : Nat) (v : Word) : (x.put (.s i v)).v = x.v := rfl
@[simp] theorem Quarter.put_s_b (x : Quarter) (i : Nat) (v : Word) : (x.put (.s i v)).b = x.b := rfl
@[simp] theorem Quarter.put_s_l (x : Quarter) (i : Nat) (v : Word) : (x.put (.s i v)).l = x.l := rfl
@[simp] theorem Quarter.put_s_vwin (x : Quarter) (i : Nat) (v : Word) : (x.put (.s i v)).vwin = x.vwin := rfl
@[simp] theorem Quarter.put_s_pwin (x : Quarter) (i : Nat) (v : Word) : (x.put (.s i v)).pwin = x.pwin := rfl
@[simp] theorem Quarter.put_s_role (x : Quarter) (i : Nat) (v : Word) : (x.put (.s i v)).role = x.role := rfl
@[simp] theorem Quarter.put_s_rngkey (x : Quarter) (i : Nat) (v : Word) : (x.put (.s i v)).rngkey = x.rngkey := rfl
@[simp] theorem Quarter.put_s_rngctr (x : Quarter) (i : Nat) (v : Word) : (x.put (.s i v)).rngctr = x.rngctr := rfl
@[simp] theorem Quarter.put_s_tscr (x : Quarter) (i : Nat) (v : Word) : (x.put (.s i v)).tscr = x.tscr := rfl
@[simp] theorem Quarter.put_s_pc (x : Quarter) (i : Nat) (v : Word) : (x.put (.s i v)).pc = x.pc := rfl
@[simp] theorem Quarter.put_s_viaLink (x : Quarter) (i : Nat) (v : Word) : (x.put (.s i v)).viaLink = x.viaLink := rfl
@[simp] theorem Quarter.put_s_lat (x : Quarter) (i : Nat) (v : Word) : (x.put (.s i v)).lat = x.lat := rfl
@[simp] theorem Quarter.put_s_st (x : Quarter) (i : Nat) (v : Word) : (x.put (.s i v)).st = x.st := rfl
@[simp] theorem Quarter.put_s_pend (x : Quarter) (i : Nat) (v : Word) : (x.put (.s i v)).pend = x.pend := rfl
@[simp] theorem Quarter.put_s_readyAt (x : Quarter) (i : Nat) (v : Word) : (x.put (.s i v)).readyAt = x.readyAt := rfl
@[simp] theorem Quarter.put_s_passed (x : Quarter) (i : Nat) (v : Word) : (x.put (.s i v)).passed = x.passed := rfl
@[simp] theorem Quarter.put_s_issued (x : Quarter) (i : Nat) (v : Word) : (x.put (.s i v)).issued = x.issued := rfl
@[simp] theorem Quarter.put_s_bAt (x : Quarter) (i : Nat) (v : Word) : (x.put (.s i v)).bAt = x.bAt := rfl
@[simp] theorem Quarter.put_s_waitCtr (x : Quarter) (i : Nat) (v : Word) : (x.put (.s i v)).waitCtr = x.waitCtr := rfl
@[simp] theorem Quarter.put_s_waitAt (x : Quarter) (i : Nat) (v : Word) : (x.put (.s i v)).waitAt = x.waitAt := rfl
@[simp] theorem Quarter.put_s_late (x : Quarter) (i : Nat) (v : Word) : (x.put (.s i v)).late = x.late := rfl
@[simp] theorem Quarter.put_s_joinB (x : Quarter) (i : Nat) (v : Word) : (x.put (.s i v)).joinB = x.joinB := rfl
@[simp] theorem Quarter.put_s_denial (x : Quarter) (i : Nat) (v : Word) : (x.put (.s i v)).denial = x.denial := rfl
@[simp] theorem Quarter.put_s_promoted (x : Quarter) (i : Nat) (v : Word) : (x.put (.s i v)).promoted = x.promoted := rfl
@[simp] theorem Quarter.put_s_yielded (x : Quarter) (i : Nat) (v : Word) : (x.put (.s i v)).yielded = x.yielded := rfl
@[simp] theorem Quarter.put_s_divBusy (x : Quarter) (i : Nat) (v : Word) : (x.put (.s i v)).divBusy = x.divBusy := rfl
@[simp] theorem Quarter.put_s_scanBusy (x : Quarter) (i : Nat) (v : Word) : (x.put (.s i v)).scanBusy = x.scanBusy := rfl
@[simp] theorem Quarter.put_s_tape (x : Quarter) (i : Nat) (v : Word) : (x.put (.s i v)).tape = x.tape := rfl
@[simp] theorem Quarter.put_p_s (x : Quarter) (i : Nat) (v m : BitVec 32) : (x.put (.p i v m)).s = x.s := rfl
@[simp] theorem Quarter.put_p_c (x : Quarter) (i : Nat) (v m : BitVec 32) : (x.put (.p i v m)).c = x.c := rfl
@[simp] theorem Quarter.put_p_v (x : Quarter) (i : Nat) (v m : BitVec 32) : (x.put (.p i v m)).v = x.v := rfl
@[simp] theorem Quarter.put_p_b (x : Quarter) (i : Nat) (v m : BitVec 32) : (x.put (.p i v m)).b = x.b := rfl
@[simp] theorem Quarter.put_p_l (x : Quarter) (i : Nat) (v m : BitVec 32) : (x.put (.p i v m)).l = x.l := rfl
@[simp] theorem Quarter.put_p_vwin (x : Quarter) (i : Nat) (v m : BitVec 32) : (x.put (.p i v m)).vwin = x.vwin := rfl
@[simp] theorem Quarter.put_p_pwin (x : Quarter) (i : Nat) (v m : BitVec 32) : (x.put (.p i v m)).pwin = x.pwin := rfl
@[simp] theorem Quarter.put_p_role (x : Quarter) (i : Nat) (v m : BitVec 32) : (x.put (.p i v m)).role = x.role := rfl
@[simp] theorem Quarter.put_p_rngkey (x : Quarter) (i : Nat) (v m : BitVec 32) : (x.put (.p i v m)).rngkey = x.rngkey := rfl
@[simp] theorem Quarter.put_p_rngctr (x : Quarter) (i : Nat) (v m : BitVec 32) : (x.put (.p i v m)).rngctr = x.rngctr := rfl
@[simp] theorem Quarter.put_p_tscr (x : Quarter) (i : Nat) (v m : BitVec 32) : (x.put (.p i v m)).tscr = x.tscr := rfl
@[simp] theorem Quarter.put_p_pc (x : Quarter) (i : Nat) (v m : BitVec 32) : (x.put (.p i v m)).pc = x.pc := rfl
@[simp] theorem Quarter.put_p_viaLink (x : Quarter) (i : Nat) (v m : BitVec 32) : (x.put (.p i v m)).viaLink = x.viaLink := rfl
@[simp] theorem Quarter.put_p_lat (x : Quarter) (i : Nat) (v m : BitVec 32) : (x.put (.p i v m)).lat = x.lat := rfl
@[simp] theorem Quarter.put_p_st (x : Quarter) (i : Nat) (v m : BitVec 32) : (x.put (.p i v m)).st = x.st := rfl
@[simp] theorem Quarter.put_p_pend (x : Quarter) (i : Nat) (v m : BitVec 32) : (x.put (.p i v m)).pend = x.pend := rfl
@[simp] theorem Quarter.put_p_readyAt (x : Quarter) (i : Nat) (v m : BitVec 32) : (x.put (.p i v m)).readyAt = x.readyAt := rfl
@[simp] theorem Quarter.put_p_passed (x : Quarter) (i : Nat) (v m : BitVec 32) : (x.put (.p i v m)).passed = x.passed := rfl
@[simp] theorem Quarter.put_p_issued (x : Quarter) (i : Nat) (v m : BitVec 32) : (x.put (.p i v m)).issued = x.issued := rfl
@[simp] theorem Quarter.put_p_bAt (x : Quarter) (i : Nat) (v m : BitVec 32) : (x.put (.p i v m)).bAt = x.bAt := rfl
@[simp] theorem Quarter.put_p_waitCtr (x : Quarter) (i : Nat) (v m : BitVec 32) : (x.put (.p i v m)).waitCtr = x.waitCtr := rfl
@[simp] theorem Quarter.put_p_waitAt (x : Quarter) (i : Nat) (v m : BitVec 32) : (x.put (.p i v m)).waitAt = x.waitAt := rfl
@[simp] theorem Quarter.put_p_late (x : Quarter) (i : Nat) (v m : BitVec 32) : (x.put (.p i v m)).late = x.late := rfl
@[simp] theorem Quarter.put_p_joinB (x : Quarter) (i : Nat) (v m : BitVec 32) : (x.put (.p i v m)).joinB = x.joinB := rfl
@[simp] theorem Quarter.put_p_denial (x : Quarter) (i : Nat) (v m : BitVec 32) : (x.put (.p i v m)).denial = x.denial := rfl
@[simp] theorem Quarter.put_p_promoted (x : Quarter) (i : Nat) (v m : BitVec 32) : (x.put (.p i v m)).promoted = x.promoted := rfl
@[simp] theorem Quarter.put_p_yielded (x : Quarter) (i : Nat) (v m : BitVec 32) : (x.put (.p i v m)).yielded = x.yielded := rfl
@[simp] theorem Quarter.put_p_divBusy (x : Quarter) (i : Nat) (v m : BitVec 32) : (x.put (.p i v m)).divBusy = x.divBusy := rfl
@[simp] theorem Quarter.put_p_scanBusy (x : Quarter) (i : Nat) (v m : BitVec 32) : (x.put (.p i v m)).scanBusy = x.scanBusy := rfl
@[simp] theorem Quarter.put_p_tape (x : Quarter) (i : Nat) (v m : BitVec 32) : (x.put (.p i v m)).tape = x.tape := rfl
@[simp] theorem Quarter.put_c_s (x : Quarter) (i : Nat) (v : CapWord) : (x.put (.c i v)).s = x.s := rfl
@[simp] theorem Quarter.put_c_p (x : Quarter) (i : Nat) (v : CapWord) : (x.put (.c i v)).p = x.p := rfl
@[simp] theorem Quarter.put_c_v (x : Quarter) (i : Nat) (v : CapWord) : (x.put (.c i v)).v = x.v := rfl
@[simp] theorem Quarter.put_c_b (x : Quarter) (i : Nat) (v : CapWord) : (x.put (.c i v)).b = x.b := rfl
@[simp] theorem Quarter.put_c_l (x : Quarter) (i : Nat) (v : CapWord) : (x.put (.c i v)).l = x.l := rfl
@[simp] theorem Quarter.put_c_vwin (x : Quarter) (i : Nat) (v : CapWord) : (x.put (.c i v)).vwin = x.vwin := rfl
@[simp] theorem Quarter.put_c_pwin (x : Quarter) (i : Nat) (v : CapWord) : (x.put (.c i v)).pwin = x.pwin := rfl
@[simp] theorem Quarter.put_c_role (x : Quarter) (i : Nat) (v : CapWord) : (x.put (.c i v)).role = x.role := rfl
@[simp] theorem Quarter.put_c_rngkey (x : Quarter) (i : Nat) (v : CapWord) : (x.put (.c i v)).rngkey = x.rngkey := rfl
@[simp] theorem Quarter.put_c_rngctr (x : Quarter) (i : Nat) (v : CapWord) : (x.put (.c i v)).rngctr = x.rngctr := rfl
@[simp] theorem Quarter.put_c_tscr (x : Quarter) (i : Nat) (v : CapWord) : (x.put (.c i v)).tscr = x.tscr := rfl
@[simp] theorem Quarter.put_c_pc (x : Quarter) (i : Nat) (v : CapWord) : (x.put (.c i v)).pc = x.pc := rfl
@[simp] theorem Quarter.put_c_viaLink (x : Quarter) (i : Nat) (v : CapWord) : (x.put (.c i v)).viaLink = x.viaLink := rfl
@[simp] theorem Quarter.put_c_lat (x : Quarter) (i : Nat) (v : CapWord) : (x.put (.c i v)).lat = x.lat := rfl
@[simp] theorem Quarter.put_c_st (x : Quarter) (i : Nat) (v : CapWord) : (x.put (.c i v)).st = x.st := rfl
@[simp] theorem Quarter.put_c_pend (x : Quarter) (i : Nat) (v : CapWord) : (x.put (.c i v)).pend = x.pend := rfl
@[simp] theorem Quarter.put_c_readyAt (x : Quarter) (i : Nat) (v : CapWord) : (x.put (.c i v)).readyAt = x.readyAt := rfl
@[simp] theorem Quarter.put_c_passed (x : Quarter) (i : Nat) (v : CapWord) : (x.put (.c i v)).passed = x.passed := rfl
@[simp] theorem Quarter.put_c_issued (x : Quarter) (i : Nat) (v : CapWord) : (x.put (.c i v)).issued = x.issued := rfl
@[simp] theorem Quarter.put_c_bAt (x : Quarter) (i : Nat) (v : CapWord) : (x.put (.c i v)).bAt = x.bAt := rfl
@[simp] theorem Quarter.put_c_waitCtr (x : Quarter) (i : Nat) (v : CapWord) : (x.put (.c i v)).waitCtr = x.waitCtr := rfl
@[simp] theorem Quarter.put_c_waitAt (x : Quarter) (i : Nat) (v : CapWord) : (x.put (.c i v)).waitAt = x.waitAt := rfl
@[simp] theorem Quarter.put_c_late (x : Quarter) (i : Nat) (v : CapWord) : (x.put (.c i v)).late = x.late := rfl
@[simp] theorem Quarter.put_c_joinB (x : Quarter) (i : Nat) (v : CapWord) : (x.put (.c i v)).joinB = x.joinB := rfl
@[simp] theorem Quarter.put_c_denial (x : Quarter) (i : Nat) (v : CapWord) : (x.put (.c i v)).denial = x.denial := rfl
@[simp] theorem Quarter.put_c_promoted (x : Quarter) (i : Nat) (v : CapWord) : (x.put (.c i v)).promoted = x.promoted := rfl
@[simp] theorem Quarter.put_c_yielded (x : Quarter) (i : Nat) (v : CapWord) : (x.put (.c i v)).yielded = x.yielded := rfl
@[simp] theorem Quarter.put_c_divBusy (x : Quarter) (i : Nat) (v : CapWord) : (x.put (.c i v)).divBusy = x.divBusy := rfl
@[simp] theorem Quarter.put_c_scanBusy (x : Quarter) (i : Nat) (v : CapWord) : (x.put (.c i v)).scanBusy = x.scanBusy := rfl
@[simp] theorem Quarter.put_c_tape (x : Quarter) (i : Nat) (v : CapWord) : (x.put (.c i v)).tape = x.tape := rfl
@[simp] theorem Quarter.put_v_s (x : Quarter) (i : Nat) (v : Vec) (m : BitVec 64) : (x.put (.v i v m)).s = x.s := rfl
@[simp] theorem Quarter.put_v_p (x : Quarter) (i : Nat) (v : Vec) (m : BitVec 64) : (x.put (.v i v m)).p = x.p := rfl
@[simp] theorem Quarter.put_v_c (x : Quarter) (i : Nat) (v : Vec) (m : BitVec 64) : (x.put (.v i v m)).c = x.c := rfl
@[simp] theorem Quarter.put_v_b (x : Quarter) (i : Nat) (v : Vec) (m : BitVec 64) : (x.put (.v i v m)).b = x.b := rfl
@[simp] theorem Quarter.put_v_l (x : Quarter) (i : Nat) (v : Vec) (m : BitVec 64) : (x.put (.v i v m)).l = x.l := rfl
@[simp] theorem Quarter.put_v_vwin (x : Quarter) (i : Nat) (v : Vec) (m : BitVec 64) : (x.put (.v i v m)).vwin = x.vwin := rfl
@[simp] theorem Quarter.put_v_pwin (x : Quarter) (i : Nat) (v : Vec) (m : BitVec 64) : (x.put (.v i v m)).pwin = x.pwin := rfl
@[simp] theorem Quarter.put_v_role (x : Quarter) (i : Nat) (v : Vec) (m : BitVec 64) : (x.put (.v i v m)).role = x.role := rfl
@[simp] theorem Quarter.put_v_rngkey (x : Quarter) (i : Nat) (v : Vec) (m : BitVec 64) : (x.put (.v i v m)).rngkey = x.rngkey := rfl
@[simp] theorem Quarter.put_v_rngctr (x : Quarter) (i : Nat) (v : Vec) (m : BitVec 64) : (x.put (.v i v m)).rngctr = x.rngctr := rfl
@[simp] theorem Quarter.put_v_tscr (x : Quarter) (i : Nat) (v : Vec) (m : BitVec 64) : (x.put (.v i v m)).tscr = x.tscr := rfl
@[simp] theorem Quarter.put_v_pc (x : Quarter) (i : Nat) (v : Vec) (m : BitVec 64) : (x.put (.v i v m)).pc = x.pc := rfl
@[simp] theorem Quarter.put_v_viaLink (x : Quarter) (i : Nat) (v : Vec) (m : BitVec 64) : (x.put (.v i v m)).viaLink = x.viaLink := rfl
@[simp] theorem Quarter.put_v_lat (x : Quarter) (i : Nat) (v : Vec) (m : BitVec 64) : (x.put (.v i v m)).lat = x.lat := rfl
@[simp] theorem Quarter.put_v_st (x : Quarter) (i : Nat) (v : Vec) (m : BitVec 64) : (x.put (.v i v m)).st = x.st := rfl
@[simp] theorem Quarter.put_v_pend (x : Quarter) (i : Nat) (v : Vec) (m : BitVec 64) : (x.put (.v i v m)).pend = x.pend := rfl
@[simp] theorem Quarter.put_v_readyAt (x : Quarter) (i : Nat) (v : Vec) (m : BitVec 64) : (x.put (.v i v m)).readyAt = x.readyAt := rfl
@[simp] theorem Quarter.put_v_passed (x : Quarter) (i : Nat) (v : Vec) (m : BitVec 64) : (x.put (.v i v m)).passed = x.passed := rfl
@[simp] theorem Quarter.put_v_issued (x : Quarter) (i : Nat) (v : Vec) (m : BitVec 64) : (x.put (.v i v m)).issued = x.issued := rfl
@[simp] theorem Quarter.put_v_bAt (x : Quarter) (i : Nat) (v : Vec) (m : BitVec 64) : (x.put (.v i v m)).bAt = x.bAt := rfl
@[simp] theorem Quarter.put_v_waitCtr (x : Quarter) (i : Nat) (v : Vec) (m : BitVec 64) : (x.put (.v i v m)).waitCtr = x.waitCtr := rfl
@[simp] theorem Quarter.put_v_waitAt (x : Quarter) (i : Nat) (v : Vec) (m : BitVec 64) : (x.put (.v i v m)).waitAt = x.waitAt := rfl
@[simp] theorem Quarter.put_v_late (x : Quarter) (i : Nat) (v : Vec) (m : BitVec 64) : (x.put (.v i v m)).late = x.late := rfl
@[simp] theorem Quarter.put_v_joinB (x : Quarter) (i : Nat) (v : Vec) (m : BitVec 64) : (x.put (.v i v m)).joinB = x.joinB := rfl
@[simp] theorem Quarter.put_v_denial (x : Quarter) (i : Nat) (v : Vec) (m : BitVec 64) : (x.put (.v i v m)).denial = x.denial := rfl
@[simp] theorem Quarter.put_v_promoted (x : Quarter) (i : Nat) (v : Vec) (m : BitVec 64) : (x.put (.v i v m)).promoted = x.promoted := rfl
@[simp] theorem Quarter.put_v_yielded (x : Quarter) (i : Nat) (v : Vec) (m : BitVec 64) : (x.put (.v i v m)).yielded = x.yielded := rfl
@[simp] theorem Quarter.put_v_divBusy (x : Quarter) (i : Nat) (v : Vec) (m : BitVec 64) : (x.put (.v i v m)).divBusy = x.divBusy := rfl
@[simp] theorem Quarter.put_v_scanBusy (x : Quarter) (i : Nat) (v : Vec) (m : BitVec 64) : (x.put (.v i v m)).scanBusy = x.scanBusy := rfl
@[simp] theorem Quarter.put_v_tape (x : Quarter) (i : Nat) (v : Vec) (m : BitVec 64) : (x.put (.v i v m)).tape = x.tape := rfl
@[simp] theorem Quarter.put_b_s (x : Quarter) (i : Nat) (v : Word) : (x.put (.b i v)).s = x.s := rfl
@[simp] theorem Quarter.put_b_p (x : Quarter) (i : Nat) (v : Word) : (x.put (.b i v)).p = x.p := rfl
@[simp] theorem Quarter.put_b_c (x : Quarter) (i : Nat) (v : Word) : (x.put (.b i v)).c = x.c := rfl
@[simp] theorem Quarter.put_b_v (x : Quarter) (i : Nat) (v : Word) : (x.put (.b i v)).v = x.v := rfl
@[simp] theorem Quarter.put_b_l (x : Quarter) (i : Nat) (v : Word) : (x.put (.b i v)).l = x.l := rfl
@[simp] theorem Quarter.put_b_vwin (x : Quarter) (i : Nat) (v : Word) : (x.put (.b i v)).vwin = x.vwin := rfl
@[simp] theorem Quarter.put_b_pwin (x : Quarter) (i : Nat) (v : Word) : (x.put (.b i v)).pwin = x.pwin := rfl
@[simp] theorem Quarter.put_b_role (x : Quarter) (i : Nat) (v : Word) : (x.put (.b i v)).role = x.role := rfl
@[simp] theorem Quarter.put_b_rngkey (x : Quarter) (i : Nat) (v : Word) : (x.put (.b i v)).rngkey = x.rngkey := rfl
@[simp] theorem Quarter.put_b_rngctr (x : Quarter) (i : Nat) (v : Word) : (x.put (.b i v)).rngctr = x.rngctr := rfl
@[simp] theorem Quarter.put_b_tscr (x : Quarter) (i : Nat) (v : Word) : (x.put (.b i v)).tscr = x.tscr := rfl
@[simp] theorem Quarter.put_b_pc (x : Quarter) (i : Nat) (v : Word) : (x.put (.b i v)).pc = x.pc := rfl
@[simp] theorem Quarter.put_b_viaLink (x : Quarter) (i : Nat) (v : Word) : (x.put (.b i v)).viaLink = x.viaLink := rfl
@[simp] theorem Quarter.put_b_lat (x : Quarter) (i : Nat) (v : Word) : (x.put (.b i v)).lat = x.lat := rfl
@[simp] theorem Quarter.put_b_st (x : Quarter) (i : Nat) (v : Word) : (x.put (.b i v)).st = x.st := rfl
@[simp] theorem Quarter.put_b_pend (x : Quarter) (i : Nat) (v : Word) : (x.put (.b i v)).pend = x.pend := rfl
@[simp] theorem Quarter.put_b_readyAt (x : Quarter) (i : Nat) (v : Word) : (x.put (.b i v)).readyAt = x.readyAt := rfl
@[simp] theorem Quarter.put_b_passed (x : Quarter) (i : Nat) (v : Word) : (x.put (.b i v)).passed = x.passed := rfl
@[simp] theorem Quarter.put_b_issued (x : Quarter) (i : Nat) (v : Word) : (x.put (.b i v)).issued = x.issued := rfl
@[simp] theorem Quarter.put_b_bAt (x : Quarter) (i : Nat) (v : Word) : (x.put (.b i v)).bAt = x.bAt := rfl
@[simp] theorem Quarter.put_b_waitCtr (x : Quarter) (i : Nat) (v : Word) : (x.put (.b i v)).waitCtr = x.waitCtr := rfl
@[simp] theorem Quarter.put_b_waitAt (x : Quarter) (i : Nat) (v : Word) : (x.put (.b i v)).waitAt = x.waitAt := rfl
@[simp] theorem Quarter.put_b_late (x : Quarter) (i : Nat) (v : Word) : (x.put (.b i v)).late = x.late := rfl
@[simp] theorem Quarter.put_b_joinB (x : Quarter) (i : Nat) (v : Word) : (x.put (.b i v)).joinB = x.joinB := rfl
@[simp] theorem Quarter.put_b_denial (x : Quarter) (i : Nat) (v : Word) : (x.put (.b i v)).denial = x.denial := rfl
@[simp] theorem Quarter.put_b_promoted (x : Quarter) (i : Nat) (v : Word) : (x.put (.b i v)).promoted = x.promoted := rfl
@[simp] theorem Quarter.put_b_yielded (x : Quarter) (i : Nat) (v : Word) : (x.put (.b i v)).yielded = x.yielded := rfl
@[simp] theorem Quarter.put_b_divBusy (x : Quarter) (i : Nat) (v : Word) : (x.put (.b i v)).divBusy = x.divBusy := rfl
@[simp] theorem Quarter.put_b_scanBusy (x : Quarter) (i : Nat) (v : Word) : (x.put (.b i v)).scanBusy = x.scanBusy := rfl
@[simp] theorem Quarter.put_b_tape (x : Quarter) (i : Nat) (v : Word) : (x.put (.b i v)).tape = x.tape := rfl

@[simp] theorem Quarter.put_s_s (x : Quarter) (i : Nat) (v : Word) : (x.put (.s i v)).s = tset 0 x.s i v := rfl
@[simp] theorem Quarter.put_c_c (x : Quarter) (i : Nat) (v : CapWord) : (x.put (.c i v)).c = tset 0 x.c i v := rfl
@[simp] theorem Quarter.put_b_b (x : Quarter) (i : Nat) (v : Word) : (x.put (.b i v)).b = tset 0 x.b i v := rfl
@[simp] theorem Quarter.put_p_p (x : Quarter) (i : Nat) (v m : BitVec 32) :
    (x.put (.p i v m)).p = tset 0 x.p i ((v &&& m) ||| (tget 0 x.p i &&& ~~~m)) := rfl
@[simp] theorem Quarter.put_v_v (x : Quarter) (i : Nat) (v : Vec) (m : BitVec 64) :
    (x.put (.v i v m)).v = tset 0 x.v i (mergeV (tget 0 x.v i) v m) := rfl

/-! ### Memories -/

@[simp] theorem Device.setPois_plat (d : Device) (n : Nat) (m : BitVec 4) : (d.setPois n m).plat = d.plat := rfl
@[simp] theorem Device.setPois_disp (d : Device) (n : Nat) (m : BitVec 4) : (d.setPois n m).disp = d.disp := rfl
@[simp] theorem Device.setPois_mem (d : Device) (n : Nat) (m : BitVec 4) : (d.setPois n m).mem = d.mem := rfl
@[simp] theorem Device.setPois_tag (d : Device) (n : Nat) (m : BitVec 4) : (d.setPois n m).tag = d.tag := rfl
@[simp] theorem Device.setPois_pois (d : Device) (n : Nat) (m : BitVec 4) : (d.setPois n m).pois = d.pois := rfl
@[simp] theorem Device.setPois_blocks (d : Device) (n : Nat) (m : BitVec 4) : (d.setPois n m).blocks = d.blocks := rfl
@[simp] theorem Device.setPois_sectKs (d : Device) (n : Nat) (m : BitVec 4) : (d.setPois n m).sectKs = d.sectKs := rfl
@[simp] theorem Device.setPois_pins (d : Device) (n : Nat) (m : BitVec 4) : (d.setPois n m).pins = d.pins := rfl
@[simp] theorem Device.setPois_tlb (d : Device) (n : Nat) (m : BitVec 4) : (d.setPois n m).tlb = d.tlb := rfl
@[simp] theorem Device.setPois_wcache (d : Device) (n : Nat) (m : BitVec 4) : (d.setPois n m).wcache = d.wcache := rfl
@[simp] theorem Device.setPois_host (d : Device) (n : Nat) (m : BitVec 4) : (d.setPois n m).host = d.host := rfl
@[simp] theorem Device.setPois_peer (d : Device) (n : Nat) (m : BitVec 4) : (d.setPois n m).peer = d.peer := rfl
@[simp] theorem Device.setPois_lostReads (d : Device) (n : Nat) (m : BitVec 4) : (d.setPois n m).lostReads = d.lostReads := rfl
@[simp] theorem Device.setPois_queues (d : Device) (n : Nat) (m : BitVec 4) : (d.setPois n m).queues = d.queues := rfl
@[simp] theorem Device.setPois_rcbs (d : Device) (n : Nat) (m : BitVec 4) : (d.setPois n m).rcbs = d.rcbs := rfl
@[simp] theorem Device.setPois_slots (d : Device) (n : Nat) (m : BitVec 4) : (d.setPois n m).slots = d.slots := rfl
@[simp] theorem Device.setPois_thr (d : Device) (n : Nat) (m : BitVec 4) : (d.setPois n m).thr = d.thr := rfl
@[simp] theorem Device.setPois_stats (d : Device) (n : Nat) (m : BitVec 4) : (d.setPois n m).stats = d.stats := rfl
@[simp] theorem Device.setPois_busy (d : Device) (n : Nat) (m : BitVec 4) : (d.setPois n m).busy = d.busy := rfl
@[simp] theorem Device.setPois_pipes (d : Device) (n : Nat) (m : BitVec 4) : (d.setPois n m).pipes = d.pipes := rfl
@[simp] theorem Device.setPois_served (d : Device) (n : Nat) (m : BitVec 4) : (d.setPois n m).served = d.served := rfl
@[simp] theorem Device.setPois_dlt (d : Device) (n : Nat) (m : BitVec 4) : (d.setPois n m).dlt = d.dlt := rfl
@[simp] theorem Device.setPois_lanes (d : Device) (n : Nat) (m : BitVec 4) : (d.setPois n m).lanes = d.lanes := rfl
@[simp] theorem Device.setPois_codecs (d : Device) (n : Nat) (m : BitVec 4) : (d.setPois n m).codecs = d.codecs := rfl
@[simp] theorem Device.setPois_holds (d : Device) (n : Nat) (m : BitVec 4) : (d.setPois n m).holds = d.holds := rfl
@[simp] theorem Device.setPois_qcWait (d : Device) (n : Nat) (m : BitVec 4) : (d.setPois n m).qcWait = d.qcWait := rfl
@[simp] theorem Device.setPois_nextFid (d : Device) (n : Nat) (m : BitVec 4) : (d.setPois n m).nextFid = d.nextFid := rfl
@[simp] theorem Device.setPois_events (d : Device) (n : Nat) (m : BitVec 4) : (d.setPois n m).events = d.events := rfl
@[simp] theorem Device.setPois_eventPos (d : Device) (n : Nat) (m : BitVec 4) : (d.setPois n m).eventPos = d.eventPos := rfl
@[simp] theorem Device.setPois_time (d : Device) (n : Nat) (m : BitVec 4) : (d.setPois n m).time = d.time := rfl
@[simp] theorem Device.setPois_slew (d : Device) (n : Nat) (m : BitVec 4) : (d.setPois n m).slew = d.slew := rfl
@[simp] theorem Device.setPois_slewAt (d : Device) (n : Nat) (m : BitVec 4) : (d.setPois n m).slewAt = d.slewAt := rfl
@[simp] theorem Device.setPois_corr (d : Device) (n : Nat) (m : BitVec 4) : (d.setPois n m).corr = d.corr := rfl
@[simp] theorem Device.setPois_l2p (d : Device) (n : Nat) (m : BitVec 4) : (d.setPois n m).l2p = tset none d.l2p n (some m) := rfl
@[simp] theorem Device.setQueue_plat (d : Device) (i : Nat) (q : Queue) : (d.setQueue i q).plat = d.plat := rfl
@[simp] theorem Device.setQueue_disp (d : Device) (i : Nat) (q : Queue) : (d.setQueue i q).disp = d.disp := rfl
@[simp] theorem Device.setQueue_mem (d : Device) (i : Nat) (q : Queue) : (d.setQueue i q).mem = d.mem := rfl
@[simp] theorem Device.setQueue_tag (d : Device) (i : Nat) (q : Queue) : (d.setQueue i q).tag = d.tag := rfl
@[simp] theorem Device.setQueue_pois (d : Device) (i : Nat) (q : Queue) : (d.setQueue i q).pois = d.pois := rfl
@[simp] theorem Device.setQueue_l2p (d : Device) (i : Nat) (q : Queue) : (d.setQueue i q).l2p = d.l2p := rfl
@[simp] theorem Device.setQueue_blocks (d : Device) (i : Nat) (q : Queue) : (d.setQueue i q).blocks = d.blocks := rfl
@[simp] theorem Device.setQueue_sectKs (d : Device) (i : Nat) (q : Queue) : (d.setQueue i q).sectKs = d.sectKs := rfl
@[simp] theorem Device.setQueue_pins (d : Device) (i : Nat) (q : Queue) : (d.setQueue i q).pins = d.pins := rfl
@[simp] theorem Device.setQueue_tlb (d : Device) (i : Nat) (q : Queue) : (d.setQueue i q).tlb = d.tlb := rfl
@[simp] theorem Device.setQueue_wcache (d : Device) (i : Nat) (q : Queue) : (d.setQueue i q).wcache = d.wcache := rfl
@[simp] theorem Device.setQueue_host (d : Device) (i : Nat) (q : Queue) : (d.setQueue i q).host = d.host := rfl
@[simp] theorem Device.setQueue_peer (d : Device) (i : Nat) (q : Queue) : (d.setQueue i q).peer = d.peer := rfl
@[simp] theorem Device.setQueue_lostReads (d : Device) (i : Nat) (q : Queue) : (d.setQueue i q).lostReads = d.lostReads := rfl
@[simp] theorem Device.setQueue_rcbs (d : Device) (i : Nat) (q : Queue) : (d.setQueue i q).rcbs = d.rcbs := rfl
@[simp] theorem Device.setQueue_slots (d : Device) (i : Nat) (q : Queue) : (d.setQueue i q).slots = d.slots := rfl
@[simp] theorem Device.setQueue_thr (d : Device) (i : Nat) (q : Queue) : (d.setQueue i q).thr = d.thr := rfl
@[simp] theorem Device.setQueue_stats (d : Device) (i : Nat) (q : Queue) : (d.setQueue i q).stats = d.stats := rfl
@[simp] theorem Device.setQueue_busy (d : Device) (i : Nat) (q : Queue) : (d.setQueue i q).busy = d.busy := rfl
@[simp] theorem Device.setQueue_pipes (d : Device) (i : Nat) (q : Queue) : (d.setQueue i q).pipes = d.pipes := rfl
@[simp] theorem Device.setQueue_served (d : Device) (i : Nat) (q : Queue) : (d.setQueue i q).served = d.served := rfl
@[simp] theorem Device.setQueue_dlt (d : Device) (i : Nat) (q : Queue) : (d.setQueue i q).dlt = d.dlt := rfl
@[simp] theorem Device.setQueue_lanes (d : Device) (i : Nat) (q : Queue) : (d.setQueue i q).lanes = d.lanes := rfl
@[simp] theorem Device.setQueue_codecs (d : Device) (i : Nat) (q : Queue) : (d.setQueue i q).codecs = d.codecs := rfl
@[simp] theorem Device.setQueue_holds (d : Device) (i : Nat) (q : Queue) : (d.setQueue i q).holds = d.holds := rfl
@[simp] theorem Device.setQueue_qcWait (d : Device) (i : Nat) (q : Queue) : (d.setQueue i q).qcWait = d.qcWait := rfl
@[simp] theorem Device.setQueue_nextFid (d : Device) (i : Nat) (q : Queue) : (d.setQueue i q).nextFid = d.nextFid := rfl
@[simp] theorem Device.setQueue_events (d : Device) (i : Nat) (q : Queue) : (d.setQueue i q).events = d.events := rfl
@[simp] theorem Device.setQueue_eventPos (d : Device) (i : Nat) (q : Queue) : (d.setQueue i q).eventPos = d.eventPos := rfl
@[simp] theorem Device.setQueue_time (d : Device) (i : Nat) (q : Queue) : (d.setQueue i q).time = d.time := rfl
@[simp] theorem Device.setQueue_slew (d : Device) (i : Nat) (q : Queue) : (d.setQueue i q).slew = d.slew := rfl
@[simp] theorem Device.setQueue_slewAt (d : Device) (i : Nat) (q : Queue) : (d.setQueue i q).slewAt = d.slewAt := rfl
@[simp] theorem Device.setQueue_corr (d : Device) (i : Nat) (q : Queue) : (d.setQueue i q).corr = d.corr := rfl
@[simp] theorem Device.setQueue_queues (d : Device) (i : Nat) (q : Queue) : (d.setQueue i q).queues = tset .off d.queues i q := rfl
@[simp] theorem Pool.owned_bytes (p : Pool) (a n : Nat) (q : Option (BitVec 2)) : (p.owned a n q).bytes = p.bytes := rfl
@[simp] theorem Pool.owned_full (p : Pool) (a n : Nat) (q : Option (BitVec 2)) : (p.owned a n q).full = p.full := rfl
@[simp] theorem Pool.owned_tag (p : Pool) (a n : Nat) (q : Option (BitVec 2)) : (p.owned a n q).tag = p.tag := rfl
@[simp] theorem Pool.owned_pois (p : Pool) (a n : Nat) (q : Option (BitVec 2)) : (p.owned a n q).pois = p.pois := rfl
@[simp] theorem Pool.owned_wrec (p : Pool) (a n : Nat) (q : Option (BitVec 2)) : (p.owned a n q).wrec = p.wrec := rfl
@[simp] theorem Pool.owned_own (p : Pool) (a n : Nat) (q : Option (BitVec 2)) : (p.owned a n q).own = upTo (granCount a n) (fun k t => tset none t (a / 16 + k) q) p.own := rfl

/-! ### Engines -/

@[simp] theorem State.modEng_others (s : State) (e : Eng) (f : Engine → Engine) : (s.modEng e f).others = s.others := rfl
@[simp] theorem State.modEng_dev (s : State) (e : Eng) (f : Engine → Engine) : (s.modEng e f).dev = s.dev := rfl
@[simp] theorem State.modEng_agenda (s : State) (e : Eng) (f : Engine → Engine) : (s.modEng e f).agenda = s.agenda := rfl
@[simp] theorem State.modEng_turns (s : State) (e : Eng) (f : Engine → Engine) : (s.modEng e f).turns = s.turns := rfl
@[simp] theorem State.modEng_flips (s : State) (e : Eng) (f : Engine → Engine) : (s.modEng e f).flips = s.flips := rfl
@[simp] theorem State.modEng_fresh (s : State) (e : Eng) (f : Engine → Engine) : (s.modEng e f).fresh = s.fresh := rfl

end Sys2Proof.Machine
end

