-- ==== Sys2Proof/Laws/Tab.lean ====
section
/-! SUPPORT. Laws of the sparse tables: what a key reads after each operation, and that each operation keeps the canonical
form.  Every register file and every memory of the machine is such a table. -/

namespace Sys2Proof.Machine

variable {α : Type}

/-! ### Reading -/

@[simp] theorem tget_nil (d : α) (k : Nat) : tget d [] k = d := rfl

@[simp] theorem tget_terase_same (d : α) (t : Tab α) (k : Nat) : tget d (terase t k) k = d := by
  induction t with
  | nil => rfl
  | cons e r ih =>
    obtain ⟨a, v⟩ := e
    by_cases h : a = k <;> simp [terase, tget, h, ih]

theorem tget_terase_ne (d : α) (t : Tab α) {k j : Nat} (h : j ≠ k) : tget d (terase t k) j = tget d t j := by
  induction t with
  | nil => rfl
  | cons e r ih =>
    obtain ⟨a, v⟩ := e
    by_cases ha : a = k
    · subst ha; simp [terase, tget, ih, Ne.symm h]
    · by_cases hj : a = j
      · subst hj; simp [terase, tget, ha]
      · simp [terase, tget, ha, hj, ih]

theorem tget_tins_same (d : α) (t : Tab α) (k : Nat) (v : α) (h : ∀ e ∈ t, e.1 ≠ k) : tget d (tins k v t) k = v := by
  induction t with
  | nil => simp [tins, tget]
  | cons e r ih =>
    obtain ⟨a, w⟩ := e
    have ha : a ≠ k := h (a, w) (by simp)
    by_cases hk : k < a
    · simp [tins, hk, tget]
    · simp [tins, hk, tget, ha, ih fun e he => h e (by simp [he])]

theorem tget_tins_ne (d : α) (t : Tab α) {k j : Nat} (v : α) (h : j ≠ k) : tget d (tins k v t) j = tget d t j := by
  induction t with
  | nil => simp [tins, tget, Ne.symm h]
  | cons e r ih =>
    obtain ⟨a, w⟩ := e
    by_cases hk : k < a
    · simp [tins, hk, tget, Ne.symm h]
    · by_cases ha : a = j
      · subst ha; simp [tins, hk, tget]
      · simp [tins, hk, tget, ha, ih]

theorem not_mem_terase (t : Tab α) (k : Nat) : ∀ e ∈ terase t k, e.1 ≠ k := by
  induction t with
  | nil => simp [terase]
  | cons e r ih =>
    obtain ⟨a, v⟩ := e
    by_cases h : a = k
    · simpa [terase, h] using ih
    · simp only [terase, h, if_false, List.mem_cons, forall_eq_or_imp]
      exact ⟨h, ih⟩

/-- A write is read back. -/
@[simp] theorem tget_tset_same [DecidableEq α] (d : α) (t : Tab α) (k : Nat) (v : α) : tget d (tset d t k v) k = v := by
  unfold tset
  split
  · next h => rw [h]; exact tget_terase_same ..
  · exact tget_tins_same d _ k v (not_mem_terase t k)

/-- A write leaves every other key alone. -/
theorem tget_tset_ne [DecidableEq α] (d : α) (t : Tab α) {k j : Nat} (v : α) (h : j ≠ k) :
    tget d (tset d t k v) j = tget d t j := by
  unfold tset
  split
  · exact tget_terase_ne d t h
  · rw [tget_tins_ne d _ v h, tget_terase_ne d t h]

/-- What any key reads after a write. -/
theorem tget_tset [DecidableEq α] (d : α) (t : Tab α) (k j : Nat) (v : α) :
    tget d (tset d t k v) j = if j = k then v else tget d t j := by
  split
  · next h => subst h; exact tget_tset_same ..
  · next h => exact tget_tset_ne d t v h

/-- What any key reads once a range is cleared. -/
theorem tget_tclear (d : α) (t : Tab α) (lo hi j : Nat) :
    tget d (tclear t lo hi) j = if lo ≤ j ∧ j < hi then d else tget d t j := by
  unfold tclear
  induction t with
  | nil => simp
  | cons e r ih =>
    obtain ⟨a, v⟩ := e
    by_cases ha : a < lo ∨ hi ≤ a
    · have hf : (decide (a < lo) || decide (hi ≤ a)) = true := by simpa using ha
      rw [List.filter_cons_of_pos (by simpa using hf)]
      by_cases hj : a = j
      · subst hj; simp only [tget, if_true]; rw [if_neg (by omega)]
      · simp only [tget, hj, if_false, ih]
    · rw [List.filter_cons_of_neg (by simpa using ha), ih]
      by_cases hj : a = j
      · subst hj; rw [if_pos (by omega), if_pos (by omega)]
      · simp [tget, hj]

/-! ### The canonical form -/

variable [DecidableEq α]

theorem twfFrom_mono (d : α) {t : Tab α} {lo lo' : Nat} (h : lo' ≤ lo) (w : twfFrom d lo t = true) :
    twfFrom d lo' t = true := by
  cases t with
  | nil => rfl
  | cons e r =>
    obtain ⟨a, v⟩ := e
    simp only [twfFrom, Bool.and_eq_true, decide_eq_true_eq] at w ⊢
    exact ⟨⟨by omega, w.1.2⟩, w.2⟩

theorem twfFrom_filter (d : α) (p : Nat × α → Bool) {t : Tab α} {lo : Nat} (w : twfFrom d lo t = true) :
    twfFrom d lo (t.filter p) = true := by
  induction t generalizing lo with
  | nil => rfl
  | cons e r ih =>
    obtain ⟨a, v⟩ := e
    simp only [twfFrom, Bool.and_eq_true, decide_eq_true_eq] at w
    by_cases hp : p (a, v) = true
    · rw [List.filter_cons_of_pos hp]
      simp only [twfFrom, Bool.and_eq_true, decide_eq_true_eq]
      exact ⟨w.1, ih w.2⟩
    · rw [List.filter_cons_of_neg hp]
      exact ih (twfFrom_mono d (by omega) w.2)

omit [DecidableEq α] in
theorem terase_eq_filter (t : Tab α) (k : Nat) : terase t k = t.filter fun e => e.1 != k := by
  induction t with
  | nil => rfl
  | cons e r ih =>
    obtain ⟨a, v⟩ := e
    by_cases h : a = k <;> simp [terase, h, ih]

theorem twfFrom_terase (d : α) {t : Tab α} {lo : Nat} (k : Nat) (w : twfFrom d lo t = true) :
    twfFrom d lo (terase t k) = true := by
  rw [terase_eq_filter]; exact twfFrom_filter d _ w

theorem twfFrom_tins (d : α) {t : Tab α} {lo k : Nat} {v : α} (hlo : lo ≤ k) (hv : v ≠ d) (h : ∀ e ∈ t, e.1 ≠ k)
    (w : twfFrom d lo t = true) : twfFrom d lo (tins k v t) = true := by
  induction t generalizing lo with
  | nil => simp [tins, twfFrom, hlo, hv]
  | cons e r ih =>
    obtain ⟨a, x⟩ := e
    have ha : a ≠ k := h (a, x) (by simp)
    simp only [twfFrom, Bool.and_eq_true, decide_eq_true_eq] at w
    by_cases hk : k < a
    · simp only [tins, hk, if_true, twfFrom, Bool.and_eq_true, decide_eq_true_eq, bne_iff_ne, ne_eq]
      exact ⟨⟨hlo, hv⟩, ⟨by omega, by simpa using w.1.2⟩, w.2⟩
    · simp only [tins, hk, if_false, twfFrom, Bool.and_eq_true, decide_eq_true_eq]
      exact ⟨w.1, ih (by omega) (fun e he => h e (by simp [he])) w.2⟩

/-- Writing keeps the canonical form. -/
theorem twf_tset (d : α) {t : Tab α} (k : Nat) (v : α) (w : twf d t = true) : twf d (tset d t k v) = true := by
  unfold tset
  split
  · exact twfFrom_terase d k w
  · next h => exact twfFrom_tins d (Nat.zero_le k) h (not_mem_terase t k) (twfFrom_terase d k w)

/-- Clearing a range keeps the canonical form. -/
theorem twf_tclear (d : α) {t : Tab α} (lo hi : Nat) (w : twf d t = true) : twf d (tclear t lo hi) = true :=
  twfFrom_filter d _ w

/-- Keeping part of a table keeps the canonical form. -/
theorem twf_filter (d : α) (p : Nat × α → Bool) {t : Tab α} (w : twf d t = true) : twf d (t.filter p) = true :=
  twfFrom_filter d p w

@[simp] theorem twf_nil (d : α) : twf d ([] : Tab α) = true := rfl

theorem tget_of_lt (d : α) {t : Tab α} {lo k : Nat} (w : twfFrom d lo t = true) (h : k < lo) : tget d t k = d := by
  induction t generalizing lo with
  | nil => rfl
  | cons e r ih =>
    obtain ⟨a, v⟩ := e
    simp only [twfFrom, Bool.and_eq_true, decide_eq_true_eq] at w
    have : a ≠ k := by omega
    simp only [tget, this, if_false]
    exact ih w.2 (by omega)

theorem ext_from (d : α) {t u : Tab α} {lo : Nat} (wt : twfFrom d lo t = true) (wu : twfFrom d lo u = true)
    (h : ∀ k, tget d t k = tget d u k) : t = u := by
  induction t generalizing lo u with
  | nil =>
    cases u with
    | nil => rfl
    | cons e r =>
      obtain ⟨a, v⟩ := e
      have := h a
      simp only [twfFrom, Bool.and_eq_true, bne_iff_ne, ne_eq] at wu
      simp only [tget, if_true] at this
      exact absurd this.symm wu.1.2
  | cons e r ih =>
    obtain ⟨a, v⟩ := e
    cases u with
    | nil =>
      have := h a
      simp only [twfFrom, Bool.and_eq_true, bne_iff_ne, ne_eq] at wt
      simp only [tget, if_true] at this
      exact absurd this wt.1.2
    | cons e' r' =>
      obtain ⟨b, x⟩ := e'
      simp only [twfFrom, Bool.and_eq_true, bne_iff_ne, ne_eq, decide_eq_true_eq] at wt wu
      have hab : a = b := by
        rcases Nat.lt_trichotomy a b with hlt | heq | hgt
        · have := h a
          have hne : b ≠ a := by omega
          simp only [tget, if_true, hne, if_false, tget_of_lt d wu.2 (by omega : a < b + 1)] at this
          exact absurd this wt.1.2
        · exact heq
        · have := h b
          have hne : a ≠ b := by omega
          simp only [tget, if_true, hne, if_false, tget_of_lt d wt.2 (by omega : b < a + 1)] at this
          exact absurd this.symm wu.1.2
      subst hab
      have hv : v = x := by have := h a; simpa [tget] using this
      subst hv
      congr 1
      refine ih wt.2 wu.2 fun k => ?_
      by_cases hk : a = k
      · subst hk; rw [tget_of_lt d wt.2 (by omega), tget_of_lt d wu.2 (by omega)]
      · have := h k; simpa [tget, hk] using this

/-- Canonical tables that read alike are the same list: equal memories are equal data. -/
theorem tab_ext (d : α) {t u : Tab α} (wt : twf d t = true) (wu : twf d u = true) (h : ∀ k, tget d t k = tget d u k) :
    t = u := ext_from d wt wu h

/-! ### Repetition -/

omit [DecidableEq α] in
/-- What every round keeps, the whole loop keeps. -/
theorem upTo_keeps {σ : Type} (P : σ → Prop) {f : Nat → σ → σ} (h : ∀ i s, P s → P (f i s)) (n : Nat) {s : σ}
    (hs : P s) : P (upTo n f s) := by
  induction n with
  | zero => exact hs
  | succ n ih => exact h n _ ih

/-- Bytes written one by one: what any key reads after. -/
theorem tget_writes (d : α) (b : Nat → α) (a : Nat) (t : Tab α) (n j : Nat) :
    tget d (upTo n (fun i m => tset d m (a + i) (b i)) t) j = if a ≤ j ∧ j < a + n then b (j - a) else tget d t j := by
  induction n with
  | zero => simp only [upTo]; rw [if_neg (by omega)]
  | succ n ih =>
    simp only [upTo, tget_tset, ih]
    by_cases h : j = a + n
    · rw [if_pos h, if_pos (by omega)]; congr 1; omega
    · rw [if_neg h]
      by_cases h2 : a ≤ j ∧ j < a + n
      · rw [if_pos h2, if_pos (by omega)]
      · rw [if_neg h2, if_neg (by omega)]

/-- Bytes written one by one keep the canonical form. -/
theorem twf_writes (d : α) (b : Nat → α) (a : Nat) {t : Tab α} (n : Nat) (w : twf d t = true) :
    twf d (upTo n (fun i m => tset d m (a + i) (b i)) t) = true :=
  upTo_keeps (fun t => twf d t = true) (fun i _ h => twf_tset d (a + i) (b i) h) n w

/-! ### Entries -/

theorem tfind_terase (t : Tab α) (k j : Nat) : tfind (terase t k) j = if j = k then none else tfind t j := by
  induction t with
  | nil => simp [terase, tfind]
  | cons e r ih =>
    obtain ⟨a, v⟩ := e
    by_cases h : a = k <;> by_cases hj : a = j <;> simp_all [terase, tfind]

theorem tfind_tins (t : Tab α) (k j : Nat) (v : α) (h : ∀ e ∈ t, e.1 ≠ k) :
    tfind (tins k v t) j = if j = k then some v else tfind t j := by
  induction t with
  | nil => simp [tins, tfind, eq_comm]
  | cons e r ih =>
    obtain ⟨a, w⟩ := e
    have ha := h (a, w) (by simp)
    have ih := ih fun e he => h e (List.mem_cons_of_mem _ he)
    simp only [tins]
    split
    · simp only [tfind, eq_comm]
    · simp only [tfind, ih]
      by_cases hj : a = j
      · subst hj; simp [ha]
      · simp [hj]

/-- What a table lists after an entry is put in place. -/
theorem tfind_tput (t : Tab α) (k j : Nat) (v : α) : tfind (tput t k v) j = if j = k then some v else tfind t j := by
  rw [tput, tfind_tins _ _ _ _ (not_mem_terase t k), tfind_terase]
  split <;> rfl

end Sys2Proof.Machine
end

