-- ==== Sys2Proof/Certificates/Slice0/Obligations.lean ====
section
/-! DEFINITION. The statements: what the spec's rules say the machine does, for the provers. -/


open Sys2Proof Sys2Proof.Machine

/-! ### Encoding -/

/-- R64, R65, R68, R74: words that the spec itself writes out decode to the instructions it says they are. -/
def Obligations.DecodesSpecWords : Prop :=
  decodeSyllable [0x0C020401] = .ok ⟨.addi none 4 4 (.short 1), 0, false, 1⟩
    ∧ decodeSyllable [0xD5C50B18] = .ok ⟨.vfma none 10 11 12 .f32 .rne, 2, true, 1⟩
    ∧ decodeSyllable [0xBFD40219, 0x0A183800] = .ok ⟨.vadd (some 3) 5 6 7 .f32 .rtz, 1, true, 2⟩
    ∧ decodeSyllable [0x8B400000] = .ok ⟨.halt none, 0, true, 1⟩
    ∧ decodeSyllable [0xBFB81400, 0x041401FC] = .ok ⟨.cmpi none 2 5 (.long 127) .gt .set, 1, true, 2⟩
    ∧ decodeSyllable [0x9FD09400, 0x0A082000] = .ok ⟨.ld none 5 2 4 .w (.acq .device) false, 0, true, 2⟩
    ∧ decodeSyllable [0x9D400000, 0x100C4800] = .ok ⟨.submit none 8 3 9, 0, true, 2⟩
    ∧ decodeSyllable [0x92C0000E] = .ok ⟨.fenceFull none .device, 0, true, 1⟩

/-- R64 to R69, R72, R74, R78: the decoder reads back every well-formed syllable that the encoder writes, with its slot,
its STOP and its length; only engine commands and events have no words of their own. -/
def Obligations.SyllablesRoundTrip : Prop :=
  ∀ (i : Instr) (slot : BitVec 2) (stop : Bool),
    (encode i slot stop = [] → i.engine.isSome = true ∨ i.isEvent = true)
      ∧ (i.wf = true → encode i slot stop ≠ [] →
          decodeSyllable (encode i slot stop) = .ok ⟨i, slot, stop, (encode i slot stop).length⟩)

/-- R75, R76, R79, R80: each engine reads back, field for field, every well-formed command that the encoder writes for it,
and every command has such words. -/
def Obligations.CommandsRoundTrip : Prop :=
  ∀ (i : Instr) (e : Eng), i.wf = true → i.engine = some e → i.isEvent = false →
    ∃ c, encodeCommand i = some c ∧ decodeCommand e c = i

/-- R66, R69, R81: a reserved major is refused whatever stands in the word, and whatever the decoder accepts is an
instruction that the spec admits, within the words given. -/
def Obligations.ReservedRefused : Prop :=
  (∀ (w : BitVec 32) (rest : List (BitVec 32)),
      (majorOf w = 0x4F ∨ (0x65 ≤ majorOf w ∧ majorOf w ≤ 0x6B) ∨ (0x78 ≤ majorOf w ∧ majorOf w ≤ 0x7D)) →
        ∀ y, decodeSyllable (w :: rest) ≠ .ok y)
    ∧ ∀ (ws : List (BitVec 32)) (y : Syllable), decodeSyllable ws = .ok y →
        y.instr.wf = true ∧ y.instr.isEvent = false ∧ y.len ≤ ws.length

/-! ### The step -/

/-- R30, R70, R71, R126, R180, R235: when the words at a stream's address decode to an instruction, issuing from that
stream is exec of that instruction in the bundle's context, followed by what becomes of the bundle; with one strand
that may issue, a step is that strand's issue, then the end of the cycle, at which a trap is taken; a strand that is
held leaves the cycle to the engines, and where it is held so that every quarter stalls, nothing issues in the cycle
(log 131). -/
def Obligations.StreamRunsDecoded : Prop :=
  (∀ (s : State) (k : BitVec 2) (l : BitVec 512) (b : Bundle) (g : Group) (y : Syllable), StandsAt s k l b g y →
    issueStream exec k s =
      settleBundle (bundleState s k l b).1 k 1 (bundleState s k l b).2
        (exec y.instr ((bundleState s k l b).1.modIssue (groupIssue g))))
    ∧ (∀ (s : State) (k : BitVec 2), CoreActs s → s.core.joint = false → s.core.streams = [k] →
    let s1 := (s.modCore Core.clearYield).keptOut [k]
    step s = arbitrated s.dev.events.length (
      match issueStream exec k s1 with
      | .next t =>
        match t.core.issue.stop with
        | some (.hold _) =>
          if (t.core.quarter k).late then progress exec true (s1.stalled exec [k])
          else cycleEnd exec s.fresh ⟨false, false, none⟩ (t.modIssue fun _ => .idle)
        | some (.trap r) => cycleEnd exec s.fresh ⟨false, false, some r⟩ (t.modIssue fun _ => .idle)
        | none => cycleEnd exec s.fresh ⟨true, (t.core.quarter k).lat = some true, none⟩ (t.modIssue fun _ => .idle)
      | o => o))

/-- R30, R70, R71: a step of a joint stream whose address holds words that decode to an instruction is exec of that
instruction and the settling of its bundle; beside it the engines may work, and while it is held they do (one step is
one cycle, log 6 and 8). -/
def Obligations.StepRunsDecoded : Prop :=
  ∀ (s : State) (l : BitVec 512) (b : Bundle) (g : Group) (y : Syllable),
    CoreActs s → s.core.joint = true → s.core.q0.issues s.core.clock = true → StandsAt s 0 l b g y →
    step s = arbitrated s.dev.events.length (
      match settleBundle (bundleState s 0 l b).1 0 1 (bundleState s 0 l b).2
          (exec y.instr ((bundleState s 0 l b).1.modIssue (groupIssue g))) with
      | .next t =>
        match t.core.issue.stop with
        | some (.hold _) => progress exec t.core.q0.late t
        | _ => beside exec s.fresh t
      | o => o)

/-- R71, R117, R120, R184: a bundle that nothing stopped takes effect, one that traps or is held leaves what it was, apart
from what the page walkers did and the join bit a JOIN has set; one of a single group that traps leaves what its
syllable left, which is what it was but for the lanes of VAMO; a bundle that redirects sends its stream to the address
it names, any other to its continuation; the other streams stay where they are. -/
def Obligations.BundleSettles : Prop :=
  (∀ (s0 s : State) (k : BitVec 2) (n : Nat) (via : Bool),
    (s.core.issue.stop = none → settleBundle s0 k n via (.next s) = .next (s0.commit s k n via))
      ∧ (∀ t, s.core.issue.stop = some (.trap t) → n ≠ 1 →
          settleBundle s0 k n via (.next s) = .next ((keepWalks s0 s).trapped t))
      ∧ (∀ t, s.core.issue.stop = some (.trap t) → settleBundle s0 k 1 via (.next s) = .next s)
      ∧ (∀ h, s.core.issue.stop = some (.hold h) → ∃ u : State, settleBundle s0 k n via (.next s) = .next (u.waited k h)
          ∧ u.core.jsync = s.core.jsync ∧ u.core.pool = s0.core.pool ∧ u.core.sems = s0.core.sems
          ∧ (u.core.quarter k).joinB = (s.core.quarter k).joinB
          ∧ (∀ j, { u.core.quarter j with joinB := (s0.core.quarter j).joinB } = s0.core.quarter j)
          ∧ u.core.issue.stop = some (.hold h)))
    ∧ (∀ (s0 s : State) (k : BitVec 2) (n : Nat) (via : Bool) (a : Word) (pen : Nat),
    let k' : BitVec 2 := if s.core.joint then 0 else k
    (s.core.issue.redirect = .to a pen → ((s0.commit s k n via).core.quarter k').pc = a)
      ∧ (s.core.issue.redirect = .none → ((s0.commit s k n via).core.quarter k').pc = s.core.issue.cont)
      ∧ (s.core.issue.redirect = .to a pen ∨ s.core.issue.redirect = .none →
          (s0.commit s k n via).core.issue = .idle
            ∧ ∀ j, j ≠ k' → ((s0.commit s k n via).core.quarter j).pc = (s.core.quarter j).pc))

/-- R67, R213, R355: every instruction, command and event of the table answers a next state in every state, and one whose
guard is false or leaves it no lane does nothing, but for what its encoding or its line traps; a step stops only when the device is without power, cold reset still answers there, and no step is refused. -/
def Obligations.StepStopsOnlyWhenDown : Prop :=
  (∀ (i : Instr) (s : State), (∃ t, exec i s = .next t)
    ∧ ∀ g, i.guard = some g → (if i.byLanes then s.lanes g = 0 else s.executes g = false) →
        exec i s = .next s ∨ exec i s =
          .next (s.trapped { cause := .illegal, info0 := s.core.issue.gaddr, fq := s.core.issue.q }))
    ∧ (∀ s : State,
    (∀ r, step s ≠ .refused r)
      ∧ (∀ f, step s = .fault f → s.dev.down = some f)
      ∧ (∀ f, s.dev.down = some f → (∀ r, s.agenda ≠ .coldReset :: r) → step s = .fault f))

/-! ### Reset -/

/-- Reset leaves every memory in the canonical form of the model (log 88). -/
def Obligations.ResetIsCanonical : Prop :=
  State.reset.wf = true

/-- The memories of the device stay in the canonical form of the model (log 88): whatever the step does, addresses strictly
rise and no listed byte,
tag or poison mark equals what an unlisted one reads as. -/
def Obligations.StepKeepsCanonical : Prop :=
  ∀ s t : State, s.wf = true → step s = .next t → t.wf = true

/-! ### Registers -/

/-- R32, R87, R89, R115, R133: a scalar result in a scoreboard line is there at once and nothing else has changed; in an
exposed line it is in flight, due after its latency, and every register still reads as before; names beyond the fixed
part rotate with PWIN and VWIN, each name moves one register down the file per LEND.rot, and so what was written under
a name is read under the next name after it. -/
def Obligations.RegisterNamesAndDelivery : Prop :=
  (∀ (s : State) (lat : Nat) (d : Reg) (v : Word),
    (s.core.issue.exposed = false →
        (s.wrS lat d v).rdS d = v ∧ (∀ r, r ≠ d → (s.wrS lat d v).rdS r = s.rdS r)
          ∧ (s.wrS lat d v).modQtr (fun x => { x with s := s.qtr.s }) = s)
      ∧ (s.core.issue.exposed = true →
          (∀ r, (s.wrS lat d v).rdS r = s.rdS r)
            ∧ (s.wrS lat d v).qtr.pend = s.qtr.pend ++ [{ due := s.core.tick + lat, dest := .s d.toNat v }]
            ∧ (s.wrS lat d v).modQtr (fun x => { x with pend := s.qtr.pend }) = s))
    ∧ (∀ (x : Quarter) (i : Nat),
    (i < 32 → x.physP i = i) ∧ (i < 64 → x.physV i = i)
      ∧ (32 ≤ i → i < 64 → x.physP i = 32 + (((i : Int) - 32 - x.pwin.toNat) % 32).toNat)
      ∧ (64 ≤ i → i < 128 → x.physV i = 64 + (((i : Int) - 64 - x.vwin.toNat) % 64).toNat)
      ∧ (32 ≤ i → i < 63 → x.rotate.rdP (i + 1) = x.rdP i)
      ∧ (64 ≤ i → i < 127 → x.rotate.rdV (BitVec.ofNat 7 (i + 1)) = x.rdV (BitVec.ofNat 7 i))
      ∧ (i < 64 → x.rotate.rdV (BitVec.ofNat 7 i) = x.rdV (BitVec.ofNat 7 i)))

/-! ### Scalar instructions -/

/-- R97, R98: what the two-operand scalar instructions and the moves write, where the TAPE prefix records nothing:
products and sums modulo 2^W, .w results sign-extended from bit 31; CLZ, CTZ and POPC count, SEXT and ZEXT extend from
any width: the count is the one number that fits the bits. -/
def Obligations.ScalarResults : Prop :=
  (∀ (g : Guard) (d a b : Reg) (w : Bool) (s : State), s.executes g = true → s.taping = false →
    let x := s.rdS a
    let y := s.rdS b
    let x' := x.setWidth 32
    let y' := y.setWidth 32
    let sx := fun (v : BitVec 32) => v.signExtend 64
    exec (.add g d a b w) s = .next (s.wrS 1 d (if w then sx (x' + y') else x + y))
      ∧ exec (.sub g d a b w) s = .next (s.wrS 1 d (if w then sx (x' - y') else x - y))
      ∧ exec (.mul g d a b w) s = .next (s.wrS 3 d (if w then sx (x' * y') else x * y))
      ∧ exec (.mulh g d a b) s = .next (s.wrS 3 d (BitVec.ofInt 64 (x.toInt * y.toInt / 2 ^ 64)))
      ∧ exec (.mulhu g d a b) s = .next (s.wrS 3 d (BitVec.ofNat 64 (x.toNat * y.toNat / 2 ^ 64)))
      ∧ exec (.and g d a b) s = .next (s.wrS 1 d (x &&& y))
      ∧ exec (.or g d a b) s = .next (s.wrS 1 d (x ||| y))
      ∧ exec (.xor g d a b) s = .next (s.wrS 1 d (x ^^^ y))
      ∧ exec (.andn g d a b) s = .next (s.wrS 1 d (x &&& ~~~y))
      ∧ exec (.min g d a b) s = .next (s.wrS 1 d (BitVec.ofInt 64 (min x.toInt y.toInt)))
      ∧ exec (.max g d a b) s = .next (s.wrS 1 d (BitVec.ofInt 64 (max x.toInt y.toInt)))
      ∧ exec (.minu g d a b) s = .next (s.wrS 1 d (BitVec.ofNat 64 (min x.toNat y.toNat)))
      ∧ exec (.maxu g d a b) s = .next (s.wrS 1 d (BitVec.ofNat 64 (max x.toNat y.toNat)))
      ∧ exec (.mov g d a) s = .next (s.wrS 1 d x)
      ∧ exec (.movFromPredicate g d a) s = .next (s.wrS 1 d ((s.rdP a).setWidth 64))
      ∧ exec (.sel g d a b w) s = .next (if (s.rdP a).getLsbD 0 = w then s else s.wrS 1 d y))
    ∧ (∀ (g : Guard) (d a b : Reg) (s : State), s.executes g = true → s.taping = false →
    let x := s.rdS a
    let w := (s.rdS b).toNat
    (∃ n, exec (.clz g d a) s = .next (s.wrS 1 d (BitVec.ofNat 64 n))
        ∧ (x = 0 → n = 64) ∧ (x ≠ 0 → n ≤ 63 ∧ 2 ^ (63 - n) ≤ x.toNat ∧ x.toNat < 2 ^ (64 - n)))
      ∧ (∃ n, exec (.ctz g d a) s = .next (s.wrS 1 d (BitVec.ofNat 64 n))
          ∧ (x = 0 → n = 64) ∧ (x ≠ 0 → n ≤ 63 ∧ x.toNat % 2 ^ n = 0 ∧ x.toNat % 2 ^ (n + 1) ≠ 0))
      ∧ exec (.popc g d a) s =
          .next (s.wrS 1 d (BitVec.ofNat 64 (((List.range 64).map fun i => (x.getLsbD i).toNat).sum)))
      ∧ exec (.sext g d a b) s = .next (s.wrS 1 d
          (if w = 0 then 0 else if 64 ≤ w then x else (x.setWidth w).signExtend 64))
      ∧ exec (.zext g d a b) s = .next (s.wrS 1 d
          (if w = 0 then 0 else if 64 ≤ w then x else BitVec.ofNat 64 (x.toNat % 2 ^ w))))

/-- R97, R100: register shifts take their second operand, at the width of the instruction, as the amount; from the width up,
SHL and SHR give 0 and SRA the sign, and ROT turns by the amount modulo the width. That a .w form takes 32 bits of the
amount, as R97's frame cuts b, is the model's reading (log 14). -/
def Obligations.ShiftResults : Prop :=
  ∀ (g : Guard) (d a b : Reg) (s : State), s.executes g = true → s.taping = false →
    let x := s.rdS a
    let n := (s.rdS b).toNat
    let v := x.setWidth 32
    let m := ((s.rdS b).setWidth 32).toNat
    exec (.shl g d a b false) s = .next (s.wrS 1 d (BitVec.ofNat 64 (x.toNat * 2 ^ n)))
      ∧ exec (.shr g d a b false) s = .next (s.wrS 1 d (BitVec.ofNat 64 (x.toNat / 2 ^ n)))
      ∧ exec (.sra g d a b false) s = .next (s.wrS 1 d (BitVec.ofInt 64 (x.toInt / 2 ^ n)))
      ∧ exec (.rot g d a b false) s =
          .next (s.wrS 1 d (x <<< (n % 64) ||| x >>> ((64 - n % 64) % 64)))
      ∧ exec (.shl g d a b true) s = .next (s.wrS 1 d ((BitVec.ofNat 32 (v.toNat * 2 ^ m)).signExtend 64))
      ∧ exec (.shr g d a b true) s = .next (s.wrS 1 d ((BitVec.ofNat 32 (v.toNat / 2 ^ m)).signExtend 64))
      ∧ exec (.sra g d a b true) s = .next (s.wrS 1 d ((BitVec.ofInt 32 (v.toInt / 2 ^ m)).signExtend 64))
      ∧ exec (.rot g d a b true) s =
          .next (s.wrS 1 d ((v <<< (m % 32) ||| v >>> ((32 - m % 32) % 32)).signExtend 64))

/-- R99, R109: DIV, DIVU, REM and REMU, as integer quotients towards zero and their remainders, the divider being free:
division by zero gives all ones or the dividend and never traps. -/
def Obligations.DivisionResults : Prop :=
  ∀ (g : Guard) (d a b : Reg) (s : State), s.executes g = true → s.taping = false →
    s.qtr.divBusy ≤ s.core.clock →
    let x := s.rdS a
    let y := s.rdS b
    let x' := x.setWidth 32
    let y' := y.setWidth 32
    let dv := fun (p q : Int) => if q = 0 then -1 else p.tdiv q
    let rm := fun (p q : Int) => if q = 0 then p else p - q * p.tdiv q
    let out := fun (lat : Nat) (v : Word) =>
      (Host.Outcome.next ((s.wrS lat d v).modQtr fun q => { q with divBusy := s.core.clock + lat }) : Out)
    exec (.div g d a b false) s = out 34 (BitVec.ofInt 64 (dv x.toInt y.toInt))
      ∧ exec (.divu g d a b false) s = out 34 (BitVec.ofInt 64 (dv x.toNat y.toNat))
      ∧ exec (.rem g d a b false) s = out 34 (BitVec.ofInt 64 (rm x.toInt y.toInt))
      ∧ exec (.remu g d a b false) s = out 34 (BitVec.ofInt 64 (rm x.toNat y.toNat))
      ∧ exec (.div g d a b true) s = out 18 ((BitVec.ofInt 32 (dv x'.toInt y'.toInt)).signExtend 64)
      ∧ exec (.divu g d a b true) s = out 18 ((BitVec.ofInt 32 (dv x'.toNat y'.toNat)).signExtend 64)
      ∧ exec (.rem g d a b true) s = out 18 ((BitVec.ofInt 32 (rm x'.toInt y'.toInt)).signExtend 64)
      ∧ exec (.remu g d a b true) s = out 18 ((BitVec.ofInt 32 (rm x'.toNat y'.toNat)).signExtend 64)

/-- R101, R102: the scalar instructions with an immediate, EXT included; a shift amount above 63 or a descriptor that
reaches beyond bit 63 traps ILLEGAL. -/
def Obligations.ImmediateResults : Prop :=
  ∀ (g : Guard) (d a : Reg) (i : Imm) (s : State), s.executes g = true → s.taping = false →
    let x := s.rdS a
    let n := (immBits s i).1
    let z := BitVec.ofNat 64 n
    let sx := ((BitVec.ofNat (immBits s i).2 n).signExtend 64 : Word)
    let lsb := n % 64
    let width := n / 64 % 64 + 1
    let ones := BitVec.ofNat 64 (2 ^ width - 1)
    exec (.addi g d a i) s = .next (s.wrS 1 d (x + sx))
      ∧ exec (.andi g d a i) s = .next (s.wrS 1 d (x &&& sx))
      ∧ exec (.ori g d a i) s = .next (s.wrS 1 d (x ||| z))
      ∧ exec (.xori g d a i) s = .next (s.wrS 1 d (x ^^^ z))
      ∧ exec (.movi g d i) s = .next (s.wrS 1 d sx)
      ∧ (n ≤ 63 → exec (.shli g d a i) s = .next (s.wrS 1 d (BitVec.ofNat 64 (x.toNat * 2 ^ n)))
          ∧ exec (.shri g d a i) s = .next (s.wrS 1 d (BitVec.ofNat 64 (x.toNat / 2 ^ n)))
          ∧ exec (.srai g d a i) s = .next (s.wrS 1 d (BitVec.ofInt 64 (x.toInt / 2 ^ n))))
      ∧ (n < 4096 ∧ lsb + width ≤ 64 →
          exec (.bfx g d a i) s = .next (s.wrS 1 d (((x >>> lsb).setWidth width).signExtend 64))
            ∧ exec (.bfxu g d a i) s = .next (s.wrS 1 d ((x >>> lsb) &&& ones))
            ∧ exec (.bfi g d a i) s =
                .next (s.wrS 1 d ((s.rdS d &&& ~~~(ones <<< lsb)) ||| ((x &&& ones) <<< lsb))))
      ∧ (63 < n → ∀ i' ∈ [Instr.shli g d a i, .shri g d a i, .srai g d a i], exec i' s =
          .next (s.trapped { cause := .illegal, info0 := s.core.issue.gaddr, fq := s.core.issue.q }))
      ∧ (4096 ≤ n ∨ 64 < lsb + width → ∀ i' ∈ [Instr.bfx g d a i, .bfxu g d a i, .bfi g d a i], exec i' s =
          .next (s.trapped { cause := .illegal, info0 := s.core.issue.gaddr, fq := s.core.issue.q }))

/-- R103, R104: CMP and CMPI put 32 equal bits in their predicate, combined with the old ones as the rule says; the
predicate instructions act on whole masks. -/
def Obligations.PredicateResults : Prop :=
  ∀ (g : Guard) (d a b : Reg) (s : State), s.executes g = true →
    (s.taping = false → ∀ (w : Bool) (c : Cond) (k : Comb) (i : Imm),
        let put := fun (t : Bool) =>
          let m : BitVec 32 := if t then 0xFFFFFFFF else 0
          let old := s.rdP d
          (Host.Outcome.next (s.wrP 1 d (match k with | .set => m | .and => old &&& m | .or => old ||| m)) : Out)
        let holds := fun (si ti : Int) (un vn : Nat) => match c with
          | .eq => decide (un = vn) | .ne => decide (un ≠ vn) | .lt => decide (si < ti) | .ge => decide (ti ≤ si)
          | .le => decide (si ≤ ti) | .gt => decide (ti < si) | .ltu => decide (un < vn) | .geu => decide (vn ≤ un)
          | .leu => decide (un ≤ vn) | .gtu => decide (vn < un)
        let x := s.rdS a
        let y := s.rdS b
        let x' := x.setWidth 32
        let y' := y.setWidth 32
        let z := ((BitVec.ofNat (immBits s i).2 (immBits s i).1).signExtend 64 : Word)
        exec (.cmp g d a b w c k) s =
            put (if w then holds x'.toInt y'.toInt x'.toNat y'.toNat else holds x.toInt y.toInt x.toNat y.toNat)
          ∧ exec (.cmpi g d a i c k) s = put (holds x.toInt z.toInt x.toNat z.toNat))
      ∧ exec (.pand g d a b) s = .next (s.wrP 1 d (s.rdP a &&& s.rdP b))
      ∧ exec (.por g d a b) s = .next (s.wrP 1 d (s.rdP a ||| s.rdP b))
      ∧ exec (.pxor g d a b) s = .next (s.wrP 1 d (s.rdP a ^^^ s.rdP b))
      ∧ exec (.pandn g d a b) s = .next (s.wrP 1 d (s.rdP a &&& ~~~s.rdP b))
      ∧ exec (.pnot g d a) s = .next (s.wrP 1 d (~~~s.rdP a))
      ∧ exec (.pmov g d a) s = .next (s.wrP 1 d (s.rdP a))
      ∧ exec (.pmovFromScalar g d a) s = .next (s.wrP 1 d ((s.rdS a).setWidth 32))

/-- R105, R107: what the capability instructions write, and that narrowing a tagged capability beyond its length traps
BOUNDS and writes nothing. -/
def Obligations.CapabilityResults : Prop :=
  ∀ (g : Guard) (d a b : Reg) (i : Imm) (f : CapField) (s : State), s.executes g = true →
    let c := s.rdC a
    let n := (immBits s i).1
    let y := (s.rdS b).toNat
    let cap := fun (perm len base : Nat) => mkCap (capTag c) (capVer c) (capSpace c) perm len base
    let out := fun (v : CapWord) => (Host.Outcome.next (s.wrC 1 d v) : Out)
    let bounds := fun (m : Nat) => (Host.Outcome.next (s.trapped
      { cause := .capfault, sub := 5, info0 := 5, info1 := a.setWidth 64, info2 := BitVec.ofNat 64 m,
        fq := s.core.issue.q }) : Out)
    let inc := fun (m : Nat) => cap (capPerm c) (((capLen c : Int) - m) % 2 ^ 48).toNat ((capBase c + m) % 2 ^ 57)
    ((capTag c = true → n ≤ capLen c) → exec (.cinc g d a i) s = out (inc n)
        ∧ exec (.csetb g d a i) s = out (cap (capPerm c) (n % 2 ^ 48) (capBase c)))
      ∧ ((capTag c = true → y ≤ capLen c) → exec (.cmoveInc g d a b) s = out (inc y))
      ∧ (capTag c = true ∧ capLen c < n → exec (.cinc g d a i) s = bounds n ∧ exec (.csetb g d a i) s = bounds n)
      ∧ (capTag c = true ∧ capLen c < y → exec (.cmoveInc g d a b) s = bounds y)
      ∧ exec (.cand g d a b) s = out (cap (capPerm c &&& y % 65536) (capLen c) (capBase c))
      ∧ exec (.candLen g d a b) s = out (cap (capPerm c) (min (capLen c) y) (capBase c))
      ∧ exec (.cmove g d a) s = out c
      ∧ exec (.cget g d a f) s = .next (s.wrS 1 d (BitVec.ofNat 64
          (match f with
            | .base => capBase c | .len => capLen c | .perm => capPerm c | .space => capSpace c
            | .ver => capVer c | .tag => if capTag c then 1 else 0)))

/-- R106: CTAG rebuilds a tag exactly where the authority covers the pattern; CTAG.clr clears it. -/
def Obligations.TagResults : Prop :=
  ∀ (g : Guard) (d a b : Reg) (s : State), s.executes g = true →
    let x := s.rdC a
    let y := s.rdC b
    let ok := capTag x = true ∧ capSpace y = capSpace x ∧ capVer y = capVer x ∧ capPerm y &&& capPerm x = capPerm y
      ∧ capPerm y < 1024 ∧ capBase x ≤ capBase y ∧ capBase y + capLen y ≤ capBase x + capLen x
    ∃ u v : CapWord,
      exec (.ctag g d a b) s = .next (s.wrC 2 d u) ∧ exec (.ctagClr g d a) s = .next (s.wrC 2 d v)
        ∧ (capTag u = true ↔ ok) ∧ u.setWidth 128 = y.setWidth 128
        ∧ capTag v = false ∧ v.setWidth 128 = x.setWidth 128

/-- R93, R105, R106: no capability instruction makes authority: a tagged result names only bytes that a tagged source
names, with its space, its version and no permission more. -/
def Obligations.CapabilitiesNeverWiden : Prop :=
  ∀ (g : Guard) (d a b : Reg) (n : Imm) (i : Instr) (s t : State),
    i ∈ [Instr.cinc g d a n, .csetb g d a n, .cmoveInc g d a b, .cand g d a b, .candLen g d a b, .cmove g d a,
      .ctag g d a b, .ctagClr g d a] →
    s.executes g = true → s.core.issue.exposed = false → capBase (s.rdC a) + capLen (s.rdC a) ≤ 2 ^ 57 →
    exec i s = .next t → t.core.issue.stop = none → capTag (t.rdC d) = true →
      capTag (s.rdC a) = true ∧ capSpace (t.rdC d) = capSpace (s.rdC a) ∧ capVer (t.rdC d) = capVer (s.rdC a)
        ∧ capPerm (t.rdC d) &&& capPerm (s.rdC a) = capPerm (t.rdC d)
        ∧ ∀ p, capBase (t.rdC d) ≤ p → p < capBase (t.rdC d) + capLen (t.rdC d) →
            capBase (s.rdC a) ≤ p ∧ p < capBase (s.rdC a) + capLen (s.rdC a)

/-! ### What scalar instructions leave alone -/

/-- R97, R103 to R107, R261, R268: a scalar, predicate or capability instruction changes no register but its destination,
no other quarter, no special register, no accumulator and no byte of memory; besides, a division claims the divider, and a
TAPE prefix lets it record, which may discard the oldest segments of a ring: the one byte it then changes is FLAGS of a
TAPEREV output whose segment is discarded before that command completes. -/
def Obligations.ScalarFrame : Prop :=
  ∀ (i : Instr) (dst : Dst) (s t : State), i.scalarDst = some dst → i.wf = true → exec i s = .next t →
    t.core.issue.stop = none →
    let x := t.core.quarter s.core.issue.q
    let y := s.qtr
    let u := s.clobber (capBase y.tape.cap) y.tape.lost x.tape.lost
    t = { u with core := { u.core.setQuarter s.core.issue.q x with perf := t.core.perf } }
      ∧ x = { y with s := x.s, p := x.p, c := x.c, pend := x.pend, divBusy := x.divBusy, tape := x.tape }
      ∧ (s.taping = false → x.tape = y.tape ∧ t.core.perf = s.core.perf ∧ u = s)
      ∧ (∀ w, exec i (s.modIssue fun k => { k with tape := false }) = .next w →
          x = { w.core.quarter s.core.issue.q with tape := x.tape })
      ∧ (i.divides = false → x.divBusy = y.divBusy)
      ∧ (∀ r : Reg, dst ≠ .s r → x.rdS r = y.rdS r)
      ∧ (∀ r : Reg, r.isP → dst ≠ .p r → x.rdP r.toNat = y.rdP r.toNat)
      ∧ (∀ r : Reg, dst ≠ .c r → x.rdC r.toNat = y.rdC r.toNat)
      ∧ (∀ p, t.dev.byte p = s.dev.byte p)
      ∧ ∀ p, t.core.pool.byte p = s.core.pool.byte p ∨ ∃ e : Expansion, (s.core.eng .tape).rev = some e
          ∧ e.base = capBase y.tape.cap ∧ s.taping = true ∧ p = e.out + 8

/-! ### Control flow and strands -/

/-- R118 to R120, R125: branch registers are written and read, a branch names the address in its register and the cycles it
costs, and BRL exchanges target and return address, its link written whether or not it is taken. -/
def Obligations.BranchResults : Prop :=
  ∀ (g : Guard) (d a b : Reg) (i : Imm) (inv rcd : Bool) (s : State), s.executes g = true →
    let off := ((BitVec.ofNat (immBits s i).2 (immBits s i).1).signExtend 64 : Word)
    let pen := fun (r : Reg) =>
      let w := tget 0 s.qtr.bAt r.toNat
      if w = 0 then 3 else 3 - (s.qtr.issued - w)
    let tkn : Bool := (s.rdP b).getLsbD 0 != inv
    let go := fun (t : State) (r : Reg) => t.modIssue fun x => { x with redirect := .to (s.rdB r) (pen r) }
    let lnk := s.wrB 7 s.core.issue.cont
    exec (.ptbr g d a) s = .next (s.wrB d (s.rdS a))
      ∧ exec (.ptbrRd g d a) s = .next (s.wrS 1 d (s.rdB a))
      ∧ exec (.ptb g d i) s = .next (s.wrB d (s.core.issue.gaddr + 4 * off))
      ∧ ((rcd = true → s.qtr.tape.phase ≠ .record) →
          exec (.br g a b inv rcd) s = .next (if tkn then go s a else s))
      ∧ exec (.brUnconditional g a) s = .next (go s a)
      ∧ exec (.brl g a b inv) s = .next (if tkn then go lnk a else lnk)
      ∧ exec (.brlUnconditional g a) s = .next (go lnk a)
      ∧ exec (.lbreak g a b) s = .next (go (s.wrL a { s.rdL a with act := false }) b)

/-- R121, R123, R124: LARM arms a loop register with its maximum, its limit and its start, or skips the body when no trip
is asked for; a maximum of 0 or above 2^32 - 2 traps ILLEGAL; LSTREAM takes its trips from two row pointers, modulo
2^16: two bytes little-endian each, in one granule of the scratchpad that its capability admits, or wherever they can
be read; LEND does nothing on an idle loop, goes back for another trip or ends the loop, rotating under .rot, and
traps LOOPMAX before the trip after the maximum. -/
def Obligations.LoopResults : Prop :=
  (∀ (g : Guard) (d a : Reg) (i : Imm) (s : State), s.executes g = true →
    let n := (immBits s i).1
    let limit := min (s.rdS a).toNat (n + 1)
    let l : Loop := { act := decide (limit ≠ 0), start := s.core.issue.cont, max := BitVec.ofNat 32 n,
                      trip := if limit = 0 then 0 else 1, limit := BitVec.ofNat 32 limit }
    (n ≠ 0 ∧ n ≤ 2 ^ 32 - 2 → exec (.larm g d a i) s = .next
        (if limit = 0 then (s.wrL d l).modIssue fun x => { x with redirect := .discard x.q d.toNat } else s.wrL d l))
      ∧ (n = 0 ∨ 2 ^ 32 - 2 < n → exec (.larm g d a i) s = .next
          (s.trapped { cause := .illegal, info0 := s.core.issue.gaddr, fq := s.core.issue.q })))
    ∧ (∀ (g : Guard) (d a : Reg) (i : Imm) (s : State), s.executes g = true →
    let n := (immBits s i).1
    let c := s.qtr.rdC a.toNat
    let p := capBase c
    n ≠ 0 → n ≤ 2 ^ 32 - 2 →
    (∀ lo hi s', rowPointers a.toNat s = .ok (lo, hi) s' →
        exec (.lstream g d a i) s = .next (s'.arm d n ((hi + 65536 - lo) % 65536)))
      ∧ (capCheck s.core s.dev c 0 4 permR [0, 2] = .ok p → capSpace c = 0 → p % 2 = 0 → p % 16 ≠ 14 →
          s.core.raceAt s.core.issue.q.toNat p 4 = none → (∀ k < 4, tget false s.core.pool.pois ((p + k) / 16) = false) →
          let at_ := fun (k : Nat) => (s.core.pool.byte (p + k)).toNat
          exec (.lstream g d a i) s =
            .next (s.arm d n ((at_ 2 + 256 * at_ 3 + 65536 - (at_ 0 + 256 * at_ 1)) % 65536))))
    ∧ (∀ (g : Guard) (a : Reg) (rot : Bool) (s : State), s.executes g = true →
    let l := s.rdL a
    let r := if rot then s.modQtr fun x => { x with vwin := x.vwin + 1, pwin := x.pwin + 1 } else s
    (l.act = false → exec (.lend g a rot) s = .next s)
      ∧ (l.act = true → l.trip.toNat < l.limit.toNat → l.trip ≠ l.max →
          exec (.lend g a rot) s =
            .next ((r.wrL a { l with trip := l.trip + 1 }).modIssue fun x => { x with redirect := .to l.start 0 }))
      ∧ (l.act = true → l.limit.toNat ≤ l.trip.toNat →
          exec (.lend g a rot) s = .next (r.wrL a { l with act := false }))
      ∧ (l.act = true → l.trip.toNat < l.limit.toNat → l.trip = l.max →
          exec (.lend g a rot) s = .next (s.trapped
            { cause := .loopmax, info0 := a.setWidth 64, info1 := l.start, info2 := s.core.issue.gaddr,
              info3 := l.max.setWidth 64, fq := s.core.issue.q })))

/-- R12, R72, R126 to R129: FORK starts the strands its mask names, each at its own register, and parks the others; the
last strand to reach its JOIN, or to HALT, completes the join at the register that the JOIN of the lowest waiting
strand names, and any other JOIN waits, its wait object being the address of its group (log 19); HALT ends its stream;
NOP, YIELD and ROLE do no more than they say; FORK of an empty or too wide mask, FORK beside other strands, JOIN in
the joint stream and a ROLE above 2 trap ILLEGAL; a prefix only marks the group it stands in; SPEC and TAPE trap
ILLEGAL on a service core. -/
def Obligations.StrandResults : Prop :=
  (∀ (g : Guard) (a : Reg) (i : Imm) (s : State), s.executes g = true →
    let n := (immBits s i).1
    let q := s.core.issue.q
    let c := s.core
    let bad : Out := .next (s.trapped { cause := .illegal, info0 := c.issue.gaddr, fq := q })
    let lowest := fun (p : BitVec 4) (m : BitVec 2) =>
      p.getLsbD m.toNat = true ∧ ∀ k : BitVec 2, k < m → p.getLsbD k.toNat = false
    let waits := fun (p : BitVec 4) =>
      p = 0 ∨ ∃ k : BitVec 2, p.getLsbD k.toNat = true ∧ c.jsync.getLsbD k.toNat = false
    let joined := fun (t : State) (m : BitVec 2) (r : Reg) =>
      t.core.joint = true ∧ t.core.pmask = 0 ∧ t.core.jsync = 0 ∧ t.core.q0.pc = (c.quarter m).rdB r
        ∧ t.core.issue.redirect = .placed ∧ t.core.issue.stop = c.issue.stop ∧ ∀ k, (t.core.quarter k).st = .running
    (c.issue.joint = true → 1 ≤ n → n ≤ 15 → ∃ t, exec (.fork g a i) s = .next t ∧ t.core.joint = false
        ∧ t.core.pmask = BitVec.ofNat 4 n ∧ t.core.jsync = 0 ∧ t.core.issue.redirect = .placed
        ∧ ∀ k : BitVec 2,
            (n / 2 ^ k.toNat % 2 = 1 →
                (t.core.quarter k).st = .running ∧ (t.core.quarter k).pc = (c.quarter k).rdB a)
              ∧ (n / 2 ^ k.toNat % 2 = 0 → t.core.quarter k = { c.quarter k with st := .parked }))
      ∧ (c.issue.joint = false → (∀ k : BitVec 2, k ≠ q → c.pmask.getLsbD k.toNat = true → c.jsync.getLsbD k.toNat = true) →
          c.pmask.getLsbD q.toNat = true → ∀ (m : BitVec 2) (r : Reg), lowest c.pmask m →
          (if m = q then some a else (c.quarter m).joinB) = some r →
          ∃ t, exec (.join g a) s = .next t ∧ joined t m r)
      ∧ (c.issue.joint = false → (∃ k : BitVec 2, k ≠ q ∧ c.pmask.getLsbD k.toNat = true ∧ c.jsync.getLsbD k.toNat = false) →
          ∃ t, exec (.join g a) s = .next t ∧ t.core.jsync.getLsbD q.toNat = true
            ∧ (t.core.quarter q).joinB = some a
            ∧ t.core.issue.stop = some (.hold (.slot 3 c.issue.gaddr)) ∧ t.core.pmask = c.pmask ∧ t.core.joint = c.joint)
      ∧ (c.issue.joint = true → ∃ t, exec (.halt g) s = .next t ∧ t.core.issue.redirect = .placed
          ∧ ∀ k, t.core.quarter k = { c.quarter k with st := .ended })
      ∧ (c.issue.joint = false → waits (setBit c.pmask q.toNat false) →
          ∃ t, exec (.halt g) s = .next t ∧ t.core.issue.redirect = .placed
          ∧ t.core.quarter q = { c.quarter q with st := .ended } ∧ t.core.pmask = setBit c.pmask q.toNat false
          ∧ ∀ k, k ≠ q → t.core.quarter k = c.quarter k)
      ∧ (c.issue.joint = false → ∀ (m : BitVec 2) (r : Reg), ¬ waits (setBit c.pmask q.toNat false) →
          lowest (setBit c.pmask q.toNat false) m → (c.quarter m).joinB = some r → ∃ t, exec (.halt g) s = .next t ∧ joined t m r)
      ∧ exec (.nop g) s = .next s
      ∧ exec (.yield g) s =
          .next (if c.issue.joint then s else s.modQtr fun x => { x with yielded := true, denial := 0, promoted := false })
      ∧ (n < 3 → exec (.role g i) s = .next (s.modQtr fun x => { x with role := BitVec.ofNat 2 n }))
      ∧ (c.issue.joint = true → n = 0 ∨ 15 < n → exec (.fork g a i) s = bad)
      ∧ (c.issue.joint = false → exec (.fork g a i) s = bad) ∧ (c.issue.joint = true → exec (.join g a) s = bad)
      ∧ (3 ≤ n → exec (.role g i) s = bad))
    ∧ (∀ (x : BitVec 20) (ci : BitVec 4) (s : State),
    exec (.ext x) s = .next (s.modIssue fun i => { i with ext := some x })
      ∧ exec (.capx ci) s = .next (s.modIssue fun i => { i with capx := some ci })
      ∧ (s.core.isService = false → exec .spec s = .next (s.modIssue fun i => { i with spec := true })
          ∧ exec .tape s = .next (s.modIssue fun i => { i with tape := true }))
      ∧ (s.core.isService = true → ∀ j ∈ [Instr.spec, .tape], exec j s =
          .next (s.trapped { cause := .illegal, info0 := s.core.issue.gaddr, fq := s.core.issue.q })))

/-! ### Traps and system registers -/

/-- R181, R187: TRAP takes SWTRAP with its code, the continuation and its register; TRAPEN and TRAPDIS write TSTAT.EN
with trap privilege and trap PRIV without. -/
def Obligations.TrapInstructions : Prop :=
  ∀ (g : Guard) (a : Reg) (i : Imm) (s : State), s.executes g = true →
    let q := s.core.issue.q
    let en := fun (b : Bool) =>
      (Host.Outcome.next { s with core := { s.core with tr := { s.core.tr with tstat := setBit s.core.tr.tstat 8 b } } } : Out)
    let denied := fun (w : Word) => (Host.Outcome.next (s.trapped { cause := .priv, info0 := w, fq := q }) : Out)
    exec (.trap g a i) s = .next (s.trapped
        { cause := .swtrap, src := 3, info0 := BitVec.ofNat 64 (immBits s i).1, info1 := s.core.issue.cont,
          info2 := s.rdS a, fq := q })
      ∧ (s.core.priv = true → exec (.trapen g) s = en true ∧ exec (.trapdis g) s = en false)
      ∧ (s.core.priv = false → exec (.trapen g) s = denied 0x101 ∧ exec (.trapdis g) s = denied 0x102
          ∧ exec (.rte g) s = denied 0x100)

/-- R176, R177, R180 to R183: a trap whose handler can be entered saves the streams' addresses, their masks, the flags and
the origin, writes the record, masks further traps and starts every quarter joint at the handler, engines frozen; a
trap that traps cannot take, because they are masked or nested seven deep, escalates; on a service core the device
becomes fatal, on a tile core the run has left its core. -/
def Obligations.TrapEntry : Prop :=
  (∀ (s : State) (t : TrapRec) (h : Nat),
    let s1 := { s with dev := s.dev.dropQuarterHolds s.core.num }
    let c := s.core
    let u := (s.takeTrap t).core
    c.trapEn = true → c.depth < 7 → s1.handlerFor t.cause.code = some h → (s1.lineNow h).map ownerOf = some 4 →
      u.joint = true ∧ u.q0.pc = BitVec.ofNat 64 h ∧ u.frozen = true ∧ u.pmask = 0 ∧ u.jsync = 0
        ∧ (∀ k, (u.quarter k).st = .running)
        ∧ bfld u.tr.tstat 8 1 = 0 ∧ bfld u.tr.tstat 9 1 = 1 ∧ bfld u.tr.tstat 10 1 = bfld c.tr.tstat 8 1
        ∧ bfld u.tr.tstat 11 1 = (if c.isService then 1 else bfld c.tr.tstat 9 1)
        ∧ bfld u.tr.tstat 20 3 = c.depth + 1 ∧ bfld u.tr.tstat 13 3 = t.eng.toNat
        ∧ bfld u.tr.tstat 16 2 = t.fq.toNat ∧ bfld u.tr.tstat 18 2 = t.src.toNat
        ∧ bfld u.tr.tstat 23 1 = c.joint.toNat ∧ bfld u.tr.tstat 24 4 = c.jsync.toNat
        ∧ bfld u.tr.tstat 28 4 = c.pmask.toNat
        ∧ u.tr.tcause = BitVec.ofNat 64 (t.cause.code + 256 * t.sub.toNat)
        ∧ (∀ k : BitVec 2, tget 0 u.tr.tepc k.toNat =
            if c.joint then c.q0.pc else if c.pmask.getLsbD k.toNat then (c.quarter k).pc else 0)
        ∧ tget 0 u.tr.tinfo 0 = t.info0 ∧ tget 0 u.tr.tinfo 1 = t.info1 ∧ tget 0 u.tr.tinfo 2 = t.info2
        ∧ tget 0 u.tr.tinfo 3 = t.info3
        ∧ (∀ p, (s.takeTrap t).dev.byte p = s.dev.byte p) ∧ ∀ p, u.pool.byte p = c.pool.byte p)
    ∧ (∀ (s : State) (t : TrapRec), s.core.trapEn = false ∨ s.core.depth = 7 →
    (s.core.isService = true → bfld (s.takeTrap t).dev.plat.bootstat 0 2 = 3)
      ∧ (s.core.isService = false → s.core.num < 128 → s.core.run.isSome = true →
          ((s.takeTrap t).coreAt s.core.num).run = none))

/-- R185, R187: RTE with privilege, inside a handler and with every engine stopped, restores what entry saved: the streams'
addresses, joint running or the strands of PMASK with their join bits, EN and HM; DEPTH falls by one. That engines stay frozen
in an outer handler is the model's reading (log 11). -/
def Obligations.TrapReturn : Prop :=
  ∀ (g : Guard) (s : State), s.executes g = true → s.core.priv = true → s.core.depth ≠ 0 →
    s.core.enginesStopped = true → (∀ e, s.chainHeld e = none) →
    let w := s.core.tr.tstat
    ∃ t, exec (.rte g) s = .next t ∧ t.core.issue.redirect = .placed ∧ t.core.frozen = decide (s.core.depth ≠ 1)
      ∧ (∀ k : BitVec 2, (t.core.quarter k).pc = tget 0 s.core.tr.tepc k.toNat)
      ∧ t.core.joint = w.getLsbD 23 ∧ t.core.pmask = w.extractLsb' 28 4 ∧ t.core.jsync = w.extractLsb' 24 4
      ∧ (w.getLsbD 23 = true → ∀ k, (t.core.quarter k).st = .running)
      ∧ (w.getLsbD 23 = false → ∀ k : BitVec 2,
          (t.core.quarter k).st = if w.getLsbD (28 + k.toNat) then .running else .parked)
      ∧ t.core.tr.tstat.getLsbD 8 = w.getLsbD 10 ∧ t.core.tr.tstat.getLsbD 9 = (w.getLsbD 11 || s.core.isService)
      ∧ bfld t.core.tr.tstat 20 3 = s.core.depth - 1
      ∧ ∀ k r, (t.core.quarter k).rdS r = (s.core.quarter k).rdS r

/-- R5, R31, R88, R108, R175 to R179, R341: what MFS reads of each register, and that it needs privilege from number 0x10
up; a number that names no register traps ILLEGAL, one above 255 whether the instruction executes or not; what MTS
writes of each register, with the limits of SLIP, AGE and WDOG; RO registers ignore it. -/
def Obligations.SystemRegisters : Prop :=
  (∀ (g : Guard) (d : Reg) (i : Imm) (s : State),
    let n := (immBits s i).1
    let c := s.core
    let unassigned := (4 ≤ n ∧ n ≤ 7) ∨ (0x0D ≤ n ∧ n ≤ 0x0F) ∨ (0x17 ≤ n ∧ n ≤ 0x1F) ∨ 0x34 < n
    let out := fun (v : Word) => exec (.mfs g d i) s = .next (s.wrS 2 d v)
    ((255 < n ∨ (s.executes g = true ∧ unassigned) →
        ∀ j ∈ [Instr.mfs g d i, .mts g d i], exec j s =
          .next (s.trapped { cause := .illegal, info0 := c.issue.gaddr, fq := c.issue.q }))
      ∧ (n ≤ 255 → s.executes g = false → ∀ j ∈ [Instr.mfs g d i, .mts g d i], exec j s = .next s))
      ∧ (s.executes g = true →
      (n = 0x00 → out s.dev.plat.devid) ∧ (n = 0x01 → out (s.dev.plat.fwif.setWidth 64))
      ∧ (n = 0x02 → out s.dev.plat.qtbase) ∧ (n = 0x03 → out s.dev.plat.rcbbase) ∧ (n = 0x08 → out s.qtr.rngkey)
      ∧ (n = 0x09 → out (s.qtr.rngctr.setWidth 64)) ∧ (n = 0x0A → out (s.qtr.vwin.setWidth 64))
      ∧ (n = 0x0B → out (s.qtr.pwin.setWidth 64)) ∧ (n = 0x0C → out (s.qtr.role.setWidth 64))
      ∧ (c.priv = true →
          (n = 0x10 → out (c.sys.slip.setWidth 64)) ∧ (n = 0x11 → out (c.sys.age.setWidth 64))
            ∧ (n = 0x12 → out (c.sys.wdog.setWidth 64)) ∧ (n = 0x13 → out (c.sys.poolv.setWidth 64))
            ∧ (n = 0x14 → out (c.sys.pools.setWidth 64)) ∧ (n = 0x15 → out (c.sys.poolc.setWidth 64))
            ∧ (n = 0x16 → out c.sys.capver) ∧ (n = 0x20 → c.isService = false → out c.tr.tstat)
            ∧ (n = 0x21 → out c.tr.tcause) ∧ (n = 0x2F → out c.tr.tldm) ∧ (n = 0x30 → out c.tr.meprog)
            ∧ (∀ k < 4, n = 0x22 + k → out (tget 0 c.tr.tepc k)) ∧ (∀ k < 4, n = 0x26 + k → out (tget 0 c.tr.tinfo k))
            ∧ ∀ k < 4, n = 0x31 + k → out (tget 0 s.qtr.tscr k))
      ∧ (c.priv = false → 0x10 ≤ n → n ≤ 0x34 → n ∉ [0x17, 0x18, 0x19, 0x1A, 0x1B, 0x1C, 0x1D, 0x1E, 0x1F] →
          exec (.mfs g d i) s =
            .next (s.trapped { cause := .priv, info0 := BitVec.ofNat 64 n, fq := c.issue.q }))))
    ∧ (∀ (g : Guard) (a : Reg) (i : Imm) (s : State), s.executes g = true →
    let n := (immBits s i).1
    let v := s.rdS a
    let q := fun (f : Quarter → Quarter) => exec (.mts g a i) s = .next (s.modQtr f)
    let y := fun (f : SysRegs → SysRegs) =>
      exec (.mts g a i) s = .next { s with core := { s.core with sys := f s.core.sys } }
    let t := fun (f : TrapRegs → TrapRegs) =>
      exec (.mts g a i) s = .next { s with core := { s.core with tr := f s.core.tr } }
    (n = 0x08 → q fun x => { x with rngkey := v }) ∧ (n = 0x09 → q fun x => { x with rngctr := v.setWidth 32 })
      ∧ (n = 0x0A → q fun x => { x with vwin := v.setWidth 6 }) ∧ (n = 0x0B → q fun x => { x with pwin := v.setWidth 5 })
      ∧ (n = 0x00 ∨ n = 0x0C → exec (.mts g a i) s = .next s)
      ∧ (s.core.priv = true →
          (n = 0x10 → y fun x => { x with slip := BitVec.ofNat 32 (max 1 (min 64 (v.toNat % 128))) })
            ∧ (n = 0x11 → y fun x => { x with age := BitVec.ofNat 32 (max 8 (v.toNat % 65536)) })
            ∧ (n = 0x12 → y fun x => { x with wdog := v.setWidth 32 &&& 0x80FFFFFF })
            ∧ (n = 0x16 → y fun x => { x with capver := v &&& 0x3FFFF })
            ∧ (n = 0x20 → s.core.isService = false →
                t fun x => { x with tstat := (x.tstat &&& ~~~0xFF801C00) ||| (v &&& 0xFF801C00) })
            ∧ (n = 0x21 → t fun x => { x with tcause := v &&& 0xFFFF })
            ∧ (n = 0x2F → t fun x => { x with tldm := v &&& 0xFFFFFFFF })
            ∧ (n = 0x30 → exec (.mts g a i) s = .next s)
            ∧ (∀ k < 4, n = 0x22 + k → t fun x => { x with tepc := tset 0 x.tepc k v })
            ∧ (∀ k < 4, n = 0x26 + k → t fun x => { x with tinfo := tset 0 x.tinfo k v })
            ∧ ∀ k < 4, n = 0x31 + k → q fun x => { x with tscr := tset 0 x.tscr k v })
      ∧ (s.core.priv = false → (1 ≤ n ∧ n ≤ 3) ∨ (0x10 ≤ n ∧ n ≤ 0x16) ∨ (0x20 ≤ n ∧ n ≤ 0x34) →
          exec (.mts g a i) s =
            .next (s.trapped { cause := .priv, info0 := BitVec.ofNat 64 n, fq := s.core.issue.q })))

/-! ### Semaphores, barriers, fences, time -/

/-- R66, R323 to R325: what the semaphore instructions do on an index up to 255, none of them breaking V ≤ CEIL: SEMINIT sets value and ceiling; SEMWAIT
waits below its amount, else acquires, consumes under .cons and answers the value it saw; SEMSIG and SEMADD release and
move the value within 0 and the ceiling, else trap SEMOVF; SEMCAS replaces on equality; SEMRD reads. An index
above 255 is ILLEGAL whether the instruction executes or not. -/
def Obligations.SemaphoreResults : Prop :=
  ∀ (g : Guard) (d a : Reg) (i : Imm) (j : BitVec 16) (cons : Bool) (s : State),
    let q := s.core.issue.q.toNat
    let n := (immBits s i).1
    let m := (immBits s (.long j)).1
    let x := tget Sem.init s.core.sems n
    let y := tget Sem.init s.core.sems m
    let one := if a = 0 then 1 else (s.rdS a).toNat
    let lo := (s.rdS a).toNat % 65536
    let hi := (s.rdS a).toNat / 65536 % 65536
    let sem := fun (s : State) (k : Nat) (v : Sem) => s.modCore fun c => { c with sems := tset .init c.sems k v }
    let released := fun (s : State) (k : Nat) => s.modCore fun c =>
      { c with race := (c.race.release q).toSem k q (c.race.curOf q + 1) }
    let answer := fun (s : State) (lat : Nat) (v : Word) => if d = 0 then s else s.wrS lat d v
    let ovf := fun (k v w : Nat) => (Host.Outcome.next (s.trapped
      { cause := .semovf, info0 := BitVec.ofNat 64 k, info1 := BitVec.ofNat 64 v, info2 := BitVec.ofNat 64 w,
        fq := s.core.issue.q }) : Out)
    let w : Int := x.v.toNat + (s.rdS a).toInt
    (s.executes g = true → n ≤ 255 →
        (x.v.toNat < one → exec (.semwait g d a i cons) s = .next (s.held (.slot 0 (BitVec.ofNat 64 n))))
          ∧ (one ≤ x.v.toNat →
              let s1 := s.modCore fun c =>
                { c with race := c.race.acquireVec q fun b => tget 1 c.race.sem (8 * n + b) }
              let s2 := if cons then sem s1 n { x with v := x.v - BitVec.ofNat 16 one } else s1
              exec (.semwait g d a i cons) s = .next (answer s2 1 (x.v.setWidth 64)))
          ∧ (x.v.toNat + one ≤ x.ceil.toNat → exec (.semsig g a i) s =
              .next (released (sem s n { x with v := x.v + BitVec.ofNat 16 one }) n))
          ∧ (x.ceil.toNat < x.v.toNat + one → exec (.semsig g a i) s = ovf n x.v.toNat one)
          ∧ (0 ≤ w → w ≤ x.ceil.toNat → exec (.semadd g d a i) s =
              .next (answer (released (sem s n { x with v := BitVec.ofInt 16 w }) n) 2 (x.v.setWidth 64)))
          ∧ (w < 0 ∨ x.ceil.toNat < w → exec (.semadd g d a i) s = ovf n x.v.toNat (s.rdS a).toNat)
          ∧ exec (.semrd g d i) s = .next (s.wrS 2 d (x.ceil ++ x.v : BitVec 32).toNat))
      ∧ (s.executes g = true → m ≤ 255 →
          (lo ≤ hi → exec (.seminit g a j) s =
              .next (sem s m { v := BitVec.ofNat 16 lo, ceil := BitVec.ofNat 16 hi }))
            ∧ (hi < lo → exec (.seminit g a j) s = ovf m lo 0)
            ∧ (y.v.toNat = lo → hi ≤ y.ceil.toNat → exec (.semcas g d a j) s =
                .next (answer (released (sem s m { y with v := BitVec.ofNat 16 hi }) m) 2 (y.v.setWidth 64)))
            ∧ (y.v.toNat = lo → y.ceil.toNat < hi → exec (.semcas g d a j) s = ovf m y.v.toNat hi)
            ∧ (y.v.toNat ≠ lo → exec (.semcas g d a j) s = .next (answer s 2 (y.v.setWidth 64))))
      ∧ (255 < n → ∀ i' ∈ [Instr.semwait g d a i cons, .semsig g a i, .semadd g d a i, .semrd g d i], exec i' s =
          .next (s.trapped { cause := .illegal, info0 := s.core.issue.gaddr, fq := s.core.issue.q }))
      ∧ (255 < m → ∀ i' ∈ [Instr.seminit g a j, .semcas g d a j], exec i' s =
          .next (s.trapped { cause := .illegal, info0 := s.core.issue.gaddr, fq := s.core.issue.q }))
      ∧ (∀ i' ∈ [Instr.seminit g a j, .semwait g d a i cons, .semsig g a i, .semadd g d a i, .semcas g d a j, .semrd g d i],
          ∀ t, exec i' s = .next t → t.core.issue.stop = none →
            (∀ k, (tget Sem.init s.core.sems k).v ≤ (tget Sem.init s.core.sems k).ceil) →
            ∀ k, (tget Sem.init t.core.sems k).v ≤ (tget Sem.init t.core.sems k).ceil)

/-- R96, R323, R326 to R328: what the barrier instructions do to the object their index is bound to: BARINIT binds and
writes it, BARARRIVE takes arrivals off and answers the token, BAREXP adds bytes, BARWAIT waits for the phase of its
token to end; a phase completes when neither arrivals nor bytes are left. An unbound index traps; a barrier object
written back reads as it was written, and no other byte of the pool, no full/empty bit, no writer record and no poison
changes; its granule's tag is cleared. -/
def Obligations.BarrierResults : Prop :=
  (∀ (g : Guard) (d a b c : Reg) (i : Imm) (s : State), s.executes g = true →
    let q := s.core.issue.q.toNat
    let k := (immBits s i).1
    let idx := (s.rdS a).toNat % 2048
    let done := fun (o : Bar) =>
      if o.arr = 0 ∧ o.bytes = 0 then { o with phase := (o.phase + 1) % 4096, arr := o.reload } else o
    let put := fun (s : State) (at_ : Nat) (o : Bar) => s.modCore fun c => c.barPut at_ o
    let answer := fun (s : State) (v : Nat) => if d = 0 then s else s.wrS 2 d (BitVec.ofNat 64 v)
    (∀ at_, s.core.barAt idx = some at_ →
        let o := s.core.barGet at_
        let s1 := s.modCore fun c => { c with race := (c.race.release q).toBar idx q (c.race.curOf q + 1) }
        (k ≤ 65535 → k ≤ o.arr → 0 < k →
            exec (.bararrive g d a i) s = .next (answer (put s1 at_ (done { o with arr := o.arr - k })) (idx + 65536 * o.phase)))
          ∧ (k = 0 → exec (.bararrive g d a i) s = .next (answer s1 (idx + 65536 * o.phase)))
          ∧ (k ≤ 65535 → o.arr < k → exec (.bararrive g d a i) s = .next (s.trapped
              { cause := .semovf, info0 := BitVec.ofNat 64 (0x800 + idx), info1 := BitVec.ofNat 64 o.arr,
                info2 := BitVec.ofNat 64 k, fq := s.core.issue.q }))
          ∧ exec (.barexp g a b) s = .next (put s at_ (done { o with bytes := o.bytes + s.rdS b }))
          ∧ (s.core.issue.ext = none → o.phase = (s.rdS a).toNat / 65536 % 4096 →
              exec (.barwait g a) s = .next (s.held (.slot 2 (BitVec.ofNat 64 idx))))
          ∧ (s.core.issue.ext = none → o.phase ≠ (s.rdS a).toNat / 65536 % 4096 →
              exec (.barwait g a) s = .next (s.modCore fun c =>
                { c with race := c.race.acquireVec q fun b => tget 1 c.race.bar (8 * idx + b) })))
      ∧ (65535 < k → exec (.bararrive g d a i) s =
          .next (s.trapped { cause := .illegal, info0 := s.core.issue.gaddr, fq := s.core.issue.q }))
      ∧ (s.core.barAt idx = none → k ≤ 65535 → s.core.issue.ext = none →
          ∀ i' ∈ [Instr.bararrive g d a i, .barexp g a b, .barwait g a], exec i' s = .next (s.trapped
            { cause := .capfault, sub := 9, info0 := 9, info2 := BitVec.ofNat 64 idx, fq := s.core.issue.q }))
      ∧ (∀ at_, capCheck s.core s.dev (s.rdC a) 0 16 (permW + permFE) [0] = .ok at_ → at_ % 16 = 0 →
          ∃ t, exec (.barinit g a b c) s = .next t
            ∧ t.core.barAt ((s.rdS b).toNat % 2048) = some at_
            ∧ t.core.barGet at_ = { bytes := 0, reload := (s.rdS c).toNat % 65536, arr := (s.rdS c).toNat % 65536,
                                    phase := 0, valid := true }
            ∧ (∀ p, p < at_ ∨ at_ + 16 ≤ p → t.core.pool.byte p = s.core.pool.byte p)
            ∧ tget false t.core.pool.pois (at_ / 16) = false
            ∧ (∀ n, n ≠ (s.rdS b).toNat % 2048 → t.core.barAt n = s.core.barAt n)
            ∧ t.dev = s.dev ∧ ∀ k, t.core.quarter k = s.core.quarter k))
    ∧ (∀ (c : Core) (at_ : Nat) (o : Bar), at_ % 16 = 0 → o.phase < 4096 → o.arr < 65536 → o.reload < 65536 →
    (c.barPut at_ o).barGet at_ = o
      ∧ (∀ p, p < at_ ∨ at_ + 16 ≤ p → (c.barPut at_ o).pool.byte p = c.pool.byte p)
      ∧ tget false (c.barPut at_ o).pool.tag (at_ / 16) = false
      ∧ (∀ g, g ≠ at_ / 16 → tget false (c.barPut at_ o).pool.tag g = tget false c.pool.tag g)
      ∧ c.barPut at_ o = { c with pool := { c.pool with bytes := (c.barPut at_ o).pool.bytes,
                                                        tag := (c.barPut at_ o).pool.tag } })

/-- R222 to R224: what a quarter wrote before it signalled a semaphore, another quarter may read once it has waited on it;
without the wait, in a forked run, the access is a race when the reader has acquired nothing of the writer since. -/
def Obligations.SignalThenWaitOrders : Prop :=
  ∀ (c : Core) (w r g i : Nat), w ≠ r → w < 4 → r < 4 →
    tget (0, 0) c.pool.wrec g = (BitVec.ofNat 3 w, c.race.curOf w) →
    (∀ e ∈ [tget 1 c.race.sem (8 * i + w), c.race.acqOf r w], (c.race.curOf w - e).toNat < 128) →
      ((c.relSem w i).acqSem r i).raceOk r g = true
        ∧ (c.issue.joint = false → c.raceOk r g = false)
        ∧ c.raceOk w g = true

/-- R203, R221, R223, R224, R226: FENCE pushes and drops the L1 at device and system scope and advances the quarter's
epoch on a release; FENCE.settle, with every engine queue empty, makes every record settled; after settling no quarter
and no engine races on any granule, and who wrote it last is kept. -/
def Obligations.FenceResults : Prop :=
  (∀ (g : Guard) (sc : Scope) (s : State), s.executes g = true → s.core.issue.ext = none →
    let wide := sc = .device ∨ sc = .system
    let epoch := fun (s : State) => s.modCore fun c => { c with race := c.race.release c.issue.q.toNat }
    let push := fun (s : State) => if wide then s.l1PushAll else s
    let drop := fun (s : State) => if wide then s.l1Inval else s
    exec (.fenceAcq g sc) s = .next (drop s)
      ∧ exec (.fenceRel g sc) s = .next (epoch (push s))
      ∧ exec (.fenceFull g sc) s = .next (drop (epoch (push s)))
      ∧ (s.core.issue.joint = true → s.core.enginesEmpty = true →
          exec (.fenceSettle g) s = .next (s.modCore Core.settle))
      ∧ (s.core.issue.joint = true → s.core.enginesEmpty = false → exec (.fenceSettle g) s = .next (s.held .other))
      ∧ (s.core.issue.joint = false → exec (.fenceSettle g) s =
          .next (s.trapped { cause := .illegal, info0 := s.core.issue.gaddr, fq := s.core.issue.q })))
    ∧ (∀ (c : Core) (a g : Nat), a < 8 →
    c.settle.raceOk a g = true
      ∧ (twf (0, 0) c.pool.wrec = true → tget (0, 0) c.settle.pool.wrec g = ((tget (0, 0) c.pool.wrec g).1, 0))
      ∧ c.settle.race.curOf a = 1)

/-- R339, R340, R343, R352: what the time and counter instructions read and write, and that each completes; in deterministic mode
TREAD counts bundles and PMCRD reads 0; TSYNC and PMCRD 32 need trap privilege. TSYNC and TSYNC.step deliver after 20 cycles;
TSYNC.ptm delivers when its exchange completes, within 20 us at the clock of TELEM: the moment (log 139) and what it reads of
the root port (log 5) are free. -/
def Obligations.TimeResults : Prop :=
  ∀ (g : Guard) (d a : Reg) (i : Imm) (j : BitVec 16) (s : State), s.executes g = true →
    let n := (immBits s i).1
    let m := (immBits s (.long j)).1
    let det := s.dev.plat.mode.getLsbD 1
    let denied := fun (w : Word) =>
      (Host.Outcome.next (s.trapped { cause := .priv, info0 := w, fq := s.core.issue.q }) : Out)
    (n = 0 → exec (.tread g d i) s = .next (s.wrS 20 d (if det then s.core.bundles else s.dev.time)))
      ∧ (n = 1 → exec (.tread g d i) s = .next (s.wrS 2 d (if det then s.core.bundles else s.core.cyc)))
      ∧ (n = 2 → exec (.tread g d i) s = .next (s.wrS 2 d (if det then s.core.bundles else s.core.runcyc)))
      ∧ (m ≤ 15 → exec (.pmcrd g d j) s = .next (s.wrS 2 d (if det then 0 else tget 0 s.core.issue.perf m)))
      ∧ (2 < n → exec (.tread g d i) s =
          .next (s.trapped { cause := .illegal, info0 := s.core.issue.gaddr, fq := s.core.issue.q }))
      ∧ (15 < m → m ≠ 32 → exec (.pmcrd g d j) s =
          .next (s.trapped { cause := .illegal, info0 := s.core.issue.gaddr, fq := s.core.issue.q }))
      ∧ (s.core.priv = true →
          (m = 32 → exec (.pmcrd g d j) s = .next (s.wrS 2 d (if det then 0 else s.dev.corr)))
            ∧ exec (.tsync g d a) s =
                .next ((s.modDev fun v => { v with slew := v.slew + s.rdS a }).wrS 20 d s.dev.slew)
            ∧ exec (.tsyncStep g d a) s =
                .next ((s.modDev fun v => { v with time := v.time + s.rdS a }).wrS 20 d s.dev.time)
            ∧ ∃ lat, 1 ≤ lat ∧ lat ≤ 2000 * max 1 (bfld s.dev.plat.telem 32 8) ∧ exec (.tsyncPtm g d) s =
                .next (({ s with fresh := s.fresh + 1 }).wrS lat d (Config.ptmRoot s.fresh - s.dev.time)))
      ∧ (s.core.priv = false →
          (m = 32 → exec (.pmcrd g d j) s = denied 0x405)
            ∧ exec (.tsync g d a) s = denied 0x404 ∧ exec (.tsyncStep g d a) s = denied 0x404
            ∧ exec (.tsyncPtm g d) s = denied 0x404)

/-! ### Memory -/

/-- R90, R93 to R95, R197, R233, R236, R308, R346: the checks of a capability, in their order: tag, space (in space 4
every peer index the bytes reach must be one this card may use), version, permissions, bounds, and for space 0 the
scratchpad's bounds; where a quarter's access goes: a capability that fails a check traps CAPFAULT with the first
failing check's code, an address off its alignment traps ALIGN, space 0 is the scratchpad, and space 2 goes through
translation, which may trap XLATE or hold. -/
def Obligations.CapabilityAccess : Prop :=
  (∀ (c : Core) (d : Device) (x : CapWord) (off : Int) (n perm : Nat) (spaces : List Nat),
    let space := capSpace x
    let at_ := capBase x + off.toNat
    let tagged := capTag x = true
    let peers := d.peerOk (capBase x) = true
      ∧ (0 ≤ off → d.peerOk at_ = true ∧ d.peerOk (at_ + (n - 1)) = true)
    let space_ok := space ∈ spaces ∧ (space = 4 → peers)
    let ver := capVer x = (if space ≤ 5 then bfld c.sys.capver (3 * space) 3 else 8)
    let perms := capPerm x &&& perm = perm
    let inside := 0 ≤ off ∧ off + n ≤ capLen x
    let area := space = 0 → n ≠ 0 → 4096 * bfld c.sys.poolv 0 11 ≤ at_ ∧ at_ + n ≤ 4096 * bfld c.sys.pools 0 11
    (tagged ∧ space_ok ∧ ver ∧ perms ∧ inside ∧ area ↔ capCheck c d x off n perm spaces = .ok at_)
      ∧ (¬ tagged → capCheck c d x off n perm spaces = .error 1)
      ∧ (tagged → ¬ space_ok → capCheck c d x off n perm spaces = .error 2)
      ∧ (tagged → space_ok → ¬ ver → capCheck c d x off n perm spaces = .error 3)
      ∧ (tagged → space_ok → ver → ¬ perms → capCheck c d x off n perm spaces = .error 4)
      ∧ (tagged → space_ok → ver → perms → ¬ inside → capCheck c d x off n perm spaces = .error 5)
      ∧ (tagged → space_ok → ver → perms → inside → ¬ area → capCheck c d x off n perm spaces = .error 6))
    ∧ (∀ (s : State) (ci n perm align : Nat) (off : Int) (wr : Bool) (spaces : List Nat),
    let c := s.qtr.rdC ci
    let fault := fun (sub : Nat) => (EStateM.Result.error (Stop.trap
      { cause := .capfault, sub := BitVec.ofNat 8 sub, info0 := BitVec.ofNat 64 sub, info1 := BitVec.ofNat 64 ci,
        info2 := BitVec.ofInt 64 off, info3 := BitVec.ofNat 64 n, fq := s.core.issue.q }) s :
      EStateM.Result Stop State Place)
    let kind := if wr then 1 else 0
    let run := quarterPlace ci off n perm align wr spaces s
    (∀ sub, capCheck s.core s.dev c off n perm spaces = .error sub → run = fault sub)
      ∧ (∀ p, capCheck s.core s.dev c off n perm spaces = .ok p →
          (p % align ≠ 0 → run = fault 7)
            ∧ (p % align = 0 → capSpace c = 0 → run = .ok (.pool p) s)
            ∧ (p % align = 0 → capSpace c ≠ 0 → run =
                match s.xlate s.core.issue.q.toNat p kind with
                | (.ok pa pte, t) => .ok (.dev p pa pte) t
                | (.fail r l, t) => .error (.trap { cause := .xlate, info0 := BitVec.ofNat 64 p, info1 := xlInfo kind l r,
                                                    info2 := BitVec.ofNat 64 ci, fq := s.core.issue.q }) t
                | (.held, t) => .error (.hold .late) t)))

/-- R199, R223, R232 to R236, R240: LD at the place its capability names reads its size little-endian, extended by its
qualifier, or a capability with the granule's tag under LC; .acq, .fe and .fec acquire, .fe and .fec wait for a full
granule and .fec empties it. -/
def Obligations.LoadResults : Prop :=
  ∀ (g : Guard) (d a b : Reg) (sz : Size) (k : LdSync) (m : Bool) (s s1 : State) (pl : Place),
    s.executes g = true → s.taping = false →
    let isC := m && decide (sz = .d)
    let n := if isC then 16 else match sz with | .d => 8 | .w => 4 | .h => 2 | .b => 1
    let fe := k = .fe ∨ k = .fec
    let ci := s.capIdx a
    let dst := fun (u : State) (lat : Nat) (bs : List Byte) (tag : Bool) =>
      let x := ofBytes bs
      if isC then u.wrC lat d (setBit (BitVec.ofNat 129 x) 128 (tag && decide (capPerm (s.qtr.rdC ci) &&& permLC = permLC)))
      else u.wrS lat d (if m || sz = .d then BitVec.ofNat 64 x else (BitVec.ofNat (8 * n) x).signExtend 64)
    let drop := fun (sc : Scope) (u : State) => if sc = .device ∨ sc = .system then u.l1Inval else u
    quarterPlace ci (s.offB b n) n (if fe then permR + permFE else permR) n false (if fe then [0] else [0, 2]) s =
        .ok pl s1 →
      (∀ p, pl = .pool p → (k = .none → s.core.raceAt s.core.issue.q.toNat p n = none) →
          (∀ i < n, tget false s.core.pool.pois ((p + i) / 16) = false) →
          let empty := s.modCore fun c => { c with pool := { c.pool with full := tset false c.pool.full (p / 16) false } }
          let u := match k with
            | .none => s
            | .acq sc => (drop sc s).acquireRecord sc (p / 16)
            | .fe => s.acquireRecord .core (p / 16)
            | .fec => empty.acquireRecord .core (p / 16)
          (fe → tget false s.core.pool.full (p / 16) = true) →
            exec (.ld g d a b sz k m) s = .next (dst u 4 (s.core.pool.read p n) (tget false s.core.pool.tag (p / 16))))
        ∧ (∀ p, pl = .pool p → fe → tget false s.core.pool.full (p / 16) = false →
            exec (.ld g d a b sz k m) s = .next (s.held (.slot 1 (BitVec.ofNat 64 p))))
        ∧ (∀ va pa pte, pl = .dev va pa pte →
            let r := s1.l1Read pte pa n isC
            let u := if s1.core.useL1 pte then r.2.count (if s1.core.l1Has pa n isC then 6 else 7) 1 else r.2
            (∀ i < n, r.1.2.1 i = false) → exec (.ld g d a b sz k m) s =
              .next (dst (match k with | .acq sc => drop sc u | _ => u) 8 r.1.1 r.1.2.2))

/-- R38, R96, R189, R195, R199, R203, R204, R213, R223, R232 to R235: ST at the place its capability names writes its size
little-endian and nothing else: the granules take the quarter's writer record and lose their tag unless a tagged
capability is stored, .rel and .sf release first, .sf fills. Past the L1 the bytes are at the slice at once: a read
through the page finds them, every other byte as before, and no other block has changed for any reader. That .sf is
exempt from the race check, as .rel is, is the model's reading (log 107); the canonical form of the pool and of the
register tables, which equal contents share: a pool write, a clearing, a change of layout, an engine's mark and the
loading of an image keep the pool's; a result placed and the delivery of results keep a quarter's; what an image or
reset gives has it. -/
def Obligations.StoreResults : Prop :=
  (∀ (g : Guard) (d a b : Reg) (sz : Size) (k : StSync) (m : Bool) (s s1 : State) (pl : Place), s.executes g = true →
    let q := s.core.issue.q
    let isC := m && decide (sz = .d)
    let n := if isC then 16 else match sz with | .d => 8 | .w => 4 | .h => 2 | .b => 1
    let tag := isC && capTag (s.rdC d)
    let ci := s.capIdx a
    let v := if isC then (s.rdC d).toNat % 2 ^ 128 else (s.rdS d).toNat
    let perm := permW + (if k = .sf then permFE else 0) + if tag then permSC else 0
    let rel := fun (u : State) =>
      let e := fun (u : State) => u.modCore fun c => { c with race := c.race.release q.toNat }
      match k with
      | .none => u
      | .rel sc => e (if sc = Scope.device ∨ sc = Scope.system then u.l1PushAll else u)
      | .sf => e u
    let hit := fun (u : State) (pa : Nat) (pte : Word) =>
      if u.core.useL1 pte then u.count (if (u.core.l1Find pa).isSome then 6 else 7) 1 else u
    quarterPlace ci (s.offB b n) n perm n true (if k = .sf then [0] else [0, 2]) s = .ok pl s1 →
    (tag = true → capSpace (s.qtr.rdC ci) ≠ 0 → capPerm (s.rdC d) &&& permG = permG) →
      (∀ p, pl = .pool p → (k = .none → s.core.raceAt q.toNat p n = none) →
          ∃ t, exec (.st g d a b sz k m) s = .next t
            ∧ t = { rel s with core := { (rel s).core with pool := t.core.pool } }
            ∧ (∀ i < n, t.core.pool.byte (p + i) = BitVec.ofNat 8 (v / 256 ^ i))
            ∧ (∀ x, x < p ∨ p + n ≤ x → t.core.pool.byte x = s.core.pool.byte x)
            ∧ tget false t.core.pool.tag (p / 16) = tag
            ∧ tget (0, 0) t.core.pool.wrec (p / 16) = (q.setWidth 3, (rel s).core.race.curOf q.toNat)
            ∧ tget false t.core.pool.full (p / 16) = (decide (k = .sf) || tget false s.core.pool.full (p / 16))
            ∧ tget false t.core.pool.pois (p / 16) = (decide (n ≠ 16) && tget false s.core.pool.pois (p / 16))
            ∧ ∀ j, j ≠ p / 16 → tget false t.core.pool.tag j = tget false s.core.pool.tag j
                ∧ tget (0, 0) t.core.pool.wrec j = tget (0, 0) s.core.pool.wrec j
                ∧ tget false t.core.pool.full j = tget false s.core.pool.full j
                ∧ tget false t.core.pool.pois j = tget false s.core.pool.pois j)
        ∧ (∀ va pa pte, pl = .dev va pa pte →
            let w := (hit (rel s1) pa pte).l1Write pte pa (bytesOf n v) tag
            exec (.st g d a b sz k m) s = .next w
              ∧ (s1.core.useL1 pte = false → w.core = (rel s1).core
                  ∧ (∀ i < n, (w.dev.read1 (some pte) (pa + i)).1 = BitVec.ofNat 8 (v / 256 ^ i))
                  ∧ (∀ x, x < pa ∨ pa + n ≤ x → (w.dev.read1 (some pte) x).1 = ((rel s1).dev.read1 (some pte) x).1)
                  ∧ (pa % n = 0 → ∀ j x, x / 4096 ≠ pa / 4096 → w.dev.read1 j x = (rel s1).dev.read1 j x))))
    ∧ (∀ (p : Pool) (x : Quarter) (c : Core) (a n lo hi t : Nat) (b img : List Byte) (bad : Nat → Bool) (w : BitVec 3 × BitVec 8)
    (full : Bool) (f : Nat → Bool) (who : Option (BitVec 2)) (d : Dest),
    (p.canonical → (p.write a b bad w full).canonical ∧ (p.clear lo hi).canonical ∧ (p.keep f).canonical
        ∧ (p.owned a n who).canonical)
      ∧ (c.pool.canonical → (c.loadScratch img).pool.canonical)
      ∧ (x.canonical → (x.put d).canonical ∧ (x.deliverBy t).canonical ∧ x.flush.canonical)
      ∧ (x.ofImage img).canonical ∧ Quarter.reset.canonical ∧ Pool.zero.canonical)

/-- R132, R232 to R243: a load or store changes no register but its destination, no special or trap register, no
accumulator, no semaphore, no barrier and no other quarter; stores write no register at all and
loads change no byte of the pool, but for FLAGS of a TAPEREV output when a recording load discards its segment (R268). -/
def Obligations.MemoryFrame : Prop :=
  ∀ (g : Guard) (d a b c : Reg) (sz : Size) (kl : LdSync) (ks : StSync) (m h x : Bool) (s t : State),
    t.core.issue.stop = none →
    let same := t.core.tr = s.core.tr ∧ t.core.sys = s.core.sys ∧ t.core.acc = s.core.acc ∧ t.core.sems = s.core.sems
      ∧ t.core.bars = s.core.bars ∧ t.core.swz = s.core.swz ∧ t.core.pmask = s.core.pmask ∧ t.core.jsync = s.core.jsync
      ∧ t.core.joint = s.core.joint ∧ (∀ e, t.core.eng e = s.core.eng e)
      ∧ (∀ k, k ≠ s.core.issue.q → t.core.quarter k = s.core.quarter k)
    let u := t.core.quarter s.core.issue.q
    let loads := same ∧ (∀ p, t.core.pool.byte p = s.core.pool.byte p ∨ s.taping = true
        ∧ ∃ e : Expansion, (s.core.eng .tape).rev = some e ∧ e.base = capBase s.qtr.tape.cap ∧ p = e.out + 8)
      ∧ u = { s.qtr with s := u.s, c := u.c, v := u.v, pend := u.pend, tape := u.tape }
      ∧ (s.taping = false → u.tape = s.qtr.tape)
    let same_ := fun (i : Instr) => ∀ w, exec i (s.modIssue fun k => { k with tape := false }) = .next w →
      u = { w.core.quarter s.core.issue.q with tape := u.tape }
    (∀ i ∈ [Instr.st g d a b sz ks m, .vst g d a b ks, .vsts g d a b c h, .vscat g d a b c x], exec i s = .next t →
        same ∧ u = s.qtr)
      ∧ (exec (.ld g d a b sz kl m) s = .next t → loads ∧ same_ (.ld g d a b sz kl m) ∧ u.v = s.qtr.v
          ∧ (if m && decide (sz = .d) then u.s = s.qtr.s else u.c = s.qtr.c)
          ∧ ∀ r : Reg, r ≠ d → u.rdS r = s.rdS r ∧ u.rdC r.toNat = s.rdC r)
      ∧ (∀ i ∈ [Instr.vld g d a b kl, .vlds g d a b c h, .vgath g d a b c x], exec i s = .next t →
          loads ∧ same_ i ∧ u.s = s.qtr.s ∧ u.c = s.qtr.c ∧ ∀ r : Reg, u.physV r.toNat ≠ u.physV d.toNat → u.rdV r = s.rdV r)

/-- R132, R200, R223, R237 to R240: the vector loads and stores, by the places of their elements in ascending order: what every
active element reads goes to its place in the register, and the elements of a store are written one after another, the lanes
of VST that fill one granule together. That VST.sf is exempt from the race check, as .rel is, is the model's reading (log
107). -/
def Obligations.VectorMemoryResults : Prop :=
  ∀ (g : Guard) (d a b c : Reg) (kl : LdSync) (ks : StSync) (h x : Bool) (s s1 s2 : State) (l : List (Nat × Place))
    (vs : List (Nat × Nat)), s.vexecutes g = true → s.taping = false →
    let lanes := (List.range 32).filter fun n => (s.lanes g).getLsbD n
    let elems := fun (h : Bool) => if h then (List.range 64).filter fun e => (s.lanes g).getLsbD (e / 2) else lanes
    let ci := s.capIdx a
    let q := s.core.issue.q.toNat
    let reg := fun (s : State) (f : Reg) => if f = 0 then 0 else s.rdS f
    let str := fun (e : Nat) => (reg s b + BitVec.ofNat 64 e * reg s c).toInt
    let idx := fun (e : Nat) => (reg s c + BitVec.ofNat 64 ((if x then 1 else 4) * (laneOf (s.rdV b) e).toNat)).toInt
    let val := fun (h : Bool) => mapEl h fun e => (tfind vs e).getD 0
    let fe := kl = .fe ∨ kl = .fec
    let reads := fun (n : Nat) => readPlaces n false l s1 = .ok vs s2
    let one := fun (sf : Bool) (e : Place) (bs : List Byte) (u : State) =>
      match e with
      | .pool p => u.modCore fun k => { k with pool := k.pool.write p bs (fun _ => false)
                                                 (u.core.issue.q.setWidth 3, k.race.curOf u.core.issue.q.toNat) sf }
      | .dev _ pa pte => (if u.core.useL1 pte then u.count (if (u.core.l1Find pa).isSome then 6 else 7) 1 else u).l1Write
          pte pa bs false
    let put := fun (sf : Bool) (n : Nat) (f : Nat → Nat) (u : State) =>
      l.foldl (fun u e => one sf e.2 (bytesOf n (f e.1)) u) u
    let free := fun (n : Nat) => ∀ e ∈ l, ∀ p, e.2 = .pool p → s1.core.raceAt q p n = none
    (lanePlaces ci (s.offB b 1) (if fe then permR + permFE else permR) false (if fe then [0] else [0, 2]) lanes s
          = .ok l s1 → readPlaces 4 (decide (kl ≠ .none)) l s1 = .ok vs s2 →
        (fe → ∀ e ∈ l, ∀ p, e.2 = .pool p → tget false s1.core.pool.full (p / 16) = true) →
        let u := if kl = .fec then l.foldl (fun t e => t.emptied e.2) s2 else s2
        exec (.vld g d a b kl) s =
          .next ((l.foldl (fun t e => t.acquired kl e.2) u).wrV (placesLat l 6 10) d (val false) (elemMask false lanes)))
      ∧ (lanePlaces ci (s.offB b 1) (permW + if ks = .sf then permFE else 0) true
            (if ks = .sf then [0] else [0, 2]) lanes s = .ok l s1 →
          (ks = .none → ∀ e ∈ laneWrites (s.rdV d) l, ∀ p, e.1 = .pool p → s1.core.raceAt q p e.2.length = none) →
          exec (.vst g d a b ks) s = .next ((laneWrites (s.rdV d) l).foldl (fun u e => one (decide (ks = .sf)) e.1 e.2 u)
            (s1.released ks)))
      ∧ (laneWrites (s.rdV d) l).flatMap (·.2) = l.flatMap (fun e => bytesOf 4 (laneOf (s.rdV d) e.1).toNat)
      ∧ (placeEach (fun e => quarterPlace ci (str e) (elWidth h / 8) permR (elWidth h / 8) false [0, 2]) (elems h) s = .ok l s1 →
          reads (elWidth h / 8) →
          exec (.vlds g d a b c h) s = .next (s2.wrV (placesLat l 8 12) d (val h) (elemMask h (elems h))))
      ∧ (placeEach (fun e => quarterPlace ci (idx e) 4 permR 4 false [0, 2]) lanes s = .ok l s1 → reads 4 →
          exec (.vgath g d a b c x) s = .next (s2.wrV (placesLat l 8 12) d (val false) (elemMask false lanes)))
      ∧ (placeEach (fun e => quarterPlace ci (str e) (elWidth h / 8) permW (elWidth h / 8) true [0, 2]) (elems h) s = .ok l s1 →
          free (elWidth h / 8) →
          exec (.vsts g d a b c h) s = .next (put false (elWidth h / 8) (fun e => elOf h (s.rdV d) e) s1))
      ∧ (placeEach (fun e => quarterPlace ci (idx e) 4 permW 4 true [0, 2]) lanes s = .ok l s1 → free 4 →
          exec (.vscat g d a b c x) s = .next (put false 4 (fun n => (laneOf (s.rdV d) n).toNat) s1))

/-- R205, R241, R242, R310: PREF never stops and changes no register and nothing of the pool; CLEAN and INVAL act on the
translated parts of their range, an empty one being nothing; PIN and UNPIN answer their counts, a range above 16 MiB
being refused. That a length of 0 answers 0 (log 24), that UNPIN clears STALE before it translates (log 62) and that the length
is refused after the checks of the capability (log 110) are the model's readings. -/
def Obligations.MaintenanceResults : Prop :=
  ∀ (g : Guard) (d a b c : Reg) (l2 : Bool) (s s1 : State) (va : Nat) (parts : List Part), s.executes g = true →
    let ci := s.capIdx a
    let off := (if b = 0 then 0 else s.rdS b).toInt
    let len := (if c = 0 then 0 else s.rdS c).toNat
    let n := permR + permPIN
    let lines := rangeLines ((partsOf va len).zip parts)
    (∃ t, exec (.pref g a b c l2) s = .next t ∧ t.core.issue = s.core.issue ∧ t.core.pool = s.core.pool
        ∧ t.core.tr = s.core.tr ∧ ∀ k, t.core.quarter k = s.core.quarter k)
      ∧ (len = 0 → exec (.clean g a b c) s = .next s ∧ exec (.inval g a b c) s = .next s
          ∧ exec (.pin g d a b c) s = .next (s.wrS 1 d 0) ∧ exec (.unpin g d a b c) s = .next (s.wrS 1 d 0))
      ∧ (len ≠ 0 → quarterRange ci off len n s = .ok (va, parts) s1 →
          exec (.clean g a b c) s = .next (s1.cleanParts parts false)
            ∧ exec (.inval g a b c) s = .next (s1.cleanParts parts true)
            ∧ (len ≤ 2 ^ 24 →
                let r := pinLines s1.core.region (tenantOf s1.dev.rcbs s1.core.region) lines 0 s1.dev.pins
                exec (.pin g d a b c) s =
                  .next ((s1.modDev fun v => { v with pins := r.2 }).wrS 1 d (BitVec.ofNat 64 (r.1.2 + 256 * r.1.1)))))
      ∧ (∀ x, 2 ^ 24 < len → capCheck s.core s.dev (s.qtr.rdC ci) off len n [2] = .ok x →
          exec (.pin g d a b c) s = .next (s.wrS 1 d 3))
      ∧ (∀ x, len ≠ 0 → capCheck s.core s.dev (s.qtr.rdC ci) off len n [2] = .ok x →
          let s0 := s.modDev fun v => v.clearStale s.core.region x len
          quarterRange ci off len n s0 = .ok (va, parts) s1 →
          let gone := fun (p : Pin) => p.region = s1.core.region && lines.any fun e => e.1 = p.line
          exec (.unpin g d a b c) s = .next ((s1.modDev fun v => { v with pins := v.pins.filter fun p => !gone p }).wrS 1 d
            (BitVec.ofNat 64 (s1.dev.pins.filter gone).length)))

/-- R204, R243: the lanes of VAMO act in order, each on one aligned word of space 2: the old word goes to the register
unless .nr is given, the new one to its slice. -/
def Obligations.AtomicResults : Prop :=
  ∀ (g : Guard) (d a b c : Reg) (op : AmoOp) (u nr : Bool) (s t : State) (m : BitVec 32) (l : List (Nat × Nat))
    (ci off : Nat) (f : BitVec 32 → BitVec 32) (va pa : Nat) (pte : Word) (s1 : State),
    s.vexecutes g = true →
    let new := fun (w c d : BitVec 32) =>
      let lt := if u then decide (w.toNat < c.toNat) else decide (w.toInt < c.toInt)
      match op with
      | .add => w + c | .and => w &&& c | .or => w ||| c | .xchg => c
      | .min => if lt then w else c
      | .max => if lt then c else w
      | .cas => if w = d then c else w
    (vamoLanes (s.capIdx a) (s.rdV b) (fun n w => new w (laneOf (s.rdV c) n) (laneOf (s.rdV d) n))
          ((List.range 32).filter fun n => (s.lanes g &&& ~~~s.ldMask).getLsbD n) 0 [] s = (none, m, l, t) →
        exec (.vamo g d a b c op u nr) s =
          .next (if nr then t else t.wrV 64 d (mapEl false fun n => (tfind l n).getD 0) (laneMask m)))
      ∧ (capCheck s.core s.dev (s.qtr.rdC ci) off 4 (permR + permW + permAMO) [2] = .ok va → va % 4 = 0 →
          s.xlate s.core.issue.q.toNat va 3 = (.ok pa pte, s1) → s1.core.l1 = [] →
          (∀ i < 4, (s1.dev.read1 (some pte) (pa + i)).2 = false) →
          let at_ := fun (d : Device) (x : Nat) => (d.read1 (some pte) x).1
          let w := BitVec.ofNat 32 (ofBytes ((List.range 4).map fun i => at_ s1.dev (pa + i)))
          let d1 := s1.dev.write (some pte) pa (bytesOf 4 (f w).toNat) fun _ => false
          vamoLane ci off f s = .ok w { s1 with dev := d1 }
            ∧ (∀ i < 4, at_ d1 (pa + i) = BitVec.ofNat 8 ((f w).toNat / 256 ^ i))
            ∧ (∀ x, x < pa ∨ pa + 4 ≤ x → at_ d1 x = at_ s1.dev x)
            ∧ (pa % 4 = 0 → ∀ j x, x / 4096 ≠ pa / 4096 → d1.read1 j x = s1.dev.read1 j x))

/-! ### Number formats and vectors -/

/-- R40, R46, R48 to R52, R55, R59, R136, R137, R139, R141, R145, R146: converting the value of a code to its own format
gives that code in every rounding mode; every NaN becomes the canonical one; what the named floating-point functions
of the vector instructions are. Minimum and maximum take one of the two codes, in the order of the values with -0
below +0; a sign is set and nothing else; the reciprocal and the reciprocal square root are the exact value rounded
once: whatever finite value bounds the exact one bounds the result; all five functions take the special and the exact
cases of R137's table; what the named functions behind conversions, random words, pruning, reductions and scans are:
three rounds of R51; one rounding of R48 and R49, or the sum of magnitude and random bits of R50; the cases of R55;
the pairwise tree of R59 over elements or the identities of R145; the running values of R146; and a compare's outcome
on a NaN and on the two zeros; what integer reductions and scans come to: the sum of the active elements at the
element width, the running sums before or after each element. -/
def Obligations.FormatsRoundTrip : Prop :=
  (∀ (f : FFmt) (x : Nat) (rm : Rm) (ovs : Bool), f ∈ [fp32, bf16, fp16, e4m3, e5m2, e3m2, e2m3, e2m1] → x < 2 ^ f.width →
    (f.val x = .nan → f.conv rm ovs (f.val x) = f.nanCode)
      ∧ (f.val x ≠ .nan → f.conv rm ovs (f.val x) = x))
    ∧ (∀ (f : FFmt) (x y : Nat) (k n : Int) (s sg : Bool) (m p : Nat) (e q : Int), f ∈ [fp32, bf16, fp16] →
    x < 2 ^ f.width → y < 2 ^ f.width →
    let a := f.val x
    let b := f.val y
    let lesser := f.minCode x y
    let greater := f.maxOf x y
    let r32 := fun (v : FVal) => fp32.conv .rne true v
    let pow2 := fun (s : Bool) (k : Int) => r32 (.fin s 1 k)
    let mag : FVal := .fin false m e
    let bound : FVal := .fin false p q
    let one : FVal := .fin false 1 0
    (a = .nan ∨ b = .nan → lesser = f.nanCode ∧ greater = f.nanCode)
      ∧ (a ≠ .nan → b ≠ .nan →
          (lesser = x ∨ lesser = y) ∧ a.lt (f.val lesser) = false ∧ b.lt (f.val lesser) = false
            ∧ (greater = x ∨ greater = y) ∧ (f.val greater).lt a = false ∧ (f.val greater).lt b = false
            ∧ (a.eq b = true → (f.val lesser).sign = (a.sign || b.sign) ∧ (f.val greater).sign = (a.sign && b.sign)))
      ∧ (a = .nan → f.withSign x sg = f.nanCode)
      ∧ (a ≠ .nan → f.withSign x sg % 2 ^ (f.width - 1) = x % 2 ^ (f.width - 1)
          ∧ (f.val (f.withSign x sg)).sign = sg)
      ∧ (f = fp32 → a = .nan → rcp32 x = 0x7FC00000 ∧ rsq32 x = 0x7FC00000 ∧ exp2f32 x = 0x7FC00000
          ∧ log2f32 x = 0x7FC00000 ∧ tanh32 x = 0x7FC00000)
      ∧ (f = fp32 → a = .fin s m e → m ≠ 0 →
          ((one.lt (bound.mul mag)) = false → r32 (.fin s p q) ≤ rcp32 x)
            ∧ (((bound.mul mag).lt one) = false → rcp32 x ≤ r32 (.fin s p q))
            ∧ (s = false → (one.lt ((bound.mul bound).mul mag)) = false → r32 bound ≤ rsq32 x)
            ∧ (s = false → (((bound.mul bound).mul mag).lt one) = false → rsq32 x ≤ r32 bound)
            ∧ (s = true → rsq32 x = 0x7FC00000 ∧ log2f32 x = 0x7FC00000))
      ∧ rcp32 0 = 0x7F800000 ∧ rcp32 0x80000000 = 0xFF800000 ∧ rcp32 0x7F800000 = 0 ∧ rcp32 0xFF800000 = 0x80000000
      ∧ rsq32 0 = 0x7F800000 ∧ rsq32 0x80000000 = 0xFF800000 ∧ rsq32 0x7F800000 = 0 ∧ rsq32 0xFF800000 = 0x7FC00000
      ∧ exp2f32 0x7F800000 = 0x7F800000 ∧ exp2f32 0xFF800000 = 0
      ∧ log2f32 0 = 0xFF800000 ∧ log2f32 0x80000000 = 0xFF800000 ∧ log2f32 0x7F800000 = 0x7F800000
      ∧ log2f32 0xFF800000 = 0x7FC00000 ∧ tanh32 0x7F800000 = 0x3F800000 ∧ tanh32 0xFF800000 = 0xBF800000
      ∧ (-127 ≤ k → k ≤ 127 → rcp32 (pow2 s k) = pow2 s (-k))
      ∧ (-74 ≤ k → k ≤ 63 → rsq32 (pow2 false (2 * k)) = pow2 false (-k))
      ∧ (-149 ≤ n → n ≤ 127 → exp2f32 (r32 (ofInt n)) = pow2 false n ∧ log2f32 (pow2 false n) = r32 (ofInt n))
      ∧ (f = fp32 → a = .fin s m e →
          (a.lt (ofInt 128) = false → exp2f32 x = 0x7F800000) ∧ (a.lt (ofInt (-150)) = true → exp2f32 x = 0)
            ∧ (mag.lt (.fin false 1 (-12)) = true → tanh32 x = x)
            ∧ (mag.lt (ofInt 10) = false → tanh32 x = if s then 0xBF800000 else 0x3F800000))
      ∧ (f = fp32 → x < 2 ^ 31 → a ≠ .nan → tanh32 (x + 2 ^ 31) = tanh32 x + 2 ^ 31))
    ∧ (∀ (key : Word) (c w r tau : BitVec 32) (dst src : CvtType) (rm : Rm) (ovs : Bool) (x y : Nat)
    (f : Nat → Nat → Nat) (l : List Nat) (lev : Nat → Nat → Nat) (run : Nat → Nat) (h i : Nat) (op : RedOp) (ty : ElType)
    (act : BitVec 32) (v : Vec) (vt : VCmpType),
    let round := fun (x k : BitVec 32) =>
      let y := x + k
      let z := y ^^^ (y <<< 13 ||| y >>> 19)
      z ^^^ (z >>> 7)
    let lo := key.setWidth 32
    let src32 : FVal := match src with
      | .f32 => fp32.val x
      | .bf16 => bf16.val x
      | .f16 => fp16.val x
      | .s32 => ofInt (BitVec.ofNat 32 x).toInt
      | .z32 => ofInt x
    let wv := fp32.val w.toNat
    let tv := fp32.val tau.toNat
    let mag := fp32.val (w.toNat % 2 ^ 31)
    let sum := w.toNat % 2 ^ 31 + r.toNat % 2 ^ 16
    let sign := if w.msb then 0x8000 else 0
    let narrow := decide (ty ∈ [ElType.bf16, .f16, .s16, .z16])
    let E := if narrow then 64 else 32
    let val := fun (k : Nat) => match vt with
      | .f32 => fp32.val k
      | .bf16 => bf16.val k
      | .f16 => fp16.val k
      | .s32 => ofInt (BitVec.ofNat 32 k).toInt
    rngWord key c (i % 32) = round (round (round (c ^^^ (BitVec.ofNat 32 (i % 32) <<< 24)) lo) (key.extractLsb' 32 32)) lo
      ∧ (rm ≠ .sr → cvtEl dst src rm ovs r x = match dst with
          | .f32 => fp32.conv rm ovs src32
          | .bf16 => bf16.conv rm ovs src32
          | .f16 => fp16.conv rm ovs src32
          | .s32 => (toClamped rm (-(2 ^ 31)) (2 ^ 31 - 1) src32 % 2 ^ 32).toNat
          | .z32 => (toClamped rm 0 (2 ^ 32 - 1) src32 % 2 ^ 32).toNat)
      ∧ (cvtEl .bf16 .f32 .sr ovs r w.toNat = match wv with
          | .nan => 0x7FC0
          | .inf _ => w.toNat / 2 ^ 16
          | .fin .. => if sum / 2 ^ 23 % 256 = 255 then sign + (if ovs then 0x7F80 else 0x7F7F) else sign + sum / 2 ^ 16)
      ∧ (w.toNat % 2 ^ 16 = 0 → wv ≠ .nan → cvtEl .bf16 .f32 .sr ovs r w.toNat = w.toNat / 2 ^ 16)
      ∧ (tv = .nan ∨ wv = .nan → prune tau w r = 0x7FC00000)
      ∧ (tv ≠ .nan → wv ≠ .nan →
          (mag = .inf false ∨ (FVal.fin false 0 0).lt tv = false ∨ mag.lt tv = false → prune tau w r = w)
            ∧ (mag.lt tv = true → (FVal.fin false 0 0).lt tv = true → prune tau w r =
                if tv ≠ .inf false ∧ (tv.mul (.fin false (r.toNat % 2 ^ 24) (-24))).lt mag = true then w else 0))
      ∧ ((∀ i, lev 0 i = l.getD i 0) → (∀ j i, lev (j + 1) i = f (lev j (2 * i)) (lev j (2 * i + 1))) → h ≤ 6 →
          l.length = 2 ^ h → redTree f l = lev h 0)
      ∧ (run 0 = y → (∀ e, run (e + 1) = f (run e) (l.getD e 0)) → ∀ e < l.length,
          (scanList f false y l).getD e 0 = run (e + 1) ∧ (scanList f true y l).getD e 0 = run e)
      ∧ (redElems ty op act v).length = E
      ∧ (∀ e < E, (redElems ty op act v).getD e 0 =
          if act.getLsbD (if narrow then e / 2 else e) then elOf narrow v e else redIdent ty op)
      ∧ (∀ z ∈ [(ElType.f32, 0x80000000, 0xFF800000, 0x7F800000), (.bf16, 0x8000, 0xFF80, 0x7F80),
            (.f16, 0x8000, 0xFC00, 0x7C00), (.s32, 0, 0x80000000, 0x7FFFFFFF), (.z32, 0, 0, 0xFFFFFFFF),
            (.s16, 0, 0x8000, 0x7FFF), (.z16, 0, 0, 0xFFFF)],
          redIdent z.1 .add = z.2.1 ∧ redIdent z.1 .max = z.2.2.1 ∧ redIdent z.1 .min = z.2.2.2)
      ∧ (∀ cond ∈ [VCond.eq, .lt, .le, .gt, .ge], val x = .nan ∨ val y = .nan → vcmpHolds vt cond x y = false)
      ∧ (val x = .nan ∨ val y = .nan → vcmpHolds vt .ne x y = true ∧ vcmpHolds vt .un x y = true)
      ∧ (vt = .f32 → x = 0x80000000 → y = 0 → vcmpHolds vt .eq x y = true ∧ vcmpHolds vt .lt x y = false))
    ∧ (∀ (t : ElType) (rm : Rm) (act : BitVec 32) (v : Vec), t.isFloat = false →
    let w := if (ElType.narrow t) then 16 else 32
    let E := if (ElType.narrow t) then 64 else 32
    let on := fun (e : Nat) => act.getLsbD (if (ElType.narrow t) then e / 2 else e)
    let sum := fun (k : Nat) => ((List.range k).map fun e => if on e then elOf (ElType.narrow t) v e else 0).sum % 2 ^ w
    redTree (redOp t .add rm) (redElems t .add act v) = sum E
      ∧ ∀ e < E, (scanList (redOp t .add rm) false (redIdent t .add) (redElems t .add act v)).getD e 0 = sum (e + 1)
          ∧ (scanList (redOp t .add rm) true (redIdent t .add) (redElems t .add act v)).getD e 0 = sum e)

/-- R41, R67, R131, R132, R134, R136 to R138, R147: the elements of a register, those a result writes and those it leaves:
each element is its own, and a merge takes exactly the masked ones; what the element-wise vector instructions write in
their active lanes, after their latency: sums, products and fused forms rounded once, minimum and maximum, sign
operations, the functions of R137 on FP32 or through it, integers modulo the element width, exact high halves,
saturation, shifts by the whole element, and VDOT4. -/
def Obligations.VectorArithmetic : Prop :=
  (∀ (h : Bool) (f : Nat → Nat) (old v : Vec) (m : BitVec 64) (act : BitVec 32),
    (∀ e < (if h then 64 else 32), elOf h (mapEl h f) e = f e % 2 ^ (if h then 16 else 32))
      ∧ (∀ e < 64, half (mergeV old v m) e = if m.getLsbD e then half v e else half old e)
      ∧ (∀ e < 64, (laneMask act).getLsbD e = act.getLsbD (e / 2))
      ∧ (∀ n < 32, laneOf v n = (half v (2 * n + 1) ++ half v (2 * n) : BitVec 32)))
    ∧ (∀ (g : Guard) (d a b : Reg) (t : ElType) (rm : Rm) (h hi sat : Bool) (k : DotKind) (s : State),
    s.vexecutes g = true → s.taping = false →
    let n16 := match t with | .bf16 | .f16 | .s16 | .z16 => true | _ => false
    let fl := match t with | .bf16 => bf16 | .f16 => fp16 | _ => fp32
    let sg := match t with | .s32 | .s16 => true | _ => false
    let w := fun (h : Bool) => if h then 16 else 32
    let out := fun (lat : Nat) (h : Bool) (f : Nat → Nat) =>
      (Host.Outcome.next (s.wrV lat d (mapEl h f) (laneMask (s.lanes g))) : Out)
    let x := fun (h : Bool) (e : Nat) => elOf h (s.rdV a) e
    let y := fun (h : Bool) (e : Nat) => elOf h (s.rdV b) e
    let z := fun (h : Bool) (e : Nat) => elOf h (s.rdV d) e
    let fx := fun e => fl.val (x n16 e)
    let fy := fun e => fl.val (y n16 e)
    let fz := fun e => fl.val (z n16 e)
    let rnd := fun (v : Nat → FVal) => out 4 n16 fun e => fl.conv rm true (v e)
    let int := fun (h sg : Bool) (v : Nat) => if sg then (BitVec.ofNat (w h) v).toInt else (v : Int)
    let mod := fun (h : Bool) (v : Int) => (v % (2 ^ w h : Int)).toNat
    let clamp := fun (lo hi v : Int) => max lo (min hi v)
    let fn := fun (f : Nat → Nat) => out 8 n16 fun e =>
      if t = .bf16 then bf16.conv .rne true (fp32.val (f (x true e * 65536))) else f (x n16 e)
    let lo : Int := if sg then -(2 ^ (w n16 - 1) : Int) else 0
    let top : Int := if sg then 2 ^ (w n16 - 1) - 1 else 2 ^ w n16 - 1
    let less := fun e => decide (int n16 sg (y n16 e) < int n16 sg (x n16 e))
    (exec (.vadd g d a b t rm) s = rnd fun e => (fx e).add rm (fy e))
      ∧ (exec (.vsub g d a b t rm) s = rnd fun e => (fx e).add rm (fy e).neg)
      ∧ (exec (.vmul g d a b t rm) s = rnd fun e => (fx e).mul (fy e))
      ∧ (exec (.vfma g d a b t rm) s = rnd fun e => ((fx e).mul (fy e)).add rm (fz e))
      ∧ (exec (.vfms g d a b t rm) s = rnd fun e => (fz e).add rm ((fx e).mul (fy e)).neg)
      ∧ exec (.vmin g d a b t) s = out 4 n16 (fun e => fl.minCode (x n16 e) (y n16 e))
      ∧ exec (.vmax g d a b t) s = out 4 n16 (fun e => fl.maxOf (x n16 e) (y n16 e))
      ∧ (t.isFloat = true → exec (.vabs g d a t) s = out 2 n16 (fun e => fl.withSign (x n16 e) false)
          ∧ exec (.vneg g d a t) s = out 2 n16 (fun e => fl.withSign (x n16 e) !(fx e).sign))
      ∧ (t.isFloat = false → exec (.vabs g d a t) s = out 2 n16 (fun e => mod n16 (int n16 true (x n16 e)).natAbs)
          ∧ exec (.vneg g d a t) s = out 2 n16 (fun e => mod n16 (-int n16 true (x n16 e))))
      ∧ exec (.vrcp g d a t) s = fn rcp32 ∧ exec (.vrsq g d a t) s = fn rsq32
      ∧ exec (.vexp2 g d a t) s = fn exp2f32 ∧ exec (.vlog2 g d a t) s = fn log2f32 ∧ exec (.vtanh g d a t) s = fn tanh32
      ∧ exec (.viadd g d a b h) s = out 2 h (fun e => (x h e + y h e) % 2 ^ w h)
      ∧ exec (.visub g d a b h) s = out 2 h (fun e => mod h (x h e - y h e))
      ∧ exec (.vand g d a b) s = .next (s.wrV 2 d (s.rdV a &&& s.rdV b) (laneMask (s.lanes g)))
      ∧ exec (.vor g d a b) s = .next (s.wrV 2 d (s.rdV a ||| s.rdV b) (laneMask (s.lanes g)))
      ∧ exec (.vxor g d a b) s = .next (s.wrV 2 d (s.rdV a ^^^ s.rdV b) (laneMask (s.lanes g)))
      ∧ exec (.vimul g d a b t hi) s = out 4 n16 (fun e =>
          let p := int n16 sg (x n16 e) * int n16 sg (y n16 e)
          mod n16 (if hi then p / (2 ^ w n16 : Int) else p))
      ∧ exec (.vimin g d a b t) s = out 2 n16 (fun e => if less e then y n16 e else x n16 e)
      ∧ exec (.vimax g d a b t) s = out 2 n16 (fun e =>
          if int n16 sg (x n16 e) < int n16 sg (y n16 e) then y n16 e else x n16 e)
      ∧ exec (.vadds g d a b t sat) s = out 2 n16 (fun e =>
          let p := int n16 sg (x n16 e)
          let r := int n16 sg (y n16 e)
          mod n16 (clamp lo top (if sat then p - r else p + r)))
      ∧ exec (.vshl g d a b h) s = out 2 h (fun e => x h e * 2 ^ y h e % 2 ^ w h)
      ∧ exec (.vshr g d a b h) s = out 2 h (fun e => x h e / 2 ^ y h e)
      ∧ exec (.vsra g d a b h) s = out 2 h (fun e => mod h (int h true (x h e) / (2 ^ y h e : Int)))
      ∧ exec (.vdot4 g d a b k sat) s = out 4 false (fun e =>
          let sx := fun (sg : Bool) (v j : Nat) =>
            if sg then (BitVec.ofNat 8 (v / 256 ^ j)).toInt else ((v / 256 ^ j % 256 : Nat) : Int)
          let p := fun (j : Nat) => sx (decide (k = .ss)) (x false e) j * sx (decide (k ≠ .zz)) (y false e) j
          let sum := (BitVec.ofNat 32 (z false e)).toInt + p 0 + p 1 + p 2 + p 3
          mod false (if sat then clamp (-(2 ^ 31)) (2 ^ 31 - 1) sum else sum)))

/-- R50 to R53, R139 to R146: conversions with their half and their random words, VRAND and VPRUNE consuming one counter
value, compares into the active bits of a predicate, selects, moves, rearrangements, compaction and expansion,
reductions and scans. The time a scan keeps its unit, where two scans differ in E, is log 100; that a 16-bit integer VRED
wraps at its elements' width within the tree, which its written result cannot show, is log 21. -/
def Obligations.VectorMoves : Prop :=
  ∀ (g : Guard) (d a b : Reg) (t : ElType) (rm : Rm) (h x y : Bool) (j : BitVec 16) (vt : VCmpType) (vc : VCond)
    (dst src : CvtType) (pat : ShufPat) (op : RedOp) (s : State), s.vexecutes g = true → s.taping = false →
    let act := s.lanes g
    let n := (immBits s (.long j)).1
    let va := s.rdV a
    let vb := s.rdV b
    let E := fun (h : Bool) => if h then 64 else 32
    let out := fun (h : Bool) (f : Nat → Nat) => (Host.Outcome.next (s.wrV 2 d (mapEl h f) (laneMask act)) : Out)
    let drawn := fun (u : State) => u.modQtr fun q => { q with rngctr := q.rngctr + 1 }
    let idx := (s.rdS b).toNat
    let sel := (List.range 32).filter fun i => (s.rdP b &&& act).getLsbD i
    let slide := fun (k e : Nat) =>
      if x then (laneOf va ((if y then e + 32 - k % 32 else e + k % 32) % 32)).toNat
      else if y then (if k ≤ e then (laneOf va (e - k)).toNat else 0)
      else if e + k < 32 then (laneOf va (e + k)).toNat else 0
    let c := fun (i v : Nat) => cvtEl dst src rm x (s.rword i) v
    let o := if h then 32 else 0
    let cvt := fun (u : Vec) (m : BitVec 64) =>
      (Host.Outcome.next (if rm = .sr then drawn (s.wrV 3 d u m) else s.wrV 3 d u m) : Out)
    let red := redElems t op act va
    (exec (.vcvt g d a dst src h rm x) s = match src.is16, dst.is16 with
        | false, false => cvt (mapEl false fun i => c i (elOf false va i)) (laneMask act)
        | false, true => cvt (mapEl true fun e => if o ≤ e ∧ e < o + 32 then c (e - o) (elOf false va (e - o)) else 0)
            (BitVec.ofNat 64 (act.toNat * 2 ^ o))
        | true, false => cvt (mapEl false fun i => c i (elOf true va (o + i))) (laneMask act)
        | true, true => cvt (mapEl true fun e => c 0 (elOf true va e)) (laneMask act))
      ∧ exec (.vrand g d) s = .next (drawn (s.wrV 3 d (ofLanes fun i => rngWord s.qtr.rngkey s.qtr.rngctr i) (laneMask act)))
      ∧ exec (.vprune g d a b) s = .next (drawn (s.wrV 4 d
          (ofLanes fun i => prune ((s.rdS b).setWidth 32) (laneOf va i) (rngWord s.qtr.rngkey s.qtr.rngctr i)) (laneMask act)))
      ∧ (∃ m, exec (.vcmp g d a b vt vc x) s = .next (s.wrPm 2 d m act)
          ∧ ∀ i < 32, m.getLsbD i = vcmpHolds vt vc (vcmpEl vt x va i) (vcmpEl vt x vb i))
      ∧ exec (.vsel g d a b x) s =
          .next (s.wrV 2 d vb (laneMask (act &&& if x then ~~~(s.rdP a) else s.rdP a)))
      ∧ exec (.vmov g d a) s = .next (s.wrV 2 d va (laneMask act))
      ∧ exec (.vbcast g d a h) s = out h (fun _ => (s.rdS a).toNat)
      ∧ (n < E h → exec (.vbcastV g d a j h) s = out h fun _ => elOf h va n)
      ∧ (E h ≤ n → exec (.vbcastV g d a j h) s =
          .next (s.trapped { cause := .illegal, info0 := s.core.issue.gaddr, fq := s.core.issue.q }))
      ∧ exec (.vmovs g d a b) s = .next (if idx < 32 ∧ act.getLsbD idx then
          s.wrV 2 d (mapEl false fun _ => (s.rdS a).toNat % 2 ^ 32) (laneMask (BitVec.ofNat 32 (2 ^ idx))) else s)
      ∧ exec (.vmovsFrom g d a b) s = .next (if idx < 32 ∧ act.getLsbD idx then
          s.wrS 2 d ((laneOf va idx).setWidth 64) else s)
      ∧ exec (.vperm g d a b h) s = out h (fun e => elOf h va (elOf h vb e % E h))
      ∧ exec (.vshuf g d a b pat h) s = out h (fun e => match pat with
          | .lo => elOf h (if e % 2 = 0 then va else vb) (e / 2)
          | .hi => elOf h (if e % 2 = 0 then va else vb) (E h / 2 + e / 2)
          | .even => if e < E h / 2 then elOf h va (2 * e) else elOf h vb (2 * (e - E h / 2))
          | .odd => if e < E h / 2 then elOf h va (2 * e + 1) else elOf h vb (2 * (e - E h / 2) + 1))
      ∧ exec (.vslide g d a (.reg b) x y) s = out false (slide idx)
      ∧ (n ≤ 31 → exec (.vslide g d a (.imm j) x y) s = out false (slide n))
      ∧ (31 < n → exec (.vslide g d a (.imm j) x y) s =
          .next (s.trapped { cause := .illegal, info0 := s.core.issue.gaddr, fq := s.core.issue.q }))
      ∧ exec (.vcompact g d a b) s = .next (s.wrV 3 d
          (mapEl false fun i => (sel[i]?.map fun k => (laneOf va k).toNat).getD 0) (BitVec.allOnes 64))
      ∧ exec (.vexpand g d a b) s = .next (s.wrV 3 d
          (mapEl false fun i => (laneOf va ((sel.filter (· < i)).length)).toNat) (laneMask (s.rdP b &&& act)))
      ∧ exec (.vred g d a t op rm) s = .next (s.wrS (if t.isFloat then if (ElType.narrow t) then 12 else 10 else 6) d
          (redResult t (redTree (redOp t op rm) red)))
      ∧ (s.qtr.scanBusy ≤ s.core.clock → exec (.vscan g d a t op x rm) s =
          .next ((s.wrV (4 + E (ElType.narrow t)) d
              (mapEl (ElType.narrow t) fun e => (scanList (redOp t op rm) x (redIdent t op) red).getD e 0) (laneMask act)).modQtr
            fun q => { q with scanBusy := s.core.clock + E (ElType.narrow t) }))
      ∧ (s.core.clock < s.qtr.scanBusy → exec (.vscan g d a t op x rm) s = .next (s.held .late))

/-- R132, R135, R142, R144, R261: a vector instruction changes no register but its destination, no element and no predicate
bit of an inactive lane of it (a conversion of widths and VCOMPACT apart), no special register, no accumulator and no
byte of memory; besides, what draws random words advances the counter, a scan claims its unit and a TAPE prefix lets it
record, which may change FLAGS of a TAPEREV output whose segment it discards (R268). -/
def Obligations.VectorFrame : Prop :=
  ∀ (i : Instr) (g : Guard) (dst : Dst) (s t : State), i.vectorDst = some (g, dst) → i.wf = true → exec i s = .next t →
    t.core.issue.stop = none →
    let x := t.core.quarter s.core.issue.q
    let y := s.qtr
    let u := s.clobber (capBase y.tape.cap) y.tape.lost x.tape.lost
    t = { u with core := { u.core.setQuarter s.core.issue.q x with perf := t.core.perf } }
      ∧ x = { y with s := x.s, p := x.p, v := x.v, pend := x.pend, rngctr := x.rngctr, scanBusy := x.scanBusy,
                     tape := x.tape }
      ∧ (s.taping = false → x.tape = y.tape ∧ t.core.perf = s.core.perf ∧ u = s)
      ∧ (∀ w, exec i (s.modIssue fun k => { k with tape := false }) = .next w →
          x = { w.core.quarter s.core.issue.q with tape := x.tape })
      ∧ (∀ r : Reg, dst ≠ .s r → x.rdS r = y.rdS r)
      ∧ (∀ r : Reg, r.isP → dst ≠ .p r → x.rdP r.toNat = y.rdP r.toNat)
      ∧ (∀ r : Reg, dst ≠ .v r → x.rdV r = y.rdV r)
      ∧ (∀ r : Reg, dst = .v r → i.crossesLanes = false →
          ∀ e < 64, (s.lanes g).getLsbD (e / 2) = false → half (x.rdV r) e = half (y.rdV r) e)
      ∧ (∀ r : Reg, dst = .p r → ∀ n < 32, (s.lanes g).getLsbD n = false →
          (x.rdP r.toNat).getLsbD n = (y.rdP r.toNat).getLsbD n)
      ∧ (∀ p, t.dev.byte p = s.dev.byte p)
      ∧ ∀ p, t.core.pool.byte p = s.core.pool.byte p ∨ ∃ e : Expansion, (s.core.eng .tape).rev = some e
          ∧ e.base = capBase y.tape.cap ∧ s.taping = true ∧ p = e.out + 8

/-! ### Accumulators -/

/-- R12, R67, R147 to R152, R168 to R172: what the accumulator instructions read and write on a tile core while no command
keeps their accumulator busy: a row read into the active lanes, a row written from them, rows converted (POISON at the
first poisoned row, ILLEGAL for a stochastic conversion of INT32), the shadow taken with its type and overflow or
dropped, poison and flags read and cleared; an accumulator that a queued ME command writes or reads is busy: in an
exposed line its syllables trap ACCBUSY with the command's number, in a scoreboard line they wait; a service core has
none of them. -/
def Obligations.AccumulatorResults : Prop :=
  (∀ (g : Guard) (d a b c : Reg) (sh clr ovs : Bool) (fmt : Fmt) (rm : Rm) (sel : PoisSel) (s : State),
    s.core.isService = false →
    let row := (s.rdS b).toNat % 64
    let act := s.lanes g
    let A := s.core.acc
    let free := fun (r : Reg) => s.core.accBusy r.toNat = none
    (s.vexecutes g = true →
        (free a → (A.poison sh a.toNat).getLsbD row = false → exec (.accrd g d a b sh) s =
            .next (s.wrV 4 d (ofLanes fun n => A.el sh a.toNat row n) (laneMask act)))
          ∧ (free a → (A.poison sh a.toNat).getLsbD row = true → exec (.accrd g d a b sh) s = .next (s.trapped
              { cause := .poison, info0 := a.setWidth 64, info1 := BitVec.ofNat 64 row, fq := s.core.issue.q }))
          ∧ (free d → d < 8 → ∃ u : Acc, exec (.accwr g d a b) s = .next (s.modAcc fun _ => u)
              ∧ (∀ k < 8, ∀ r < 64, ∀ j < 32, ∀ h, u.el h k r j =
                  if h = false ∧ k = d.toNat ∧ r = row ∧ act.getLsbD j then laneOf (s.rdV a) j else A.el h k r j)
              ∧ u.flg = A.flg
              ∧ (∀ r < 64, (u.poison false d.toNat).getLsbD r =
                  ((A.poison false d.toNat).getLsbD r && decide (r ≠ row ∨ act ≠ BitVec.allOnes 32)))
              ∧ ∀ k < 8, ∀ h, h = true ∨ k ≠ d.toNat → u.poison h k = A.poison h k)
          ∧ (free a → (rm = .sr → A.isInt sh a.toNat = false) →
              (∀ i < Fmt.rows fmt, (A.poison sh a.toNat).getLsbD ((row + i) % 64) = false) →
              let r := s.accCvt sh a.toNat row fmt rm ovs
              let lanes := act &&& BitVec.ofNat 32 (2 ^ (Fmt.rows fmt * Fmt.bits fmt) - 1)
              let s1 := s.wrV 6 d (BitVec.ofNat 1024 r.1) (laneMask lanes)
              let s2 := if (Fmt.emax fmt).isSome then s1.wrS 6 c (BitVec.ofNat 64 r.2) else s1
              exec (.acccvt g d a b c fmt sh rm ovs) s = .next (if rm = .sr then
                s2.modQtr fun x => { x with rngctr := x.rngctr + BitVec.ofNat 32 (Fmt.rows fmt) } else s2))
          ∧ (free a → rm = .sr → A.isInt sh a.toNat = true → exec (.acccvt g d a b c fmt sh rm ovs) s =
              .next (s.trapped { cause := .illegal, info0 := s.core.issue.gaddr, fq := s.core.issue.q }))
          ∧ (free a → (rm = .sr → A.isInt sh a.toNat = false) → ∀ i < Fmt.rows fmt,
              (A.poison sh a.toNat).getLsbD ((row + i) % 64) = true →
              (∀ j < i, (A.poison sh a.toNat).getLsbD ((row + j) % 64) = false) →
              exec (.acccvt g d a b c fmt sh rm ovs) s = .next (s.trapped
                { cause := .poison, info0 := a.setWidth 64, info1 := BitVec.ofNat 64 ((row + i) % 64), fq := s.core.issue.q })))
      ∧ (s.executes g = true →
          (free d → A.sv d.toNat = false → exec (.acccommit g d a) s = .next s)
            ∧ (free d → A.sv d.toNat = true → (s.rdP a).getLsbD 0 = false →
                exec (.acccommit g d a) s = exec (.accdiscard g d) s)
            ∧ (free d → d < 8 → twf 0 A.elems = true → A.sv d.toNat = true → (s.rdP a).getLsbD 0 = true →
                ∃ u : Acc, exec (.acccommit g d a) s = .next (s.modAcc fun _ => u)
                  ∧ (∀ k < 8, ∀ r < 64, ∀ j < 32, ∀ h, u.el h k r j =
                      if h = false ∧ k = d.toNat then A.el true k r j else A.el h k r j)
                  ∧ u.poison false d.toNat = A.poison true d.toNat ∧ u.isInt false d.toNat = A.isInt true d.toNat
                  ∧ (u.flags d.toNat).getLsbD 1 = (A.flags d.toNat).getLsbD 3
                  ∧ (u.flags d.toNat).getLsbD 2 = (A.flags d.toNat).getLsbD 2
                  ∧ (u.flags d.toNat).getLsbD 3 = (A.flags d.toNat).getLsbD 3
                  ∧ u.sv d.toNat = false)
            ∧ (free d → exec (.accdiscard g d) s = .next (s.modAcc fun t =>
                { t with flg := tset 0 t.flg d.toNat (setBit (tget 0 t.flg d.toNat) 4 false) }))
            ∧ (free a →
                let v : Word := match sel with
                  | .pois => A.poison false a.toNat
                  | .spois => A.poison true a.toNat
                  | .flg => (A.flags a.toNat).setWidth 64
                let u := match sel with
                  | .pois => A.setPoison false a.toNat (v &&& ~~~(s.rdS b))
                  | .spois => A.setPoison true a.toNat (v &&& ~~~(s.rdS b))
                  | .flg => A.setFlags a.toNat (A.flags a.toNat &&& ~~~((s.rdS b).setWidth 8 &&& 0x0A))
                exec (.accpoison g d a b sel clr) s =
                  .next ((if clr then s.modAcc fun _ => u else s).wrS 2 d v))))
    ∧ (∀ (g : Guard) (d a b c : Reg) (sh clr ovs : Bool) (fmt : Fmt) (rm : Rm) (sel : PoisSel) (s : State),
    let vs := [(Instr.accrd g d a b sh, a, 0), (.accwr g d a b, d, 1), (.acccvt g d a b c fmt sh rm ovs, a, 2)]
    let ss := [(Instr.acccommit g d a, d, 3), (.accdiscard g d, d, 4), (.accpoison g d a b sel clr, a, 5)]
    let busy := fun (l : List (Instr × Reg × Nat)) => ∀ e ∈ l, ∀ n, s.core.accBusy e.2.1.toNat = some n →
      exec e.1 s = .next (if s.core.issue.exposed then s.trapped
          { cause := .accbusy, info0 := e.2.1.setWidth 64, info1 := n.setWidth 64, info2 := BitVec.ofNat 64 e.2.2,
            fq := s.core.issue.q }
        else s.held (.slot 4 (e.2.1.setWidth 64)))
    (s.core.isService = false → (s.vexecutes g = true → busy vs) ∧ (s.executes g = true → busy ss))
      ∧ (s.core.isService = true → ∀ e ∈ vs ++ ss, exec e.1 s =
          .next (s.trapped { cause := .illegal, info0 := s.core.issue.gaddr, fq := s.core.issue.q })))

/-! ### Tapes -/

/-- R258 to R267, R269: what the tape instructions do: record a register, mark a segment, bind a tape for recording or
replay, release it, take a value or a decision back from the last record, and read its state; without a tape, recording,
marking and releasing do nothing. TAPE records what its target reads, or loads, and BR.rec its decision; a syllable that
replay does not expect traps TAPEDIV or TAPELOST, and a record without room TAPEOVF. That TAPEOFF of a failed binding, and
of one replaying, releases it and writes nothing is log 39; that a trailer of LEN 0 stands for one granule is log 40. -/
def Obligations.TapeResults : Prop :=
  ∀ (g : Guard) (f : TapeFile) (d a b : Reg) (ring : Bool) (j : BitVec 16) (s s1 s2 : State) (va : Nat)
    (parts : List Part) (desc r : List Byte) (tr : Nat) (t' : Tape), s.core.isService = false → s.executes g = true →
    let t := s.qtr.tape
    let tape := fun (u : State) (f : Tape → Tape) => u.modQtr fun x => { x with tape := f x.tape }
    let size := (s.rdS b).toNat / 4096 * 4096
    let sel := (immBits s (.long j)).1
    let rec_ := match f with | .s => recS (s.rdS a) | .v => recV (s.rdV a) | .p => recP (s.rdP a)
    let fits := fun (n : Nat) => t.failed = false ∧ t.head + n - t.tail ≤ t.size ∧ t.held + n ≤ 4096
    let put := fun (b : List Byte) (k : Nat) => (tape s fun t =>
      { t.close with buf := t.close.buf ++ b, head := t.head + b.length, values := t.values + BitVec.ofNat 32 k }).count 13
        b.length
    let mark := recMark t.seg t.values t.decisions
    let kind := match f with | .s => 1 | .v => 2 | .p => 3
    let len := max 1 (tr / 2 ^ 24 % 16)
    let left := if t.dleft = 0 then tr % 256 else t.dleft
    let gone := fun (u : State) => (u.modCore fun c =>
      let x := c.race.release 7
      { c with race := x.acquire c.issue.q.toNat 7 (x.curOf 7) }).modQtr fun x => { x with tape := .none }
    let div := fun (i : Instr) (u : State) (pos found want : Nat) => exec i s = .next ((keepWalks s u).trapped
      { cause := .tapediv, info0 := BitVec.ofNat 64 pos, info1 := BitVec.ofNat 64 found, info2 := BitVec.ofNat 64 want,
        fq := s.core.issue.q })
    let tkn : Bool := (s.rdP b).getLsbD 0 != ring
    let go := fun (u : State) => if tkn then u.branch a else u
    let v := BitVec.ofNat 64 (ofBytes (s.core.pool.read va 8))
    (s.core.issue.ext = none → t.phase ≠ .record → exec (.taperec g f a) s = .next s)
      ∧ (s.core.issue.ext = none → t.phase = .record → fits rec_.length → exec (.taperec g f a) s = .next (put rec_ 1))
      ∧ (t.phase = .unbound → exec (.tapemark g) s = .next s ∧ exec (.tapeoff g) s = .next s)
      ∧ (t.phase = .record → t.seg < 255 → fits mark.length → exec (.tapemark g) s = .next (tape (put mark 0) fun t =>
          { t with seg := t.seg + 1, sstart := tset 0 t.sstart (t.seg + 1) t.head, values := 0, decisions := 0 }))
      ∧ (t.phase = .replay → replayMark t s = .ok t' s1 → exec (.tapemark g) s = .next (tape s1 fun _ => t'))
      ∧ (t.phase = .replay ∨ (t.phase = .record ∧ t.failed = true) → exec (.tapeoff g) s = .next (gone s))
      ∧ (t.phase = .record → t.failed = false → closeTape s = .ok () s1 → exec (.tapeoff g) s = .next (gone s1))
      ∧ (t.phase = .unbound →
          capCheck s.core s.dev (s.rdC a) 0 (4096 + size) (permR + permW) [2] = .ok va →
          let x : Tape := { Tape.none with phase := .record, cap := s.rdC a, ring, size }
          tapeXlate (capBase (s.rdC a)) 264 1 a.toNat s = .ok parts s1 →
          exec (.tapeonRec g a b ring) s =
            .next (tape (s1.writeParts parts (clean (x.header true false ++ bytesOf 8 0))) fun _ => x))
      ∧ (t.phase = .unbound → capCheck s.core s.dev (s.rdC a) 0 0x900 permR [2] = .ok va →
          tapeXlate va 0x900 0 a.toNat s = .ok parts s1 → cleanOrPoison va (s1.readParts parts) s1 = .ok desc s1 →
          closedFlag desc = true →
          let x := Tape.ofDescriptor (s.rdC a) desc
          let cur := min (s.rdS b).toNat x.seg
          capCheck s1.core s1.dev (s1.qtr.rdC a.toNat) 0 (4096 + x.size) permR [2] = .ok va →
          exec (.tapeonRep g a b) s = .next (tape s1 fun _ =>
            { x with phase := .replay, cur, cursor := if cur = x.seg then x.head else x.start (cur + 1),
                     rstate := .before }))
      ∧ (t.phase = .replay → t.rstate = .inside → trailerAt t s = .ok tr s1 → tr / 2 ^ 28 = kind → t.dleft = 0 →
          t.cursor ≠ t.start t.cur → regionBytes t (backBy t.cursor (16 * len)) len s1 = .ok r s2 →
          let u := tape s2 fun t => { t with cursor := backBy s.qtr.tape.cursor (16 * len) }
          exec (.tapepop g f d) s = .next (match f with
            | .s => u.wrS 6 d (BitVec.ofNat 64 (ofBytes (r.take 8)))
            | .v => u.wrV 6 d (vecOfRecord r) (BitVec.allOnes 64)
            | .p => u.wrP 6 d (BitVec.ofNat 32 (ofBytes (r.take 4)))))
      ∧ (t.phase = .replay → t.rstate = .inside → trailerAt t s = .ok tr s1 → left ≠ 0 → (t.dleft = 0 → tr / 2 ^ 28 = 4) →
          regionBytes t (backBy t.cursor 16) 1 s1 = .ok r s2 →
          let u := tape s2 fun t =>
            { t with dleft := left - 1, dseg := (t.dseg + 2 ^ 32 - 1) % 2 ^ 32,
                     cursor := if left = 1 then backBy s.qtr.tape.cursor 16 else t.cursor }
          exec (.brtape g a) s =
            .next (if ofBytes (r.take 8) / 2 ^ (left - 1) % 2 = 1 then u.branch a else u))
      ∧ (t.phase = .replay →
          (t.rstate = .before → t.lost.getLsbD t.cur = true → exec (.tapemark g) s = .next (tape s fun t =>
              { t with rstate := .lost }))
            ∧ (t.rstate = .inside → t.cursor = t.start 0 → t.cur = 0 → exec (.tapemark g) s = .next (tape s fun t =>
                { t with rstate := .exhausted }))
            ∧ (t.rstate = .lost → t.cur = 0 → exec (.tapemark g) s = .next (tape s fun t =>
                { t with rstate := .exhausted, cursor := t.start 0 }))
            ∧ (t.rstate = .exhausted → div (.tapemark g) s t.cursor 0 5)
            ∧ (t.rstate = .inside → t.cursor ≠ t.start t.cur → trailerAt t s = .ok tr s1 →
                div (.tapemark g) s1 t.cursor (tr / 2 ^ 28) t.dseg)
            ∧ (t.rstate = .lost → ∀ i ∈ [Instr.tapepop g f d, .brtape g a], exec i s = .next (s.trapped
                { cause := .tapelost, info0 := BitVec.ofNat 64 t.cur, info1 := BitVec.ofNat 64 t.cursor,
                  fq := s.core.issue.q }))
            ∧ (t.rstate = .before ∨ t.rstate = .exhausted → trailerAt t s = .ok tr s1 →
                div (.tapepop g f d) s1 t.cursor (tr / 2 ^ 28) kind ∧ div (.brtape g a) s1 t.cursor (tr / 2 ^ 28) 4)
            ∧ (t.rstate = .inside → trailerAt t s = .ok tr s1 →
                (t.cursor = t.start t.cur ∨ tr / 2 ^ 28 ≠ kind ∨ t.dleft ≠ 0 →
                    div (.tapepop g f d) s1 t.cursor (tr / 2 ^ 28) kind)
                  ∧ (t.dleft = 0 → tr / 2 ^ 28 ≠ 4 → div (.brtape g a) s1 t.cursor (tr / 2 ^ 28) 4)))
      ∧ (t.phase ≠ .replay → div (.tapepop g f d) s 0 0 kind ∧ div (.brtape g a) s 0 0 4)
      ∧ (t.phase = .record → t.failed = false →
          (t.openCount ≠ 0 → t.openCount < 64 → fits 0 → exec (.br g a b ring true) s = .next (go (tape s fun t =>
              { t with openBits := setBit t.openBits t.openCount tkn, openCount := t.openCount + 1,
                       decisions := t.decisions + 1 })))
            ∧ (t.openCount = 0 ∨ 64 ≤ t.openCount → fits 16 → exec (.br g a b ring true) s = .next (go ((tape s fun t =>
                { t.close with head := t.head + 16, openBits := if tkn then 1 else 0, openCount := 1,
                               decisions := t.decisions + 1 }).count 13 16)))
            ∧ (t.size < t.head + rec_.length - t.tail → t.ring = false → s.core.issue.ext = none →
                exec (.taperec g f a) s = .next (s.trapped
                  { cause := .tapeovf, info0 := BitVec.ofNat 64 t.head, info1 := BitVec.ofNat 64 t.seg,
                    fq := s.core.issue.q })))
      ∧ (t.phase = .record → s.core.issue.tape = true →
          (fits 32 → exec (.add g d a b false) s =
              .next ((put (recS (s.rdS a) ++ recS (s.rdS b)) 2).wrS 1 d (s.rdS a + s.rdS b)))
            ∧ (fits (recV (s.rdV a)).length → exec (.vmov g d a) s =
                .next ((put (recV (s.rdV a)) 1).wrV 2 d (s.rdV a) (laneMask (s.lanes g))))
            ∧ (quarterPlace (s.capIdx a) (s.offB b 8) 8 permR 8 false [0, 2] s = .ok (.pool va) s →
                s.core.raceAt s.core.issue.q.toNat va 8 = none →
                (∀ i < 8, tget false s.core.pool.pois ((va + i) / 16) = false) → fits 16 →
                exec (.ld g d a b .d .none false) s = .next ((put (recS v) 1).wrS 4 d v)))
      ∧ (sel ≤ 7 → exec (.tapestat g d j) s = .next (s.wrS 2 d (t.stat sel)))

/-! ### Contexts -/

/-- R149, R150, R188 to R191: what the context instructions do with trap privilege once every engine has stopped: CTXSAVE
writes the L1 back, raises GEN and writes the image, CTXLOAD replaces every saved item by one that passes its checks,
SCRUB clears the parts its mask names (the order of CTXLOAD's checks and its trap at a poisoned byte are log 129);
CKPT asks for a checkpoint, or answers 1 where none is possible. Without privilege the first three trap; what an image
of at least its register part puts into a core that loads it, by the offsets of R189: the layout, TSTAT with the PMASK
and JSYNC saved beside it, the trap registers, MEPROG, RUNCYC, each quarter's part, the tiles, their flags and poison,
semaphores, swizzles, barriers, the cut and the next number of each engine, and the scratchpad with its full and tag
bits; the pool outside the scratchpad keeps what its layout leaves in place; the registers of a quarter that an image
of it is loaded into are those it was saved from, in the packing the model gives the flag bytes (log 32). -/
def Obligations.ContextResults : Prop :=
  (∀ (g : Guard) (d a : Reg) (mask : BitVec 16) (s s1 s2 s3 : State) (va : Nat) (parts : List Part) (head img : List Byte),
    s.executes g = true →
    let c := s.rdC a
    let denied := fun (w : Word) =>
      (Host.Outcome.next (s.trapped { cause := .priv, info0 := w, fq := s.core.issue.q }) : Out)
    let len := fun (l : Nat) => 0x40000 + l + l / 64
    let n := len (4096 * (bfld s.core.sys.pools 0 11 - bfld s.core.sys.poolv 0 11))
    let m := len (imgAt head 0x10 8)
    (s.core.priv = true → s.core.enginesStopped = true →
        (capCheck s.core s.dev c 0 n permW [2] = .ok va → ctxParts va n 1 a.toNat s = .ok parts s1 →
            let v := s1.l1PushAll
            let u := { v with dev := v.dev.raiseGen v.core.region }
            exec (.ctxsave g a) s = .next (u.writeParts parts (clean (u.core.image u.dev))))
          ∧ (capCheck s.core s.dev c 0 0x40000 permR [2] = .ok va → ctxRead va 0x18 a.toNat s = .ok head s1 →
              capCheck s1.core s1.dev (s1.qtr.rdC a.toNat) 0 m permR [2] = .ok va → ctxRead va m a.toNat s1 = .ok img s2 →
              s2.core.imageBad s2.dev img = none →
              chainsFree (imgChains s2.core.region img) s2 = .ok () s3 →
              exec (.ctxload g a) s = .next ((engs.foldl (fun u e => u.reloadChain img e) (s3.loadImage img)).qcDone))
          ∧ ∃ t, exec (.scrub g mask) s = .next t
              ∧ (∀ p, (mask.getLsbD 0 = true → 4096 * s.core.rowV ≤ p → p < 4096 * s.core.rowS → t.core.pool.byte p = 0)
                ∧ (mask.getLsbD 1 = true → 4096 * s.core.rowS ≤ p → p < 4096 * s.core.rowC → t.core.pool.byte p = 0)
                ∧ (mask.getLsbD 2 = true → 4096 * s.core.rowC ≤ p → p < 4096 * 1536 → t.core.pool.byte p = 0)
                ∧ (mask.getLsbD 4 = true → 65536 ≤ p → p < 4096 * s.core.rowV → t.core.pool.byte p = 0))
              ∧ (mask.getLsbD 1 = true → t.core.l1 = []) ∧ (mask.getLsbD 3 = true → t.core.acc = .zero)
              ∧ (mask.setWidth 5 = 0 → t = s))
      ∧ (s.core.priv = true → s.core.enginesStopped = false →
          ∀ i ∈ [Instr.ctxsave g a, .ctxload g a, .scrub g mask], exec i s = .next (s.held .other))
      ∧ (s.core.priv = false → exec (.ctxsave g a) s = denied 0x104 ∧ exec (.ctxload g a) s = denied 0x105
          ∧ exec (.scrub g mask) s = denied 0x106)
      ∧ (s.core.depth ≠ 0 ∨ s.checkpointable s.core = false → exec (.ckpt g d) s = .next (s.wrS 1 d 1))
      ∧ (s.core.depth = 0 → s.checkpointable s.core = true → exec (.ckpt g d) s = .next
          (s.modCore fun c => { c with stopping := some (.ckpt (some (c.issue.q, d.toNat))) })))
    ∧ (∀ (s : State) (b : List Byte) (sh : Bool) (k r j i p g : Nat) (q : BitVec 2) (e : Eng),
    0x40000 ≤ b.length → k < 8 → r < 64 → j < 32 →
    let c := (s.loadImage b).core
    let word := fun (o : Nat) => BitVec.ofNat 64 (imgAt b o 8)
    let row := fun (o : Nat) => imgAt b o 4 % 2048
    let lo := 4096 * row 0x18
    let len := imgAt b 0x10 8
    let bit := fun (o g : Nat) => (b.getD (o + g / 8) 0).getLsbD (g % 8)
    let cut := word (0xA0 + 8 * engNum e)
    let x := c.eng e
    c.layout = (row 0x18, row 0x1C, row 0x20)
      ∧ (i < 24 ∨ 32 ≤ i → c.tr.tstat.getLsbD i = (word 0x40).getLsbD i)
      ∧ bfld c.tr.tstat 28 4 = imgAt b 0x32488 1 % 16 ∧ bfld c.tr.tstat 24 4 = imgAt b 0x32489 1 % 16
      ∧ c.tr.tcause = word 0x48 ∧ c.tr.tldm = word 0x90 ∧ c.tr.meprog = word 0x98
      ∧ (i < 4 → tget 0 c.tr.tepc i = word (0x50 + 8 * i) ∧ tget 0 c.tr.tinfo i = word (0x70 + 8 * i))
      ∧ c.runcyc = word 0x28
      ∧ c.quarter q = (s.core.quarter q).ofImage ((b.drop (0x400 + 0x4800 * q.toNat)).take 0x4800)
      ∧ (c.acc.el sh k r j).toNat = imgAt b ((if sh then 0x22400 else 0x12400) + 0x2000 * k + 128 * r + 4 * j) 4
      ∧ (c.acc.flags k).toNat = imgAt b (0x32400 + k) 1
      ∧ c.acc.poison sh k = word ((if sh then 0x32448 else 0x32408) + 8 * k)
      ∧ (i < 256 → (c.semOf i).v.toNat + 65536 * (c.semOf i).ceil.toNat = imgAt b (0x32490 + 4 * i) 4)
      ∧ (i < 32 → (tget 0 c.swz i).toNat = imgAt b (0x32890 + 4 * i) 4)
      ∧ (i < 2048 → (tget 0 c.bars i).toNat = imgAt b (0x33400 + 4 * i) 4)
      ∧ x.done = cut.setWidth 32 ∧ x.cause.toNat = bfld cut 48 8 ∧ x.flt = cut.getLsbD 63 ∧ x.skip = cut.getLsbD 62
      ∧ x.sig = cut.getLsbD 61 ∧ x.wp = cut.getLsbD 60 ∧ x.lf = cut.getLsbD 59
      ∧ x.next.toNat = imgAt b (0x150 + 4 * engNum e) 4
      ∧ (lo ≤ p → p < lo + len → c.pool.byte p = b.getD (0x40000 + (p - lo)) 0)
      ∧ (g < len / 16 → tget false c.pool.full (lo / 16 + g) = bit (0x40000 + len) g
          ∧ tget false c.pool.tag (lo / 16 + g) = bit (0x40000 + len + len / 128) g)
      ∧ (p < lo ∨ lo + len ≤ p → c.pool.byte p = (s.setLayout (imgLayout b)).core.pool.byte p))
    ∧ (∀ (x y : Quarter),
    let z := y.ofImage x.image
    (∀ r < 64, tget 0 z.s r = tget 0 x.s r) ∧ (∀ r < 64, tget 0 z.p r = tget 0 x.p r)
      ∧ (∀ r < 16, tget 0 z.c r = tget 0 x.c r) ∧ (∀ r < 128, tget 0 z.v r = tget 0 x.v r)
      ∧ (∀ r < 8, tget 0 z.b r = tget 0 x.b r) ∧ (∀ r < 4, tget .zero z.l r = tget .zero x.l r)
      ∧ (∀ r < 4, tget 0 z.tscr r = tget 0 x.tscr r) ∧ z.vwin = x.vwin ∧ z.pwin = x.pwin ∧ z.role = x.role
      ∧ z.rngkey = x.rngkey ∧ z.rngctr = x.rngctr
      ∧ z = { y with bAt := [], s := z.s, p := z.p, c := z.c, v := z.v, b := z.b, l := z.l, tscr := z.tscr, vwin := x.vwin,
                     pwin := x.pwin, role := x.role, rngkey := x.rngkey, rngctr := x.rngctr })

/-! ### Queues, chains and tables -/

/-- R272 to R281, R283, R379: what the queue instructions answer and do, each in its turn on its queue: a claim reserves
the next entries of its side where enough are free or published, and acquires; a publish marks one claimed range and
passes whole ranges in order from the counter on, whose cards are then checked; QSTAT reads, reloads or disables,
SUBMIT checks a card, places it and publishes it; the queue named, its state and the side are tested first. One that
finds others waiting, a check, a completion or a held access of the queue before it waits behind them. That a publish
writes the L1 back and opens no epoch is log 44, that a queue never loaded reads 0 is log 137, and logs 41, 42 and 46
stand behind the fields of a descriptor, its checks and QSTAT's word of claims; the counters of a queue never pass one
another, and its claimed ranges lie in order between them: the queue that a good descriptor gives is in order, and
claims, publishes, an entry claimed and done at once where there is room, and the advance of TAIL and HEAD keep it so;
a claim takes the next counters of its side, and entries claimed alone and then published are the tail's advance. -/
def Obligations.QueueResults : Prop :=
  (∀ (g : Guard) (d a b c : Reg) (head : Bool) (j : BitVec 16) (s s1 : State) (id : Nat) (q : Queue) (card : List Byte),
    s.executes g = true →
    let k := (s.rdS b).toNat
    let sel := (immBits s (.long j)).1
    let answer := fun (u : State) (st v : Nat) => u.wrS 60 d (BitVec.ofNat 64 (st * 2 ^ 56 + v))
    let say := fun (u : State) (st v : Nat) => (Host.Outcome.next (answer u st v).qcDone : Out)
    let put := fun (u : State) (q : Queue) => { u with dev := { u.dev with queues := tset .off u.dev.queues id q } }
    let used := (q.pclaim - q.head).toNat
    let ready := (q.tail - q.cclaim).toNat
    let open_ := fun (l : List Claim) => (l.filter fun c => !c.done).length
    let range := fun (f : BitVec 32) (n : Nat) (done : Bool) => ({ first := f, count := n, done := done } : Claim)
    let step_ := BitVec.ofNat 32 k
    let still := fun (u : State) => ∀ op r va kind, match u.dev.hwWalk op r va kind with | .absent .. => False | _ => True
    let turn := fun (u : State) => u.dev.queueBusy id u.qcOp = false
    let waits := fun (u : State) => (Host.Outcome.next ((u.walked (.queue id u.qcOp)).held .other) : Out)
    (s.dev.enabled (s.rdS a) = none →
        exec (.qclaim g d a b head) s = say s 6 0 ∧ exec (.qpublish g d a b c head) s = say s 6 0)
      ∧ (s.dev.enabled (s.rdS a) = some (id, q) → ¬ turn s →
          exec (.qclaim g d a b head) s = waits s ∧ exec (.qpublish g d a b c head) s = waits s)
      ∧ (s.dev.enabled (s.rdS a) = some (id, q) → turn s → s.sideOk id q head = false →
          exec (.qclaim g d a b head) s = say s 5 0 ∧ exec (.qpublish g d a b c head) s = say s 5 0)
      ∧ (s.dev.enabled (s.rdS a) = some (id, q) → turn s → s.sideOk id q head = true →
          (head = false → 1 ≤ k → k ≤ q.slots → used + k ≤ q.slots → open_ q.claimsT < 32 → exec (.qclaim g d a b head) s =
              say (put s { q with pclaim := q.pclaim + step_, claimsT := q.claimsT ++ [range q.pclaim k false] }).l1Inval 0
                q.pclaim.toNat)
            ∧ (head = true → 1 ≤ k → k ≤ q.slots → k ≤ ready → open_ q.claimsH < 32 → exec (.qclaim g d a b head) s =
                say (put s { q with cclaim := q.cclaim + step_, claimsH := q.claimsH ++ [range q.cclaim k false] }).l1Inval 0
                  q.cclaim.toNat)
            ∧ (k = 0 → used ≤ q.slots → exec (.qclaim g d a b head) s =
                say (put s q) 0 (if head then q.cclaim else q.pclaim).toNat)
            ∧ (head = false → q.slots < used + k → exec (.qclaim g d a b head) s = say (put s q) 1 0)
            ∧ (head = true → ready < k → exec (.qclaim g d a b head) s = say (put s q) 2 0)
            ∧ (head = false → 1 ≤ k → used + k ≤ q.slots → 32 ≤ open_ q.claimsT →
                exec (.qclaim g d a b head) s = say (put s q) 7 0)
            ∧ (head = true → 1 ≤ k → k ≤ q.slots → k ≤ ready → 32 ≤ open_ q.claimsH →
                exec (.qclaim g d a b head) s = say (put s q) 7 0)
            ∧ (head = false → q.claimsT = [range q.tail (s.rdS c).toNat false] → (s.rdS c).toNat ≠ 0 →
                (s.rdS b).setWidth 32 = q.tail → q.claimsH = [] → exec (.qpublish g d a b c head) s =
                  say ((put s.l1PushAll { q with claimsT := [], tail := q.tail + BitVec.ofNat 32 (s.rdS c).toNat }).published
                    id [(q.tail, (s.rdS c).toNat)]) 0 0)
            ∧ (∀ q', q.publish head ((s.rdS b).setWidth 32) (s.rdS c).toNat = some q' →
                exec (.qpublish g d a b c head) s = say (s.l1PushAll.advanceQueue id q') 0 0)
            ∧ (q.publish head ((s.rdS b).setWidth 32) (s.rdS c).toNat = none →
                exec (.qpublish g d a b c head) s = say s 8 0))
      ∧ (sel ≤ 7 → s.dev.loaded (s.rdS a) = some (id, q) →
          (¬ turn s → exec (.qstat g d a j) s = waits s)
            ∧ (turn s → s.regionOk q = true → exec (.qstat g d a j) s =
                .next (s.wrS 60 d (BitVec.ofNat 64 (q.stat sel))).qcDone)
            ∧ (turn s → s.regionOk q = false → exec (.qstat g d a j) s = say s 5 0))
      ∧ (sel ≤ 7 → queueId (s.rdS a) = none → exec (.qstat g d a j) s = .next (answer s 6 0))
      ∧ (s.core.issue.ext = none → s.core.priv = true →
          (queueId (s.rdS a) = none → exec (.qstatDisable g d a) s = .next (answer s 6 0)
              ∧ exec (.qstatReload g d a) s = .next (answer s 6 0))
            ∧ (s.dev.loaded (s.rdS a) = some (id, q) → turn s →
                (q ≠ .off → exec (.qstatDisable g d a) s = say { s with dev := s.dev.disableQueue id } 0 0)
                  ∧ (q = .off → exec (.qstatDisable g d a) s = say s 0 0))
            ∧ (queueId (s.rdS a) = some id → ¬ turn s →
                exec (.qstatReload g d a) s = waits s ∧ exec (.qstatDisable g d a) s = waits s)
            ∧ (queueId (s.rdS a) = some id → turn s →
                let x := BitVec.ofNat 512 (s.dev.view (s.dev.plat.qtbase.toNat + 64 * id) 64)
                (descOk id x = false → exec (.qstatReload g d a) s = say s 9 0)
                  ∧ (descOk id x = true → still s → exec (.qstatReload g d a) s =
                      .next (answer { s with dev := s.dev.reloadQueue id (.ofDesc x) }.qcDone 0 0))))
      ∧ (s.core.issue.ext = none → s.core.priv = false → ∀ i ∈ [Instr.qstatReload g d a, .qstatDisable g d a], exec i s =
          .next (s.trapped { cause := .priv, info0 := 0x203, fq := s.core.issue.q }))
      ∧ (quarterBytes a.toNat 64 s = .ok card s1 →
          let x := BitVec.ofNat 512 (ofBytes card)
          (4096 ≤ (s1.rdS b).toNat ∨ s1.dev.enabled (s1.rdS b) = none → exec (.submit g d a b) s = say s1 6 0)
            ∧ ((s1.rdS b).toNat < 4096 → s1.dev.enabled (s1.rdS b) = some (id, q) →
                (¬ turn s1 → ∃ u, exec (.submit g d a b) s = .next u ∧ u.core.issue.stop = some (.hold .other)
                    ∧ (id, s1.qcOp) ∈ u.dev.qcWait)
                  ∧ (turn s1 → still s1 →
                      (s1.submitStatus q x ≠ 0 → exec (.submit g d a b) s = say s1 (s1.submitStatus q x) 0)
                        ∧ (s1.submitStatus q x = 0 → exec (.submit g d a b) s = .next (s1.submitCard id q x d).qcDone)))))
    ∧ (∀ (q q' : Queue) (cons : Bool) (k id : Nat) (f : BitVec 32) (x : BitVec 512),
    (descOk id x = true → (Queue.ofDesc x).inOrder) ∧
    (q.log2n ≤ 20 → q.inOrder →
      (q.claim cons k).2.2.inOrder ∧ q.advance.inOrder
        ∧ (∀ r, q.publish cons f k = some r → r.inOrder)
        ∧ ((q.pclaim - q.head).toNat < q.slots → q.claim1.inOrder ∧ q.post.inOrder)
        ∧ ((q.claim cons k).1 = 0 → cons = false →
            ((q.claim cons k).2.2.pclaim - q.pclaim).toNat = k ∧ (q.claim cons k).2.1 = q.pclaim.toNat)
        ∧ ((q.claim cons k).1 = 0 → cons = true →
            ((q.claim cons k).2.2.cclaim - q.cclaim).toNat = k ∧ (q.claim cons k).2.1 = q.cclaim.toNat)
        ∧ (q.claimsT = [] → q' = (q.claim false k).2.2 → (q.claim false k).1 = 0 → q.pclaim = q.tail → k ≠ 0 →
            ∃ r, q'.publish false q.pclaim k = some r ∧ r.advance.tail = q'.pclaim ∧ r.advance.claimsT = [])))

/-- R277, R296, R297: KICK starts an inactive chain from a good descriptor, and traps CAPFAULT ALIGN where it is misaligned, LINK
publishes more of its ring while it fits, CHAINSTAT reads it; where the issuing core has the engine. Their release at core scope
opens no epoch (log 44), and a descriptor whose ring is misaligned answers EBADQ (log 45). -/
def Obligations.ChainResults : Prop :=
  ∀ (g : Guard) (d a b : Reg) (e : Eng) (j : BitVec 16) (s s1 s2 : State) (pl : Place) (x : List Byte) (tag : Bool),
    s.executes g = true → (s.core.isService = true → e = .ce ∨ e = .ni) →
    let sel := (immBits s (.long j)).1
    let ch := (s.core.eng e).chain
    let k := (s.rdS b).toNat
    let answer := fun (u : State) (st v : Nat) => u.wrS 2 d (BitVec.ofNat 64 (st * 2 ^ 56 + v))
    let put := fun (u : State) (f : Chain → Chain) =>
      u.modCore fun c => c.setEng e { c.eng e with chain := f (c.eng e).chain }
    let n := fun (o w : Nat) => ofBytes ((x.drop o).take w)
    let good := n 0 8 % 64 = 0 ∧ 1 ≤ n 8 4 ∧ n 8 4 ≤ 2 ^ 20 ∧ n 12 4 ≤ 1 ∧ n 0x18 8 = 0
    (sel ≤ 3 → exec (.chainstat g d j e) s = .next (s.wrS 2 d (BitVec.ofNat 64 ((s.core.eng e).chainStat sel))))
      ∧ (ch.active = false → exec (.link g d b e) s = .next (answer s 6 0))
      ∧ (ch.active = true → ch.nlines.toNat < (ch.tail - ch.fidx).toNat + k → exec (.link g d b e) s = .next (answer s 1 0))
      ∧ (ch.active = true → (ch.tail - ch.fidx).toNat + k ≤ ch.nlines.toNat →
          exec (.link g d b e) s = .next (answer (put s fun y => { y with tail := ch.tail + BitVec.ofNat 32 k }) 0
            (ch.tail + BitVec.ofNat 32 k).toNat))
      ∧ (∀ va, capCheck s.core s.dev (s.rdC a) 0 32 (permR + permW) [2] = .ok va → va % 32 ≠ 0 →
          exec (.kick g d a b e) s = .next (s.trapped
            { cause := .capfault, sub := 7, info0 := 7, info1 := a.setWidth 64, info2 := 0, info3 := 32, fq := s.core.issue.q }))
      ∧ (∀ va, capCheck s.core s.dev (s.rdC a) 0 32 (permR + permW) [2] = .ok va → va % 32 = 0 →
          (ch.active = true → exec (.kick g d a b e) s = .next (answer s 7 0))
            ∧ (ch.active = false → quarterPlace a.toNat 0 32 (permR + permW) 32 false [2] s = .ok pl s1 →
                quarterRead pl 32 false false s1 = .ok (x, tag) s2 →
                (¬ good → exec (.kick g d a b e) s = .next (answer s2 9 0))
                  ∧ (good → n 8 4 < k → exec (.kick g d a b e) s = .next (answer s2 1 0))
                  ∧ (good → k ≤ n 8 4 → exec (.kick g d a b e) s = .next (answer (put s2 fun _ =>
                      { active := true, desc := BitVec.ofNat 64 va, base := BitVec.ofNat 64 (n 0 8),
                        nlines := BitVec.ofNat 32 (n 8 4), code := decide (n 12 4 = 1), tail := BitVec.ofNat 32 k,
                        fidx := 0, line := 0, slot := false, inEntry := false, q := s.core.issue.q }) 0 0))))

/-- R300 to R320: what the table instructions do: TLBINV drops translations of its range after a full fence, pins
forbidding it unless forced, when they are released and their regions' STALE takes the range, EFULL where one cannot; TLBPROBE
answers a walk's last entry and outcome, KEYPROBE reads the key table, SWZSET writes a swizzle, THRSET reads or writes the
thresholds of an enabled pair that is not busy, DLTLOAD replaces a lane's table, RCBSET loads an RCB or fails its domain and
waits for what it killed. That a failed domain is not failed again is log 53, that a run waits for its own end when its domain
fails log 61, whose tenant a context is log 59, and that THRSET.rd takes its value as 0 log 62. -/
def Obligations.TableResults : Prop :=
  ∀ (g : Guard) (d a b c : Reg) (rd force : Bool) (j : BitVec 16) (s s1 : State) (va : Nat) (img : List Byte),
    s.executes g = true →
    let x := (s.rdS a).toNat
    let y := (s.rdS b).toNat
    let z := (s.rdS c).toNat
    let sel := (immBits s (.long j)).1
    let answer := fun (u : State) (st : Nat) => (Host.Outcome.next (u.wrS 60 d (BitVec.ofNat 64 (st * 2 ^ 56))) : Out)
    let illegal_ := (Host.Outcome.next (s.trapped { cause := .illegal, info0 := s.core.issue.gaddr, fq := s.core.issue.q }) : Out)
    let denied := fun (w : Word) =>
      (Host.Outcome.next (s.trapped { cause := .priv, info0 := w, fq := s.core.issue.q }) : Out)
    let fenced := ((s.l1PushAll).modCore fun c => { c with race := c.race.release c.issue.q.toNat }).l1Inval
    let okRange := x % 65536 = 0 ∧ 1 ≤ y ∧ y ≤ 2 ^ 32 ∧ x + 65536 * y ≤ 2 ^ 48
    let ctx := tenantOf fenced.dev.rcbs z
    let e := s.rdS a
    let swzGood := e &&& ~~~0x1F0F1F1F = 0 ∧
      (let E := bfld e 0 5; let D := bfld e 8 5; let K := bfld e 16 4
       (K = 0 ∧ E = 0 ∧ D = 0) ∨ (1 ≤ K ∧ K ≤ 8 ∧ 4 ≤ D ∧ D + K ≤ 12 ∧ D + K ≤ E ∧ E + K ≤ 23))
    let v := if rd then (0 : Word) else s.rdS b
    (s.core.priv = true →
        (okRange → rcbValid s.dev.rcbs z = false → exec (.tlbinv g d a b c force) s = answer s 6)
          ∧ (okRange → rcbValid s.dev.rcbs z = true → fenced.dev.pinsIn ctx x (65536 * y) = [] →
              exec (.tlbinv g d a b c force) s = answer { fenced with dev := { fenced.dev with
                tlb := fenced.dev.tlb.filter fun t =>
                  !(t.ctx = ctx && decide (t.va < x + 65536 * y) && decide (x < t.va + t.size))
                wcache := fenced.dev.wcache.filter fun t =>
                  !(t.ctx = ctx && decide (t.va < x + 65536 * y) && decide (x < t.va + upperSize t.level)) } } 0)
          ∧ (okRange → rcbValid s.dev.rcbs z = true → fenced.dev.pinsIn ctx x (65536 * y) ≠ [] → force = false →
              exec (.tlbinv g d a b c force) s = answer fenced 11)
          ∧ (okRange → rcbValid s.dev.rcbs z = true → force = true →
              let P := fenced.dev.pinsIn ctx x (65536 * y)
              let full := fun (p : Pin) => 65536 < y ∨ ∀ k < 8, (fenced.dev.staleAt p.region k).isSome = true
              ((∃ p ∈ P, full p) → exec (.tlbinv g d a b c force) s = answer fenced 1)
                ∧ (P ≠ [] → (∀ p ∈ P, ¬ full p) → ∃ v : Device,
                    exec (.tlbinv g d a b c force) s =
                        .next ({ fenced with dev := v }.wrS 60 d (BitVec.ofNat 64 (P.length % 2 ^ 32)))
                      ∧ (∀ p, p ∈ v.pins ↔ p ∈ fenced.dev.pins ∧ p ∉ P)
                      ∧ (∀ p ∈ P, ∃ k < 8, v.staleAt p.region k = some (x, x + 65536 * y))
                      ∧ (∀ t ∈ v.tlb, t ∈ fenced.dev.tlb ∧ ¬ (t.ctx = ctx ∧ t.va < x + 65536 * y ∧ x < t.va + t.size))
                      ∧ (∀ i, (∀ p ∈ P, let at_ := s.dev.plat.rcbbase.toNat + 256 * p.region
                            i < at_ ∨ at_ + 256 ≤ i) → (v.read1 none i).1 = (fenced.dev.read1 none i).1)))
          ∧ (¬ okRange → exec (.tlbinv g d a b c force) s = illegal_)
          ∧ (4096 ≤ y → exec (.tlbprobe g d a b) s = answer s 6)
          ∧ (y < 4096 → let w := s.dev.walk (ptrootOf s.dev.rcbs y) x 0
              exec (.tlbprobe g d a b) s = .next (s.wrS 60 d (setBits (setBits w.last.1 62 2 w.last.2) 56 6 w.code)))
          ∧ exec (.rcbsetLoad g d a) s = .next (s.rcbLoadBy d x)
          ∧ (4096 ≤ x → exec (.rcbsetLoad g d a) s = answer s 6 ∧ exec (.rcbsetFail g d a b) s = answer s 6)
          ∧ (x < 4096 → y % 256 ≠ 1 → y % 256 ≠ 3 → exec (.rcbsetFail g d a b) s = answer s 9)
          ∧ (x < 4096 → y % 256 = 1 ∨ y % 256 = 3 →
              let t := s.dev.disp.rcbs
              let u := if rcbFailed t (domainOf t x) then s else s.acted (.fail x (y % 256) s.qcOp)
              exec (.rcbsetFail g d a b) s =
                if u.failWaits s.qcOp then .next ((keepWalks s u).held .other) else answer u 0))
      ∧ (s.core.priv = false → exec (.tlbinv g d a b c force) s = denied 0x300 ∧ exec (.tlbprobe g d a b) s = denied 0x301
          ∧ exec (.rcbsetLoad g d a) s = denied 0x306 ∧ exec (.rcbsetFail g d a b) s = denied 0x306)
      ∧ (sel ≤ 2 → 4096 ≤ x → exec (.keyprobe g d a j) s = answer s 9)
      ∧ (sel ≤ 2 → x < 4096 →
          let t := tenantOf s.dev.rcbs s.core.region
          let i := rcbF s.dev.rcbs t 0xE 0 12 + x % 2 ^ rcbF s.dev.rcbs t 0xE 12 4
          let k := tget Key.free s.dev.disp.keysSeen i
          exec (.keyprobe g d a j) s = .next (s.wrS 60 d (BitVec.ofNat 64
            (if sel = 0 then k.held.toNat + 2 * k.reserved.toNat + 256 * i
             else if sel = 1 then 2 ^ 32 * k.held.toNat + k.holder.toNat
             else 2 ^ 32 * k.reserved.toNat + k.reserver.toNat))))
      ∧ (swzGood → exec (.swzset g a) s = .next (s.modCore fun c =>
          { c with swz := tset 0 c.swz (bfld e 24 5) (e.setWidth 32 &&& 0x000F1F1F) }))
      ∧ (¬ swzGood → exec (.swzset g a) s = illegal_)
      ∧ (4096 ≤ x ∨ bfld v 40 24 ≠ 0 ∨ 6 < bfld v 28 4 → exec (.thrset g d a b rd) s = answer s 9)
      ∧ (x < 4096 → bfld v 40 24 = 0 → bfld v 28 4 ≤ 6 →
          (s.slotTest (x % 256) ≠ 0 → exec (.thrset g d a b rd) s = answer s (s.slotTest (x % 256)))
            ∧ (s.slotTest (x % 256) = 0 → tget false s.dev.busy x = true → exec (.thrset g d a b rd) s = .next (s.held .other))
            ∧ (s.slotTest (x % 256) = 0 → tget false s.dev.busy x = false → exec (.thrset g d a b rd) s = .next
                ((if rd then s else s.modDev fun t => { t with thr := tset 0 t.thr x v }).wrS 60 d (tget 0 s.dev.thr x))))
      ∧ (capCheck s.core s.dev (s.rdC a) 0 65536 permR [2] = .ok va →
          (s.laneTest y ≠ 0 → exec (.dltload g d a b) s = answer s (s.laneTest y))
            ∧ (s.laneTest y = 0 → sliceRead va 65536 a.toNat s = .ok img s1 →
                exec (.dltload g d a b) s = if dltOk img then answer (s1.modDev fun t => t.setTable y img) 0
                  else answer s1 9))

/-! ### Engine commands -/

/-- R12, R72, R74, R75, R173, R179, R182: an inline command is on its way to its engine's queue with its quarter's
capabilities and the swizzle table as they stand, its S flag set by SPEC, and enters in the next cycle, when it takes its
number; a queue that is full, with what is on its way, holds it, and a handler may not issue one. That the object of that wait
is the engine's number is log 19. -/
def Obligations.CommandEntry : Prop :=
  ∀ (g : Guard) (w : CmdWord) (m : Cmd) (n k : Nat) (c : Core) (s : State),
    (s.executes g = true →
      ∀ p ∈ [(Instr.cmdCe g w, Eng.ce), (.cmdMe g w, .me), (.cmdNi g w, .ni), (.cmdTape g w, .tape), (.cmdCmu g w, .cmu)],
        let bits := if s.core.issue.spec then setBit w 11 true else w
        let cmd : Cmd := { bits, seq := 0, inline := true, q := s.core.issue.q, caps := s.qtr.c, swz := s.core.swz,
                           epoch := s.core.race.curOf s.core.issue.q.toNat, follow := none, line := 0 }
        let full := (s.core.eng p.2).queue.length + (s.core.entering.filter fun m => m.2.1 = p.2).length
        (s.core.isService = true → p.2 = .ce ∨ p.2 = .ni) →
          (s.core.depth = 0 → full < bfld s.core.sys.slip 0 7 → exec p.1 s = .next
              { s with core := { s.core with entering := s.core.entering ++ [(s.core.clock + 1, p.2, cmd)] } })
            ∧ (s.core.depth = 0 → bfld s.core.sys.slip 0 7 ≤ full →
                exec p.1 s = .next (s.held (.slot 5 (BitVec.ofNat 64 (engNum p.2)))))
            ∧ (s.core.depth ≠ 0 →
                exec p.1 s = .next (s.trapped { cause := .illegal, info0 := s.core.issue.gaddr, fq := s.core.issue.q })))
      ∧ (∀ e : Eng, c.entering = [(n, e, m)] →
          (k ≤ n → c.enterBy k = c)
            ∧ (n < k → (c.enterBy k).entering = [] ∧ (c.enterBy k).eng e = { c.eng e with
                queue := (c.eng e).queue ++ [{ m with seq := (c.eng e).next }], next := (c.eng e).next + 1 }))

/-- R12, R18, R62, R63, R75, R77, R81, R167, R178, R180, R182, R223, R296, R297, R325, R337: an engine without a command,
stopped on a fault or at an unsatisfied wait does nothing; a finished command leaves the queue with its number as the
completion number after its signal, a signal past the ceiling stopping the engine, and poison that it met stopping it
before the next; scans complete in the order of their pipe; an opcode of no command stops it with COMMAND 0; a chain
that has no line to fetch, or whose engine is stopped, fetches none (log 48); the next line of an active chain is the
one it is within, else the next published line of its ring, for a chain of code through the core's line buffer; its
command slots enter the queue in order while there is room, the second as a follow-on of the first where the first
hands on, and what finds no room waits within the line; then the chain stands at the line that KIND 00 links to, at
the next of its ring for KIND 10, and has ended for KIND 01. A line that breaks its rules stops the engine once its
queue is empty: COMMAND with its subcause, or ILLEGAL at the line where a service core lacks the line's engine (log
128). No line is fetched while a fault or a frozen core stops it (log 48). -/
def Obligations.EngineSequencing : Prop :=
  (∀ (i : Instr) (e : Eng) (op : BitVec 8) (h : CmdHdr) (c : Cmd) (r : List Cmd) (x : Ctx) (s s1 : State),
    let y := s.core.eng e
    let c' := c.hdr
    let sem := s.core.semOf c'.sidx.toNat
    let agent := match e with | .ce => some 4 | .ni => some 5 | .me => some 6 | .tape => some 7 | .cmu => none
    let base := if e = .cmu then s.modDev fun d => (d.scanCounted c y).cmuFree s.core.num y else s
    let worked := base.modCore fun k => match agent with | some a => { k with race := k.race.release a } | none => k
    let retire := fun (u : State) => u.modEng e fun y =>
      { y with queue := y.queue.drop 1, phase := .waiting, done := c.seq, sig := false, wp := false, cause := 0,
               fault := none, last := none, rev := none }
    (i.engine = some e → y.queue = [] ∨ y.flt = true ∨ y.phase = .done → exec i s = .next s)
      ∧ (y.queue = [] ∨ y.flt = true ∨ (y.phase ≠ .done ∧ y.queue = c :: r) →
          exec (.engineCommandComplete e) s = .next s)
      ∧ (y.queue = c :: r → y.flt = false → y.phase = .done → y.sig = false → c.follow = none → y.fault = none →
          (e = .cmu → s.dev.cmuTurn s.core.num = true) →
          (c'.se = false → y.pend = none → exec (.engineCommandComplete e) s = .next (retire worked))
            ∧ (∀ p, c'.se = false → y.pend = some p → ∃ t, exec (.engineCommandComplete e) s = .next t
                ∧ (t.core.eng e).queue = r ∧ (t.core.eng e).done = c.seq ∧ (t.core.eng e).flt = true
                ∧ (t.core.eng e).fault = some p ∧ (t.core.eng e).pend = none)
            ∧ (c'.se = true → sem.v.toNat + c'.sinc.toNat ≤ sem.ceil.toNat →
                ∃ t, exec (.engineCommandComplete e) s = .next t ∧ (t.core.eng e).queue = r
                  ∧ (t.core.eng e).done = c.seq ∧ (t.core.eng e).phase = .waiting
                  ∧ (t.core.semOf c'.sidx.toNat).v.toNat = sem.v.toNat + c'.sinc.toNat)
            ∧ (c'.se = true → sem.ceil.toNat < sem.v.toNat + c'.sinc.toNat →
                ∃ t, exec (.engineCommandComplete e) s = .next t ∧ (t.core.eng e).flt = true
                  ∧ (t.core.eng e).sig = true ∧ (t.core.eng e).queue = c :: r ∧ (t.core.eng e).cause = 0x0B
                  ∧ t.core.semOf c'.sidx.toNat = sem))
      ∧ (y.queue = c :: r → y.sig = false → e = .cmu → s.dev.cmuTurn s.core.num = false →
          exec (.engineCommandComplete e) s = .next s)
      ∧ (s.begins e op.toNat h = some (x, s1) → ∃ t, exec (.reservedEngineOpcode e h op) s = .next t
          ∧ (t.core.eng e).flt = true ∧ (t.core.eng e).cause = 0x0F ∧ (t.core.eng e).queue = y.queue
          ∧ (t.core.eng e).fault = some { cause := .command, info0 := x.seq.setWidth 64, info2 := x.line,
                                          info3 := op.setWidth 64, src := 1, eng := BitVec.ofNat 3 (engNum e) })
      ∧ (y.flt = true ∨ s.core.frozen = true ∨ (y.lpend = none ∧ y.chain.active = false)
          ∨ (y.lpend = none ∧ y.chain.inEntry = false ∧ y.chain.slot = false ∧ y.chain.fidx = y.chain.tail) →
          exec (.chainFetch e) s = .next s))
    ∧ (∀ (e : Eng) (s s1 : State) (l : BitVec 512) (parts : List Part),
    let y := s.core.eng e
    let z := s1.core.eng e
    let a := if y.chain.inEntry || y.chain.slot then y.chain.line
      else y.chain.base + 64 * BitVec.ofNat 64 (y.chain.fidx.toNat % y.chain.nlines.toNat)
    let c0 : CmdWord := l.extractLsb' 32 224
    let c1 : CmdWord := l.extractLsb' 256 224
    let cmd := fun (n : Nat) (c : CmdWord) (f : Option CmdWord) =>
      let q : BitVec 2 := c.extractLsb' 58 2
      Cmd.mk c (z.next + BitVec.ofNat 32 n) false q [] s1.core.swz (s1.core.race.curOf q.toNat) f a
    let only := fun (n : Nat) (c : CmdWord) => if c = 0 then [] else [cmd n c none]
    let enter := if y.chain.slot then only 0 c1
      else if e = .ce ∧ c0.getLsbD 10 = true ∧ c0 ≠ 0 ∧ c1 ≠ 0 then [cmd 0 c0 (some c1)]
      else only 0 c0 ++ only (if c0 = 0 then 0 else 1) c1
    let room := s1.core.slipLimit - z.queue.length
    let within := ¬ (room = 0 ∧ c0 ≠ 0 ∧ y.chain.slot = false)
    let keeps := fun (t : State) => t.core.pool = s1.core.pool ∧ t.dev = s1.dev ∧ ∀ k, t.core.quarter k = s1.core.quarter k
    let svc := s1.core.isService = true ∧ ownerOf l ∈ [6, 8, 9]
    let stops := fun (f : TrapRec) => ∃ t, exec (.chainFetch e) s = .next t
      ∧ (z.queue = [] → (t.core.eng e).flt = true ∧ (t.core.eng e).lf = true ∧ (t.core.eng e).fault = some f
          ∧ (t.core.eng e).cause.toNat = f.cause.code)
      ∧ (z.queue ≠ [] → (t.core.eng e).flt = false ∧ (t.core.eng e).queue = z.queue)
    let takes :=
      (svc → stops { cause := .illegal, info0 := a, src := 1, eng := BitVec.ofNat 3 (engNum e) })
        ∧ (∀ sub, ¬ svc → lineBad e l = some sub → stops
            { cause := .command, info0 := y.next.setWidth 64, info1 := BitVec.ofNat 64 sub, info2 := a, src := 1,
              eng := BitVec.ofNat 3 (engNum e) })
        ∧ (¬ svc → lineBad e l = none → (kindOf l = 1 → s1.backHeld e = none) → ∃ t, exec (.chainFetch e) s = .next t
            ∧ (enter.length ≤ room → (t.core.eng e).queue = z.queue ++ enter
                ∧ (t.core.eng e).next = z.next + BitVec.ofNat 32 enter.length ∧ (t.core.eng e).held = none
                ∧ (kindOf l = 0 → (t.core.eng e).chain =
                    { z.chain with line := linkTo a l, slot := false, inEntry := true } ∧ keeps t)
                ∧ (kindOf l = 2 → (t.core.eng e).chain =
                    { z.chain with fidx := z.chain.fidx + 1, slot := false, inEntry := false } ∧ keeps t)
                ∧ (kindOf l = 1 → (t.core.eng e).chain.active = false))
            ∧ (room < enter.length → (t.core.eng e).queue = z.queue ++ enter.take room ∧ keeps t
                ∧ (within → (t.core.eng e).chain = { z.chain with line := a, slot := true } ∧ (t.core.eng e).held = some l)
                ∧ (¬ within → (t.core.eng e).chain = z.chain ∧ (t.core.eng e).held = none)))
    y.flt = false → s.core.frozen = false → s.core.stopsNow = false → y.lpend = none → y.chain.active = true →
    (y.chain.inEntry = true ∨ y.chain.slot = true ∨ y.chain.fidx ≠ y.chain.tail) →
      (y.held = some l → s1 = s → takes)
        ∧ (y.held = none → y.chain.code = true → tfind s.core.lines (a.toNat / 64) = some l → s1 = s → takes)
        ∧ (y.held = none → (y.chain.code = true → tfind s.core.lines (a.toNat / 64) = none) →
            s.xlateRange (agentNo e) a.toNat 64 (if y.chain.code then 2 else 0) = (.ok parts, s1) →
            l = BitVec.ofNat 512 (ofBytes ((s1.readParts parts).map (·.1))) → takes))

/-- R212, R244 to R251: what the copy engine's commands do once their checks have passed: the rows of COPY, COPY2D
and COPY3D, the pattern of FILL, and the moves that MCCOPY, TGATH and TSCAT make of a tile list are translated, checked
for races and carried out; COPY, COPY2D and COPY3D in the scratchpad put each source byte in its place, a later one over
an earlier, and change no other byte; each selected entry of a tile list names its row, its column and its vector, and
the moves go between the positions of the map and the blocks that the rules give. -/
def Obligations.CopyEngineResults : Prop :=
  (∀ (h : CmdHdr) (o : CopyOp) (o2 : Copy2dOp) (o3 : Copy3dOp) (of : FillOp) (ot : TileOp) (x : Ctx) (s s1 s2 s3 s4 : State)
    (l : List Move) (ls : List (List Move)) (ly : Layer) (tl : TileList) (sel : List Sel) (area : Nat),
    let done := fun (u : State) => (Host.Outcome.next (u.finished .ce) : Out)
    let rows := fun (c : CeCommon) (a b : Nat) (rs : List Row) =>
      x.header (CeCommon.ok c) s1 = .ok () s1 ∧ x.copyPlan c a b (rs.filter fun r => r.ns ≠ 0) s1 = .ok l s2
        ∧ x.doMoves (barOf c.be c.bidx) [] l s2 = .ok () s3
    let idx := sel.mapIdx fun k e => (k, e)
    let side := 8 + 2 * ot.halo.toNat
    let n := o.len.toNat
    (s.begins .ce 0x01 h = some (x, s1) → s1.gcmUse x o = none →
        (rows o.c o.soff.toNat o.doff.toNat [{ s := 0, d := 0, ns := n, nd := n }] → exec (.copy h o) s = done s3)
          ∧ (∀ a b, x.header (CeCommon.ok o.c) s1 = .ok () s1 → o.c.swe = false → o.c.be = false → 0 < n →
              capCheck (x.under s1.core) s1.dev (x.cap o.c.cs) o.soff.toNat n (permR + permENG) [0, 2, 3, 4] = .ok a →
              capCheck (x.under s1.core) s1.dev (x.cap o.c.cd) o.doff.toNat n (permW + permENG) s1.dstSpaces = .ok b →
              x.space o.c.cs = 0 → x.space o.c.cd = 0 → (a + n ≤ b ∨ b + n ≤ a) →
              (∀ g, s1.core.raceOk 4 g = true) →
              ∃ t, exec (.copy h o) s = .next t ∧ (t.core.eng .ce).phase = .done ∧ t.dev = s1.dev
                ∧ (∀ i < n, t.core.pool.byte (b + i) = s1.core.pool.byte (a + i))
                ∧ (∀ p, p < b ∨ b + n ≤ p → t.core.pool.byte p = s1.core.pool.byte p)
                ∧ ∀ k, t.core.quarter k = s1.core.quarter k))
      ∧ (s.begins .ce 0x01 h = some (x, s1) → ∀ u, s1.gcmUse x o = some u → x.gcmCopy o u s1 = .ok () s2 →
          exec (.copy h o) s = done s2)
      ∧ (s.begins .ce 0x02 h = some (x, s1) → rows o2.c o2.soff.toNat o2.doff.toNat (Copy2dOp.rows o2) →
          exec (.copy2d h o2) s = done s3)
      ∧ (s.begins .ce 0x03 h = some (x, s1) → rows o3.c (16 * o3.soff.toNat) (16 * o3.doff.toNat) (Copy3dOp.rows o3) →
          exec (.copy3d h o3) s = done s3)
      ∧ (s.begins .ce 0x07 h = some (x, s1) → x.header (CeCommon.ok of.c && of.c.cs = 0 && of.rsv = 0) s1 = .ok () s1 →
          of.c.swe = false → of.c.be = false → 0 < of.len.toNat → ∀ a,
          capCheck (x.under s1.core) s1.dev (x.cap of.c.cd) of.doff.toNat of.len.toNat (permW + permENG) s1.dstSpaces = .ok a →
          x.space of.c.cd = 0 → (∀ g, s1.core.raceOk 4 g = true) →
          ∃ t, exec (.fill h of) s = .next t ∧ (t.core.eng .ce).phase = .done ∧ t.dev = s1.dev
            ∧ (∀ i < of.len.toNat, t.core.pool.byte (a + i) = of.pat.extractLsb' (8 * (i % 4)) 8)
            ∧ (∀ p, p < a ∨ a + of.len.toNat ≤ p → t.core.pool.byte p = s1.core.pool.byte p)
            ∧ ∀ k, t.core.quarter k = s1.core.quarter k)
      ∧ (s.begins .ce 0x04 h = some (x, s1) →
          x.tiles ot (ot.cs = 0 && ot.soff = 0 && ot.halo = 0) (permR + permW + permENG) none s1 = .ok (ly, tl, sel) s2 →
          sel.mapM (fun e => x.mcMoves ot ly (permR + permW + permENG) e) s2 = .ok ls s3 →
          x.doMoves none tl.rngs ls.flatten s3 = .ok () s4 → exec (.mccopy h ot) s = done s4)
      ∧ (s.begins .ce 0x05 h = some (x, s1) →
          x.tiles ot true (permR + permENG) (some (permW + permENG)) s1 = .ok (ly, tl, sel) s2 →
          x.capAt ot.cs (16 * ot.soff.toNat) (sel.length * ly.gsize (side * side)) (permW + permENG) 1 [0] s2 = .ok area s2 →
          idx.mapM (fun p => x.tgMove ot ly area p.1 p.2) s2 = .ok l s3 →
          x.doMoves (barOf ot.be ot.bidx) tl.rngs l s3 = .ok () s4 → exec (.tgath h ot) s = done s4)
      ∧ (s.begins .ce 0x06 h = some (x, s1) →
          x.tiles ot (ot.halo = 0) (permR + permW + permENG) (some (permR + permENG)) s1 = .ok (ly, tl, sel) s2 →
          x.capAt ot.cs (16 * ot.soff.toNat) (sel.length * (ly.tile + ly.tileSc)) (permR + permENG) 1 [0] s2 = .ok area s2 →
          idx.mapM (fun p => x.tsMoves ot ly (permR + permW + permENG) area p.1 p.2) s2 = .ok ls s3 →
          x.doMoves (barOf ot.be ot.bidx) tl.rngs ls.flatten s3 = .ok () s4 → exec (.tscat h ot) s = done s4))
    ∧ (∀ (h : CmdHdr) (o2 : Copy2dOp) (o3 : Copy3dOp) (ot : TileOp) (x : Ctx) (s s1 : State) (l : List Move) (m : Move)
    (ly : Layer) (e : Sel) (rp ens : List Nat) (row : Nat → Nat) (area first k : Nat),
    let copies := fun (i : Instr) (c : CeCommon) (soff doff w : Nat) (rs : List (Nat × Nat)) =>
      ∀ a b, let ends := fun (f : Nat × Nat → Nat) => (rs.map fun r => f r + w).foldl max 0
        0 < w → rs ≠ [] → x.header (CeCommon.ok c) s1 = .ok () s1 → c.swe = false → c.be = false →
        capCheck (x.under s1.core) s1.dev (x.cap c.cs) (soff : Nat) (ends (·.1)) (permR + permENG) [0, 2, 3, 4] = .ok a →
        capCheck (x.under s1.core) s1.dev (x.cap c.cd) (doff : Nat) (ends (·.2)) (permW + permENG) s1.dstSpaces = .ok b →
        x.space c.cs = 0 → x.space c.cd = 0 → (a + ends (·.1) ≤ b ∨ b + ends (·.2) ≤ a) → (∀ g, s1.core.raceOk 4 g = true) →
        ∃ t, exec i s = .next t ∧ (t.core.eng .ce).phase = .done ∧ t.dev = s1.dev
          ∧ (∀ (n : Nat) (r : Nat × Nat) (j : Nat), rs[n]? = some r → j < w →
              (∀ (n' : Nat) (r' : Nat × Nat), n < n' → rs[n']? = some r' → r.2 + j < r'.2 ∨ r'.2 + w ≤ r.2 + j) →
              t.core.pool.byte (b + r.2 + j) = s1.core.pool.byte (a + r.1 + j))
          ∧ (∀ p, (∀ r ∈ rs, p < b + r.2 ∨ b + r.2 + w ≤ p) → t.core.pool.byte p = s1.core.pool.byte p)
          ∧ ∀ q, t.core.quarter q = s1.core.quarter q
    let scaled := ly.fmt = 6
    let eb := if ly.fmt = 0 then 2 else 1
    let base := capBase (x.cap ot.cb)
    let data := fun (slot : Bool) (t p n : Nat) =>
      ({ space := 2, a := base + (ly.slot slot + t * (64 * (ly.ch * eb)) + p * (ly.ch * eb)), n, sw := none } : Rng)
    let scale := fun (slot : Bool) (t p n : Nat) =>
      ({ space := 2, a := base + (ly.scale slot + t * (2 * ly.ch) + p * (ly.ch / 32)), n, sw := none } : Rng)
    let tile := fun (y z : Nat) => (y / 8 * ly.tw + z / 8, 8 * (y % 8) + z % 8)
    let within := fun (v : Int) (n : Nat) => (max 0 (min (8 * (n : Int) - 1) v)).toNat
    let side := 8 + 2 * ot.halo.toNat
    let np := side * side
    let dsz := 16 * ((np * (ly.ch * eb) + 15) / 16)
    let gsz := if scaled then dsz + 16 * ((np * ly.ch + 511) / 512) else dsz
    let sw := if ot.swe then some (tget 0 x.swz ot.sw.toNat) else none
    (s.begins .ce 0x02 h = some (x, s1) → copies (.copy2d h o2) o2.c o2.soff.toNat o2.doff.toNat o2.rowb.toNat
        ((List.range o2.nrow.toNat).map fun r => (16 * o2.sstr.toNat * r, 16 * o2.dstr.toNat * r)))
      ∧ (s.begins .ce 0x03 h = some (x, s1) → copies (.copy3d h o3) o3.c (16 * o3.soff.toNat) (16 * o3.doff.toNat) o3.rowb.toNat
          ((List.range o3.npl.toNat).flatMap fun p => (List.range o3.nrow.toNat).map fun r =>
            (256 * o3.sps.toNat * p + 16 * o3.sstr.toNat * r, 256 * o3.dps.toNat * p + 16 * o3.dstr.toNat * r)))
      ∧ ((∀ n < ens.length, ens.getD n 0 % 4096 < ly.tw ∧ row n < ly.th
            ∧ ∀ r < ly.th, (rp.getD r 0 ≤ first + n ∧ first + n < rp.getD (r + 1) 0) ↔ r = row n) →
          x.select ot ly rp first ens s = .ok ((List.range ens.length).filterMap fun n =>
            let v := ens.getD n 0
            if ot.modes.getLsbD (v / 4096 % 4) then
              some { tx := v % 4096, ty := row n, dx := (BitVec.ofNat 9 (v / 2 ^ 14)).toInt, dy := (BitVec.ofNat 9 (v / 2 ^ 23)).toInt }
            else none) s)
      ∧ (∀ perm, x.mcMoves ot ly perm e s = .ok l s1 → s1 = s ∧ ∀ y z : Nat, y < 8 → z < 8 →
          let n := 8 * y + z
          let src := tile (within (8 * e.ty + y - e.dy) ly.th) (within (8 * e.tx + z - e.dx) ly.tw)
          let t := e.ty * ly.tw + e.tx
          l[if scaled then 2 * n else n]? = some { dst := data ot.slot t n (ly.ch * eb),
                                                   srcs := [.rng (data (!ot.slot) src.1 src.2 (ly.ch * eb))] }
            ∧ (scaled → l[2 * n + 1]? = some { dst := scale ot.slot t n (ly.ch / 32),
                                               srcs := [.rng (scale (!ot.slot) src.1 src.2 (ly.ch / 32))] }))
      ∧ (x.tgMove ot ly area k e s = .ok m s1 → s1 = s ∧ m.dst = { space := 0, a := area + k * gsz, n := gsz, sw }
          ∧ (∀ u < side, ∀ v < side,
              let y : Int := 8 * e.ty - ot.halo.toNat + u
              let z : Int := 8 * e.tx - ot.halo.toNat + v
              let within := 0 ≤ y ∧ y < 8 * ly.th ∧ 0 ≤ z ∧ z < 8 * ly.tw
              let p := tile y.toNat z.toNat
              m.srcs[side * u + v]? = some (if within then Src.rng (data ot.slot p.1 p.2 (ly.ch * eb))
                  else .lit (List.replicate (ly.ch * eb) 0))
                ∧ (scaled → m.srcs[np + 1 + (side * u + v)]? = some (if within then Src.rng (scale ot.slot p.1 p.2 (ly.ch / 32))
                    else .lit (List.replicate (ly.ch / 32) 0))))
          ∧ m.srcs[np]? = some (.lit (List.replicate (dsz - np * (ly.ch * eb)) 0)))
      ∧ (∀ perm, x.tsMoves ot ly perm area k e s = .ok l s1 → s1 = s ∧
          let t := e.ty * ly.tw + e.tx
          let tb := 64 * (ly.ch * eb)
          let at_ := area + k * (tb + if scaled then 2 * ly.ch else 0)
          let mv := fun (d r : Rng) => ({ dst := d, srcs := [.rng r] } : Move)
          l = mv (data ot.slot t 0 tb) { space := 0, a := at_, n := tb, sw } ::
            if scaled then [mv (scale ot.slot t 0 (2 * ly.ch)) { space := 0, a := at_ + tb, n := 2 * ly.ch, sw }] else []))

/-- R253 to R255, R260, R268, R290, R332 to R337: what the commands of the network interface, the tape engine and the CMU
do once their checks have passed: elements fetched or sent one after another, a message landed with its decrement and
its signal, a tape segment turned round, the tiles of a frame scanned, reset or reported. An RREAD of which replies
have landed lands what is left. A cell kept by CMRESET keeps its bytes' poison, a class of 2 or more counts as
concealed, and LISTOVF is posted as its scan is made (log 63); logs 75 and 108 stand behind refusals at a target and
how it takes bytes in; what the transfers leave: a message's bytes at the target, its barrier's count lower by their
number, its semaphore higher by the increment, or past the ceiling SEMOVF to report; a reversed segment's values and
decisions latest first; the motion vector, the change estimate, the mark and the counters of a scanned tile, and its
list in the scratchpad with its summary; the statistics of its pair at completion. -/
def Obligations.TransferResults : Prop :=
  (∀ (h : CmdHdr) (o : RrwOp) (os : RsendOp) (ot : TaperevOp) (oc : CmuOp) (x : Ctx) (s s1 s2 : State) (l : List Elem)
    (a b : Nat) (out : List (Byte × Bool)) (p : ScanPlan) (t : TRng) (tape : Tape) (r : Replies),
    let done := fun (e : Eng) (u : State) => (Host.Outcome.next (u.finished e) : Out)
    let size := 16 * 2 ^ o.c.esz.toNat
    let admits := fun (e : Elem) => s2.refusal (remoteCore e.r) s2.issuerKs (remoteOff e.r) size = none
    let n := os.len.toNat
    let pair := oc.slot.toNat + 256 * oc.grp.toNat
    let cells := oc.row0.toNat * (oc.maxent.toNat % 4096)
    let waits := s2.modDev fun d => d.toPipe s2.core.num pair
    let take := waits.modDev fun d => d.serve s2.core.num pair
    let lands := fun (z u : State) (e : Elem) => u.landElem (z.sink x (if o.c.be then some o.c.bidx.toNat else none)) e.l
      ((u.coreAt (remoteCore e.r)).inRead (remoteOff e.r) size)
    (s.begins .ni 0x01 h = some (x, s1) → (s1.core.eng .ni).rest = none → x.rrwCheck o true s1 = .ok l s2 →
        (∀ e ∈ l, admits e) → exec (.rread h o) s = done .ni (l.foldl (lands s2) s2))
      ∧ (s.begins .ni 0x01 h = some (x, s1) → (s1.core.eng .ni).rest = some r →
          (∀ e ∈ r.left, s1.refusal (remoteCore e.2.r) s1.issuerKs (remoteOff e.2.r) size = none) →
          exec (.rread h o) s = done .ni ((r.left.foldl (fun u e => lands s1 u e.2) s1).niRefused x o.c.cr r.why))
      ∧ (s.begins .ni 0x02 h = some (x, s1) → x.rrwCheck o false s1 = .ok l s2 → (∀ e ∈ l, admits e) →
          exec (.rwrite h o) s = done .ni ((l.foldl (fun u e => u.setCoreAt (remoteCore e.r)
            ((u.coreAt (remoteCore e.r)).inWrite (remoteOff e.r) (u.core.inRead e.l size))) s2).count 5 (l.length * size)))
      ∧ (s.begins .ni 0x03 h = some (x, s1) → x.header (RsendOp.ok os) s1 = .ok () s1 →
          x.capAt os.c.cl os.loff.toNat n (permR + permENG) 1 [0] s1 = .ok a s1 →
          x.capAt os.c.cr os.roff.toNat n (permW + permENG) 1 [1] s1 = .ok b s1 → remoteCore b < 132 →
          x.race false { space := 0, a, n, sw := none } s1 = .ok () s1 →
          (s1.refusal (remoteCore b) s1.issuerKs (remoteOff b) n = none →
              exec (.rsend h os) s = done .ni (s1.rsendLand x os a b))
            ∧ (∀ sub, s1.refusal (remoteCore b) s1.issuerKs (remoteOff b) n = some sub →
                exec (.rsend h os) s = done .ni ((s1.count 5 n).niRefused x os.c.cr (some (sub, os.roff.toNat)))))
      ∧ (s.begins .tape 0x01 h = some (x, s1) → x.header (TaperevOp.ok ot) s1 = .ok () s1 →
          x.capAt ot.ct 0 0x900 (permR + permENG) 1 [2] s1 = .ok a s1 →
          x.capAt ot.cd (16 * ot.doff.toNat) ot.len.toNat (permW + permENG) 1 [0] s1 = .ok b s1 →
          x.bound ot.be ot.bidx.toNat s1 = .ok () s1 → s1.core.boundTape a = some tape →
          x.capAt ot.ct 0 (4096 + tape.size) (permR + permENG) 1 [2] s1 = .ok a s1 →
          x.revTape tape ot.seg.toNat (tape.phase = .record) s1 = .ok out s2 → out.length ≤ ot.len.toNat →
          x.race true { space := 0, a := b, n := out.length, sw := none } s2 = .ok () s2 →
          exec (.taperev h ot) s = done .tape ((s2.putIn (s2.sink x (barOf ot.be ot.bidx))
            { r := { space := 0, a := b, n := out.length, sw := none }, parts := [] } out).modEng .tape fun y =>
              { y with rev := some { base := a, seg := ot.seg.toNat, out := b } }))
      ∧ (s.begins .cmu 0x01 h = some (x, s1) → x.scanCheck oc s1 = .ok p s2 →
          (waits.dev.pipeFree s2.core.num pair = true → exec (.cmscan h oc) s = done .cmu (take.scanDo x oc p))
            ∧ (waits.dev.pipeFree s2.core.num pair = false → exec (.cmscan h oc) s =
                .next (waits.modEng .cmu fun y => { y with ver := some x.ver })))
      ∧ (s.begins .cmu 0x02 h = some (x, s1) → x.header (resetOk oc) s1 = .ok () s1 →
          x.capAt oc.cc (16 * oc.coff.toNat) (4 * cells) (permR + permW + permENG) 1 [2] s1 = .ok a s1 →
          x.slotTest oc s1 = .ok () s1 → x.span 2 a (4 * cells) 1 s1 = .ok t s2 → waits.dev.pipeFree s2.core.num pair = true →
          let old := take.bytesIn t
          let flag := oc.maxent.toNat / 4096 % 2
          exec (.cmreset h oc) s = done .cmu (take.writeParts t.parts ((List.range cells).flatMap fun i =>
            if oc.nd then ((old.drop (4 * i)).take 4).take 3 ++ [(BitVec.ofNat 8 flag, false)]
            else clean (bytesOf 4 (2 ^ 24 * flag)))))
      ∧ (s.begins .cmu 0x03 h = some (x, s1) → x.header (statOk oc) s1 = .ok () s1 →
          x.capAt oc.cl (16 * oc.sumoff.toNat) 32 (permW + permENG) 1 [0, 2] s1 = .ok a s1 →
          x.slotTest oc s1 = .ok () s1 → x.span (x.space oc.cl) a 32 1 s1 = .ok t s2 →
          exec (.cmstat h oc) s = done .cmu (s2.putIn (s2.sink x none) t (clean (s2.dev.statRecord pair)))))
    ∧ (∀ (h : CmdHdr) (o : RsendOp) (oc : CmuOp) (x : Ctx) (c : Cmd) (d : Device) (s s1 s2 : State) (a b off : Nat) (tape : Tape)
    (thr : Word) (bs : List Block) (nd opened : Bool) (tx cw seg : Nat) (ch : Change) (p : ScanPlan) (y : Engine)
    (last : BitVec 32) (recs : List (List Byte × List Byte × List Bool)),
    let z := s1.coreAt (remoteCore b)
    let at_ := remoteOff b
    let len := o.len.toNat
    let sem := z.semOf o.rsidx.toNat
    let lands := fun (t : State) => (t.core.eng .ni).phase = .done
      ∧ ∀ i < len, (t.coreAt (remoteCore b)).pool.byte (at_ + i) = s1.core.pool.byte (a + i)
    let quarters := bs.filter fun k => k.cls = 0
    let side : Nat := 4 * 2 ^ bfld thr 28 4
    let found := changeOf thr bs
    let sumX := quarters.foldl (fun v k => v + k.dx) 0
    let sumY := quarters.foldl (fun v k => v + k.dy) 0
    let nearest := fun (sum : Int) (den : Int) (q : Int) =>
      (511 * den ≤ 2 * sum → q = 255) ∧ (2 * sum ≤ -513 * den → q = -256)
        ∧ (-513 * den < 2 * sum → 2 * sum < 511 * den → 2 * (sum - q * den).natAbs ≤ den
            ∧ (2 * (sum - q * den).natAbs = den → sum.natAbs < (q * den).natAbs))
    let stale := min 255 (fld cw 16 8 + 1)
    let drift := min 65535 (fld cw 0 16 + ch.e)
    let forced := ch.intra = true ∨ fld cw 24 1 = 1 ∨ bfld thr 16 8 ≤ stale
    let mark := forced ∨ bfld thr 0 16 < drift
    let still := ch.qx = 0 ∧ ch.qy = 0
    let u := tileUpdate thr nd tx cw ch
    let pair := oc.slot.toNat + 256 * oc.grp.toNat
    let tiles := (List.range p.g.rows).flatMap fun r => (List.range p.g.tw).map fun k =>
      scanTile (tget 0 s.dev.thr pair) oc.nd p.f (s.bytesIn p.mt) (s.bytesIn p.qt) (s.bytesIn p.kt) (s.bytesIn p.ct) p.g.tw k
        (oc.row0.toNat + r)
    let in0 := fun (t : TRng) => t.r.space = 0 ∧ t.r.sw = none
    let num := fun (t : State) (a n : Nat) => ofBytes ((List.range n).map fun i => t.core.pool.byte (a + i))
    let lo := tape.start seg
    let hi := if seg = tape.seg then tape.head else tape.start (seg + 1)
    let ds := (recs.flatMap fun r => r.2.2).reverse
    let vs := recs.filter fun r => r.2.1 ≠ []
    let f := fun (q : TileOut → Bool) => (tiles.filter q).length % 65536
    (s.begins .ni 0x03 h = some (x, s1) → x.header (RsendOp.ok o) s1 = .ok () s1 →
        x.capAt o.c.cl o.loff.toNat len (permR + permENG) 1 [0] s1 = .ok a s1 →
        x.capAt o.c.cr o.roff.toNat len (permW + permENG) 1 [1] s1 = .ok b s1 → remoteCore b < 132 →
        x.race false { space := 0, a, n := len, sw := none } s1 = .ok () s1 →
        s1.refusal (remoteCore b) s1.issuerKs at_ len = none →
          (o.rbe = false → o.rse = false → ∃ t, exec (.rsend h o) s = .next t ∧ lands t
              ∧ ∀ q, q < at_ ∨ at_ + len ≤ q → (t.coreAt (remoteCore b)).pool.byte q = z.pool.byte q)
            ∧ (o.rbe = false → o.rse = true → sem.v.toNat + o.rsinc.toNat ≤ sem.ceil.toNat →
                ∃ t, exec (.rsend h o) s = .next t ∧ lands t
                  ∧ ((t.coreAt (remoteCore b)).semOf o.rsidx.toNat).v.toNat = sem.v.toNat + o.rsinc.toNat)
            ∧ (o.rbe = false → o.rse = true → sem.ceil.toNat < sem.v.toNat + o.rsinc.toNat →
                ∃ t, exec (.rsend h o) s = .next t ∧ lands t ∧ (t.coreAt (remoteCore b)).semOf o.rsidx.toNat = sem
                  ∧ ((t.core.eng .ni).fault.map TrapRec.cause) = some .semovf)
            ∧ (o.rbe = true → o.rse = false → z.barAt o.rbidx.toNat = some off → off + 16 ≤ at_ ∨ at_ + len ≤ off →
                ∃ t, exec (.rsend h o) s = .next t ∧ lands t ∧ (t.coreAt (remoteCore b)).barGet off =
                  ({ z.barGet off with bytes := (z.barGet off).bytes - BitVec.ofNat 64 len } : Bar).complete))
      ∧ ((∀ r ∈ recs, (∃ v : Word, r = (recS v, bytesOf 16 v.toNat, [])) ∨ (∃ v : BitVec 32, r = (recP v, bytesOf 16 v.toNat, []))
            ∨ (∃ v : Vec, r = (recV v, bytesOf 128 v.toNat, []))
            ∨ ∃ (w : Word) (k : Nat), 1 ≤ k ∧ k ≤ 64 ∧ r = (recD w k, [], (List.range k).map fun i => w.getLsbD i)) →
          seg < 256 → seg ≤ tape.seg → (opened = true → seg ≠ tape.seg) → tape.lost.getLsbD seg = false → tape.buf = [] → lo ≤ hi →
          hi - lo ≤ tape.size →
          let b := recs.flatMap (fun r => r.1) ++ recMark seg (BitVec.ofNat 32 vs.length) (BitVec.ofNat 32 ds.length)
          b.length = hi - lo → x.segment tape lo (hi - lo) s1 = .ok (b.map fun v => (v, false)) s2 →
          ∃ out : List Byte, x.revTape tape seg opened s1 = .ok (out.map fun v => (v, false)) s2
            ∧ out.length = 16 + (recs.flatMap fun r => r.2.1).length + 16 * ((ds.length + 127) / 128)
            ∧ out.take (16 + (recs.flatMap fun r => r.2.1).length) = bytesOf 4 vs.length ++ bytesOf 4 ds.length ++ bytesOf 4 0
                ++ bytesOf 4 seg ++ recs.reverse.flatMap (fun r => r.2.1)
            ∧ ∀ i < ds.length, ((out.drop (16 + (recs.flatMap fun r => r.2.1).length)).getD (i / 8) 0).getLsbD (i % 8) =
                ds.getD i false)
      ∧ (found.intra = bs.any (fun k => k.cls = 1) ∧ found.hidden = bs.any (fun k => 2 ≤ k.cls)
          ∧ (quarters = [] → found.qx = 0 ∧ found.qy = 0)
          ∧ (quarters ≠ [] → nearest sumX (quarters.length * side) found.qx ∧ nearest sumY (quarters.length * side) found.qy)
          ∧ found.e = min 65535 ((bs.foldl (fun v k => if k.cls ≤ 1 then v + k.res / 2 ^ bfld thr 24 4 else v) 0)
              + bfld thr 32 8 * (quarters.foldl (fun v k => v + ((k.dx - side * found.qx).natAbs
                  + (k.dy - side * found.qy).natAbs)) 0) / 16))
      ∧ ((¬ mark → u.mode = 0) ∧ (mark → forced ∨ nd = true ∨ ¬ still → u.mode = 1)
          ∧ (mark → ¬ forced → nd = false → still → u.mode = 2)
          ∧ (mark → ch.hidden = false → u.cw = 0)
          ∧ (¬ mark ∨ ch.hidden = true → u.cw = drift + 65536 * stale + 2 ^ 24 * fld cw 24 1)
          ∧ u.entry = tx + 2 ^ 12 * u.mode + 2 ^ 14 * (ch.qx % 512).toNat + 2 ^ 23 * (ch.qy % 512).toNat)
      ∧ (in0 p.rt → in0 p.et → in0 p.st → p.rt.r.n = 2 * (p.g.th + 1) → p.et.r.n = 4 * (p.g.rows * p.g.tw) → p.st.r.n = 16 →
          p.rt.r.a + p.rt.r.n ≤ p.et.r.a → p.et.r.a + p.et.r.n ≤ p.st.r.a →
          p.g.rows * p.g.tw < 65536 →
          let t := s.scanDo x oc p
          (∀ k < p.g.rows * p.g.tw, num t (p.et.r.a + 4 * k) 4 = (tiles.map TileOut.entry).getD k 0 % 2 ^ 32)
            ∧ (∀ r ≤ p.g.th, num t (p.rt.r.a + 2 * r) 2 = min (r - oc.row0.toNat) p.g.rows * p.g.tw)
            ∧ num t p.st.r.a 2 = p.g.rows * p.g.tw ∧ num t (p.st.r.a + 2) 2 = p.g.rows % 65536
            ∧ num t (p.st.r.a + 4) 2 = f (fun v => v.mode = 1) ∧ num t (p.st.r.a + 6) 2 = f (fun v => v.mode = 2)
            ∧ num t (p.st.r.a + 8) 2 = f (fun v => v.mode = 0) ∧ num t (p.st.r.a + 10) 2 = f (fun v => v.mode = 0 && v.moved)
            ∧ num t (p.st.r.a + 12) 1 = p.g.ovf.toNat + 2 * (decide (p.f.status = 1)).toNat
            ∧ num t (p.st.r.a + 14) 2 = p.f.frame % 65536
            ∧ (p.g.ovf = true → ∃ e, t.dev.events = e ++ [.listOvf oc.slot.toNat oc.grp.toNat (oc.row0.toNat + p.g.rows)])
            ∧ (t.core.eng .cmu).last = some (setBit (BitVec.ofNat 32 p.f.frame) 31 p.g.ovf))
      ∧ (y.last = some last → let v := tget Stats.zero d.stats (cmuPair c.bits)
          tget Stats.zero (d.scanCounted c y).stats (cmuPair c.bits) =
            { v with scans := v.scans + 1, ovfs := if last.getLsbD 31 then v.ovfs + 1 else v.ovfs, last := last })
      ∧ (y.last = none → d.scanCounted c y = d))

/-- R149, R150, R160 to R166: what the ME's commands do once their checks have passed: an accumulator zeroed, loaded or
stored, and a product formed block by block, in the shadow under SPEC, the cycles counted as blocks complete and MEPROG's VALID
cleared; one that waits for metadata goes on from its block with the B it has read, and a fault stops the engine. -/
def Obligations.MatrixResults : Prop :=
  ∀ (h : CmdHdr) (o : AccOp) (om : MmaOp) (x : Ctx) (s s1 s2 s3 s4 : State) (a : Nat) (t : List TRng) (c : Mma) (p : MmaAt)
    (bs : List OpRow) (r : MePart),
    let done := fun (u : State) => (Host.Outcome.next (u.finished .me) : Out)
    let k := o.acc.toNat
    let code := fun (b : Nat) => b + 4 * om.fmt.toNat + om.shape.toNat
    let rows := fun (sp : Nat) => AccOp.ranges o sp a (x.swizzle o.swae o.swa)
    let typed := fun (u : Acc) (ty : Bool) => (u.flags k).getLsbD 0 = ty ∧ (u.flags k).getLsbD 1 = false
    let product := fun (kind : MmaKind) (b : Nat) (i : Instr) =>
      s.begins .me (code b) h = some (x, s1) → mmaOf kind h om = some c →
        let takes := fun (p : MmaAt) (bs : List OpRow) (blk : Nat) (u : State) =>
          let go := x.mmaBlocks c p bs (c.m / 8 - blk) blk 0 [] u
          (go = .ok () s4 → exec i s = done (s4.modCore fun y => y.progDone x))
            ∧ (go = .error (.hold .part) s4 → exec i s = .next (s4.modEng .me fun y => { y with ver := some x.ver }))
            ∧ (∀ f, go = .error (.trap f) s4 → exec i s = .next (s4.engFault .me h.we false f))
        ((s1.core.eng .me).part = none → x.mmaStart c s1 = .ok p s2 →
            let res := s2.core.resumeAt x
            let sh := if res.isNone then s2.modAcc c.shadowed else s2
            x.mmaB c p (res.getD 0) sh = .ok bs s3 → takes p bs (res.getD 0) s3)
          ∧ ((s1.core.eng .me).part = some r →
              takes { a := r.a, b := r.b, x := r.x } (r.rows.map fun e => { data := e.1, scales := e.2 }) r.blk s1)
    (s.begins .me 0x01 h = some (x, s1) → s1.core.acc.sv k = false →
        x.header (AccOp.rsvOk o && o.lfmt = 0 && o.ca = 0 && o.swa = 0 && !o.swae && o.offa = 0 && o.stra = 0) s1 = .ok () s1 →
        ∃ u : Acc, exec (.accz h o) s = done (s1.modAcc fun _ => u)
          ∧ (∀ r < 64, ∀ j < 32, u.el false k r j = 0) ∧ typed u o.ty ∧ u.poison false k = 0
          ∧ ∀ i < 8, i ≠ k → u.flags i = s1.core.acc.flags i
              ∧ ∀ r < 64, ∀ j < 32, u.el false i r j = s1.core.acc.el false i r j)
      ∧ (s.begins .me 0x02 h = some (x, s1) → x.accMove o permR s1 = .ok a s1 → (o.lfmt = 0 ∨ o.ty = false) →
          s1.core.acc.sv k = false → (o.swae = true → x.space o.ca = 0) →
          x.placeAll 0 (rows (x.space o.ca)) s1 = .ok t s2 → (rows (x.space o.ca)).forM (fun r => x.race false r) s2 = .ok () s2 →
          ∃ u : Acc, exec (.accld h o) s = done (s2.modAcc fun _ => u)
            ∧ (∀ r < 64, ∀ j < 32, u.el false k r j = AccOp.load o ((t.map s2.bytesIn).getD r []) j)
            ∧ typed u (decide (o.lfmt = 0) && o.ty)
            ∧ ∀ r < 64, (u.poison false k).getLsbD r = ((t.map s2.bytesIn).getD r []).any (·.2))
      ∧ (s.begins .me 0x03 h = some (x, s1) → x.accMove o permW s1 = .ok a s1 →
          (if o.lfmt = 0 then o.ty = s1.core.acc.isInt false k else o.ty = false ∧ s1.core.acc.isInt false k = false) →
          (o.swae = true → x.space o.ca = 0) → s1.core.acc.poison false k = 0 →
          x.placeAll 1 (rows (x.space o.ca)) s1 = .ok t s2 → (rows (x.space o.ca)).forM (fun r => x.race true r) s2 = .ok () s2 →
          exec (.accst h o) s = done ((t.mapIdx fun r t => (r, t)).foldl (fun u e =>
            u.putIn (s2.sink x none) e.2 (clean ((List.range 32).flatMap fun j =>
              AccOp.store o (s1.core.acc.el false k e.1 j)))) s2))
      ∧ product .dense 0x40 (.mma h om) ∧ product .sparse 0x80 (.mmaSp h om) ∧ product .delta 0xC0 (.mmaD h om)

/-- R42, R46, R56, R57, R154 to R164, R173: with a plain header, capabilities that pass, operands in the scratchpad, no race
and no poison, each command of the ME completes: ACCZ leaves zeros; ACCLD the 64 rows it reads, widened exactly; ACCST each
row's bytes in place; MMA of INT8 or UINT8 operands the clamped sum of every K-step, MMA of BF16 operands the K-steps of
R56; MMA.SP takes for each of its values the element of B that the metadata selects; MMA.D steps TD8 elements, scaled, onto
the preload or the accumulator, and takes 8 cycles fewer for each K-step whose A elements are all zero; an omitted K-step steps
values still, so that a NaN among scales or accumulators stays one (log 104). -/
def Obligations.MatrixCompletes : Prop :=
  ∀ (h : CmdHdr) (o : AccOp) (m : MmaOp) (x : Ctx) (s s1 : State) (a b p : Nat),
    let byte := fun (p : Nat) => s1.core.pool.byte p
    let word := fun (p n : Nat) => ofBytes ((List.range n).map fun i => byte (p + i))
    let may := fun (ci : BitVec 4) (off len perm : Nat) (at_ : Nat) =>
      capCheck (x.under s1.core) s1.dev (x.cap ci) (off : Nat) len perm [0, 2] = .ok at_ ∧ x.space ci = 0
    let calm := ∀ g, s1.core.raceOk 6 g = true
    let clean_ := ∀ g, tget false s1.core.pool.pois g = false
    let k := o.acc.toNat
    let own := AccOp.rsvOk o = true ∧ o.swae = false ∧ o.swa = 0
    let row := fun (r : Nat) => a + 16 * o.stra.toNat * r
    let w := if o.lfmt = 0 then 4 else 2
    let completes := fun (i : Instr) (q : State → Prop) =>
      ∃ t, exec i s = .next t ∧ (t.core.eng .me).phase = .done ∧ q t
    let j := m.acc.toNat
    let fresh := s1.core.resumeAt x = none ∧ (s1.core.eng .me).part = none
    let full := m.shape = 0 ∧ m.row0 = false ∧ m.swae = false ∧ m.swa = 0 ∧ m.swbe = false ∧ m.swb = 0 ∧ m.rsv = 0
      ∧ m.pb = false
    let ready := CmdHdr.plain h x.inl ∧ h.s = false ∧ full ∧ fresh ∧ calm ∧ clean_ ∧ s1.core.acc.sv j = false
    let arow := fun (i : Nat) => a + 16 * m.stra.toNat * i
    let brow := fun (i : Nat) => b + 16 * m.strb.toNat * i
    let int := fun (f : BitVec 4) (v : Byte) => if f = 5 then (v.toNat : Int) else v.toInt
    let clamp := fun (v : Int) => max (-2 ^ 31) (min (2 ^ 31 - 1) v)
    let sum := fun (n : Nat) (f : Nat → Int) => (List.range n).foldl (fun v t => v + f t) 0
    let el := fun (t : State) (i c : Nat) => t.core.acc.el false j i c
    (s.begins .me 0x01 h = some (x, s1) → CmdHdr.plain h x.inl → h.s = false →
        o = { AccOp.empty with acc := o.acc, ty := o.ty } → s1.core.acc.sv k = false →
        completes (.accz h o) fun t => (∀ r < 64, ∀ c < 32, t.core.acc.el false k r c = 0)
          ∧ t.core.acc.isInt false k = o.ty ∧ t.core.acc.poison false k = 0)
      ∧ (s.begins .me 0x02 h = some (x, s1) → CmdHdr.plain h x.inl → h.s = false → own → o.lfmt ≠ 3 →
          (o.lfmt = 0 ∨ o.ty = false) → s1.core.acc.sv k = false → calm → clean_ →
          may o.ca (16 * o.offa.toNat) (16 * o.stra.toNat * 63 + 32 * w) (permR + permENG) a →
          completes (.accld h o) fun t => t.core.acc.poison false k = 0 ∧ ∀ r < 64, ∀ c < 32,
            t.core.acc.el false k r c =
              if o.lfmt = 0 then BitVec.ofNat 32 (word (row r + 4 * c) 4)
              else BitVec.ofNat 32 (fp32.conv .rne true
                ((if o.lfmt = 1 then bf16 else fp16).val (word (row r + 2 * c) 2))))
      ∧ (s.begins .me 0x03 h = some (x, s1) → CmdHdr.plain h x.inl → h.s = false → own → o.lfmt ≠ 3 →
          (if o.lfmt = 0 then o.ty = s1.core.acc.isInt false k else o.ty = false ∧ s1.core.acc.isInt false k = false) →
          s1.core.acc.poison false k = 0 → calm → 2 * w ≤ o.stra.toNat →
          may o.ca (16 * o.offa.toNat) (16 * o.stra.toNat * 63 + 32 * w) (permW + permENG) a →
          completes (.accst h o) fun t => t.core.acc = s1.core.acc ∧ (∀ r < 64, ∀ c < 32,
              let v := s1.core.acc.el false k r c
              ofBytes ((List.range w).map fun i => t.core.pool.byte (row r + w * c + i)) =
                if o.lfmt = 0 then v.toNat else (if o.lfmt = 1 then bf16 else fp16).conv .rne false (fp32.val v.toNat))
            ∧ ∀ q, (∀ r < 64, q < row r ∨ row r + 32 * w ≤ q) → t.core.pool.byte q = byte q)
      ∧ (s.begins .me (0x40 + 4 * m.fmt.toNat) h = some (x, s1) → m.fmt ∈ [4, 5] → m.bfmt ∈ [4, 5] → ready →
          m.strx = 0 → m.cx = 0 → m.offx = 0 → (m.zpre = true ∨ s1.core.acc.isInt false j = true) →
          may m.ca (16 * m.offa.toNat) (16 * m.stra.toNat * 63 + 64) (permR + permENG) a →
          may m.cb (16 * m.offb.toNat) (16 * m.strb.toNat * 31 + 64) (permR + permENG) b →
          completes (.mma h m) fun t => t.core.acc.isInt false j = true ∧ ∀ i < 64, ∀ c < 32, (el t i c).toInt =
            (List.range 4).foldl (fun v st => clamp (v + sum 16 fun u =>
                int m.fmt (byte (arow i + (16 * st + u))) * int m.bfmt (byte (brow c + (16 * st + u)))))
              (if m.zpre then 0 else (el s1 i c).toInt))
      ∧ (s.begins .me 0x40 h = some (x, s1) → m.fmt = 0 → m.bfmt = 0 → ready →
          m.strx = 0 → m.cx = 0 → m.offx = 0 → (m.zpre = true ∨ s1.core.acc.isInt false j = false) →
          may m.ca (16 * m.offa.toNat) (16 * m.stra.toNat * 63 + 64) (permR + permENG) a →
          may m.cb (16 * m.offb.toNat) (16 * m.strb.toNat * 31 + 64) (permR + permENG) b →
          completes (.mma h m) fun t => t.core.acc.isInt false j = false ∧ ∀ i < 64, ∀ c < 32,
            let ps := fun (st : Nat) => (List.range 16).map fun u =>
              (bf16.val (word (arow i + 2 * (16 * st + u)) 2)).mul (bf16.val (word (brow c + 2 * (16 * st + u)) 2))
            ∃ v, FloatStep (if m.zpre then 0 else el s1 i c) (ps 0) v ∧ FloatStep v (ps 1) (el t i c))
      ∧ (s.begins .me (0x80 + 4 * m.fmt.toNat) h = some (x, s1) → m.fmt ∈ [4, 5] → m.bfmt ∈ [4, 5] → ready →
          m.strx = 0 → (m.zpre = true ∨ s1.core.acc.isInt false j = true) →
          may m.ca (16 * m.offa.toNat) (16 * m.stra.toNat * 63 + 32) (permR + permENG) a →
          may m.cb (16 * m.offb.toNat) (16 * m.strb.toNat * 31 + 64) (permR + permENG) b →
          may m.cx (16 * m.offx.toNat) 512 (permR + permENG + permFE) p →
          (∀ g, p / 16 ≤ g → g ≤ (p + 511) / 16 → tget false s1.core.pool.full g = true) →
          completes (.mmaSp h m) fun t => ∀ i < 64, ∀ c < 32,
            let idx := fun (g : Nat) => (byte (p + 8 * i + g / 2)).toNat / 16 ^ (g % 2) % 16
            (el t i c).toInt =
              (List.range 4).foldl (fun v st => clamp (v + sum 4 fun u =>
                  let g := 4 * st + u
                  int m.fmt (byte (arow i + 2 * g)) * int m.bfmt (byte (brow c + (4 * g + idx g % 4)))
                    + int m.fmt (byte (arow i + (2 * g + 1))) * int m.bfmt (byte (brow c + (4 * g + idx g / 4)))))
                (if m.zpre then 0 else (el s1 i c).toInt))
      ∧ (s.begins .me (0xC0 + 4 * m.fmt.toNat) h = some (x, s1) → m.fmt = 6 → m.bfmt = 4 → ready →
          (if m.zpre then True else m.strx = 0 ∧ s1.core.acc.isInt false j = false) →
          may m.ca (16 * m.offa.toNat) (16 * m.stra.toNat * 63 + 64) (permR + permENG) a →
          may m.cb (16 * m.offb.toNat) (16 * m.strb.toNat * 31 + 64) (permR + permENG) b →
          may m.cx (16 * m.offx.toNat) (if m.zpre then 128 + 16 * m.strx.toNat * 63 + 128 else 128) (permR + permENG) p →
          completes (.mmaD h m) fun t =>
            (∀ i < 64, ∀ c < 32,
              let a_ := fun (n : Nat) => scaleVal (ofInt (byte (arow i + n)).toInt) (byte (p + 2 * i + n / 32)).toNat
              let ps := fun (st : Nat) => (List.range 16).map fun u =>
                (a_ (16 * st + u)).mul (ofInt (byte (brow c + (16 * st + u))).toInt)
              let v0 := if m.zpre then BitVec.ofNat 32 (word (p + 128 + 16 * m.strx.toNat * i + 4 * c) 4) else el s1 i c
              ∃ v1 v2 v3, FloatStep v0 (ps 0) v1 ∧ FloatStep v1 (ps 1) v2 ∧ FloatStep v2 (ps 2) v3
                ∧ FloatStep v3 (ps 3) (el t i c))
            ∧ (tget 0 t.core.perf 3).toNat = ((tget 0 s1.core.perf 3).toNat + (32 - 8 * ((List.range 4).filter fun st =>
                (List.range 64).all fun i => (List.range 16).all fun u => byte (arow i + (16 * st + u)) = 0).length))
                  % 2 ^ 64)

/-! ### Events -/

/-- R30, R32, R81, R133, R178, R180, R181, R195, R228, R247, R271, R339, R340, R342: the events of a core and its clock: a
pending trap is taken, a wait past WDOG traps WAITLONG, a machine check and an encoding of no instruction trap, an engine
fault that is pending coming first; results that are due are put in their registers, by cycle and then by issue; a stream
before a line of the other latency mode passes to it with nothing in flight (when it does is log 22; FQ 0 of an event's trap
record log 96); a strand denied to within 4 of AGE.LIMIT is promoted; a new pool layout waits for the engines, must be
valid and clears what changes area; a cut is read by privilege once its engine has stopped; TIME gains 16 a nanosecond and
absorbs one count of a pending offset in 1024; a prefetch of a tape changes nothing, and a range of host memory or of a
peer whose reads will not complete is marked lost (the model's form of it, log 91). -/
def Obligations.CoreEvents : Prop :=
  ∀ (k : BitVec 2) (u v obj : Word) (kind : BitVec 8) (n : BitVec 8) (e : Eng) (t : TrapRec) (peer : Bool) (ns a len : Nat)
    (l : BitVec 512) (s : State),
    let c := s.core
    let x := c.quarter k
    let here := fun (s : State) => { s with core := { s.core with issue := { s.core.issue with gaddr := c.q0.pc, baddr := c.q0.pc } } }
    let row := bfld v 0 11
    let old := (bfld c.sys.poolv 0 11, bfld c.sys.pools 0 11, bfld c.sys.poolc 0 11)
    let lay := if n = 0x13 then (row, old.2.1, old.2.2) else if n = 0x14 then (old.1, row, old.2.2) else (old.1, old.2.1, row)
    let valid := 16 ≤ lay.1 ∧ lay.1 ≤ lay.2.1 ∧ lay.2.1 ≤ lay.2.2 ∧ lay.2.2 ≤ 1504
      ∧ lay.2.2 - lay.2.1 ∈ [0, 64, 128, 256, 512]
    let area := fun (l : Nat × Nat × Nat) (p : Nat) =>
      if p / 4096 < l.1 then 0 else if p / 4096 < l.2.1 then 1 else if p / 4096 < l.2.2 then 2 else 3
    let late : TrapRec := { cause := .waitlong, info0 := kind.setWidth 64, info1 := obj, info2 := x.waitCtr.setWidth 64, src := 2 }
    let check : TrapRec := { cause := .mcheck, info0 := u, info1 := v, src := 2 }
    let cut : Word := match e with | .ce => 0x2A | .me => 0x2B | .ni => 0x2C | .tape => 0x2D | .cmu => 0x2E
    let reached := 256 * max 1 (bfld c.sys.wdog 0 24) ≤ x.waitCtr.toNat
    (c.pendingTrap = some t → exec .trapEntry s = .next
        ((if t.cause = .mcheck then s.modCore fun c => { c with mcheck := none } else s).trapped t))
      ∧ (c.pendingTrap = none → exec .trapEntry s = .next s)
      ∧ (c.engineTrap = some t → c.pendingTrap = some t)
      ∧ (c.engineTrap = none → (∀ j, (c.quarter j).waitAt = none) → c.mcheck = some (u, v) →
          (c.trapEn = true → c.pendingTrap = some check) ∧ (c.trapEn = false → c.pendingTrap = none))
      ∧ (x.waitAt = some (.slot kind obj) → c.sys.wdog.getLsbD 31 = true →
          (reached → c.engineTrap = none → exec (.waitlong k) s = .next (s.trapped late))
            ∧ (reached → c.engineTrap = some t → exec (.waitlong k) s = .next (s.trapped t))
            ∧ (¬ reached → exec (.waitlong k) s = .next s))
      ∧ (c.sys.wdog.getLsbD 31 = false → exec (.waitlong k) s = .next s)
      ∧ (c.engineTrap = none → exec (.mcheck u v) s = .next (s.trapped check))
      ∧ (c.engineTrap = some t →
          exec (.mcheck u v) s = .next ((s.modCore fun c => { c with mcheck := some (u, v) }).trapped t))
      ∧ exec .reservedEncoding s = .next (s.trapped { cause := .illegal, info0 := c.issue.gaddr, fq := c.issue.q })
      ∧ (∃ w : State, exec .resultDelivery s = .next w ∧ w.dev = s.dev ∧ w.core.pool = c.pool
          ∧ ∀ k, let y := c.quarter k
            let due := y.pend.filter fun p => p.due ≤ c.tick
            ∀ order : List Pending, (order.map Pending.due).Pairwise (· ≤ ·) →
              (∀ n, order.filter (fun p => p.due = n) = due.filter (fun p => p.due = n)) →
              w.core.quarter k = { (order.foldl (fun z p => z.put p.dest) y) with
                pend := y.pend.filter fun p => c.tick < p.due })
      ∧ (c.enginesEmpty = true → c.joint = true → c.q0.issues c.clock = true → s.lineNow c.q0.pc.toNat = some l →
          ((∃ j, (c.quarter j).lat = some (!latOf l)) → ∃ w : State, exec .latencyModeSwitch s = .next w ∧ w.dev = s.dev
              ∧ w.core.pool = c.pool ∧ ∀ j, (w.core.quarter j).pend = [] ∧ (w.core.quarter j).lat = some (latOf l))
            ∧ ((∀ j, (c.quarter j).lat ≠ some (!latOf l)) → exec .latencyModeSwitch s = .next s))
      ∧ (c.enginesEmpty = true → c.joint = false → c.streams = [k] → s.lineNow x.pc.toNat = some l →
          (x.lat = some (!latOf l) → ∃ w : State, exec .latencyModeSwitch s = .next w ∧ w.dev = s.dev ∧ w.core.pool = c.pool
              ∧ (w.core.quarter k).pend = [] ∧ (w.core.quarter k).lat = some (latOf l)
              ∧ ∀ j, j ≠ k → w.core.quarter j = c.quarter j)
            ∧ (x.lat ≠ some (!latOf l) → exec .latencyModeSwitch s = .next s))
      ∧ (c.enginesEmpty = false → exec .latencyModeSwitch s = .next s)
      ∧ (c.joint = false → x.st = .running →
          (bfld c.sys.age 0 16 - 4 ≤ x.denial.toNat → ∃ w : State, exec (.strandPromotion k) s = .next w
              ∧ w.core.promoted k = true ∧ w.dev = s.dev ∧ ∀ j, j ≠ k → w.core.quarter j = c.quarter j)
            ∧ (x.denial.toNat < bfld c.sys.age 0 16 - 4 → exec (.strandPromotion k) s = .next s))
      ∧ (c.joint = true ∨ x.st ≠ .running → exec (.strandPromotion k) s = .next s)
      ∧ (0x13 ≤ n.toNat → n.toNat ≤ 0x15 → c.priv = true →
          (c.enginesStopped = false → exec (.poolLayoutWrite n v) s = .next ((here s).held .other))
            ∧ (c.enginesStopped = true → ¬ valid → exec (.poolLayoutWrite n v) s =
                .next ((here s).trapped { cause := .illegal, info0 := c.q0.pc, fq := c.issue.q }))
            ∧ (c.enginesStopped = true → valid → ∃ w : State, exec (.poolLayoutWrite n v) s = .next w
                ∧ (bfld w.core.sys.poolv 0 11, bfld w.core.sys.pools 0 11, bfld w.core.sys.poolc 0 11) = lay
                ∧ ∀ p, area old p = area lay p → w.core.pool.byte p = c.pool.byte p))
      ∧ (0x13 ≤ n.toNat → n.toNat ≤ 0x15 → c.priv = false → exec (.poolLayoutWrite n v) s =
          .next ((here s).trapped { cause := .priv, info0 := n.setWidth 64, fq := c.issue.q }))
      ∧ (c.priv = false → exec (.tcutAccess e) s = .next (s.trapped { cause := .priv, info0 := cut, fq := c.issue.q }))
      ∧ (c.priv = true → c.frozen = false ∨ (c.eng e).stopped = true → ∃ w : State, exec (.tcutAccess e) s = .next w ∧ w.dev = s.dev
          ∧ w.core.pool = c.pool ∧ w.core.tr = c.tr ∧ ∀ j, w.core.quarter j = c.quarter j)
      ∧ (c.priv = true → c.frozen = true → (c.eng e).stopped = false → exec (.tcutAccess e) s = .next (s.held .other))
      ∧ (∃ w : State, exec (.timeAdvance ns) s = .next w ∧ w.core = c ∧ w.dev.mem = s.dev.mem
          ∧ w.dev.time + w.dev.slew = s.dev.time + s.dev.slew + BitVec.ofNat 64 (16 * ns)
          ∧ w.dev.slew.toInt.natAbs = s.dev.slew.toInt.natAbs - (s.dev.slewAt + 16 * ns) / 1024)
      ∧ exec (.tapeReplayPrefetch k) s = .next s
      ∧ exec (.hostReadTimeout ⟨peer, a⟩ len) s =
          .next { s with dev := { s.dev with lostReads := s.dev.lostReads ++ [(if peer then 4 else 3, a, len)] } }

/-- R222, R254, R255, R271, R294, R295, R308: the events of the network interface, the tape buffer, the walkers and the
Distiller: an inbound write, decrement or signal that the target admits lands there and is otherwise without effect; a
reply of a running RREAD lands once at its element's place, or zeros with poison there where the target refuses; a drain
writes the buffer's next bytes to the tape; a walk sets D, fills the TLBs of the core's group or holds what is absent; the
page queue replays or fails a held access (what a replay does again is log 58); a lane takes an entry, and completes it:
RESULT into the entry, the event, the completion DONE selects (one of another form signals nothing, log 69), HEAD. That the
bytes of a reply come with its event is the model's form of it (log 140). -/
def Obligations.UnitEvents : Prop :=
  ∀ (n k i : Nat) (ks : BitVec 8) (b : List Byte) (pois : Bool) (h : CmdHdr) (o : RrwOp) (c : Cmd) (r : List Cmd) (qt : BitVec 2)
    (rcb va core : Nat) (kind : BitVec 2) (agent : Nat) (x : List Byte) (d d1 d2 : Device) (s s1 : State) (l : List Part)
    (hold : Held) (j : LaneJob) (p : Replies) (el : Elem),
    let y := s.coreAt n
    let t := (s.core.quarter qt).tape
    let w := s.dev.walkIn rcb va kind.toNat
    let filled := fun (t : State) (l : Nat) (q : Word) => ∀ c ∈ [none, some core],
      ({ core := c, group := core / 8, ctx := tenantOf s.dev.rcbs rcb, va := va / pageSize l * pageSize l, size := pageSize l,
         pte := q } : TlbEntry) ∈ t.dev.tlb
    let pq := tget .off s.dev.queues pageQ
    let lq := s.dev.jobQ (3 * 4096 + k)
    let lane := tget Lane.idle s.dev.lanes k
    let fid := BitVec.ofNat 32 (ofBytes (x.take 4))
    let act := ofBytes ((x.drop 4).take 1)
    let pv := pq.entryVa pageQ pq.cclaim
    let lv := lq.entryVa (3 * 4096 + k) lq.cclaim
    let fx := BitVec.ofNat 512 (ofBytes x)
    let done := if doneOk (laneDone j.bytes) then laneDone j.bytes else 0
    let sn := fld done 8 8
    let si := fld done 0 8
    let sem := s.coreAt sn
    let signals := (sem.run.map Run.ks = some (BitVec.ofNat 8 (ksOf d2.rcbs j.region)))
      ∧ (sem.semOf si).v.toNat + fld done 16 8 ≤ (sem.semOf si).ceil.toNat
    (n < 132 →
        exec (.niInboundAccess n ks (.read i b.length)) s = .next s
          ∧ (s.refusal n ks i b.length = none →
              exec (.niInboundAccess n ks (.write i b)) s = .next (s.setCoreAt n (y.inWrite i (b.map fun v => (v, false)))))
          ∧ (s.refusal n ks i b.length ≠ none → exec (.niInboundAccess n ks (.write i b)) s = .next s)
          ∧ (s.refusal n ks 0 0 = none → i < 256 →
              ((y.semOf i).v.toNat + k ≤ (y.semOf i).ceil.toNat → ∃ u, exec (.niInboundAccess n ks (.signal i k)) s =
                  .next (s.setCoreAt n u) ∧ (u.semOf i).v.toNat = (y.semOf i).v.toNat + k ∧ u.pool = y.pool)
                ∧ ((y.semOf i).ceil.toNat < (y.semOf i).v.toNat + k → exec (.niInboundAccess n ks (.signal i k)) s = .next s))
          ∧ (s.refusal n ks 0 0 = none → i < 2048 → y.barAt i = none →
              exec (.niInboundAccess n ks (.decrement i k)) s = .next s)
          ∧ (s.refusal n ks 0 0 = none → i < 2048 → y.barAt i ≠ none → exec (.niInboundAccess n ks (.decrement i k)) s =
              .next (s.setCoreAt n (y.barDecAt 5 i k (y.race.curOf 5)))))
      ∧ (s.core.ni.queue = [] ∨ s.core.ni.phase ≠ .passed → exec (.rreadReply i b pois) s = .next s)
      ∧ (s.core.ni.queue = c :: r → s.core.ni.phase = .passed → decodeCommand .ni c.bits = .rread h o →
          (ctxOf s .ni 0x01 h c).replies o s = .ok p s1 →
          let lands := fun (bs : List (Byte × Bool)) =>
            s1.landElem (s1.sink (ctxOf s .ni 0x01 h c) (if o.c.be then some o.c.bidx.toNat else none)) el.l bs
          let left := p.left.filter fun z => z.1 ≠ i
          let at' := s1.refusal (remoteCore el.r) s1.issuerKs (remoteOff el.r) (16 * 2 ^ o.c.esz.toNat)
          (b.length ≠ 16 * 2 ^ o.c.esz.toNat ∨ (∀ z ∈ p.left, z.1 ≠ i) → exec (.rreadReply i b pois) s = .next s)
            ∧ (b.length = 16 * 2 ^ o.c.esz.toNat → p.left.find? (fun z => z.1 = i) = some (i, el) →
                (at' = none → exec (.rreadReply i b pois) s = .next ((lands (b.map fun v => (v, pois))).modEng .ni fun y =>
                    { y with rest := some { left, why := p.why } }))
                  ∧ (∀ sub, at' = some sub → exec (.rreadReply i b pois) s =
                      .next ((lands (List.replicate (16 * 2 ^ o.c.esz.toNat) (0, true))).modEng .ni fun y =>
                        { y with rest := some { left, why := p.why <|> some (sub, el.off) } }))))
      ∧ (t.buf = [] → exec (.tapeDrain qt) s = .next s)
      ∧ (t.buf ≠ [] → t.size ≠ 0 → s.xlateRange 7 (capBase t.cap + (4096 + t.bufAt % t.size)) t.chunk.length 1 = (.ok l, s1) →
          ∃ u, exec (.tapeDrain qt) s = .next u ∧ u.dev = (s1.writeParts l (t.chunk.map fun v => (v, false))).dev
            ∧ (u.core.quarter qt).tape = { t with buf := t.buf.drop t.chunk.length, bufAt := t.bufAt + t.chunk.length })
      ∧ (va < 2 ^ 48 → s.dev.stale rcb va = true → exec (.pageWalk rcb va kind agent core) s = .next s)
      ∧ (132 ≤ core →
          (∀ p a lv, w = .ok p a lv → exec (.pageWalk rcb va kind agent core) s = .next s)
            ∧ (∀ p a lv, w = .dirty p a lv → exec (.pageWalk rcb va kind agent core) s =
                .next { s with dev := s.dev.put (a + 1) [(s.dev.read1 none (a + 1)).1 ||| 2] }))
      ∧ (core < 132 → y.num = n → n = core →
          (∀ p a lv, w = .ok p a lv → ∃ t, exec (.pageWalk rcb va kind agent core) s = .next t ∧ filled t lv p
              ∧ t.core = s.core ∧ t.dev.mem = s.dev.mem)
            ∧ (∀ p a lv, w = .dirty p a lv → ∃ t, exec (.pageWalk rcb va kind agent core) s = .next t
                ∧ filled t lv (setBit p 9 true) ∧ t.core = s.core
                ∧ t.dev.mem = (s.dev.put (a + 1) [(s.dev.read1 none (a + 1)).1 ||| 2]).mem))
      ∧ (∀ a b p, w = .fail a b p → exec (.pageWalk rcb va kind agent core) s = .next s)
      ∧ (∀ p a lv, w = .absent p a lv →
          ((∀ z ∈ s.dev.holds, ¬ (z.core = core ∧ z.rcb = rcb ∧ z.va = va ∧ z.kind = kind.toNat ∧ z.agent = agent)) →
              s.dev.faultRoom = true → exec (.pageWalk rcb va kind agent core) s =
                .next { s with dev := s.dev.postFault rcb va kind.toNat agent core a 0 })
            ∧ ((∃ z ∈ s.dev.holds, z.core = core ∧ z.rcb = rcb ∧ z.va = va ∧ z.kind = kind.toNat ∧ z.agent = agent) →
                exec (.pageWalk rcb va kind agent core) s = .next s))
      ∧ (pq.en = false ∨ pq.cclaim = pq.tail → exec .pageQueueEntry s = .next s)
      ∧ (pq.en = true → pq.cclaim ≠ pq.tail → s.dev.hwWaits opPage [(pq.region, pv, 0)] = (false, d) →
          d.hwRead pq.region pv 16 = some x → d.disp.owed = [] → d.disp.toCheck = [] → d.disp.cards = [] →
          ∃ u, exec .pageQueueEntry s = .next u ∧ u.core = s.core
            ∧ ((x.drop 5).all (· = 0) = true → d.holds = [hold] → hold.posted = true → hold.fid = fid → hold.failed = none →
                hold.core ≠ outsideCore ∨ hold.op ≠ opPage →
                (act = 1 → u.dev.holds = [{ hold with failed := some true }])
                  ∧ (act = 0 → (∀ p a lv, d.walkIn hold.rcb hold.va hold.kind ≠ .absent p a lv) →
                      u.dev.holds = [{ hold with failed := some false }] ∧ u.dev.events = d.events)
                  ∧ (act = 0 → ∀ p a lv, d.walkIn hold.rcb hold.va hold.kind = .absent p a lv → ∃ z, u.dev.holds = [z]
                      ∧ z.failed = none ∧ z.rcb = hold.rcb ∧ z.va = hold.va ∧ z.kind = hold.kind ∧ z.agent = hold.agent
                      ∧ z.core = hold.core ∧ z.op = hold.op))
            ∧ ((∀ z ∈ d.holds, z.posted = true ∧ z.fid ≠ fid) → u.dev.events = d.events ++ [.badPage fid]))
      ∧ (lq.en = false ∨ lq.cclaim = lq.tail ∨ lane.busy ≠ none → exec (.distillerLaneEntry k) s = .next s)
      ∧ (k < 128 → lq.en = true → lq.cclaim ≠ lq.tail → lane.busy = none → s.dev.hwWaits (opLane k) [(lq.region, lv, 0)] = (false, d) →
          d.hwRead lq.region lv 64 = some x → d.hwWaits (opLane k) (laneAccess lq.region fx) = (false, d1) →
          let run := d1.laneRun k lq.region fx (lane.begin fx)
          ∃ u, exec (.distillerLaneEntry k) s = .next u ∧ u.core = s.core
            ∧ (tget Lane.idle u.dev.lanes k) = { st := BitVec.ofNat 12 run.1.st, acc := run.1.acc, sh := BitVec.ofNat 8 run.1.sh,
                                                 busy := some { ctr := lq.cclaim, region := lq.region, va := lv,
                                                                bytes := withResult fx run.1 } }
            ∧ (∀ a, u.dev.byte a = run.2.byte a) ∧ (u.dev.jobQ (3 * 4096 + k)).cclaim = lq.cclaim + 1)
      ∧ (lane.busy = none → exec (.distillerLaneCompletion k) s = .next s)
      ∧ (lane.busy = some j → s.dev.hwWaits (opLane k) ((j.region, j.va + 0x38, 1) :: doneAccess j.region done) = (false, d) →
          (d.hwWrite j.region (j.va + 0x38) (bytesOf 8 (f512 j.bytes 0x38 0 64)) = none →
              ∃ u, exec (.distillerLaneCompletion k) s = .next u ∧ u.core = s.core
                ∧ (tget Lane.idle u.dev.lanes k).busy = none ∧ (u.dev.jobQ (3 * 4096 + k)).en = false
                ∧ u.dev.events = d.events ++ [.queueFault (3 * 4096 + k) j.ctr (d.hwOutcome j.region (j.va + 0x38) 1)])
            ∧ (d.hwWrite j.region (j.va + 0x38) (bytesOf 8 (f512 j.bytes 0x38 0 64)) = some d2 →
                ∃ u, exec (.distillerLaneCompletion k) s = .next u ∧ (tget Lane.idle u.dev.lanes k).busy = none
                  ∧ (lq.head = j.ctr → lq.head ≠ lq.cclaim → (u.dev.jobQ (3 * 4096 + k)).head = lq.head + 1)
                  ∧ (lq.head ≠ j.ctr ∨ lq.head = lq.cclaim → u.dev.jobQ (3 * 4096 + k) = lq)
                  ∧ (∀ m, m ≠ sn ∨ fld done 62 2 ≠ 1 → u.coreAt m = s.coreAt m)
                  ∧ (fld done 62 2 = 0 → u.dev.events = d2.events ++ [.laneDone k] ∧ (lq.en = true → ∀ a, u.dev.byte a = d2.byte a))
                  ∧ (fld done 62 2 = 1 → signals → u.coreAt sn = sem.setSemV si ((sem.semOf si).v.toNat + fld done 16 8)
                      ∧ u.dev.events = d2.events ++ [.laneDone k] ∧ (lq.en = true → ∀ a, u.dev.byte a = d2.byte a))
                  ∧ (fld done 62 2 = 1 → ¬ signals → u.coreAt sn = sem
                      ∧ u.dev.events = d2.events ++ [.laneDone k, .semDropped sn si] ∧ (lq.en = true → ∀ a, u.dev.byte a = d2.byte a))
                  ∧ (fld done 62 2 = 2 → ∀ d3,
                      d2.hwWrite j.region (fld done 0 48) (bytesOf 8 (BitVec.toNat j.ctr)) = some d3 →
                      u.dev.events = d3.events ++ [.laneDone k] ∧ (lq.en = true → ∀ a, u.dev.byte a = d3.byte a))
                  ∧ (fld done 62 2 = 2 → d2.hwWrite j.region (fld done 0 48) (bytesOf 8 (BitVec.toNat j.ctr)) = none →
                      u.dev.events = d2.events ++ [.laneDone k, .doneFault (3 * 4096 + k) j.ctr]
                        ∧ (lq.en = true → ∀ a, u.dev.byte a = d2.byte a))))

/-- R15, R34, R88, R204, R230, R273, R287, R289 to R293, R344, R345, R349, R352: what the host and the codecs do: a tail
mirror moves a host queue's TAIL within its ring or posts an event, and a card it passes is checked; BAR0 and BAR4 read
their registers and mirrors, BAR2 writes and reads device memory within its size; counters are written back; FWIF is
written once firmware runs, MODE, the capture registers, DSCHED and the mailbox as their rules say, every other offset
being ignored; a mode change takes effect when the device is idle; a codec takes a chunk, gives a whole picture its
entry's PTS, and posts a frame whose picture is too large with BADDIM and no buffer. That DSCHED reads 0 to the host, that a
second write of FWIF is ignored, what a link that is down and an odd offset do, that CAPBUF restarts the position, that a
BAR0 write has 64 bits, and that what BAR2 read is kept are the model's choices (logs 113, 115, 65, 64, 85, 92). -/
def Obligations.HostEvents : Prop :=
  ∀ (off a n id slot : Nat) (v : BitVec 32) (w : Word) (b x : List Byte) (f : DecodedFrame) (d : Device) (p : Posting)
    (pte : Word) (pa l : Nat) (c : Codec) (ce deps : BitVec 512) (s : State),
    let m := s.dev.plat
    let q := s.dev.jobQ id
    let moved := (v - q.tail).toNat
    let put := fun (m : Plat) => (Host.Outcome.next { s with dev := { s.dev with plat := m } } : Out)
    let up := fun (w : Word) => w.toNat / 4096 * 4096
    let kept := if w.getLsbD 3 then setBit m.mode 3 false else m.mode
    let ctl := s.dev.descAddr id + 0x10
    let iq := s.dev.jobQ (4096 + slot)
    let fq := s.dev.jobQ (8192 + slot)
    let iv := iq.entryVa (4096 + slot) iq.cclaim
    let fv := fq.entryVa (8192 + slot) fq.pclaim
    let codec := tget Codec.idle s.dev.codecs slot
    let fx := BitVec.ofNat 512 (ofBytes x)
    let at_ := pagePa pte l fv
    let num := fun (t : State) (a n : Nat) => ofBytes ((List.range n).map fun i => (t.dev.read1 (some pte) (a + i)).1)
    let tailOf := fun (off id : Nat) => (id < 4096 ∧ off = 8 * id) ∨ (4096 ≤ id ∧ id < 4352 ∧ off = 0x8000 + 8 * (id - 4096))
    let d0 : Device := { s.dev with queues := tset .off s.dev.queues id { q with tail := v, pclaim := v } }
    let jv := q.entryVa id q.tail
    let end2 := min (192 * 2 ^ 30) s.dev.bar2Size
    (m.fwif = 0 ∨ m.linkUp = false ∨ off % 8 ≠ 0 ∨ 0x8800 ≤ off → exec (.hostTailWrite off v) s = .next s)
      ∧ (m.fwif ≠ 0 → m.linkUp = true → tailOf off id →
          (q.en = false ∨ q.host = false → exec (.hostTailWrite off v) s = .next s)
            ∧ (q.en = true → q.host = true → moved = 0 ∨ q.slots - (q.tail - q.head).toNat < moved →
                exec (.hostTailWrite off v) s = .next { s with dev := s.dev.event (.badTail id) })
            ∧ (q.en = true → q.host = true → 0 < moved → moved ≤ q.slots - (q.tail - q.head).toNat → 4096 ≤ id →
                ∃ t, exec (.hostTailWrite off v) s = .next t ∧ t.core = s.core
                  ∧ t.dev.jobQ id = { q with tail := v, pclaim := v } ∧ t.dev.mem = s.dev.mem)
            ∧ (q.en = true → q.host = true → moved = 1 → 1 ≤ q.slots - (q.tail - q.head).toNat → id < 4096 →
                m.mode.getLsbD 0 = false → s.dev.disp.toCheck = [] → (∀ y ∈ s.dev.disp.checked, ¬ (y.qid = id ∧ y.ctr = q.tail)) →
                d0.hwWaits (opCheck id q.tail) [(q.region, jv, 0)] = (false, d0) → d0.hwRead q.region jv 64 = some b →
                d0.hwWaits (opCheck id q.tail) (Device.depsAccess q.region (BitVec.ofNat 512 (ofBytes b))) = (false, d0) →
                let st := (d0.cardCheck q.region (BitVec.ofNat 512 (ofBytes b))).1
                (d0.cardCheck q.region (BitVec.ofNat 512 (ofBytes b)) = (0, deps) →
                    ∃ t, exec (.hostTailWrite off v) s = .next t ∧ t.core = s.core
                      ∧ t.dev.jobQ id = { q with tail := v, pclaim := v } ∧ t.dev.mem = s.dev.mem
                      ∧ t.dev.events = s.dev.events
                      ∧ t.dev.disp.checked = s.dev.disp.checked ++
                          [{ qid := id, ctr := q.tail, bytes := BitVec.ofNat 512 (ofBytes b), deps }])
                  ∧ (st ≠ 0 → doneOk (cardDone (BitVec.ofNat 512 (ofBytes b))) = false → s.dev.disp.cards = [] →
                      q.head = q.cclaim → ∃ t, exec (.hostTailWrite off v) s = .next t ∧ t.core = s.core
                        ∧ t.dev.jobQ id = { q with tail := v, pclaim := v } ∧ t.dev.mem = s.dev.mem
                        ∧ t.dev.events = s.dev.events ++ [.cardRetired id q.tail (BitVec.ofNat 8 st)])))
      ∧ (tailOf off id → s.dev.bar4Word off = q.head ++ q.tail)
      ∧ (off % 8 ≠ 0 ∨ 0x8800 ≤ off → s.dev.bar4Word off = 0)
      ∧ (∀ p ∈ [(0x0, m.devid), (0x8, m.fwif.setWidth 64), (0x10, m.bootstat), (0x18, m.mode), (0x20, m.telem),
            (0x28, m.capbuf), (0x30, m.caplen), (0x38, m.dumpptr), (0x40, m.qtbase), (0x48, m.rcbbase), (0x100, 0),
            (0x1000, m.mbStatus ++ m.mbCmd)], ∀ i < 8, m.bar0Byte (p.1 + i) = p.2.extractLsb' (8 * i) 8)
      ∧ ((0x50 ≤ a ∧ a < 0x200) ∨ (0x280 ≤ a ∧ a < 0x1000) ∨ 0x2000 ≤ a → m.bar0Byte a = 0)
      ∧ (m.linkUp = false → exec (.bar2Write a b) s = .next s ∧ exec (.bar2Read a n) s = .next s)
      ∧ (m.linkUp = true → ∃ t, exec (.bar2Write a b) s = .next t ∧ t.core = s.core
          ∧ (∀ i < b.length, a + i < end2 → (t.dev.read1 none (a + i)).1 = b.getD i 0)
          ∧ ∀ y, y < a ∨ a + b.length ≤ y ∨ end2 ≤ y → (t.dev.read1 none y).1 = (s.dev.read1 none y).1)
      ∧ (m.linkUp = true → exec (.bar2Read a n) s = put { m with bar2Data := (List.range (min n (s.dev.bar2Size - a))).map fun i =>
          if a + i < 192 * 2 ^ 30 then (s.dev.read1 none (a + i)).1 else 0xFF })
      ∧ (q.en = false → exec (.queueCounterWriteback id) s = .next s)
      ∧ (q.en = true → ∃ t, exec (.queueCounterWriteback id) s = .next t ∧ t.core = s.core
          ∧ t.dev.view ctl 4 = q.head.toNat ∧ t.dev.view (ctl + 4) 4 = q.cclaim.toNat
          ∧ t.dev.view (ctl + 8) 4 = q.tail.toNat ∧ t.dev.view (ctl + 12) 4 = q.pclaim.toNat
          ∧ ∀ y, y < ctl ∨ ctl + 16 ≤ y → (t.dev.read1 none y).1 = (s.dev.read1 none y).1)
      ∧ (bfld m.bootstat 0 2 = 1 → m.fwif = 0 → exec (.fwifWrite v) s = put { m with fwif := v })
      ∧ (bfld m.bootstat 0 2 ≠ 1 ∨ m.fwif ≠ 0 → exec (.fwifWrite v) s = .next s)
      ∧ (m.mode.getLsbD 2 = true ∨ bfld w 0 2 ≠ bfld m.mode 0 2 →
          exec (.modeWrite w) s = put { m with mode := setBit kept 2 true, modeNext := w.setWidth 2 })
      ∧ (m.mode.getLsbD 2 = false → bfld w 0 2 = bfld m.mode 0 2 → exec (.modeWrite w) s = put { m with mode := kept })
      ∧ (m.mode.getLsbD 2 = true → s.idle = true → ∃ t, exec .modeChange s = .next t ∧ t.core = s.core
          ∧ bfld t.dev.plat.mode 0 2 = m.modeNext.toNat ∧ t.dev.plat.mode.getLsbD 2 = false
          ∧ t.dev.plat.mode.getLsbD 3 = m.mode.getLsbD 3 ∧ t.dev.mem = s.dev.mem)
      ∧ (m.mode.getLsbD 2 = false ∨ s.idle = false → exec .modeChange s = .next s)
      ∧ exec (.registerWrite 0x18 w) s = exec (.modeWrite w) s
      ∧ exec (.registerWrite 0x28 w) s = put { m with capbuf := BitVec.ofNat 64 (up w), cappos := 0 }
      ∧ exec (.registerWrite 0x30 w) s = put { m with caplen := BitVec.ofNat 64 (up w) }
      ∧ (s.core.num = 128 →
          exec (.registerWrite 0x100 w) s = put { m with dsched := BitVec.ofNat 64 (w.toNat / 2 ^ 32 * 2 ^ 32) })
      ∧ (s.core.num ≠ 128 → exec (.registerWrite 0x100 w) s = .next s)
      ∧ (m.mbStatus.getLsbD 0 = true → exec (.registerWrite 0x1000 w) s = .next s)
      ∧ (m.mbStatus.getLsbD 0 = false → ∃ t, exec (.registerWrite 0x1000 w) s = .next t ∧ t.core = s.core
          ∧ t.dev.plat.mbStatus.getLsbD 0 = true ∧ bfld t.dev.plat.mbCmd 0 8 = bfld w 0 8
          ∧ bfld t.dev.plat.mbCmd 8 16 = 0 ∧ bfld t.dev.plat.mbCmd 24 8 = bfld w 24 8 ∧ t.dev.plat.mbIn = m.mbPay)
      ∧ (0x1010 ≤ off → off + 8 ≤ 0x2000 → ∃ t, exec (.registerWrite off w) s = .next t ∧ t.core = s.core
          ∧ ∀ i, tget 0 t.dev.plat.mbPay i =
              if off - 0x1010 ≤ i ∧ i < off - 0x1010 + 8 then w.extractLsb' (8 * (i - (off - 0x1010))) 8 else tget 0 m.mbPay i)
      ∧ (off ∉ [0x18, 0x28, 0x30, 0x100, 0x1000] → off < 0x1010 ∨ 0x2000 ≤ off → exec (.registerWrite off w) s = .next s)
      ∧ (iq.en = false ∨ iq.cclaim = iq.tail → exec (.codecInputChunk slot) s = .next s)
      ∧ (slot < 256 → iq.en = true → iq.cclaim ≠ iq.tail → s.dev.hwWaits (opChunk slot) [(iq.region, iv, 0)] = (false, s.dev) →
          s.dev.hwRead iq.region iv 64 = some x → s.dev.hwWaits (opChunk slot) (chunkAccess iq.region fx) = (false, d) →
          ∃ t, exec (.codecInputChunk slot) s = .next t ∧ t.core = s.core
            ∧ t.dev.jobQ (4096 + slot) = { iq with cclaim := iq.cclaim + 1, head := iq.head + 1 }
            ∧ t.dev.events = (if inOk fx then d.events else d.events ++ [.badInput slot])
            ∧ tget Codec.idle t.dev.codecs slot = (tget Codec.idle d.codecs slot).take (slotMode iq.desc) fx)
      ∧ (iq.en = false → exec (.codecFramePost slot f) s = .next s)
      ∧ (slot < 256 → iq.en = true → slotMode iq.desc ≠ 1 → f.eos = false →
          (streamPost iq.desc (s.dev.store iq) codec f = some (p, c) →
              exec (.codecFramePost slot f) s = .next (s.postFrame slot iq p c (refAccess iq p codec f)))
            ∧ (codec.chunkOf f = none → exec (.codecFramePost slot f) s = .next s))
      ∧ (codec.chunkOf f = some ce → codec.dropping = false → f.w.toNat ≤ slotMaxW iq.desc → f.h.toNat ≤ slotMaxH iq.desc →
          frameWhole f = true → ∃ p c, streamPost iq.desc (s.dev.store iq) codec f = some (p, c) ∧ p.status = 0 ∧ p.missing = 0
            ∧ p.flags = 4 + f.key.toNat ∧ p.w = f.w.toNat ∧ p.h = f.h.toNat ∧ p.pts = f512 ce 0x10 0 64 ∧ p.buffer = true)
      ∧ (slot < 256 → iq.en = true → slotMode iq.desc ≠ 1 → f.eos = false → codec.chunkOf f = some ce →
          codec.dropping = false → slotMaxW iq.desc < f.w.toNat ∨ slotMaxH iq.desc < f.h.toNat → fq.en = true → fq.room ≠ 0 →
          s.dev.walkIn fq.region fv 1 = .ok pte pa l → ∃ t, exec (.codecFramePost slot f) s = .next t ∧ t.core = s.core
            ∧ num t at_ 4 = codec.frame.toNat ∧ num t (at_ + 4) 2 = f.w.toNat ∧ num t (at_ + 6) 2 = f.h.toNat
            ∧ num t (at_ + 8) 1 = 2 ∧ num t (at_ + 10) 1 = 0xFF ∧ num t (at_ + 16) 8 = f512 ce 0x10 0 64
            ∧ (t.dev.jobQ (8192 + slot)).pclaim = fq.pclaim + 1
            ∧ t.dev.events = s.dev.events ++ [.framePost slot fq.pclaim]
            ∧ (tget Codec.idle t.dev.codecs slot).dropping = true
            ∧ ∀ y, y < at_ ∨ at_ + 64 ≤ y → (t.dev.read1 (some pte) y).1 = (s.dev.read1 (some pte) y).1)

/-- R5, R21, R31, R176, R179, R194, R213, R312, R341, R345 to R350, R354, R355: the platform: cold reset leaves the values
the spec gives; the boot ROM scrubs memory and runs the first image that passes its checks, or none; power moves between
D0 and D3hot only with no card resident, D3cold loses all; the clock steps by 100 MHz within 1.4 and 2.2 GHz, down while
the power limit or 105 degrees is exceeded; a thermal shutdown at 115 degrees is fatal and takes the link down; mailbox commands answer with their code, SEQ echoed, and MSI-X vector 0. What
the blob sets, what of a report fits, that slot 0 answers EBADQ whatever its state, what a shutdown shows and that only D3cold
stops the step are the model's choices (logs 70, 71, 72, 74, 84). -/
def Obligations.PlatformEvents : Prop :=
  ∀ (a b : FlashImage) (watts : BitVec 16) (celsius : BitVec 8) (s : State),
    let m := s.dev.plat
    let fail := fun (f : FlashImage) =>
      let good := fun (b sig : List Byte) =>
        Config.sha3 f.vendorKey = Config.vendorHash ∧ Config.signed f.vendorKey (Config.sha3 b) sig = true
      if f.readable = false then 4 else if ¬ good f.image f.imageSig then 1 else if ¬ good f.config f.configSig then 3
      else if f.version < f.floor then 2 else 0
    let ghz := bfld m.telem 32 8
    let op := bfld m.mbCmd 0 8
    let k := (tget 0 m.mbIn 0).toNat
    let above := min 600 m.plimit.toNat < watts.toNat ∨ 105 < celsius.toNat
    let answered := fun (t : State) (code : Nat) => t.core = s.core
      ∧ t.dev.plat.mbStatus = BitVec.ofNat 32 (65536 * code + 2 ^ 24 * bfld m.mbCmd 24 8)
      ∧ t.dev.events = s.dev.events ++ [.msi 0]
    let slotOf := fun (t : State) (k : Nat) => tget KeySlot.empty t.dev.slots k
    let blob := (List.range 1200).map fun i => tget 0 m.mbIn (i + 1)
    let runs := fun (f : FlashImage) (img code : Nat) => ∃ t, exec (.bootRom a b) s = .next t
      ∧ t.dev.plat.bootstat = BitVec.ofNat 64 (1 + 4 * img + 256 * code + 2 ^ 32 * f.version.toNat)
      ∧ t.dev.plat.qtbase = f.qtBase ∧ t.dev.plat.rcbbase = f.rcbBase ∧ t.dev.plat.plimit.toNat = min 600 f.plimit.toNat
      ∧ (∀ p, t.dev.byte p = 0) ∧ (∀ p, t.core.pool.byte p = 0) ∧ (slotOf t 0).prov = true ∧ t.dev.plat.seed = Config.puf
      ∧ (s.core.num < 132 → t.core.sys.wdog = f.wdog &&& 0x80FFFFFF)
    (∃ t, exec .coldReset s = .next t ∧ t.core = Core.reset 0 ∧ t.others = []
        ∧ t.dev = { Device.reset with host := s.dev.host, peer := s.dev.peer, lostReads := s.dev.lostReads }
        ∧ t.dev.plat.devid = 0x0256C01004041000 ∧ bfld t.dev.plat.bootstat 0 2 = 0 ∧ t.dev.plat.fwif = 0
        ∧ t.core.sys.slip = 0x40 ∧ t.core.sys.age = 0x100 ∧ t.core.sys.wdog = 0x80008000 ∧ t.core.sys.poolv = 0x10
        ∧ t.core.sys.pools = 0x4C0 ∧ t.core.sys.poolc = 0x5C0 ∧ t.core.tr.tstat = 0x0000000000800500
        ∧ t.core.depth = 0 ∧ t.core.joint = true ∧ t.dev.time = 0)
      ∧ (bfld m.bootstat 0 2 ≠ 0 → exec (.bootRom a b) s = .next s)
      ∧ (bfld m.bootstat 0 2 = 0 →
          if fail a = 0 then runs a 0 0
          else if fail b = 0 then runs b 1 (fail a)
          else ∃ t, exec (.bootRom a b) s = .next t ∧ t.dev.plat.bootstat = BitVec.ofNat 64 (2 + 256 * fail b)
            ∧ ∀ p, t.dev.byte p = 0)
      ∧ (s.noCard = true → m.power = .d0 →
          exec .d3hotEntry s = .next { s with dev := { s.dev with plat := { m with power := .d3hot } } })
      ∧ (s.noCard = false ∨ m.power ≠ .d0 → exec .d3hotEntry s = .next s)
      ∧ (m.power = .d3hot → exec .d3hotExit s = .next { s with dev := { s.dev with plat := { m with power := .d0 } } })
      ∧ (m.power ≠ .d3hot → exec .d3hotExit s = .next s)
      ∧ (∃ t, exec .d3coldEntry s = .next t ∧ t.dev.plat.power = .d3cold ∧ t.dev.mem = [] ∧ t.core = Core.reset 0
          ∧ t.others = [] ∧ step { t with agenda := [] } = .fault .poweredOff)
      ∧ (celsius.toNat < 115 → ∃ t, exec (.clockThrottle ⟨watts, celsius⟩) s = .next t ∧ t.core = s.core
          ∧ t.dev.mem = s.dev.mem ∧ bfld t.dev.plat.telem 48 16 = watts.toNat ∧ bfld t.dev.plat.telem 40 8 = celsius.toNat
          ∧ (14 ≤ ghz → ghz ≤ 22 → (above → bfld t.dev.plat.telem 32 8 = if ghz = 14 then 14 else ghz - 1)
              ∧ (¬ above → bfld t.dev.plat.telem 32 8 = if ghz = 22 then 22 else ghz + 1))
          ∧ (∀ i < 32, t.dev.plat.telem.getLsbD i = m.telem.getLsbD i))
      ∧ (∀ i ∈ (if 115 ≤ celsius.toNat then [Instr.thermalShutdown, .clockThrottle ⟨watts, celsius⟩] else [.thermalShutdown]),
          ∃ t, exec i s = .next t ∧ bfld t.dev.plat.bootstat 0 2 = 3 ∧ t.dev.plat.linkUp = false ∧ t.core = s.core
            ∧ t.dev.fatal = true)
      ∧ (m.mbStatus.getLsbD 0 = false ∨ bfld m.bootstat 0 2 ≠ 1 → ∀ i ∈ [Instr.mailboxAttest, .mailboxKeyprov,
          .mailboxKeyrevoke, .mailboxUnknownOp], exec i s = .next s)
      ∧ (m.mbStatus.getLsbD 0 = true → bfld m.bootstat 0 2 = 1 →
          (op = 1 → ∃ t, exec .mailboxAttest s = .next t ∧ answered t 0
              ∧ ∀ i < 4080, tget 0 t.dev.plat.mbPay i = s.dev.signedReport.getD i 0)
            ∧ (op = 2 → k = 0 → ∃ t, exec .mailboxKeyprov s = .next t ∧ answered t 9)
            ∧ (op = 2 → k ≠ 0 → (slotOf s k).prov = true → ∃ t, exec .mailboxKeyprov s = .next t ∧ answered t 7
                ∧ slotOf t k = slotOf s k)
            ∧ (op = 2 → k ≠ 0 → (slotOf s k).prov = false →
                match Config.kemOpen m.seed blob with
                | none => ∃ t, exec .mailboxKeyprov s = .next t ∧ answered t 9 ∧ slotOf t k = slotOf s k
                | some (x, g) => ∃ t, exec .mailboxKeyprov s = .next t ∧ answered t 0
                    ∧ slotOf t k = { prov := true, xts := x, gcm := g, seals := 0 } ∧ t.dev.tlb = [] ∧ t.dev.wcache = [])
            ∧ (op = 3 → k = 0 → ∃ t, exec .mailboxKeyrevoke s = .next t ∧ answered t 9)
            ∧ (op = 3 → k ≠ 0 → ∃ t, exec .mailboxKeyrevoke s = .next t ∧ answered t 0
                ∧ slotOf t k = KeySlot.empty ∧ (∀ j, j ≠ k → slotOf t j = slotOf s j) ∧ t.dev.tlb = [] ∧ t.dev.wcache = [])
            ∧ (op ∉ [1, 2, 3] → ∃ t, exec .mailboxUnknownOp s = .next t ∧ answered t 6))

/-- R23, R25, R28, R29, R33 to R37, R188, R286, R301 to R304, R361: the dispatcher: a card read waits for its predecessors,
and for the last card of its published range to be read; it enters key-wait where its count is 0 then, or at the next round;
a round makes register and table values effective and gives a card its keys or counts a refusal; a card refused KAGE rounds
reserves its keys after every older one (KAGE 0 behaving as 1 is log 55); a free core starts the chunk dealt to it with its
registers as the rule gives them; tokens refill to their depth and pay for pre-emption (a fraction of one is lost, log 136);
a drained run past its time is stopped; checkpoint, kill and end act once they have been decided and their conditions hold. -/
def Obligations.DispatcherEvents : Prop :=
  ∀ (n qid ctr rcb cycles e : Nat) (b : List Byte) (c : Card) (r : Run) (ret : Option (BitVec 2 × Nat)) (t0 : Nat) (x : Nat × BitVec 32) (s s1 : State),
    let q := s.dev.jobQ qid
    let va := q.entryVa qid q.cclaim
    let w := BitVec.ofNat 512 (ofBytes b)
    let slot := q.cclaim.toNat % q.slots
    let held := fun (d : Device) (i : Nat) => (tget Key.free d.disp.keys i).held
    let k := s.core
    let core := s.coreAt n
    let chunk := min (max (effMinchunk s.dev.disp.rcbs c.region) (cdiv (cardCount c.bytes - c.next) (2 * c.cap)))
      (cardCount c.bytes - c.next)
    let quiet := (∀ e, (k.eng e).chain.active = false) ∧ ∀ i, (k.quarter i).tape.phase ≠ .record
    let none_ := s.dev.disp.toCheck = [] ∧ s.dev.disp.owed = []
    (none_ → 4096 ≤ qid ∨ q.en = false ∨ q.cclaim = q.tail → exec (.cardRead qid) s = .next s)
      ∧ (none_ → qid < 4096 → q.en = true → q.cclaim ≠ q.tail → s.dev.findCard qid q.cclaim = none →
          s.dev.hwWaits (opCard qid) [(q.region, va, 0)] = (false, s.dev) → s.dev.hwRead q.region va 64 = some b →
          s.dev.hwWaits (opCard qid) (Device.depsAccess q.region w ++ s.dev.sideAccess qid slot) = (false, s.dev) →
          s.dev.sideRead qid slot = some e → s.dev.readCheck qid q w = (0, c.deps) → s.dev.disp.doomed = [] →
          let seen := fun (d : Device) => d.disp.cards.map fun x => (x.qid, x.ctr, x.bytes, x.deps, x.region)
          ∃ t, exec (.cardRead qid) s = .next t ∧ t.core = k
            ∧ seen t.dev = seen s.dev ++ [(qid, q.cclaim, w, c.deps, q.region)]
            ∧ (s.dev.disp.cards = [] → (s.dev.hwWrite q.region (f512 q.desc 0x20 0 64 + 4 * slot) []).isSome = true →
                (∃ r ∈ s.dev.disp.ranges, r.qid = qid ∧ (q.cclaim - r.first).toNat + 1 < r.count) →
                  t.dev.disp.cards.map Card.st = [.waiting] ∧ (t.dev.jobQ qid).cclaim = q.cclaim + 1)
            ∧ (s.dev.disp.cards = [] →
                (∀ r ∈ s.dev.disp.ranges, r.qid = qid →
                  (q.cclaim - r.first).toNat + 1 = r.count ∨ r.count ≤ (q.cclaim - r.first).toNat) →
                let left := cardNpred w - e % 2 ^ 16
                let side := ((s.dev.setQueue qid { q with cclaim := q.cclaim + 1 }).sideWriteTo qid slot (2 ^ 31 + left)).sideRead
                  qid slot
                (side = some (2 ^ 31) → t.dev.disp.cards.map Card.st = [.keyWait] ∧ t.dev.disp.due = true)
                  ∧ (side ≠ some (2 ^ 31) → t.dev.disp.cards.map Card.st = [.waiting])))
      ∧ (s.dev.disp.cards = [c] → s.dev.disp.owed = [] → c.st = .waiting → s.dev.rangeOpen c.qid c.ctr = false →
          s.dev.sideRead c.qid (c.ctr.toNat % (s.dev.jobQ c.qid).slots) = some (2 ^ 31) →
          ∃ t, exec .dispatchRound s = .next t ∧ t.dev.disp.cards.map Card.st = [.keyWait] ∧ t.dev.disp.due = true)
      ∧ (s.dev.disp.cards = [] → s.dev.disp.owed = [] → ∃ t, exec .dispatchRound s = .next t ∧ t.core = k
          ∧ t.dev.plat.dschedEff = s.dev.plat.dsched ∧ t.dev.disp.rcbs = s.dev.rcbs
          ∧ t.dev.disp.rounds = s.dev.disp.rounds + 1 ∧ t.dev.disp.keysSeen = s.dev.disp.keys ∧ t.dev.disp.due = false)
      ∧ (2 ^ 16 ≤ s.dev.window ∧ s.dev.window ≤ 2 ^ 30
          ∧ (16 ≤ bfld s.dev.plat.dschedEff 32 8 → bfld s.dev.plat.dschedEff 32 8 ≤ 30 →
              s.dev.window = 2 ^ bfld s.dev.plat.dschedEff 32 8))
      ∧ (s.dev.disp.cards = [c] → s.dev.disp.owed = [] → c.st = .keyWait → cardCount c.bytes ≠ 0 →
          let kage := max 1 (bfld s.dev.plat.dsched 40 8)
          (s.dev.keysFree c = true → ∃ t, exec .dispatchRound s = .next t
              ∧ t.dev.disp.cards.map Card.st = [.ready] ∧ ∀ i ∈ s.dev.keysOf c, held t.dev i = true)
            ∧ (s.dev.keysFree c = false → c.refused + 1 < kage → ∃ t, exec .dispatchRound s = .next t
                ∧ t.dev.disp.cards = [{ c with refused := c.refused + 1 }] ∧ t.dev.disp.keys = s.dev.disp.keys))
      ∧ (s.dev.findCard qid (BitVec.ofNat 32 ctr) = none →
          exec (.keyReservation qid ctr) s = .next s ∧ exec (.preemptionDecision qid ctr) s = .next s)
      ∧ (s.dev.findCard qid (BitVec.ofNat 32 ctr) = some c →
          (c.st = .keyWait → s.dev.kage ≤ c.refused → s.dev.disp.due = false →
              ∃ t, exec (.keyReservation qid ctr) s = .next t ∧ t.core = k ∧ t.dev.disp.cards = s.dev.disp.cards
                ∧ (∀ i ∈ s.dev.keysOf c, (tget Key.free t.dev.disp.keys i).reserved = true)
                ∧ ∀ o ∈ s.dev.disp.cards, o.st = .keyWait → s.dev.kage ≤ o.refused → s.dev.olderKey o c = true →
                    ∀ i ∈ s.dev.keysOf o, (tget Key.free t.dev.disp.keys i).reserved = true)
            ∧ (c.st ≠ .keyWait ∨ c.refused < s.dev.kage ∨ s.dev.disp.due = true → exec (.keyReservation qid ctr) s = .next s)
            ∧ (s.preempting c = true → s.dev.tokens c.region ≠ 0 →
                s.candidate c (effClass s.dev.disp.rcbs c.region) = some (n, r) → s.preempt c n r = some s1 →
                ∃ t, exec (.preemptionDecision qid ctr) s = .next t ∧ t.core = s1.core ∧ t.others = s1.others
                  ∧ t.dev.tokens c.region = s1.dev.tokens c.region - 1)
            ∧ (s.preempting c = false ∨ s.dev.tokens c.region = 0 → exec (.preemptionDecision qid ctr) s = .next s))
      ∧ (core.run ≠ none ∨ 132 ≤ n → exec (.dispatchCore n) s = .next s)
      ∧ (n < 132 → core.run = none → core.num = n → s.dev.disp.reservedFor = [] → s.dev.disp.ckpts = [] →
          s.chooseCard (decide (128 ≤ n)) = some c → s.placeFor n c = n → c.redeal = [] →
          ∃ t, exec (.dispatchCore n) s = .next t
            ∧ (t.coreAt n).run.map (fun r => (r.qid, r.ctr, r.first.toNat % 2 ^ 32, r.count.toNat % 2 ^ 32)) =
                some (c.qid, c.ctr, c.next % 2 ^ 32, chunk % 2 ^ 32)
            ∧ (t.coreAt n).q0.pc = BitVec.ofNat 64 (cardEntry c.bytes) ∧ (t.coreAt n).joint = true
            ∧ ∀ j, ((t.coreAt n).quarter j).rdS 0 = BitVec.ofNat 64 c.next
                ∧ ((t.coreAt n).quarter j).rdS 1 = BitVec.ofNat 64 chunk
                ∧ ((t.coreAt n).quarter j).rdS 2 = BitVec.ofNat 64 n ∧ ((t.coreAt n).quarter j).rdS 3 = j.setWidth 64)
      ∧ (rcbValid s.dev.rcbs rcb = false → exec (.tokenRefill rcb cycles) s = .next s)
      ∧ (rcbValid s.dev.rcbs rcb = true → ∃ t, exec (.tokenRefill rcb cycles) s = .next t ∧ t.core = k
          ∧ t.dev.tokens rcb = min (effTdepth s.dev.disp.rcbs rcb)
              (s.dev.tokens rcb + effTrate s.dev.disp.rcbs rcb * cycles / 65536) % 65536)
      ∧ (core.run = some r → r.drain = some (t0, x) → core.stopping = none →
          (core.clock < t0 + 2 * s.dev.drainMax → exec (.drainTimeout n) s = .next s)
            ∧ (t0 + 2 * s.dev.drainMax ≤ core.clock → s.mayCkpt core r = true →
                exec (.drainTimeout n) s = .next (s.setCoreAt n { core with stopping := some (.ckpt none) }))
            ∧ (t0 + 2 * s.dev.drainMax ≤ core.clock → s.mayCkpt core r = false → s.dev.mayKill r = true →
                exec (.drainTimeout n) s = .next (s.setCoreAt n { core with stopping := some .kill })))
      ∧ (core.run = none → exec (.drainTimeout n) s = .next s)
      ∧ (k.run = none → exec (.checkpoint k.num) s = .next s ∧ exec (.kill k.num) s = .next s ∧ exec .runEnd s = .next s)
      ∧ (k.run = some r →
          (k.stopping = some .kill → s.killNow = true → s.backsHeld = none → ∃ t, exec (.kill k.num) s = .next t ∧ t.core.run = none
              ∧ (s.dev.findCard r.qid r.ctr = some c → r.drain = none → (t.dev.findCard r.qid r.ctr).map Card.redeal =
                  some (c.redeal ++ [(r.first.toNat, r.count.toNat)])))
            ∧ (k.stopping = some .kill → s.killNow = false → exec (.kill k.num) s = .next s)
            ∧ (∀ op, k.stopping = some (.fail op) →
                (s.failNow = true → ∃ t, exec (.kill k.num) s = .next t ∧ t.core.run = none ∧ t.dev.disp.cards = s.dev.disp.cards)
                  ∧ (s.failNow = false → exec (.kill k.num) s = .next s))
            ∧ (k.stopping = some (.ckpt ret) → (s.dev.cardOf r).any Card.finished = false → s.checkpointNow = true → quiet →
                exec (.checkpoint k.num) s = .next (s.saveRun r ret))
            ∧ (k.stopping = some (.ckpt ret) → (s.dev.cardOf r).any Card.finished = true →
                exec (.checkpoint k.num) s = .next { s with core := { k with stopping := none } })
            ∧ (k.stopping = some (.ckpt ret) → (s.dev.cardOf r).any Card.finished = false → s.checkpointNow = false →
                exec (.checkpoint k.num) s = .next s)
            ∧ (k.stopping = none → exec (.kill k.num) s = .next s ∧ exec (.checkpoint k.num) s = .next s)
            ∧ (k.runOver = false → exec .runEnd s = .next s)
            ∧ (k.runOver = true → quiet → exec .runEnd s = .next
                ((s.modCore fun c => c.mapQuarters fun x => { x with tape := .none }).endRun r)))
end

