-- ==== Sys2Proof/Laws/Block.lean ====
section
/-! SUPPORT. Memory compression (R207 to R209): what a block is encoded to expands to what it was. -/

namespace Sys2Proof.Machine

/-! ### Bytes -/

theorem bytesOf_length (n v : Nat) : (bytesOf n v).length = n := by
  induction n generalizing v with
  | zero => rfl
  | succ n ih => simp [bytesOf, ih]

/-- Byte `i` of a little-endian number. -/
theorem bytesOf_getD (n v i : Nat) (h : i < n) : (bytesOf n v).getD i 0 = BitVec.ofNat 8 (v / 256 ^ i) := by
  induction n generalizing v i with
  | zero => omega
  | succ n ih =>
    cases i with
    | zero => simp [bytesOf]
    | succ i =>
      have := ih (v / 256) i (by omega)
      simp only [bytesOf, List.getD_cons_succ, this, Nat.div_div_eq_div_mul, pow_succ']

/-- A number of the bytes of a number. -/
theorem ofBytes_bytesOf (n v : Nat) : ofBytes (bytesOf n v) = v % 256 ^ n := by
  induction n generalizing v with
  | zero => simp [bytesOf, ofBytes, Nat.mod_one]
  | succ n ih =>
    have h : v % (256 * 256 ^ n) = v % 256 + 256 * (v / 256 % 256 ^ n) := Nat.mod_mul
    simp only [bytesOf, ofBytes, ih, BitVec.toNat_ofNat, pow_succ', h]
    rfl

/-- A byte of the number that bytes make. -/
theorem ofBytes_digit (l : List Byte) (i : Nat) : ofBytes l / 256 ^ i % 256 = (l.getD i 0).toNat := by
  induction l generalizing i with
  | nil => simp [ofBytes]
  | cons b r ih =>
    have hb := b.isLt
    cases i with
    | zero => simp only [ofBytes, pow_zero, Nat.div_one, List.getD_cons_zero]; omega
    | succ i =>
      simp only [ofBytes, List.getD_cons_succ, ← ih i, pow_succ', ← Nat.div_div_eq_div_mul]
      congr 2; omega

theorem ofBytes_lt (l : List Byte) : ofBytes l < 256 ^ l.length := by
  induction l with
  | nil => simp [ofBytes]
  | cons b r ih =>
    have hb := b.isLt
    simp only [ofBytes, List.length_cons, pow_succ]; omega

/-- Entry `j` of piece `i` of pieces laid one after another. -/
theorem flatten_getD {α : Type} (d : α) (l : List (List α)) (i j : Nat) (hi : i < l.length) (hj : j < (l.getD i []).length) :
    l.flatten.getD (((l.take i).map List.length).sum + j) d = (l.getD i []).getD j d := by
  induction l generalizing i with
  | nil => simp at hi
  | cons a r ih =>
    cases i with
    | zero => simp only [List.getD_cons_zero] at hj; simp [List.getElem?_append_left hj]
    | succ i =>
      have := ih i (by simpa using hi) (by simpa using hj)
      simp only [List.take_succ_cons, List.map_cons, List.sum_cons, List.flatten_cons, List.getD_cons_succ, ← this]
      rw [List.getD_append_right _ _ _ _ (by omega)]
      congr 1; omega


/-! ### Base-delta -/

/-- A word of a sector, and its bytes. -/
theorem sectorWords_digit (b : List Byte) (j : Nat) (hj : j < 64) :
    (sectorWords b).getD (j / 4) 0 / 256 ^ (j % 4) % 256 = (b.getD j 0).toNat := by
  unfold sectorWords
  have h : j / 4 < 16 := by omega
  simp only [List.getD, List.getElem?_map, List.getElem?_range h, Option.map_some, Option.getD_some]
  rw [ofBytes_digit]
  have : j % 4 < 4 := Nat.mod_lt _ (by omega)
  simp only [List.getD, List.getElem?_take, this, if_true, List.getElem?_drop]
  congr 2; congr 1; omega

theorem sectorWords_lt (b : List Byte) : ∀ x ∈ sectorWords b, x < 2 ^ 32 := by
  intro x hx
  simp only [sectorWords, List.mem_map] at hx
  obtain ⟨i, -, rfl⟩ := hx
  have h1 := ofBytes_lt ((b.drop (4 * i)).take 4)
  have h2 : ((b.drop (4 * i)).take 4).length ≤ 4 := by simp
  calc _ < 256 ^ ((b.drop (4 * i)).take 4).length := h1
    _ ≤ 256 ^ 4 := Nat.pow_le_pow_right (by omega) h2
    _ = 2 ^ 32 := by norm_num

theorem sectorWords_length (b : List Byte) : (sectorWords b).length = 16 := by simp [sectorWords]

/-- The least width: every word is the base. -/
theorem delta_back0 (x lo : Nat) (hx : x < 4294967296) (hl : lo < 4294967296) (h : (x + 4294967296 - lo) % 4294967296 < 1) :
    lo = x := by omega
/-- A difference of one byte. -/
theorem delta_back1 (x lo b t d : Nat) (hx : x < 4294967296) (hl : lo < 4294967296) (h : (x + 4294967296 - lo) % 4294967296 < 256)
  (hb : b = (lo + 128) % 4294967296) (ht : t = (x + 4294967296 - b) % 4294967296 % 256) (hd : d = if 2 * t < 256 then t else t + 4294967040) :
    (b + d) % 4294967296 = x := by
  split at hd <;> omega
/-- A difference of two bytes. -/
theorem delta_back2 (x lo b t d : Nat) (hx : x < 4294967296) (hl : lo < 4294967296) (h : (x + 4294967296 - lo) % 4294967296 < 65536)
  (hb : b = (lo + 32768) % 4294967296) (ht : t = (x + 4294967296 - b) % 4294967296 % 65536) (hd : d = if 2 * t < 65536 then t else t + 4294901760) :
    (b + d) % 4294967296 = x := by
  split at hd <;> omega

/-- A difference that lies within the width comes back. -/
theorem delta_back (w x lo : Nat) (hw : w ≤ 2) (hx : x < 2 ^ 32) (hl : lo < 2 ^ 32)
    (h : (x + 2 ^ 32 - lo) % 2 ^ 32 < 2 ^ (8 * w)) :
    let base := (lo + 2 ^ (8 * w) / 2) % 2 ^ 32
    let t := (x + 2 ^ 32 - base) % 2 ^ 32 % 256 ^ w
    (base + if 2 * t < 2 ^ (8 * w) then t else t + 2 ^ 32 - 2 ^ (8 * w)) % 2 ^ 32 = x := by
  intro base t
  have : w = 0 ∨ w = 1 ∨ w = 2 := by omega
  rcases this with rfl | rfl | rfl
  · have e := delta_back0 x lo hx hl h
    subst e
    have : t = 0 := Nat.mod_one _
    simp only [this, base]
    norm_num
    exact hl
  · refine delta_back1 x lo base t _ hx hl h (by simp [base]) (by simp [t]) ?_
    norm_num
    split <;> omega
  · refine delta_back2 x lo base t _ hx hl h (by simp [base]) (by simp [t]) ?_
    norm_num
    split <;> omega

/-- Entry `j` of piece `i` of pieces of one length. -/
theorem flatMap_getD {α β : Type} (d : β) (e : α) (f : α → List β) (w : Nat) (l : List α) (hf : ∀ a, (f a).length = w)
    (i j : Nat) (hi : i < l.length) (hj : j < w) : (l.flatMap f).getD (w * i + j) d = (f (l.getD i e)).getD j d := by
  have h := flatten_getD d (l.map f) i j (by simpa using hi)
    (by simp [List.getD, List.getElem?_eq_getElem hi, hf, hj])
  have hs : ((List.take i (l.map f)).map List.length).sum = w * i := by
    have : (List.take i (l.map f)).map List.length = List.replicate i w := by
      apply List.ext_getElem
      · simp; omega
      · intro n h1 h2; simp [hf]
    rw [this]; simp [Nat.mul_comm]
  rw [hs] at h
  rw [List.flatMap_def, h]
  simp [List.getD, List.getElem?_eq_getElem hi]

/-- The bytes of a sector under base-delta. -/
theorem deltaBytes_length (ws : List Nat) (w lo : Nat) : (deltaBytes ws w lo).length = 5 + w * ws.length := by
  simp [deltaBytes, bytesOf_length, List.length_flatMap]
  ring


/-- Where the bytes read agree with a list's, the number they make does. -/
theorem ofBytes_read (B : Nat → Byte) (d : List Byte) (o k : Nat) (h : ∀ i < k, B (o + i) = d.getD i 0) (hk : k ≤ d.length) :
    ofBytes ((List.range k).map fun i => B (o + i)) = ofBytes (d.take k) := by
  congr 1
  apply List.ext_getElem
  · simp; omega
  · intro n h1 h2
    simp only [List.length_map, List.length_range] at h1
    simp [h n h1, List.getD, List.getElem?_eq_getElem (show n < d.length by omega)]

/-- What the bytes of a sector under base-delta hold (R207). -/
theorem deltaBytes_read (ws : List Nat) (w lo : Nat) (hw : w ≤ 2) (hl : ws.length = 16) (B : Nat → Byte) (o : Nat)
    (hB : ∀ i < (deltaBytes ws w lo).length, B (o + i) = (deltaBytes ws w lo).getD i 0) :
    B o = BitVec.ofNat 8 w
      ∧ ofBytes ((List.range 4).map fun i => B (o + 1 + i)) = (lo + 2 ^ (8 * w) / 2) % 2 ^ 32
      ∧ ∀ k < 16, ofBytes ((List.range w).map fun i => B (o + (5 + w * k) + i))
          = (ws.getD k 0 + 2 ^ 32 - (lo + 2 ^ (8 * w) / 2) % 2 ^ 32) % 2 ^ 32 % 256 ^ w := by
  rw [deltaBytes_length, hl] at hB
  set base := (lo + 2 ^ (8 * w) / 2) % 2 ^ 32 with hbase
  have hd : deltaBytes ws w lo = bytesOf 1 w ++ bytesOf 4 base ++ ws.flatMap fun x => bytesOf w ((x + 2 ^ 32 - base) % 2 ^ 32) := rfl
  refine ⟨?_, ?_, ?_⟩
  · have := hB 0 (by omega)
    simpa [hd, bytesOf] using this
  · rw [ofBytes_read B (bytesOf 4 base) (o + 1) 4 _ (by simp [bytesOf_length])]
    · rw [List.take_of_length_le (by simp [bytesOf_length]), ofBytes_bytesOf]
      exact Nat.mod_eq_of_lt (Nat.mod_lt _ (by norm_num))
    · intro i hi
      have := hB (1 + i) (by omega)
      rw [hd, List.append_assoc, List.getD_append_right _ _ _ _ (by simp [bytesOf_length]),
        List.getD_append _ _ _ _ (by simp [bytesOf_length]; omega)] at this
      simpa [bytesOf_length, ← Nat.add_assoc] using this
  · intro k hk
    rw [ofBytes_read B (bytesOf w ((ws.getD k 0 + 2 ^ 32 - base) % 2 ^ 32)) (o + (5 + w * k)) w _ (by simp [bytesOf_length])]
    · rw [List.take_of_length_le (by simp [bytesOf_length]), ofBytes_bytesOf]
    · intro i hi
      have hlt : 5 + w * k + i < 5 + w * 16 := by nlinarith
      have := hB (5 + w * k + i) hlt
      rw [hd, List.getD_append_right _ _ _ _ (by simp [bytesOf_length]; omega)] at this
      have h2 := flatMap_getD (0 : Byte) (0 : Nat) (fun x => bytesOf w ((x + 2 ^ 32 - base) % 2 ^ 32)) w ws (by simp [bytesOf_length]) k i (by omega) hi
      rw [← h2, show o + (5 + w * k) + i = o + (5 + w * k + i) by omega, this]
      congr 1
      simp [bytesOf_length]; omega

/-- A sector under base-delta expands to what it was (R207, R209). -/
theorem deltaSector_back (s d : List Byte) (h : deltaSector s = some d) (B : Nat → Byte) (o : Nat)
    (hB : ∀ i < d.length, B (o + i) = d.getD i 0) :
    declared false (B o) = some d.length ∧ ∀ j < 64, decodeByte false B o j = s.getD j 0 := by
  have key : ∀ w lo, w ≤ 2 → deltaLow (sectorWords s) w = some lo → d = deltaBytes (sectorWords s) w lo →
      declared false (B o) = some d.length ∧ ∀ j < 64, decodeByte false B o j = s.getD j 0 := by
    intro w lo hw hlow hd
    subst hd
    obtain ⟨h0, h1, h2⟩ := deltaBytes_read (sectorWords s) w lo hw (sectorWords_length s) B o hB
    unfold deltaLow at hlow
    have hall := List.find?_some hlow
    simp only [List.all_eq_true, decide_eq_true_eq] at hall
    have hlo := sectorWords_lt s lo (List.mem_of_find?_eq_some hlow)
    have hw8 : (BitVec.ofNat 8 w).toNat = w := by simp; omega
    constructor
    · simp only [declared, h0, hw8, Bool.false_eq_true, if_false, if_pos hw, deltaBytes_length, sectorWords_length]
      congr 1; omega
    · intro j hj
      have hk : j / 4 < 16 := by omega
      have hm : (sectorWords s).getD (j / 4) 0 ∈ sectorWords s := by
        rw [List.getD, List.getElem?_eq_getElem (by rw [sectorWords_length]; exact hk)]
        exact List.getElem_mem _
      have hback := delta_back w _ lo hw (sectorWords_lt s _ hm) hlo (hall _ hm)
      simp only [decodeByte, Bool.false_eq_true, if_false, h0, hw8, h1, h2 _ hk]
      simp only at hback
      rw [hback]
      apply BitVec.eq_of_toNat_eq
      rw [← sectorWords_digit s j hj, BitVec.toNat_ofNat]
      rw [show (2 : Nat) ^ (8 * (j % 4)) = 256 ^ (j % 4) by rw [pow_mul]; norm_num]
  obtain ⟨w, hw, he⟩ := List.exists_of_findSome?_eq_some h
  obtain ⟨lo, hl, he⟩ := Option.map_eq_some_iff.mp he
  have hw2 : w ≤ 2 := by
    simp only [List.mem_cons, List.not_mem_nil, or_false] at hw
    omega
  exact key w lo hw2 hl he.symm


/-! ### Bitplane -/

/-- A choice of bit planes is a byte of flags. -/
theorem planes_byte (p : Nat → Bool) : ∃ v : BitVec 8, ∀ k < 8, v.getLsbD k = p k := by
  have key : ∀ a b c d e f g h : Bool, let v : BitVec 8 := BitVec.ofBoolListLE [a, b, c, d, e, f, g, h]
      v.getLsbD 0 = a ∧ v.getLsbD 1 = b ∧ v.getLsbD 2 = c ∧ v.getLsbD 3 = d ∧ v.getLsbD 4 = e ∧ v.getLsbD 5 = f
        ∧ v.getLsbD 6 = g ∧ v.getLsbD 7 = h := by decide
  obtain ⟨h0, h1, h2, h3, h4, h5, h6, h7⟩ := key (p 0) (p 1) (p 2) (p 3) (p 4) (p 5) (p 6) (p 7)
  refine ⟨BitVec.ofBoolListLE [p 0, p 1, p 2, p 3, p 4, p 5, p 6, p 7], fun k hk => ?_⟩
  interval_cases k <;> assumption

theorem planes_congr {p q : Nat → Bool} (h : ∀ k < 8, p k = q k) : (List.range 8).filter p = (List.range 8).filter q :=
  List.filter_congr fun k hk => h k (List.mem_range.mp hk)

/-- The mask of chosen planes names them again. -/
theorem planes_mask (p : Nat → Bool) : (List.range 8).filter
    (fun k => (BitVec.ofNat 8 (((List.range 8).filter p).foldl (fun m k => m + 2 ^ k) 0)).getLsbD k) = (List.range 8).filter p := by
  obtain ⟨v, hv⟩ := planes_byte p
  rw [← planes_congr hv]
  clear hv
  revert v
  decide

/-- A byte is the sum of its bits. -/
theorem byte_sum (v : BitVec 8) : (List.range 8).foldl (fun acc k => acc + 2 ^ k * (v.getLsbD k).toNat) 0 = v.toNat := by
  revert v; decide

/-- Bits that are 0 may be left out of the sum. -/
theorem byte_planes (p : Nat → Bool) (v : BitVec 8) (h : ∀ k < 8, p k = false → v.getLsbD k = false) :
    ((List.range 8).filter p).foldl (fun acc k => acc + 2 ^ k * (v.getLsbD k).toNat) 0 = v.toNat := by
  rw [List.foldl_filter, ← byte_sum v]
  have e : ∀ l : List Nat, (∀ k ∈ l, k < 8) → ∀ acc,
      l.foldl (fun x y => if p y = true then x + 2 ^ y * (v.getLsbD y).toNat else x) acc
        = l.foldl (fun acc k => acc + 2 ^ k * (v.getLsbD k).toNat) acc := by
    intro l
    induction l with
    | nil => intros; rfl
    | cons a r ih =>
      intro hl acc
      simp only [List.foldl_cons]
      rw [ih fun k hk => hl k (List.mem_cons_of_mem _ hk)]
      congr 1
      by_cases hp : p a = true
      · simp [hp]
      · have := h a (hl a (List.mem_cons_self ..)) (by simpa using hp)
        simp only [hp, this]; simp
  exact e _ (fun k hk => List.mem_range.mp hk) 0

/-- The bits that eight booleans make. -/
theorem bits_back (f : Nat → Bool) (j : Nat) (hj : j < 8) :
    (BitVec.ofNat 8 (upTo 8 (fun j acc => acc + 2 ^ j * (f j).toNat) 0)).getLsbD j = f j := by
  obtain ⟨v, hv⟩ := planes_byte f
  have : upTo 8 (fun j acc => acc + 2 ^ j * (f j).toNat) 0 = upTo 8 (fun j acc => acc + 2 ^ j * (v.getLsbD j).toNat) 0 := by
    simp only [upTo, hv 0 (by omega), hv 1 (by omega), hv 2 (by omega), hv 3 (by omega), hv 4 (by omega), hv 5 (by omega),
      hv 6 (by omega), hv 7 (by omega)]
  rw [this, ← hv j hj]
  clear this hv
  interval_cases j <;> (revert v; decide)

/-- A sector under bitplane expands to what it was (R207, R209). -/
theorem planeSector_back (s : List Byte) (hs : s.length = 64) (B : Nat → Byte) (o : Nat)
    (hB : ∀ i < (planeSector s).length, B (o + i) = (planeSector s).getD i 0) :
    declared true (B o) = some (planeSector s).length ∧ ∀ j < 64, decodeByte true B o j = s.getD j 0 := by
  set p : Nat → Bool := fun k => s.any fun x => x.getLsbD k with hp
  set ks := (List.range 8).filter p with hks
  set plane : Nat → List Byte := fun k => (List.range 8).map fun i =>
    BitVec.ofNat 8 (upTo 8 (fun j acc => acc + 2 ^ j * ((s.getD (8 * i + j) 0).getLsbD k).toNat) 0) with hpl
  have hd : planeSector s = bytesOf 1 (ks.foldl (fun m k => m + 2 ^ k) 0) ++ ks.flatMap plane := rfl
  have hlen : (planeSector s).length = 1 + 8 * ks.length := by
    simp [hd, bytesOf_length, List.length_flatMap, hpl, Nat.mul_comm]
  have h0 : B o = BitVec.ofNat 8 (ks.foldl (fun m k => m + 2 ^ k) 0) := by
    have := hB 0 (by omega)
    simpa [hd, bytesOf] using this
  have hm : (List.range 8).filter (fun k => (B o).getLsbD k) = ks := by rw [h0]; exact planes_mask p
  constructor
  · simp only [declared, if_true, hm, hlen]
  · intro j hj
    have hbit : ∀ i (hi : i < ks.length), (B (o + 1 + 8 * i + j / 8)).getLsbD (j % 8) = (s.getD j 0).getLsbD ks[i] := by
      intro i hi
      have h8 : j / 8 < 8 := by omega
      have := hB (1 + 8 * i + j / 8) (by omega)
      rw [hd, List.getD_append_right _ _ _ _ (by simp [bytesOf_length]; omega)] at this
      have h2 := flatMap_getD (0 : Byte) (0 : Nat) plane 8 ks (by simp [hpl]) i (j / 8) hi h8
      rw [show 1 + 8 * i + j / 8 - (bytesOf 1 (ks.foldl (fun m k => m + 2 ^ k) 0)).length = 8 * i + j / 8 by
        simp [bytesOf_length]; omega, h2] at this
      rw [show o + 1 + 8 * i + j / 8 = o + (1 + 8 * i + j / 8) by omega, this]
      simp only [hpl, List.getD, List.getElem?_map, List.getElem?_range h8, Option.map_some, Option.getD_some,
        List.getElem?_eq_getElem hi]
      rw [bits_back _ _ (Nat.mod_lt _ (by omega)), show 8 * (j / 8) + j % 8 = j by omega]
    have hsum : ks.zipIdx.foldl (fun acc e => acc + 2 ^ e.1 * ((B (o + 1 + 8 * e.2 + j / 8)).getLsbD (j % 8)).toNat) 0
        = ks.foldl (fun acc k => acc + 2 ^ k * ((s.getD j 0).getLsbD k).toNat) 0 := by
      have e : ∀ (l : List Nat) (n : Nat) (acc : Nat), (∀ i (hi : i < l.length),
          (B (o + 1 + 8 * (n + i) + j / 8)).getLsbD (j % 8) = (s.getD j 0).getLsbD l[i]) →
          (l.zipIdx n).foldl (fun acc e => acc + 2 ^ e.1 * ((B (o + 1 + 8 * e.2 + j / 8)).getLsbD (j % 8)).toNat) acc
            = l.foldl (fun acc k => acc + 2 ^ k * ((s.getD j 0).getLsbD k).toNat) acc := by
        intro l
        induction l with
        | nil => intros; rfl
        | cons a r ih =>
          intro n acc h
          have ha := h 0 (by simp)
          simp only [Nat.add_zero, List.getElem_cons_zero] at ha
          simp only [List.zipIdx_cons, List.foldl_cons, ha]
          exact ih (n + 1) _ fun i hi => by
            have := h (i + 1) (by simpa using hi)
            simpa [Nat.add_assoc, Nat.add_comm 1 i] using this
      exact e ks 0 0 fun i hi => by simpa using hbit i hi
    simp only [decodeByte, if_true, hm, hsum]
    rw [hks, byte_planes]
    · simp
    · intro k _ hk
      have := List.any_eq_false.mp hk
      have hmem : s.getD j 0 ∈ s := by
        rw [List.getD, List.getElem?_eq_getElem (by omega)]; exact List.getElem_mem _
      simpa using this _ hmem

/-! ### Offsets and metadata -/

/-- OFF[i] is the length of the spans before. -/
theorem offsets_getD (l : List Nat) (o i : Nat) (hi : i ≤ l.length) : (offsets o l).getD i 0 = o + (l.take i).sum := by
  induction l generalizing o i with
  | nil => obtain rfl : i = 0 := by simpa using hi
           simp [offsets]
  | cons a r ih =>
    cases i with
    | zero => simp [offsets]
    | succ i =>
      have := ih (o + a) i (by simpa using hi)
      simp only [offsets, List.getD_cons_succ, this, List.take_succ_cons, List.sum_cons]
      omega

theorem offsets_last (l : List Nat) (o : Nat) : (offsets o l).getLastD 0 = o + l.sum := by
  induction l generalizing o with
  | nil => simp [offsets]
  | cons a r ih =>
    have := ih (o + a)
    rw [offsets, List.getLastD_cons]
    cases r with
    | nil => simp [offsets]
    | cons b r => 
      rw [offsets] at this ⊢
      simp only [List.getLastD_cons, List.sum_cons] at this ⊢
      omega

/-- Fields laid side by side. -/
def sideBySide (w : Nat) (f : Nat → Nat) (n : Nat) : Nat := upTo n (fun i acc => acc + 2 ^ (w * i) * f i) 0

theorem sideBySide_lt (w : Nat) (f : Nat → Nat) (n : Nat) (h : ∀ i < n, f i < 2 ^ w) : sideBySide w f n < 2 ^ (w * n) := by
  induction n with
  | zero => simp [sideBySide, upTo]
  | succ n ih =>
    have h1 := ih fun i hi => h i (by omega)
    have h2 := h n (by omega)
    simp only [sideBySide, upTo] at h1 ⊢
    calc _ < 2 ^ (w * n) + 2 ^ (w * n) * f n := by omega
      _ = 2 ^ (w * n) * (f n + 1) := by ring
      _ ≤ 2 ^ (w * n) * 2 ^ w := Nat.mul_le_mul_left _ h2
      _ = 2 ^ (w * (n + 1)) := by rw [← pow_add]; ring_nf

theorem sideBySide_at (w : Nat) (f : Nat → Nat) (n k : Nat) (hk : k < n) (h : ∀ i < n, f i < 2 ^ w) :
    sideBySide w f n / 2 ^ (w * k) % 2 ^ w = f k := by
  induction n with
  | zero => omega
  | succ n ih =>
    have hlt := sideBySide_lt w f n fun i hi => h i (by omega)
    have hn := h n (by omega)
    have hs : sideBySide w f (n + 1) = sideBySide w f n + 2 ^ (w * n) * f n := rfl
    rcases Nat.lt_succ_iff_lt_or_eq.mp hk with hk | rfl
    · have e : w * n = w * k + w * (n - k) := by rw [← Nat.mul_add]; congr 1; omega
      rw [hs, e, pow_add, Nat.mul_assoc, Nat.add_mul_div_left _ _ (by positivity)]
      have e2 : w * (n - k) = w + w * (n - k - 1) := by
        conv_lhs => rw [show n - k = 1 + (n - k - 1) by omega]
        ring
      rw [e2, pow_add, Nat.mul_assoc, Nat.add_mul_mod_self_left]
      exact ih hk fun i hi => h i (by omega)
    · rw [hs, Nat.add_mul_div_left _ _ (by positivity), Nat.div_eq_of_lt hlt, Nat.zero_add, Nat.mod_eq_of_lt hn]


/-! ### A block -/

/-- A field of metadata that holds MODE and the offsets. -/
theorem meta_field (mode f lo w : Nat) (hm : mode < 2 ^ 8) (hf : f < 2 ^ 845) :
    bfld (BitVec.ofNat 1024 (mode + 2 ^ 32 * f)) lo w = (mode + 2 ^ 32 * f) / 2 ^ lo % 2 ^ w := by
  have h : mode + 2 ^ 32 * f < 2 ^ 1024 := by
    calc mode + 2 ^ 32 * f < 2 ^ 32 + 2 ^ 32 * f := by
          have : (2 : Nat) ^ 8 < 2 ^ 32 := Nat.pow_lt_pow_right (by omega) (by omega)
          omega
      _ = 2 ^ 32 * (f + 1) := by ring
      _ ≤ 2 ^ 32 * 2 ^ 845 := Nat.mul_le_mul_left _ hf
      _ = 2 ^ (32 + 845) := by rw [← pow_add]
      _ < 2 ^ 1024 := Nat.pow_lt_pow_right (by omega) (by omega)
  unfold bfld
  rw [BitVec.extractLsb'_toNat, BitVec.toNat_ofNat, Nat.mod_eq_of_lt h, Nat.shiftRight_eq_div_pow]

theorem meta_low (mode f : Nat) (hm : mode < 2 ^ 8) : (mode + 2 ^ 32 * f) / 2 ^ 32 = f ∧ (mode + 2 ^ 32 * f) / 2 ^ 8 = 2 ^ 24 * f := by
  norm_num at hm ⊢
  omega

/-- Metadata that holds a MODE and 65 offsets reads back, and breaks no rule that every sector touches (R207, R208). -/
theorem meta_back (mode : Nat) (hm : mode = 2 ∨ mode = 3) (offs : Nat → Nat) (ho : ∀ i < 65, offs i < 2 ^ 13) :
    let m := BitVec.ofNat 1024 (mode + 2 ^ 32 * sideBySide 13 offs 65)
    metaMode m = mode ∧ headBad m = false ∧ ∀ k < 65, metaOff m k = offs k := by
  intro m
  have hlt := sideBySide_lt 13 offs 65 ho
  have hat := fun k hk => sideBySide_at 13 offs 65 k hk ho
  rw [show 13 * 65 = 845 by rfl] at hlt
  generalize hF : sideBySide 13 offs 65 = F at hlt hat
  have hm8 : mode < 2 ^ 8 := by rcases hm with rfl | rfl <;> norm_num
  have hfld := fun lo w => meta_field mode F lo w hm8 hlt
  obtain ⟨h32, h8⟩ := meta_low mode F hm8
  have h877 : (mode + 2 ^ 32 * F) / 2 ^ 877 = 0 := by
    rw [show (2 : Nat) ^ 877 = 2 ^ 32 * 2 ^ 845 by rw [← pow_add], ← Nat.div_div_eq_div_mul, h32, Nat.div_eq_of_lt hlt]
  have hmode : metaMode m = mode := by
    simp only [metaMode, m, hF, hfld, pow_zero, Nat.div_one]
    rw [show (2 : Nat) ^ 32 = 2 ^ 8 * 2 ^ 24 by rw [← pow_add], Nat.mul_assoc, Nat.add_mul_mod_self_left, Nat.mod_eq_of_lt hm8]
  refine ⟨hmode, ?_, fun k hk => ?_⟩
  · have a1 : bfld m 8 24 = 0 := by simp only [m, hF, hfld, h8, Nat.mul_mod_right]
    have a2 : bfld m 877 3 = 0 := by simp only [m, hF, hfld, h877, Nat.zero_mod]
    have a3 : bfld m 880 144 = 0 := by
      simp only [m, hF, hfld]
      rw [show (2 : Nat) ^ 880 = 2 ^ 877 * 2 ^ 3 by rw [← pow_add], ← Nat.div_div_eq_div_mul, h877, Nat.zero_div, Nat.zero_mod]
    have a4 : ¬ 4 ≤ mode := by omega
    have a5 : ¬ mode < 2 := by omega
    simp [headBad, hmode, a1, a2, a3, a4, a5]
  · simp only [metaOff, m, hF, hfld]
    rw [pow_add, ← Nat.div_div_eq_div_mul, h32]
    exact hat k hk

/-- Encoding of one sector, and what it expands to (R207, R209). -/
theorem sector_back (ck : Bool) (s d : List Byte) (hs : s.length = 64)
    (h : (if ck then some (planeSector s) else deltaSector s) = some d) (B : Nat → Byte) (o : Nat)
    (hB : ∀ i < d.length, B (o + i) = d.getD i 0) :
    declared ck (B o) = some d.length ∧ ∀ j < 64, decodeByte ck B o j = s.getD j 0 := by
  cases ck with
  | false => exact deltaSector_back s d h B o hB
  | true => obtain rfl := Option.some.inj h
            exact planeSector_back s hs B o hB

/-- A span holds at least one byte. -/
theorem declared_pos (ck : Bool) (x : Byte) (n : Nat) (h : declared ck x = some n) : 0 < n := by
  unfold declared at h
  cases ck <;> simp at h <;> omega

/-- Metadata of a block of zeros. -/
theorem meta_zero : metaMode (1 : BitVec 1024) = 1 ∧ headBad (1 : BitVec 1024) = false ∧ metaMode (0 : BitVec 1024) = 0 := by
  have one : ∀ lo w, bfld (1 : BitVec 1024) lo w = 1 / 2 ^ lo % 2 ^ w := by
    intro lo w
    unfold bfld
    rw [BitVec.extractLsb'_toNat, Nat.shiftRight_eq_div_pow]
    rw [show (1 : BitVec 1024).toNat = 1 from BitVec.toNat_one (by omega)]
  have far : ∀ lo w, 0 < lo → bfld (1 : BitVec 1024) lo w = 0 := by
    intro lo w h
    rw [one, Nat.div_eq_of_lt (Nat.one_lt_two_pow (by omega)), Nat.zero_mod]
  have hm : metaMode (1 : BitVec 1024) = 1 := by rw [metaMode, one]; norm_num
  refine ⟨hm, ?_, ?_⟩
  · unfold headBad
    rw [hm, far 8 24 (by omega), far 877 3 (by omega), far 880 144 (by omega), far 32 848 (by omega)]
    rfl
  · unfold metaMode bfld
    rw [BitVec.extractLsb'_toNat]
    simp

theorem filterMap_id_some {α : Type} (l : List (Option α)) (h : ¬ l.any Option.isNone = true) :
    (l.filterMap id).map some = l := by
  induction l with
  | nil => rfl
  | cons x r ih =>
    rcases x with _ | x
    · simp at h
    · have := ih (by simpa using h)
      simpa using this

/-- What a block is encoded to expands to what it was (R207, R209). -/
theorem expand_encode (ck : Bool) (b : List Byte) (hb : b.length = 4096) (B : Nat → Byte)
    (hB : ∀ i < (encodeBlock ck b).2.length, B i = (encodeBlock ck b).2.getD i 0) (o : Nat) (ho : o < 4096) :
    ((encodeBlock ck b).1 = 0 → B o = b.getD o 0)
      ∧ ((encodeBlock ck b).1 ≠ 0 → expand (encodeBlock ck b).1 B o = (b.getD o 0, false)) := by
  set f : Nat → Option (List Byte) := fun i =>
    if ck then some (planeSector ((b.drop (64 * i)).take 64)) else deltaSector ((b.drop (64 * i)).take 64) with hf
  set secs := (List.range 64).map f with hsecs
  set l := secs.filterMap id with hl
  set offs := offsets 0 (l.map List.length) with hoffs
  have hE : encodeBlock ck b = if b.all (· == 0) then (1, []) else if secs.any Option.isNone then (0, b)
      else if offs.getLastD 0 > 4096 then (0, b)
      else (BitVec.ofNat 1024 ((if ck then 3 else 2) + 2 ^ 32 * sideBySide 13 (fun i => offs.getD i 0) 65), l.flatten) := rfl
  have stored : encodeBlock ck b = (0, b) → ((encodeBlock ck b).1 = 0 → B o = b.getD o 0)
      ∧ ((encodeBlock ck b).1 ≠ 0 → expand (encodeBlock ck b).1 B o = (b.getD o 0, false)) := by
    intro e
    rw [e] at hB ⊢
    exact ⟨fun _ => hB o (by show o < b.length; omega), fun h => absurd rfl h⟩
  by_cases hz : b.all (· == 0) = true
  · rw [hE, if_pos hz]
    obtain ⟨h2, h1, h3⟩ := meta_zero
    refine ⟨fun h => ?_, fun _ => ?_⟩
    · change (1 : BitVec 1024) = 0 at h
      rw [h, h3] at h2
      omega
    have hz' : b.getD o 0 = 0 := by
      have := List.all_eq_true.mp hz (b.getD o 0) (by
        rw [List.getD, List.getElem?_eq_getElem (by omega)]; exact List.getElem_mem _)
      simpa using this
    change expand 1 B o = _
    unfold expand
    rw [if_neg (by rw [h1]; simp), if_pos h2, hz']
  · by_cases hn : secs.any Option.isNone = true
    · exact stored (by rw [hE, if_neg hz, if_pos hn])
    · by_cases hg : offs.getLastD 0 > 4096
      · exact stored (by rw [hE, if_neg hz, if_neg hn, if_pos hg])
      · rw [hE, if_neg hz, if_neg hn, if_neg hg] at hB ⊢
        dsimp only at hB ⊢
        have hmap : l.map some = secs := filterMap_id_some secs hn
        have hlen : l.length = 64 := by
          have := congrArg List.length hmap
          simpa [hsecs] using this
        have hsec : ∀ i (hi : i < 64), f i = some (l.getD i []) := by
          intro i hi
          have := congrArg (fun x => x[i]?) hmap
          simp only [hsecs, List.getElem?_map, List.getElem?_range hi, Option.map_some] at this
          rw [List.getElem?_eq_getElem (by omega)] at this
          simp only [Option.map_some, Option.some.injEq] at this
          rw [← this, List.getD, List.getElem?_eq_getElem (by omega)]
          rfl
        have hoff : ∀ i ≤ 64, offs.getD i 0 = ((l.map List.length).take i).sum := by
          intro i hi
          rw [hoffs, offsets_getD _ _ _ (by simpa [hlen] using hi), Nat.zero_add]
        have hlast : (l.map List.length).sum ≤ 4096 := by
          rw [hoffs, offsets_last] at hg
          omega
        have hle : ∀ i ≤ 64, offs.getD i 0 ≤ 4096 := by
          intro i hi
          rw [hoff i hi]
          exact le_trans (List.Sublist.sum_le_sum (List.take_sublist _ _) (by simp)) hlast
        obtain ⟨hmode, hbad, hmo⟩ := meta_back (if ck then 3 else 2) (by cases ck <;> simp) (fun i => offs.getD i 0)
          (fun i hi => lt_of_le_of_lt (hle i (by omega)) (by norm_num))
        generalize hM : BitVec.ofNat 1024 ((if ck then 3 else 2) + 2 ^ 32 * sideBySide 13 (fun i => offs.getD i 0) 65) = m at *
        refine ⟨fun h0 => ?_, fun _ => ?_⟩
        · rw [h0] at hmode
          rw [meta_zero.2.2] at hmode
          cases ck <;> simp at hmode
        · obtain ⟨i, hi'⟩ : ∃ i, o / 64 = i := ⟨_, rfl⟩
          have hi : i < 64 := by omega
          have hstep : offs.getD (i + 1) 0 = offs.getD i 0 + (l.getD i []).length := by
            rw [hoff _ (by omega), hoff _ (by omega), List.take_add_one, List.sum_append]
            simp [List.getD, List.getElem?_eq_getElem (show i < l.length by omega)]
          have hBi : ∀ j < (l.getD i []).length, B (offs.getD i 0 + j) = (l.getD i []).getD j 0 := by
            intro j hj
            have hfl := flatten_getD (0 : Byte) l i j (by omega) hj
            rw [← hfl, hoff i (by omega), List.map_take]
            apply hB
            have h1 := hle (i + 1) (by omega)
            have h2 : offs.getD (i + 1) 0 ≤ l.flatten.length := by
              rw [hoff _ (by omega), List.length_flatten]
              exact List.Sublist.sum_le_sum (List.take_sublist _ _) (by simp)
            rw [← hoff i (by omega)]
            rw [hstep] at h2
            omega
          obtain ⟨hdec, hval⟩ := sector_back ck ((b.drop (64 * i)).take 64) (l.getD i []) (by simp [hb]; omega) (hsec i hi) B
            (offs.getD i 0) hBi
          have hpos := declared_pos _ _ _ hdec
          have hck : decide ((if ck then 3 else 2) = 3) = ck := by cases ck <;> rfl
          have hspan : spanBad m i B = false := by
            simp only [spanBad, hmode, hmo i (by omega), hmo (i + 1) (by omega), hck, hdec, hstep, Nat.add_sub_cancel_left]
            have h1 := hle (i + 1) (by omega)
            rw [hstep] at h1
            simp only [Bool.or_eq_false_iff, decide_eq_false_iff_not, ne_eq, not_true_eq_false, decide_false, and_true]
            omega
          have h3 : ¬ metaMode m = 1 := by rw [hmode]; cases ck <;> simp
          unfold expand
          rw [hi', if_neg (by simp [hbad]), if_neg h3, if_neg (by simp [hspan])]
          simp only [hmode, hck, hmo i (by omega)]
          rw [hval _ (Nat.mod_lt _ (by omega))]
          congr 1
          simp only [List.getD, List.getElem?_take, List.getElem?_drop, Nat.mod_lt _ (show 0 < 64 by omega), if_true]
          congr 2
          omega

/-- An encoded block fits its frame. -/
theorem encodeBlock_length (ck : Bool) (b : List Byte) (hb : b.length = 4096) : (encodeBlock ck b).2.length ≤ 4096 := by
  obtain ⟨secs, m, he⟩ : ∃ (secs : List (Option (List Byte))) (m : BitVec 1024), encodeBlock ck b =
      if b.all (· == 0) then (1, []) else if secs.any Option.isNone then (0, b)
      else if (offsets 0 ((secs.filterMap id).map List.length)).getLastD 0 > 4096 then (0, b)
      else (m, (secs.filterMap id).flatten) := ⟨_, _, rfl⟩
  rw [he]
  split
  · simp
  · split
    · exact hb.le
    · split
      · exact hb.le
      · rename_i h
        rw [offsets_last] at h
        simp only [List.length_flatten]
        omega

end Sys2Proof.Machine
end

