-- ==== Sys2Proof/Laws/Decode.lean ====
section
/-! SUPPORT. Laws of the field packing: a field taken is the field put, fields do not reach beyond their width, and the
register fields of form L overlay IMM16 without loss (R65). -/

namespace Sys2Proof

/-! ### Fields -/

@[simp] theorem takeBv_pushBv {w : Nat} (v : BitVec w) (n : Nat) : takeBv w (pushBv v n) = (v, n) := by
  have hv := v.isLt
  unfold takeBv pushBv
  refine Prod.ext ?_ ?_
  · apply BitVec.eq_of_toNat_eq
    simp [Nat.add_mul_mod_self_left, Nat.mod_eq_of_lt hv]
  · show (v.toNat + 2 ^ w * n) / 2 ^ w = n
    rw [Nat.add_mul_div_left _ _ (Nat.two_pow_pos w), Nat.div_eq_of_lt hv, Nat.zero_add]

@[simp] theorem takeB_pushB (b : Bool) (n : Nat) : takeB (pushB b n) = (b, n) := by
  cases b <;> (simp [takeB, pushB]; try omega)

/-- A field and what stands above it stay below the sum of their widths. -/
theorem pushBv_lt {w k n : Nat} (v : BitVec w) (h : n < 2 ^ k) : pushBv v n < 2 ^ (w + k) := by
  have hv := v.isLt
  unfold pushBv
  calc v.toNat + 2 ^ w * n < 2 ^ w + 2 ^ w * n := by omega
    _ = 2 ^ w * (n + 1) := by ring
    _ ≤ 2 ^ w * 2 ^ k := Nat.mul_le_mul_left _ h
    _ = 2 ^ (w + k) := (Nat.pow_add 2 w k).symm

theorem pushB_lt {k n : Nat} (b : Bool) (h : n < 2 ^ k) : pushB b n < 2 ^ (1 + k) := by
  unfold pushB
  rw [Nat.pow_add]
  cases b <;> simp <;> omega

@[simp] theorem takeGuard_guardBits (g : Guard) (n : Nat) : takeGuard (guardBits g n) = (some g, n) := by
  cases g <;> simp [takeGuard, guardBits]

theorem guardBits_lt {k n : Nat} (g : Guard) (h : n < 2 ^ k) : guardBits g n < 2 ^ (7 + k) := by
  have e : 7 + k = 6 + (1 + k) := by omega
  rw [e]
  cases g with
  | none => exact pushBv_lt _ (pushB_lt _ h)
  | some p => exact pushBv_lt _ (pushB_lt _ h)

/-! ### RB, RC and IMM16 -/

theorem rbrc_toNat (b c : Reg) : (rbrc b c).toNat = b.toNat * 512 + c.toNat * 4 := by
  have h : (rbrc b c).toNat = ((b.toNat <<< 7 ||| c.toNat) <<< 2 ||| 0) := rfl
  have hc := c.isLt
  rw [h, Nat.or_zero, Nat.shiftLeft_eq, ← Nat.shiftLeft_add_eq_or_of_lt hc, Nat.shiftLeft_eq]
  omega

@[simp] theorem rbOf_rbrc (b c : Reg) : rbOf (rbrc b c) = b := by
  have hb := b.isLt
  have hc := c.isLt
  apply BitVec.eq_of_toNat_eq
  simp only [rbOf, BitVec.extractLsb'_toNat, rbrc_toNat, Nat.shiftRight_eq_div_pow]
  omega
@[simp] theorem rcOf_rbrc (b c : Reg) : rcOf (rbrc b c) = c := by
  have hb := b.isLt
  have hc := c.isLt
  apply BitVec.eq_of_toNat_eq
  simp only [rcOf, BitVec.extractLsb'_toNat, rbrc_toNat, Nat.shiftRight_eq_div_pow]
  omega
@[simp] theorem rsv_rbrc (b c : Reg) : (rbrc b c).extractLsb' 0 2 = 0 := by
  apply BitVec.eq_of_toNat_eq
  simp only [BitVec.extractLsb'_toNat, rbrc_toNat, Nat.shiftRight_eq_div_pow]
  show (b.toNat * 512 + c.toNat * 4) / 2 ^ 0 % 2 ^ 2 = 0
  omega

/-! ### Codes -/

@[simp] theorem Cond.ofCode_code (x : Cond) : Cond.ofCode x.code = some x := by cases x <;> rfl
@[simp] theorem Comb.ofCode_code (x : Comb) : Comb.ofCode x.code = some x := by cases x <;> rfl
@[simp] theorem CapField.ofCode_code (x : CapField) : CapField.ofCode x.code = some x := by cases x <;> rfl
@[simp] theorem Rm.ofCode_code (x : Rm) : Rm.ofCode x.code = some x := by cases x <;> rfl
@[simp] theorem CvtType.ofCode_code (x : CvtType) : CvtType.ofCode x.code = some x := by cases x <;> rfl
@[simp] theorem VCond.ofCode_code (x : VCond) : VCond.ofCode x.code = some x := by cases x <;> rfl
@[simp] theorem DotKind.ofCode_code (x : DotKind) : DotKind.ofCode x.code = some x := by cases x <;> rfl
@[simp] theorem RedOp.ofCode_code (x : RedOp) : RedOp.ofCode x.code = some x := by cases x <;> rfl
@[simp] theorem AmoOp.ofCode_code (x : AmoOp) : AmoOp.ofCode x.code = some x := by cases x <;> rfl
@[simp] theorem Fmt.ofCode_code (x : Fmt) : Fmt.ofCode x.code = some x := by cases x <;> rfl
@[simp] theorem PoisSel.ofCode_code (x : PoisSel) : PoisSel.ofCode x.code = some x := by cases x <;> rfl
@[simp] theorem TapeFile.ofCode_code (x : TapeFile) : TapeFile.ofCode x.code = some x := by cases x <;> rfl
@[simp] theorem Eng.ofCode_code (x : Eng) : Eng.ofCode x.code = some x := by cases x <;> rfl
@[simp] theorem Scope.ofCode_code (x : Scope) : Scope.ofCode x.code = x := by cases x <;> rfl
@[simp] theorem Size.ofCode_code (x : Size) : Size.ofCode x.code = x := by cases x <;> rfl
@[simp] theorem VCmpType.ofCode_code (x : VCmpType) : VCmpType.ofCode x.code = x := by cases x <;> rfl
@[simp] theorem ShufPat.ofCode_code (x : ShufPat) : ShufPat.ofCode x.code = x := by cases x <;> rfl
@[simp] theorem LdSync.ofCode_code (x : LdSync) : LdSync.ofCode x.code = some x := by
  rcases x with _ | ⟨⟨⟩⟩ | _ | _ <;> rfl
@[simp] theorem StSync.ofCode_code (x : StSync) : StSync.ofCode x.code = some x := by
  rcases x with _ | ⟨⟨⟩⟩ | _ <;> rfl
@[simp] theorem ElType.ofCode_code (x : ElType) : ElType.ofCode x.q x.m = some x := by cases x <;> rfl

/-! ### Qualifiers side by side in Q -/

@[simp] theorem q_24_lo (a : BitVec 2) (b : BitVec 4) : (a ++ b).extractLsb' 0 4 = b := by
  revert a b; decide
@[simp] theorem q_24_hi (a : BitVec 2) (b : BitVec 4) : (a ++ b).extractLsb' 4 2 = a := by
  revert a b; decide
@[simp] theorem q_42_lo (a : BitVec 4) (b : BitVec 2) : (a ++ b).extractLsb' 0 2 = b := by
  revert a b; decide
@[simp] theorem q_42_hi (a : BitVec 4) (b : BitVec 2) : (a ++ b).extractLsb' 2 4 = a := by
  revert a b; decide
@[simp] theorem q_33_lo (a b : BitVec 3) : (a ++ b).extractLsb' 0 3 = b := by
  revert a b; decide
@[simp] theorem q_33_hi (a b : BitVec 3) : (a ++ b).extractLsb' 3 3 = a := by
  revert a b; decide
@[simp] theorem q_312_lo (a : Bool) (b : BitVec 2) : (0#3 ++ BitVec.ofBool a ++ b).extractLsb' 0 2 = b := by
  revert a b; decide
@[simp] theorem q_312_bit (a : Bool) (b : BitVec 2) : (0#3 ++ BitVec.ofBool a ++ b).getLsbD 2 = a := by
  revert a b; decide
@[simp] theorem q_411_0_0 (a b : Bool) : (0#4 ++ BitVec.ofBool a ++ BitVec.ofBool b).getLsbD 0 = b := by
  revert a b; decide
@[simp] theorem q_411_0_1 (a b : Bool) : (0#4 ++ BitVec.ofBool a ++ BitVec.ofBool b).getLsbD 1 = a := by
  revert a b; decide
@[simp] theorem q_411_0_2 (a b : Bool) : (0#4 ++ BitVec.ofBool a ++ BitVec.ofBool b).getLsbD 2 = false := by
  revert a b; decide
@[simp] theorem q_411_1_0 (a b : Bool) : (1#4 ++ BitVec.ofBool a ++ BitVec.ofBool b).getLsbD 0 = b := by
  revert a b; decide
@[simp] theorem q_411_1_1 (a b : Bool) : (1#4 ++ BitVec.ofBool a ++ BitVec.ofBool b).getLsbD 1 = a := by
  revert a b; decide
@[simp] theorem q_411_1_2 (a b : Bool) : (1#4 ++ BitVec.ofBool a ++ BitVec.ofBool b).getLsbD 2 = true := by
  revert a b; decide
@[simp] theorem q_411_ring_0 (a : Bool) : (0#4 ++ BitVec.ofBool a ++ 0#1).getLsbD 0 = false := by
  revert a; decide
@[simp] theorem q_411_ring_1 (a : Bool) : (0#4 ++ BitVec.ofBool a ++ 0#1).getLsbD 1 = a := by
  revert a; decide
@[simp] theorem q_222_lo (a b : BitVec 2) : (0#2 ++ a ++ b).extractLsb' 0 2 = b := by
  revert a b; decide
@[simp] theorem q_222_hi (a b : BitVec 2) : (0#2 ++ a ++ b).extractLsb' 2 2 = a := by
  revert a b; decide
@[simp] theorem q_1122_lo (e : Bool) (a b : BitVec 2) : (0#1 ++ BitVec.ofBool e ++ a ++ b).extractLsb' 0 2 = b := by
  revert e a b; decide
@[simp] theorem q_1122_hi (e : Bool) (a b : BitVec 2) : (0#1 ++ BitVec.ofBool e ++ a ++ b).extractLsb' 2 2 = a := by
  revert e a b; decide
@[simp] theorem q_1122_bit (e : Bool) (a b : BitVec 2) : (0#1 ++ BitVec.ofBool e ++ a ++ b).getLsbD 4 = e := by
  revert e a b; decide
@[simp] theorem q_1113_lo (e f : Bool) (a : BitVec 3) : (0#1 ++ BitVec.ofBool e ++ BitVec.ofBool f ++ a).extractLsb' 0 3 = a := by
  revert e f a; decide
@[simp] theorem q_1113_3 (e f : Bool) (a : BitVec 3) : (0#1 ++ BitVec.ofBool e ++ BitVec.ofBool f ++ a).getLsbD 3 = f := by
  revert e f a; decide
@[simp] theorem q_1113_4 (e f : Bool) (a : BitVec 3) : (0#1 ++ BitVec.ofBool e ++ BitVec.ofBool f ++ a).getLsbD 4 = e := by
  revert e f a; decide
@[simp] theorem q_114_lo (e : Bool) (a : BitVec 4) : (0#1 ++ BitVec.ofBool e ++ a).extractLsb' 0 4 = a := by
  revert e a; decide
@[simp] theorem q_114_bit (e : Bool) (a : BitVec 4) : (0#1 ++ BitVec.ofBool e ++ a).getLsbD 4 = e := by
  revert e a; decide
@[simp] theorem q1_bit (b : Bool) : (q1 b).getLsbD 0 = b := by
  revert b; decide

/-! ### Prefix fields and the opcodes of the MMA family -/

theorem low_append {n w : Nat} (x : BitVec w) : ((0 : BitVec n) ++ x).setWidth w = x := by
  apply BitVec.eq_of_toNat_eq
  rw [BitVec.toNat_setWidth, BitVec.toNat_append]
  simp [Nat.mod_eq_of_lt x.isLt]
theorem mmaOpcode_toNat (fam : BitVec 2) (o : MmaOp) :
    (mmaOpcode fam o).toNat = fam.toNat * 64 + o.fmt.toNat * 4 + o.shape.toNat := by
  have h : (mmaOpcode fam o).toNat = ((fam.toNat <<< 4 ||| o.fmt.toNat) <<< 2 ||| o.shape.toNat) := rfl
  rw [h, ← Nat.shiftLeft_add_eq_or_of_lt o.fmt.isLt, ← Nat.shiftLeft_add_eq_or_of_lt o.shape.isLt, Nat.shiftLeft_eq,
    Nat.shiftLeft_eq]
  omega
theorem mmaOpcode_fmt (fam : BitVec 2) (o : MmaOp) : (mmaOpcode fam o).extractLsb' 2 4 = o.fmt := by
  have h1 := o.fmt.isLt
  have h2 := o.shape.isLt
  apply BitVec.eq_of_toNat_eq
  simp only [BitVec.extractLsb'_toNat, mmaOpcode_toNat, Nat.shiftRight_eq_div_pow]
  omega
theorem mmaOpcode_shape (fam : BitVec 2) (o : MmaOp) : (mmaOpcode fam o).extractLsb' 0 2 = o.shape := by
  have h1 := o.fmt.isLt
  have h2 := o.shape.isLt
  apply BitVec.eq_of_toNat_eq
  simp only [BitVec.extractLsb'_toNat, mmaOpcode_toNat, Nat.shiftRight_eq_div_pow]
  omega

/-! ### Words -/

theorem word0_toNat {low mj : Nat} (hl : low < 2 ^ 22) (hm : mj < 2 ^ 7) (sl : BitVec 2) (st : Bool) :
    (word0 low mj sl st).toNat = low + 2 ^ 22 * (mj + 2 ^ 7 * (sl.toNat + 4 * st.toNat)) := by
  have h := sl.isLt
  have e : pushBv sl (pushB st 0) = sl.toNat + 4 * st.toNat := by simp [pushBv, pushB]
  unfold word0
  rw [e, BitVec.toNat_ofNat]
  refine Nat.mod_eq_of_lt ?_
  cases st <;> simp at * <;> omega

theorem majorOf_word0 {low mj : Nat} (hl : low < 2 ^ 22) (hm : mj < 2 ^ 7) (sl : BitVec 2) (st : Bool) :
    majorOf (word0 low mj sl st) = mj := by
  have h := sl.isLt
  unfold majorOf
  rw [BitVec.extractLsb'_toNat, Nat.shiftRight_eq_div_pow, word0_toNat hl hm]
  cases st <;> simp at * <;> omega

theorem slotOf_word0 {low mj : Nat} (hl : low < 2 ^ 22) (hm : mj < 2 ^ 7) (sl : BitVec 2) (st : Bool) :
    slotOf (word0 low mj sl st) = sl := by
  have h := sl.isLt
  apply BitVec.eq_of_toNat_eq
  unfold slotOf
  rw [BitVec.extractLsb'_toNat, Nat.shiftRight_eq_div_pow, word0_toNat hl hm]
  cases st <;> simp at * <;> omega

theorem stopOf_word0 {low mj : Nat} (hl : low < 2 ^ 22) (hm : mj < 2 ^ 7) (sl : BitVec 2) (st : Bool) :
    stopOf (word0 low mj sl st) = st := by
  have h := sl.isLt
  unfold stopOf
  rw [BitVec.getLsbD, Nat.testBit_eq_decide_div_mod_eq, word0_toNat hl hm]
  cases st <;> simp at * <;> omega

/-- The low bits of a first word are taken first; what stands above them is left over. -/
theorem word0_low {low mj : Nat} (hl : low < 2 ^ 22) (hm : mj < 2 ^ 7) (sl : BitVec 2) (st : Bool) :
    ∃ k, (word0 low mj sl st).toNat = low + 2 ^ 22 * k := ⟨_, word0_toNat hl hm sl st⟩

theorem pushBv_add {w : Nat} (v : BitVec w) (n k j : Nat) : pushBv v n + 2 ^ (w + j) * k = pushBv v (n + 2 ^ j * k) := by
  unfold pushBv; rw [Nat.pow_add]; ring
theorem pushB_add (b : Bool) (n k j : Nat) : pushB b n + 2 ^ (1 + j) * k = pushB b (n + 2 ^ j * k) := by
  unfold pushB; rw [Nat.pow_add]; ring
theorem guardBits_add (g : Guard) (n k j : Nat) : guardBits g n + 2 ^ (7 + j) * k = guardBits g (n + 2 ^ j * k) := by
  have e : 7 + j = 6 + (1 + j) := by omega
  cases g with
  | none => rw [e]; unfold guardBits; rw [pushBv_add, pushB_add]
  | some p => rw [e]; unfold guardBits; rw [pushBv_add, pushB_add]

theorem lowA_lt (rd ra rb : Reg) (m : Bool) : lowA rd ra rb m < 2 ^ 22 :=
  pushB_lt (k := 21) m (pushBv_lt (k := 14) rb (pushBv_lt (k := 7) ra (pushBv_lt (k := 0) rd (by decide))))
theorem lowB_lt (rd ra : Reg) (v : BitVec 8) : lowB rd ra v < 2 ^ 22 :=
  pushBv_lt (k := 14) v (pushBv_lt (k := 7) ra (pushBv_lt (k := 0) rd (by decide)))
theorem lowL_lt (fn q : BitVec 6) (g : Guard) (rm : BitVec 3) : lowL fn q g rm < 2 ^ 22 :=
  pushBv_lt (k := 19) rm (guardBits_lt (k := 12) g (pushBv_lt (k := 6) q (pushBv_lt (k := 0) fn (by decide))))
theorem highL_lt (rd ra : Reg) (i : BitVec 16) (o m : Bool) : highL rd ra i o m < 2 ^ 32 :=
  pushB_lt (k := 31) m (pushB_lt (k := 30) o (pushBv_lt (k := 14) i (pushBv_lt (k := 7) ra (pushBv_lt (k := 0) rd (by decide)))))
theorem lowCmd_lt (g : Guard) : pushBv 0#15 (guardBits g 0) < 2 ^ 22 :=
  pushBv_lt (k := 7) _ (guardBits_lt (k := 0) g (by decide))

@[simp] theorem takeHighL_highL (rd ra : Reg) (i : BitVec 16) (o m : Bool) :
    takeHighL (BitVec.ofNat 32 (highL rd ra i o m)) = (rd, ra, i, o, m) := by
  have h : (BitVec.ofNat 32 (highL rd ra i o m)).toNat = highL rd ra i o m := by
    rw [BitVec.toNat_ofNat]; exact Nat.mod_eq_of_lt (highL_lt ..)
  simp only [takeHighL, h]
  simp [highL]

/-- A raw syllable whose major fits its form, a short immediate having neither guard nor qualifier (R64, R68). -/
def Raw.ok : Raw → Prop
  | .a mj _ _ _ _ _ _ _ => mj < 0x30 ∨ (0x50 ≤ mj ∧ mj < 0x60)
  | .b mj g q _ _ i => 0x30 ≤ mj ∧ mj < 0x4F ∧ (i.isLong = false → g = none ∧ q = 0)
  | .l mj _ _ _ _ _ _ _ _ _ => 0x70 ≤ mj ∧ mj < 0x78
  | .cmd mj _ _ => 0x60 ≤ mj ∧ mj < 0x65
  | .pre mj _ => 0x6C ≤ mj ∧ mj < 0x70

theorem rawL_wordsL {mj : Nat} (hm : mj < 2 ^ 7) (fn q : BitVec 6) (g : Guard) (rm : BitVec 3) (rd ra : Reg) (i : BitVec 16)
    (o m : Bool) (sl : BitVec 2) (st : Bool) (mj' : Nat) :
    rawL mj' (word0 (lowL fn q g rm) mj sl st) (BitVec.ofNat 32 (highL rd ra i o m)) =
      (if mj' < 0x78 then .ok (.l mj' fn g q rm rd ra i o m)
      else
        let sm := if mj' = 0x7E then fn.toNat else fn.toNat + 0x40
        if sm < 0x30 || (0x50 ≤ sm && sm < 0x60) then
          if rcOf i = 0 && i.extractLsb' 0 2 = 0 && !o then .ok (.a sm g q rm rd ra (rbOf i) m)
          else .error .badField
        else if sm < 0x4F then
          if rm = 0 && !o && !m then .ok (.b sm g q rd ra (.long i)) else .error .badField
        else .error .reservedFn) := by
  obtain ⟨k, hk⟩ := word0_low (lowL_lt fn q g rm) hm sl st
  have e : lowL fn q g rm + 2 ^ 22 * k = pushBv rm (guardBits g (pushBv q (pushBv fn (0 + 2 ^ 0 * k)))) := by
    unfold lowL
    rw [show (22 : Nat) = 3 + (7 + (6 + (6 + 0))) from rfl, pushBv_add, guardBits_add, pushBv_add, pushBv_add]
  simp only [rawL, hk, e, takeBv_pushBv, takeGuard_guardBits, takeHighL_highL]

theorem rawL_image {mj : Nat} (fn q : BitVec 6) (g : Guard) (rm : BitVec 3) (rd ra : Reg) (i : BitVec 16)
    (o m : Bool) (sl : BitVec 2) (st : Bool) (hm : (0x70 ≤ mj ∧ mj < 0x78) ∨ mj = 0x7E ∨ mj = 0x7F) :
    decodeRaw (wordsL mj fn q g rm rd ra i o m sl st) =
      (rawL mj (word0 (lowL fn q g rm) mj sl st) (BitVec.ofNat 32 (highL rd ra i o m))).map (·, 2) := by
  have h7 : mj < 2 ^ 7 := by omega
  unfold wordsL decodeRaw
  simp only [majorOf_word0 (lowL_lt fn q g rm) h7]
  rw [if_neg (by simp; omega), if_neg (by omega), if_neg (by simp; omega), if_neg (by simp; omega), if_pos (by simp; omega)]

@[simp] theorem cmdOfWords_cmdWords (c : CmdWord) : cmdOfWords (cmdWords c) = c := by
  apply BitVec.eq_of_toNat_eq
  have hc := c.isLt
  show (c.extractLsb' (32 * 6) 32 ++ c.extractLsb' (32 * 5) 32 ++ c.extractLsb' (32 * 4) 32 ++ c.extractLsb' (32 * 3) 32
    ++ c.extractLsb' (32 * 2) 32 ++ c.extractLsb' (32 * 1) 32 ++ c.extractLsb' (32 * 0) 32 : BitVec 224).toNat = c.toNat
  have key : ∀ {n m : Nat} (x : BitVec n) (y : BitVec m), (x ++ y).toNat = x.toNat * 2 ^ m + y.toNat := by
    intro n m x y
    rw [BitVec.toNat_append, ← Nat.shiftLeft_add_eq_or_of_lt y.isLt, Nat.shiftLeft_eq]
  simp only [key, BitVec.extractLsb'_toNat, Nat.shiftRight_eq_div_pow]
  omega

/-- The words of a raw syllable are read back as that syllable. -/
theorem decodeRaw_rawWords {r : Raw} (h : r.ok) (sl : BitVec 2) (st : Bool) :
    decodeRaw (rawWords r sl st) = .ok (r, (rawWords r sl st).length)
      ∧ slotOf ((rawWords r sl st).headD 0) = sl ∧ stopOf ((rawWords r sl st).headD 0) = st := by
  cases r with
  | a mj g q rm rd ra rb m =>
    have hmj : mj < 2 ^ 7 := by simp only [Raw.ok] at h; omega
    by_cases hs : (g.isNone && q == 0 && rm == 0) = true
    · obtain ⟨⟨hg, hq⟩, hr⟩ : (g.isNone = true ∧ q = 0) ∧ rm = 0 := by simpa using hs
      have hg' : g = none := by simpa using hg
      subst hg' hq hr
      obtain ⟨k, hk⟩ := word0_low (lowA_lt rd ra rb m) hmj sl st
      have e : lowA rd ra rb m + 2 ^ 22 * k = pushB m (pushBv rb (pushBv ra (pushBv rd (0 + 2 ^ 0 * k)))) := by
        unfold lowA
        rw [show (22 : Nat) = 1 + (7 + (7 + (7 + 0))) from rfl, pushB_add, pushBv_add, pushBv_add, pushBv_add]
      simp only [rawWords, if_pos hs, List.headD_cons, List.length_singleton]
      refine ⟨?_, slotOf_word0 (lowA_lt ..) hmj sl st, stopOf_word0 (lowA_lt ..) hmj sl st⟩
      simp only [decodeRaw, majorOf_word0 (lowA_lt rd ra rb m) hmj]
      rw [if_pos (by simpa [Raw.ok] using h)]
      simp only [hk, e, takeB_pushB, takeBv_pushBv]
    · simp only [rawWords, if_neg hs]
      have hi : (imageOf mj).1 = 0x7E ∨ (imageOf mj).1 = 0x7F := by unfold imageOf; split <;> simp
      have hm7 : (imageOf mj).1 < 2 ^ 7 := by omega
      refine ⟨?_, slotOf_word0 (lowL_lt ..) hm7 sl st, stopOf_word0 (lowL_lt ..) hm7 sl st⟩
      rw [rawL_image _ _ _ _ _ _ _ _ _ _ _ (.inr hi), rawL_wordsL hm7, if_neg (by omega)]
      have hsm : (if (imageOf mj).1 = 0x7E then (imageOf mj).2.toNat else (imageOf mj).2.toNat + 0x40) = mj := by
        simp only [Raw.ok] at h
        unfold imageOf
        split <;> simp <;> omega
      simp only [hsm]
      rw [if_pos (by simpa [Raw.ok] using h), if_pos (by simp)]
      simp [wordsL, Except.map]
  | b mj g q rd ra i =>
    obtain ⟨h1, h2, h3⟩ := h
    have hmj : mj < 2 ^ 7 := by omega
    cases i with
    | short v =>
      obtain ⟨hg, hq⟩ := h3 rfl
      subst hg hq
      obtain ⟨k, hk⟩ := word0_low (lowB_lt rd ra v) hmj sl st
      have e : lowB rd ra v + 2 ^ 22 * k = pushBv v (pushBv ra (pushBv rd (0 + 2 ^ 0 * k))) := by
        unfold lowB
        rw [show (22 : Nat) = 8 + (7 + (7 + 0)) from rfl, pushBv_add, pushBv_add, pushBv_add]
      simp only [rawWords, List.headD_cons, List.length_singleton]
      refine ⟨?_, slotOf_word0 (lowB_lt ..) hmj sl st, stopOf_word0 (lowB_lt ..) hmj sl st⟩
      simp only [decodeRaw, majorOf_word0 (lowB_lt rd ra v) hmj]
      rw [if_neg (by simp; omega), if_pos h2]
      simp only [hk, e, takeBv_pushBv]
    | long v =>
      simp only [rawWords]
      have hi : (imageOf mj).1 = 0x7E ∨ (imageOf mj).1 = 0x7F := by unfold imageOf; split <;> simp
      have hm7 : (imageOf mj).1 < 2 ^ 7 := by omega
      refine ⟨?_, slotOf_word0 (lowL_lt ..) hm7 sl st, stopOf_word0 (lowL_lt ..) hm7 sl st⟩
      rw [rawL_image _ _ _ _ _ _ _ _ _ _ _ (.inr hi), rawL_wordsL hm7, if_neg (by omega)]
      have hsm : (if (imageOf mj).1 = 0x7E then (imageOf mj).2.toNat else (imageOf mj).2.toNat + 0x40) = mj := by
        unfold imageOf
        split <;> simp <;> omega
      simp only [hsm]
      rw [if_neg (by simp; omega), if_pos h2, if_pos (by simp)]
      simp [wordsL, Except.map]
  | l mj fn g q rm rd ra i o m =>
    have hmj : mj < 2 ^ 7 := by simp only [Raw.ok] at h; omega
    simp only [rawWords]
    refine ⟨?_, slotOf_word0 (lowL_lt ..) hmj sl st, stopOf_word0 (lowL_lt ..) hmj sl st⟩
    rw [rawL_image _ _ _ _ _ _ _ _ _ _ _ (.inl h), rawL_wordsL hmj, if_pos h.2]
    simp [wordsL, Except.map]
  | cmd mj g c =>
    have hmj : mj < 2 ^ 7 := by simp only [Raw.ok] at h; omega
    obtain ⟨k, hk⟩ := word0_low (lowCmd_lt g) hmj sl st
    have e : pushBv 0#15 (guardBits g 0) + 2 ^ 22 * k = pushBv 0#15 (guardBits g (0 + 2 ^ 0 * k)) := by
      rw [show (22 : Nat) = 15 + (7 + 0) from rfl, pushBv_add, guardBits_add]
    have hl : (cmdWords c).length = 7 := rfl
    simp only [rawWords, List.headD_cons, List.length_cons, hl]
    refine ⟨?_, slotOf_word0 (lowCmd_lt g) hmj sl st, stopOf_word0 (lowCmd_lt g) hmj sl st⟩
    obtain ⟨h1, h2⟩ := h
    simp only [decodeRaw, majorOf_word0 (lowCmd_lt g) hmj]
    rw [if_neg (by simp; omega), if_neg (by omega), if_pos (by simp; omega)]
    simp only [hk, e, takeBv_pushBv, takeGuard_guardBits]
    rw [if_neg (by simp), if_neg (by omega), List.take_of_length_le (by omega), cmdOfWords_cmdWords]
  | pre mj x =>
    have hmj : mj < 2 ^ 7 := by simp only [Raw.ok] at h; omega
    have hx : x.toNat < 2 ^ 22 := x.isLt
    simp only [rawWords, List.headD_cons, List.length_singleton]
    refine ⟨?_, slotOf_word0 hx hmj sl st, stopOf_word0 hx hmj sl st⟩
    obtain ⟨h1, h2⟩ := h
    simp only [decodeRaw, majorOf_word0 hx hmj]
    rw [if_neg (by simp; omega), if_neg (by omega), if_neg (by simp; omega), if_pos (by simp; omega)]
    have : (word0 x.toNat mj sl st).setWidth 22 = x := by
      apply BitVec.eq_of_toNat_eq
      rw [BitVec.toNat_setWidth, word0_toNat hx hmj]
      omega
    rw [this]

/-- A short immediate stands without a guard (R68). -/
theorem fits_short {g : Guard} {v : BitVec 8} (h : (Imm.short v).fits g = true) : g = none := by
  cases g with
  | none => rfl
  | some p => exact absurd h (by simp [Imm.fits])

end Sys2Proof
end

