-- ==== Sys2Proof/Laws/Meaning.lean ====
section
/-! SUPPORT. How the monad of meanings runs, and what `finish` and `guarded` make of it: with these a meaning is run by `simp`
and no later proof unfolds the monad. -/

namespace Sys2Proof.Machine

/-! ### Running a meaning -/

theorem M.run_bind {α β : Type} (m : M α) (f : α → M β) (s : State) :
    (m >>= f) s = match m s with
      | .ok a t => f a t
      | .error e t => .error e t := by
  show EStateM.bind m f s = _
  unfold EStateM.bind
  cases m s <;> rfl

@[simp] theorem M.run_pure {α : Type} (a : α) (s : State) : (pure a : M α) s = .ok a s := rfl
@[simp] theorem M.run_get (s : State) : (get : M State) s = .ok s s := rfl
@[simp] theorem M.run_set (t s : State) : (set t : M PUnit) s = .ok ⟨⟩ t := rfl
@[simp] theorem M.run_act (f : State → State) (s : State) : act f s = .ok () (f s) := rfl
@[simp] theorem M.run_qtrap (t : TrapRec) (s : State) :
    qtrap t s = .error (.trap { t with fq := s.core.issue.q }) s := rfl
@[simp] theorem M.run_illegal (s : State) :
    illegal s = .error (.trap { cause := .illegal, info0 := s.core.issue.gaddr, fq := s.core.issue.q }) s := rfl
@[simp] theorem M.run_holdAt (k : BitVec 8) (o : Word) (s : State) :
    holdAt k o s = .error (.hold (.slot k o)) s := rfl
@[simp] theorem M.run_holdOther (s : State) : holdOther s = .error (.hold .other) s := rfl

/-- What a bind does when its first part goes on. -/
theorem M.bind_ok {α β : Type} {m : M α} {f : α → M β} {s t : State} {a : α} (h : m s = .ok a t) :
    (m >>= f) s = f a t := by rw [M.run_bind, h]
/-- What a bind does when its first part stops. -/
theorem M.bind_error {α β : Type} {m : M α} {f : α → M β} {s t : State} {e : Stop} (h : m s = .error e t) :
    (m >>= f) s = .error e t := by rw [M.run_bind, h]

@[simp] theorem M.get_bind {α : Type} (f : State → M α) (s : State) : (get >>= f) s = f s s := rfl
@[simp] theorem M.act_bind {α : Type} (g : State → State) (f : Unit → M α) (s : State) :
    (act g >>= f) s = f () (g s) := rfl
@[simp] theorem M.set_bind {α : Type} (t : State) (f : PUnit → M α) (s : State) : ((set t : M PUnit) >>= f) s = f ⟨⟩ t := rfl
@[simp] theorem M.pure_bind' {α β : Type} (a : α) (f : α → M β) (s : State) : ((pure a : M α) >>= f) s = f a s := rfl
@[simp] theorem M.illegal_bind {α : Type} (f : Unit → M α) (s : State) : (illegal >>= f) s = .error
    (.trap { cause := .illegal, info0 := s.core.issue.gaddr, fq := s.core.issue.q }) s := rfl
@[simp] theorem M.qtrap_bind {α : Type} (t : TrapRec) (f : Unit → M α) (s : State) :
    (qtrap t >>= f) s = .error (.trap { t with fq := s.core.issue.q }) s := rfl
@[simp] theorem M.holdOther_bind {α : Type} (f : Unit → M α) (s : State) : (holdOther >>= f) s = .error (.hold .other) s := rfl
@[simp] theorem M.holdAt_bind {α : Type} (k : BitVec 8) (o : Word) (f : Unit → M α) (s : State) :
    (holdAt k o >>= f) s = .error (.hold (.slot k o)) s := rfl

/-! ### Outcomes -/

@[simp] theorem keepWalks_self (s : State) : keepWalks s s = s := by simp [keepWalks]

theorem finish_ok {m : M Unit} {s t : State} {u : Unit} (h : m s = .ok u t) : finish m s = .next t := by
  simp [finish, h]
theorem finish_trap {m : M Unit} {s t : State} {r : TrapRec} (h : m s = .error (.trap r) t) :
    finish m s = .next ((keepWalks s t).trapped r) := by simp [finish, h]
theorem finish_hold {m : M Unit} {s t : State} {r : Hold} (h : m s = .error (.hold r) t) :
    finish m s = .next ((keepWalks s t).held r) := by simp [finish, h]

/-- A meaning always answers a next state. -/
theorem finish_next (m : M Unit) (s : State) : ∃ t, finish m s = .next t := by
  unfold finish
  split <;> exact ⟨_, rfl⟩

theorem guarded_on {g : Guard} {s : State} (m : M Unit) (h : s.executes g = true) : guarded g m s = finish m s := by
  simp [guarded, h]
theorem guarded_off {g : Guard} {s : State} (m : M Unit) (h : s.executes g = false) : guarded g m s = .next s := by
  simp [guarded, h]
theorem guarded_next (g : Guard) (m : M Unit) (s : State) : ∃ t, guarded g m s = .next t := by
  unfold guarded
  split
  · exact finish_next m s
  · exact ⟨_, rfl⟩
theorem pureOp_on {g : Guard} {s : State} (f : State → State) (h : s.executes g = true) : pureOp g f s = .next (f s) := by
  simp [pureOp, h]
theorem taped_on {g : Guard} {s : State} (r : State → List (List Byte)) (f : State → State) (h : s.executes g = true)
    (ht : s.taping = false) : taped g r f s = .next (f s) := by simp [taped, h, ht]
theorem vtaped_on {g : Guard} {s : State} (r : State → List (List Byte)) (f : State → State) (h : s.vexecutes g = true)
    (ht : s.taping = false) : vtaped g r f s = .next (f s) := by simp [vtaped, h, ht]

/-! ### Immediates -/

theorem immOf_eq (s : State) (i : Imm) : immOf s.core.issue.ext i = immBits s i := by
  unfold immOf immBits
  split <;> simp_all <;> omega
theorem immZ_eq (s : State) (i : Imm) : s.immZ i = (immBits s i).1 := by
  unfold State.immZ
  rw [immOf_eq]
theorem immS_eq (s : State) (i : Imm) :
    s.immS i = ((BitVec.ofNat (immBits s i).2 (immBits s i).1).signExtend 64 : Word) := by
  unfold State.immS sext64 sint
  rw [immOf_eq]
  rfl

end Sys2Proof.Machine
end

