-- ==== Sys2Proof/Laws/Memory.lean ====
section
/-! SUPPORT. Laws of the memories: what a byte reads after a write, and that every memory operation keeps the canonical
form. -/

namespace Sys2Proof.Machine

/-! ### Device memory: what a byte reads -/

/-- Whether a sector is another key's depends on its slot and the key slots alone. -/
theorem Device.otherKey_congr {d e : Device} (pte : Option Word) (x : Nat) (hs : e.slots = d.slots)
    (hk : tfind e.sectKs (x / 64) = tfind d.sectKs (x / 64)) : e.otherKey pte x = d.otherKey pte x := by
  unfold Device.otherKey Device.xtsKey
  rw [hk, hs]

/-- It is the same for every byte of a sector. -/
theorem Device.otherKey_sector (d : Device) (pte : Option Word) (x : Nat) :
    d.otherKey pte (64 * (x / 64)) = d.otherKey pte x := by
  unfold Device.otherKey
  rw [show 64 * (x / 64) / 64 = x / 64 by omega]

/-- What a read decrypts to depends on the key slots and the sector's slot and bytes alone. -/
theorem Device.plain_congr {d e : Device} (pte : Option Word) (x : Nat) (hs : e.slots = d.slots)
    (hk : tfind e.sectKs (x / 64) = tfind d.sectKs (x / 64)) (hm : ∀ y, y / 64 = x / 64 → e.byte y = d.byte y) : e.plain pte x = d.plain pte x := by
  have hn : e.num (x / 16 * 16) 16 = d.num (x / 16 * 16) 16 := by
    unfold Device.num Device.bytes
    congr 1
    apply List.map_congr_left
    intro i hi
    have := List.mem_range.mp hi
    exact hm _ (by omega)
  unfold Device.plain
  rw [Device.otherKey_congr pte x hs hk, hm x rfl, hn]

/-- A byte under the slot of its sector is read as it stands. -/
theorem Device.plain_own (d : Device) (p : Word) (x : Nat) (h : tfind d.sectKs (x / 64) = some (BitVec.ofNat 8 (pteKs p))) :
    d.plain (some p) x = d.byte x := by
  have : (BitVec.ofNat 8 (pteKs p)).toNat = pteKs p := by
    rw [BitVec.toNat_ofNat]
    exact Nat.mod_eq_of_lt (BitVec.isLt _)
  simp [Device.plain, Device.otherKey, h, this]

/-- A read depends on its block's metadata and on what its frame decrypts to. -/
theorem Device.read1_congr {d e : Device} (pte : Option Word) (x : Nat) 
    (hb : tget 0 e.blocks (x / 4096) = tget 0 d.blocks (x / 4096))
    (hp : ∀ y, y / 4096 = x / 4096 → e.plain pte y = d.plain pte y) : (e.read1 pte x).1 = (d.read1 pte x).1 := by
  have hk : e.packed pte x = d.packed pte x := by
    unfold Device.packed
    cases pte with
    | none => exact congrArg (· != 0) hb
    | some p => rfl
  have hf : (fun o => if o < 4096 then e.plain pte (x / 4096 * 4096 + o) else 0)
      = fun o => if o < 4096 then d.plain pte (x / 4096 * 4096 + o) else 0 := by
    funext o
    split
    · exact hp _ (by omega)
    · rfl
  unfold Device.read1
  dsimp only
  rw [hb, hk, hf, hp x rfl]
  split <;> rfl

/-- One sector brought under a slot: nothing but bytes, slots and tags changes. -/
theorem Device.rekey1_only (d e : Device) (p : Word) (g : Nat) :
    ∃ m k t, d.rekey1 e p g = { e with mem := m, sectKs := k, tag := t }
      ∧ (twf 0 e.mem = true → twf 0 m = true) ∧ (twf false e.tag = true → twf false t = true) := by
  unfold Device.rekey1
  dsimp only
  split
  · exact ⟨e.mem, _, e.tag, rfl, id, id⟩
  · exact ⟨_, _, _, rfl, fun h => upTo_keeps (fun m => twf 0 m = true) (fun j m hm => twf_tset 0 _ _ hm) 64 h,
      twf_tclear false _ _⟩

/-- Sectors brought under a slot: nothing but bytes, slots and tags changes. -/
theorem Device.rekey_only (d : Device) (pte : Option Word) (a n : Nat) :
    ∃ m k t, d.rekey pte a n = { d with mem := m, sectKs := k, tag := t }
      ∧ (twf 0 d.mem = true → twf 0 m = true) ∧ (twf false d.tag = true → twf false t = true) := by
  cases pte with
  | none => exact ⟨d.mem, d.sectKs, d.tag, rfl, id, id⟩
  | some p =>
    unfold Device.rekey
    dsimp only
    split
    · exact ⟨d.mem, d.sectKs, d.tag, rfl, id, id⟩
    · refine upTo_keeps (fun (e : Device) => ∃ m k t, e = { d with mem := m, sectKs := k, tag := t }
          ∧ (twf 0 d.mem = true → twf 0 m = true) ∧ (twf false d.tag = true → twf false t = true))
        (fun i e he => ?_) _ ⟨d.mem, d.sectKs, d.tag, rfl, id, id⟩
      obtain ⟨m, k, t, rfl, hw, hv⟩ := he
      obtain ⟨m', k', t', h, hw', hv'⟩ := Device.rekey1_only d { d with mem := m, sectKs := k, tag := t } p (a / 64 + i)
      exact ⟨m', k', t', h, fun h => hw' (hw h), fun h => hv' (hv h)⟩

/-- The key slots stay as they are. -/
theorem Device.rekey_slots (d : Device) (pte : Option Word) (a n : Nat) : (d.rekey pte a n).slots = d.slots := by
  obtain ⟨m, k, t, e, -⟩ := Device.rekey_only d pte a n
  rw [e]

theorem pteKs_back (p : Word) : (BitVec.ofNat 8 (pteKs p)).toNat = pteKs p := by
  rw [BitVec.toNat_ofNat]
  exact Nat.mod_eq_of_lt (BitVec.isLt _)

/-- A sector after it has been brought under a slot. -/
theorem Device.rekey1_in (d e : Device) (p : Word) (x : Nat) (h : e.byte x = d.byte x) :
    tfind (d.rekey1 e p (x / 64)).sectKs (x / 64) = some (BitVec.ofNat 8 (pteKs p))
      ∧ (d.rekey1 e p (x / 64)).byte x = d.plain (some p) x := by
  unfold Device.rekey1
  dsimp only
  split
  · rename_i hall
    refine ⟨by simp [tfind_tput], ?_⟩
    change e.byte x = _
    rw [h]
    have ho : d.otherKey (some p) x = none := by
      rw [Device.otherKey_sector] at hall
      simpa using hall
    simp [Device.plain, ho]
  · refine ⟨by simp [tfind_tput], ?_⟩
    change tget 0 (upTo 64 (fun j m => tset 0 m (64 * (x / 64) + j) (d.plain (some p) (64 * (x / 64) + j))) e.mem) x = _
    rw [tget_writes 0 (fun j => d.plain (some p) (64 * (x / 64) + j)) (64 * (x / 64)) e.mem 64 x, if_pos (by omega)]
    congr 1; omega

/-- The other sectors stand. -/
theorem Device.rekey1_out (d e : Device) (p : Word) (g x : Nat) (h : x / 64 ≠ g) :
    tfind (d.rekey1 e p g).sectKs (x / 64) = tfind e.sectKs (x / 64) ∧ (d.rekey1 e p g).byte x = e.byte x := by
  unfold Device.rekey1
  dsimp only
  split
  · exact ⟨by simp [tfind_tput, h], rfl⟩
  · refine ⟨by simp [tfind_tput, h], ?_⟩
    change tget 0 (upTo 64 (fun j m => tset 0 m (64 * g + j) (d.plain (some p) (64 * g + j))) e.mem) x = _
    rw [tget_writes 0 (fun j => d.plain (some p) (64 * g + j)) (64 * g) e.mem 64 x, if_neg (by omega)]
    rfl

/-- The sectors of a range after they have been brought under a slot, and the others. -/
theorem Device.rekey_some (d : Device) (p : Word) (a n x : Nat) (hn : n ≠ 0) :
    if a / 64 ≤ x / 64 ∧ x / 64 ≤ (a + n - 1) / 64 then
      tfind (d.rekey (some p) a n).sectKs (x / 64) = some (BitVec.ofNat 8 (pteKs p))
        ∧ (d.rekey (some p) a n).byte x = d.plain (some p) x
    else tfind (d.rekey (some p) a n).sectKs (x / 64) = tfind d.sectKs (x / 64) ∧ (d.rekey (some p) a n).byte x = d.byte x := by
  unfold Device.rekey
  dsimp only
  rw [if_neg hn]
  have step : ∀ k, if a / 64 ≤ x / 64 ∧ x / 64 < a / 64 + k then
      tfind (upTo k (fun k e => d.rekey1 e p (a / 64 + k)) d).sectKs (x / 64) = some (BitVec.ofNat 8 (pteKs p))
        ∧ (upTo k (fun k e => d.rekey1 e p (a / 64 + k)) d).byte x = d.plain (some p) x
      else tfind (upTo k (fun k e => d.rekey1 e p (a / 64 + k)) d).sectKs (x / 64) = tfind d.sectKs (x / 64)
        ∧ (upTo k (fun k e => d.rekey1 e p (a / 64 + k)) d).byte x = d.byte x := by
    intro k
    induction k with
    | zero =>
      rw [if_neg (by omega)]
      exact ⟨rfl, rfl⟩
    | succ k ih =>
      simp only [upTo]
      generalize upTo k (fun k e => d.rekey1 e p (a / 64 + k)) d = e at ih ⊢
      by_cases hx : x / 64 = a / 64 + k
      · rw [if_neg (by omega)] at ih
        rw [if_pos (by omega), ← hx]
        exact Device.rekey1_in d e p x ih.2
      · obtain ⟨h1, h2⟩ := Device.rekey1_out d e p (a / 64 + k) x hx
        rw [h1, h2]
        have hiff : (a / 64 ≤ x / 64 ∧ x / 64 < a / 64 + (k + 1)) ↔ (a / 64 ≤ x / 64 ∧ x / 64 < a / 64 + k) := by omega
        simp only [hiff]
        exact ih
  have hle : a / 64 ≤ (a + n - 1) / 64 := Nat.div_le_div_right (by omega)
  have hiff : (a / 64 ≤ x / 64 ∧ x / 64 ≤ (a + n - 1) / 64)
      ↔ a / 64 ≤ x / 64 ∧ x / 64 < a / 64 + ((a + n - 1) / 64 - a / 64 + 1) := by omega
  simp only [hiff]
  exact step _

/-- What every byte decrypts to under the slot is as it was. -/
theorem Device.plain_rekey (d : Device) (pte : Option Word) (a n x : Nat) : (d.rekey pte a n).plain pte x = d.plain pte x := by
  cases pte with
  | none => rfl
  | some p =>
    by_cases hn : n = 0
    · simp [Device.rekey, hn]
    · have h := Device.rekey_some d p a n x hn
      split at h
      · rw [Device.plain_own _ _ _ h.1, h.2]
      · rename_i hx
        refine Device.plain_congr _ _ (Device.rekey_slots ..) h.1 fun y hy => ?_
        have := Device.rekey_some d p a n y hn
        rw [hy, if_neg hx] at this
        exact this.2


/-- The sector of every byte of a range that has been brought under a slot is under it. -/
theorem Device.rekey_own (d : Device) (p : Word) (a n x : Nat) (h : a ≤ x ∧ x < a + n) :
    tfind (d.rekey (some p) a n).sectKs (x / 64) = some (BitVec.ofNat 8 (pteKs p)) := by
  have := Device.rekey_some d p a n x (by omega)
  rw [if_pos ⟨Nat.div_le_div_right h.1, Nat.div_le_div_right (by omega)⟩] at this
  exact this.1

/-- A device `e` that holds the slots of `d` after the sectors of `[lo, lo + n)` have been brought under one, and outside
`[a, a + k)` within them its bytes: what each byte decrypts to. -/
theorem Device.plain_put {d e : Device} (pte : Option Word) (lo n a k : Nat) (hlo : lo ≤ a) (hk : a + k ≤ lo + n)
    (hsl : e.slots = d.slots) (hs : e.sectKs = (d.rekey pte lo n).sectKs)
    (hm : ∀ x, ¬ (a ≤ x ∧ x < a + k) → e.byte x = (d.rekey pte lo n).byte x) (x : Nat) :
    e.plain pte x = if a ≤ x ∧ x < a + k then e.byte x else d.plain pte x := by
  cases pte with
  | none =>
    split
    · rfl
    · rename_i h; exact hm x h
  | some p =>
    by_cases hx : a ≤ x ∧ x < a + k
    · rw [if_pos hx]
      exact Device.plain_own _ _ _ (by rw [hs]; exact Device.rekey_own d p lo n x (by omega))
    · rw [if_neg hx, ← Device.plain_rekey d (some p) lo n x]
      by_cases hr : n ≠ 0 ∧ lo / 64 ≤ x / 64 ∧ x / 64 ≤ (lo + n - 1) / 64
      · have hown : tfind (d.rekey (some p) lo n).sectKs (x / 64) = some (BitVec.ofNat 8 (pteKs p)) := by
          have := Device.rekey_some d p lo n x hr.1
          rw [if_pos hr.2] at this
          exact this.1
        rw [Device.plain_own e p x (by rw [hs]; exact hown), Device.plain_own _ p x hown]
        exact hm x hx
      · refine Device.plain_congr _ _ (by rw [hsl, Device.rekey_slots]) (by rw [hs]) fun y hy => hm y fun h => hr ⟨by omega, ?_, ?_⟩
        · rw [← hy]; exact Nat.div_le_div_right (by omega)
        · rw [← hy]; exact Nat.div_le_div_right (by omega)

/-- Entry `i` of a list of a function's values. -/
theorem range_map_getD {β : Type} (f : Nat → β) (d : β) (n i : Nat) (h : i < n) :
    ((List.range n).map f).getD i d = f i := by simp [List.getD, h]

/-- Bytes written where they are given. -/
theorem tget_some_writes (v : Nat → Option Byte) (a : Nat) (t : List Host.Cell) (n j : Nat) :
    tget 0 (upTo n (fun i m => match v i with | some x => tset 0 m (a + i) x | none => m) t) j
      = if a ≤ j ∧ j < a + n then (v (j - a)).getD (tget 0 t j) else tget 0 t j := by
  induction n with
  | zero => rw [if_neg (by omega)]; rfl
  | succ n ih =>
    simp only [upTo]
    cases hv : v n with
    | none =>
      dsimp only
      rw [ih]
      by_cases hj : j = a + n
      · subst hj
        rw [if_neg (by omega), if_pos (by omega)]
        simp [hv]
      · by_cases h : a ≤ j ∧ j < a + n
        · rw [if_pos h, if_pos (by omega)]
        · rw [if_neg h, if_neg (by omega)]
    | some x =>
      dsimp only
      rw [tget_tset, ih]
      by_cases hj : j = a + n
      · subst hj
        rw [if_pos rfl, if_pos (by omega)]
        simp [hv]
      · rw [if_neg hj]
        by_cases h : a ≤ j ∧ j < a + n
        · rw [if_pos h, if_pos (by omega)]
        · rw [if_neg h, if_neg (by omega)]

/-- Whether a block is packed is the same for all its bytes. -/
theorem Device.packed_block (d : Device) (pte : Option Word) {x y : Nat} (h : x / 4096 = y / 4096) :
    d.packed pte x = d.packed pte y := by
  unfold Device.packed
  cases pte with
  | none => simp only [h]
  | some p => rfl

/-- A block that is not packed reads as it decrypts. -/
theorem Device.read1_flat (d : Device) (pte : Option Word) (x : Nat) (h : d.packed pte x = false) :
    (d.read1 pte x).1 = d.plain pte x := by
  unfold Device.read1
  dsimp only
  rw [if_pos (by rw [h]; simp)]

/-- A packed block reads as it expands. -/
theorem Device.read1_packed (d : Device) (pte : Option Word) (x : Nat) (h : d.packed pte x = true)
    (hm : tget 0 d.blocks (x / 4096) ≠ 0) : (d.read1 pte x).1
      = (expand (tget 0 d.blocks (x / 4096)) (fun o => if o < 4096 then d.plain pte (x / 4096 * 4096 + o) else 0) (x % 4096)).1 := by
  unfold Device.read1
  dsimp only
  rw [if_neg (by rw [h]; simpa using hm)]

/-- Bytes written as they stand read back, and every other byte through that page reads as before. -/
theorem Device.read1_patch (d : Device) (pte : Option Word) (lo n : Nat) (v : Nat → Option Byte)
    (hn : lo % 4096 + n ≤ 4096) (hp : d.packed pte lo = false) (x : Nat) :
    ((d.patch pte lo n v).read1 pte x).1
      = if lo ≤ x ∧ x < lo + n then (v (x - lo)).getD (d.read1 pte x).1 else (d.read1 pte x).1 := by
  obtain ⟨m1, k1, t1, hrk, -⟩ := Device.rekey_only d pte lo n
  have hb : (d.patch pte lo n v).blocks = d.blocks := by unfold Device.patch; dsimp only; rw [hrk]
  have hs : (d.patch pte lo n v).sectKs = (d.rekey pte lo n).sectKs := rfl
  have hsl : (d.patch pte lo n v).slots = d.slots := Device.rekey_slots ..
  have hat : ∀ y, (d.patch pte lo n v).byte y
      = if lo ≤ y ∧ y < lo + n then (v (y - lo)).getD ((d.rekey pte lo n).byte y) else (d.rekey pte lo n).byte y :=
    fun y => tget_some_writes v lo _ _ _
  generalize d.patch pte lo n v = e at hb hs hsl hat ⊢
  have hplain := Device.plain_put pte lo n lo n le_rfl le_rfl hsl hs fun y hy => by rw [hat, if_neg hy]
  by_cases hx : x / 4096 = lo / 4096
  · have hpk : d.packed pte x = false := by rw [Device.packed_block d pte hx]; exact hp
    have hpk' : e.packed pte x = false := by
      rw [← hpk]; unfold Device.packed
      cases pte with
      | none => simp only [hb]
      | some p => rfl
    rw [Device.read1_flat _ _ _ hpk, Device.read1_flat _ _ _ hpk', hplain]
    split
    · rename_i hy
      rw [hat, if_pos hy]
      congr 1
      rw [← Device.plain_rekey d pte lo n x]
      cases pte with
      | none => rfl
      | some p => exact (Device.plain_own _ _ _ (Device.rekey_own d p lo n x hy)).symm
    · rfl
  · rw [if_neg (by omega)]
    refine Device.read1_congr _ _ (by rw [hb]) fun y hy => ?_
    rw [hplain, if_neg (by omega)]

/-- A property that every change of a line's poison keeps, and that holds once a block has been encoded, holds after
`repack`. -/
theorem Device.repack_keeps (P : Device → Prop) (hq : ∀ d n m, P d → P (d.setPois n m)) (d : Device) (pte : Option Word)
    (f : Nat) (new : List Byte)
    (h : P { d.rekey pte f 4096 with
      mem := upTo (encodeBlock (d.kindAt pte f) new).2.length
        (fun i m => tset 0 m (f + i) ((encodeBlock (d.kindAt pte f) new).2.getD i 0)) (d.rekey pte f 4096).mem,
      blocks := tset 0 (d.rekey pte f 4096).blocks (f / 4096) (encodeBlock (d.kindAt pte f) new).1 }) :
    P (d.repack pte f new) := by
  unfold Device.repack
  dsimp only
  refine upTo_keeps P (fun i e he => ?_) _ h
  split
  · exact hq _ _ _ he
  · exact he

/-- A block encoded anew reads as the bytes it was encoded from, and every other block as before. -/
theorem Device.read1_repack (d : Device) (pte : Option Word) (f : Nat) (new : List Byte) (hf : f % 4096 = 0)
    (hlen : new.length = 4096) (hp : d.packed pte f = true) (x : Nat) :
    ((d.repack pte f new).read1 pte x).1 = if x / 4096 = f / 4096 then new.getD (x % 4096) 0 else (d.read1 pte x).1 := by
  obtain ⟨m1, k1, t1, hrk, -⟩ := Device.rekey_only d pte f 4096
  have hel := encodeBlock_length (d.kindAt pte f) new hlen
  have hx := fun B hB => expand_encode (d.kindAt pte f) new hlen B hB (x % 4096) (Nat.mod_lt _ (by omega))
  have hb : (d.repack pte f new).blocks = tset 0 d.blocks (f / 4096) (encodeBlock (d.kindAt pte f) new).1 :=
    Device.repack_keeps (fun e => e.blocks = tset 0 d.blocks (f / 4096) (encodeBlock (d.kindAt pte f) new).1)
      (fun _ _ _ h => h) d pte f new (by rw [hrk])
  have hs : (d.repack pte f new).sectKs = (d.rekey pte f 4096).sectKs :=
    Device.repack_keeps (fun e => e.sectKs = (d.rekey pte f 4096).sectKs) (fun _ _ _ h => h) d pte f new rfl
  have hsl : (d.repack pte f new).slots = d.slots :=
    Device.repack_keeps (fun e => e.slots = d.slots) (fun _ _ _ h => h) d pte f new (Device.rekey_slots ..)
  have hat : ∀ y, (d.repack pte f new).byte y
      = if f ≤ y ∧ y < f + (encodeBlock (d.kindAt pte f) new).2.length
        then (encodeBlock (d.kindAt pte f) new).2.getD (y - f) 0 else (d.rekey pte f 4096).byte y :=
    fun y => Device.repack_keeps
      (fun e => e.byte y = if f ≤ y ∧ y < f + (encodeBlock (d.kindAt pte f) new).2.length
        then (encodeBlock (d.kindAt pte f) new).2.getD (y - f) 0 else (d.rekey pte f 4096).byte y) (fun _ _ _ h => h) d pte f new
      (tget_writes 0 (fun i => (encodeBlock (d.kindAt pte f) new).2.getD i 0) f _ _ y)
  generalize d.repack pte f new = e at hb hs hsl hat ⊢
  generalize encodeBlock (d.kindAt pte f) new = E at hel hx hb hat
  obtain ⟨m, b⟩ := E
  dsimp only at hel hx hb hat
  have hplain := Device.plain_put pte f 4096 f b.length le_rfl (by omega) hsl hs fun y hy => by rw [hat, if_neg hy]
  split
  · rename_i hblk
    have hget : ∀ o, o < b.length → e.plain pte (x / 4096 * 4096 + o) = b.getD o 0 := by
      intro o ho
      rw [hplain, if_pos (by omega), hat, if_pos (by omega)]
      congr 1; omega
    obtain ⟨h0, h1⟩ := hx (fun o => if o < 4096 then e.plain pte (x / 4096 * 4096 + o) else 0) fun i hi => by
      rw [if_pos (by omega), hget i hi]
    have hm : tget 0 e.blocks (x / 4096) = m := by rw [hb, hblk, tget_tset_same]
    by_cases hz : m = 0
    · have hflat : (e.read1 pte x).1 = e.plain pte x := by
        unfold Device.read1
        dsimp only
        rw [if_pos (by rw [hm]; simp [hz])]
      rw [hflat, ← h0 hz, if_pos (by omega)]
      congr 1; omega
    · have hpk : e.packed pte x = true := by
        unfold Device.packed at hp ⊢
        cases pte with
        | none => simp only [hm]; simpa using hz
        | some p => exact hp
      rw [Device.read1_packed _ _ _ hpk (by rw [hm]; exact hz), hm, h1 hz]
  · rename_i hblk
    refine Device.read1_congr _ _ ?_ fun y hy => ?_
    · rw [hb, tget_tset_ne]; exact hblk
    · rw [hplain, if_neg (by omega)]

/-- One block written through a page: what each byte reads through that page afterwards (R204, R207 to R210). -/
theorem Device.read1_putBlock (d : Device) (pte : Option Word) (lo n : Nat) (v : Nat → Option Byte)
    (hn : lo % 4096 + n ≤ 4096) (x : Nat) :
    ((d.putBlock pte lo n v).read1 pte x).1
      = if lo ≤ x ∧ x < lo + n then (v (x - lo)).getD (d.read1 pte x).1 else (d.read1 pte x).1 := by
  unfold Device.putBlock
  by_cases hp : d.packed pte lo = true
  · rw [if_pos hp]
    dsimp only
    have hp' : d.packed pte (lo / 4096 * 4096) = true := by
      rw [Device.packed_block d pte (show lo / 4096 * 4096 / 4096 = lo / 4096 by omega)]; exact hp
    rw [Device.read1_repack d pte _ _ (by omega) (by simp [Device.merged]) hp']
    by_cases hx : x / 4096 = lo / 4096
    · rw [if_pos (by omega), Device.merged, range_map_getD _ _ _ _ (by omega), show lo / 4096 * 4096 + x % 4096 = x by omega]
      split <;> rfl
    · rw [if_neg (by omega), if_neg (by omega)]
  · rw [if_neg hp]
    exact Device.read1_patch d pte lo n v hn (by simpa using hp) x


/-- A property of a device that every change of a tag or of a line's poison keeps stands after `sideWrite`. -/
theorem Device.sideWrite_keeps (P : Device → Prop) (ht : ∀ d g v, P d → P { d with tag := tset false d.tag g v })
    (hq : ∀ d n m, P d → P (d.setPois n m)) (d : Device) (a n : Nat) (bad : Nat → Bool) (hd : P d) : P (d.sideWrite a n bad) := by
  unfold Device.sideWrite
  split
  · exact hd
  · refine upTo_keeps P (fun i d hd => ?_) _ (upTo_keeps P (fun i d hd => ht d _ _ hd) _ hd)
    dsimp only
    split
    · exact hd
    · exact hq _ _ _ hd

@[simp] theorem Device.sideWrite_slots (d : Device) (a n : Nat) (bad : Nat → Bool) : (d.sideWrite a n bad).slots = d.slots :=
  Device.sideWrite_keeps (fun e => e.slots = d.slots) (fun _ _ _ h => h) (fun _ _ _ h => h) d a n bad rfl
@[simp] theorem Device.sideWrite_mem (d : Device) (a n : Nat) (bad : Nat → Bool) : (d.sideWrite a n bad).mem = d.mem :=
  Device.sideWrite_keeps (fun e => e.mem = d.mem) (fun _ _ _ h => h) (fun _ _ _ h => h) d a n bad rfl
@[simp] theorem Device.sideWrite_sectKs (d : Device) (a n : Nat) (bad : Nat → Bool) : (d.sideWrite a n bad).sectKs = d.sectKs :=
  Device.sideWrite_keeps (fun e => e.sectKs = d.sectKs) (fun _ _ _ h => h) (fun _ _ _ h => h) d a n bad rfl
@[simp] theorem Device.sideWrite_blocks (d : Device) (a n : Nat) (bad : Nat → Bool) : (d.sideWrite a n bad).blocks = d.blocks :=
  Device.sideWrite_keeps (fun e => e.blocks = d.blocks) (fun _ _ _ h => h) (fun _ _ _ h => h) d a n bad rfl
@[simp] theorem Device.sideWrite_host (d : Device) (a n : Nat) (bad : Nat → Bool) : (d.sideWrite a n bad).host = d.host :=
  Device.sideWrite_keeps (fun e => e.host = d.host) (fun _ _ _ h => h) (fun _ _ _ h => h) d a n bad rfl
@[simp] theorem Device.sideWrite_peer (d : Device) (a n : Nat) (bad : Nat → Bool) : (d.sideWrite a n bad).peer = d.peer :=
  Device.sideWrite_keeps (fun e => e.peer = d.peer) (fun _ _ _ h => h) (fun _ _ _ h => h) d a n bad rfl

/-- Tags and poison do not change what a byte reads. -/
theorem Device.read1_sideWrite (d : Device) (pte : Option Word) (a n : Nat) (bad : Nat → Bool) (x : Nat) :
    ((d.sideWrite a n bad).read1 pte x).1 = (d.read1 pte x).1 := by
  refine Device.read1_congr pte x (by rw [Device.sideWrite_blocks]) fun y _ =>
    Device.plain_congr pte y (by rw [Device.sideWrite_slots]) (by rw [Device.sideWrite_sectKs]) fun z _ => ?_
  unfold Device.byte
  rw [Device.sideWrite_mem]

/-- Read after write at the slice, through the page that was written through: the bytes written, and every other byte as it
was, whatever the page's compression and key slot (R204, R207 to R210). -/
theorem Device.read1_write (d : Device) (pte : Option Word) (a : Nat) (b : List Byte) (bad : Nat → Bool) (x : Nat) :
    ((d.write pte a b bad).read1 pte x).1 = if a ≤ x ∧ x < a + b.length then b.getD (x - a) 0 else (d.read1 pte x).1 := by
  unfold Device.write
  dsimp only
  rw [Device.read1_sideWrite]
  cases hb : b.isEmpty with
  | true =>
    have hl : b.length = 0 := by simpa using hb
    rw [if_pos rfl, if_neg (by omega)]
  | false =>
    have hl : b.length ≠ 0 := by
      intro h
      rw [List.length_eq_zero_iff] at h
      simp [h] at hb
    simp only [Bool.false_eq_true, if_false]
    have step : ∀ k, ((upTo k (fun k d =>
        d.putBlock pte (max a (4096 * (a / 4096 + k)))
          (min (a + b.length) (4096 * (a / 4096 + k) + 4096) - max a (4096 * (a / 4096 + k)))
          fun i => some (b.getD (max a (4096 * (a / 4096 + k)) - a + i) 0)) d).read1 pte x).1
        = if a ≤ x ∧ x < a + b.length ∧ x < 4096 * (a / 4096 + k) then b.getD (x - a) 0 else (d.read1 pte x).1 := by
      intro k
      induction k with
      | zero =>
        rw [if_neg (by omega)]
        rfl
      | succ k ih =>
        simp only [upTo]
        have l1 := Nat.le_max_left a (4096 * (a / 4096 + k))
        have l2 := Nat.le_max_right a (4096 * (a / 4096 + k))
        have l3 := max_choice a (4096 * (a / 4096 + k))
        have h1 := Nat.min_le_left (a + b.length) (4096 * (a / 4096 + k) + 4096)
        have h2 := Nat.min_le_right (a + b.length) (4096 * (a / 4096 + k) + 4096)
        have h3 := min_choice (a + b.length) (4096 * (a / 4096 + k) + 4096)
        generalize max a (4096 * (a / 4096 + k)) = lo at *
        generalize min (a + b.length) (4096 * (a / 4096 + k) + 4096) = hi at *
        rw [Device.read1_putBlock _ _ _ _ _ (by omega), ih]
        by_cases hx : lo ≤ x ∧ x < lo + (hi - lo)
        · rw [if_pos hx, Option.getD_some, if_pos (by omega)]
          congr 1; omega
        · rw [if_neg hx]
          by_cases h : a ≤ x ∧ x < a + b.length ∧ x < 4096 * (a / 4096 + k)
          · rw [if_pos h, if_pos (by omega)]
          · rw [if_neg h, if_neg (by omega)]
    have := step ((a + b.length - 1) / 4096 - a / 4096 + 1)
    refine this.trans ?_
    have hiff : (a ≤ x ∧ x < a + b.length ∧ x < 4096 * (a / 4096 + ((a + b.length - 1) / 4096 - a / 4096 + 1)))
        ↔ (a ≤ x ∧ x < a + b.length) := by omega
    simp only [hiff]

/-- The same of a write that comes through no page. -/
theorem Device.read1_put (d : Device) (a : Nat) (b : List Byte) (x : Nat) :
    ((d.put a b).read1 none x).1 = if a ≤ x ∧ x < a + b.length then b.getD (x - a) 0 else (d.read1 none x).1 :=
  Device.read1_write ..

/-! ### Device memory: the canonical form -/

/-- The six parts of the canonical form. -/
theorem Device.wf_iff (d : Device) :
    d.wf = true ↔ Memory.wf d.mem = true ∧ twf false d.tag = true ∧ twf false d.pois = true
      ∧ twf none d.l2p = true ∧ Memory.wf d.host = true ∧ Memory.wf d.peer = true := by
  simp [Device.wf, and_assoc]

/-- What changes none of the six tables keeps the canonical form. -/
theorem Device.wf_of_eq {d e : Device} (hm : e.mem = d.mem) (ht : e.tag = d.tag) (hp : e.pois = d.pois)
    (hl : e.l2p = d.l2p) (hh : e.host = d.host) (hr : e.peer = d.peer) : e.wf = d.wf := by simp [Device.wf, hm, ht, hp, hl, hh, hr]

theorem Device.wf_tag {d : Device} (g : Nat) (v : Bool) (h : d.wf = true) :
    ({ d with tag := tset false d.tag g v } : Device).wf = true := by
  rw [Device.wf_iff] at h ⊢
  exact ⟨h.1, twf_tset _ _ _ h.2.1, h.2.2⟩

theorem Device.wf_setPois {d : Device} (n : Nat) (m : BitVec 4) (h : d.wf = true) : (d.setPois n m).wf = true := by
  rw [Device.wf_iff] at h ⊢
  exact ⟨h.1, h.2.1, h.2.2.1, twf_tset none n (some m) h.2.2.2.1, h.2.2.2.2⟩

/-- A slice that gives up a line keeps the canonical form. -/
theorem Device.wf_l2Evict {d : Device} (n : Nat) (h : d.wf = true) : (d.l2Evict n).wf = true := by
  unfold Device.l2Evict
  split
  · exact h
  · split
    · exact h
    · rw [Device.wf_iff] at h ⊢
      exact ⟨h.1, h.2.1, twf_tset _ _ _ h.2.2.1, twf_tset none n none h.2.2.2.1, h.2.2.2.2⟩

/-- Sectors brought under a slot keep the canonical form. -/
theorem Device.wf_rekey {d : Device} (pte : Option Word) (a n : Nat) (h : d.wf = true) : (d.rekey pte a n).wf = true := by
  obtain ⟨m, k, t, e, hw, hv⟩ := Device.rekey_only d pte a n
  rw [Device.wf_iff] at h
  rw [e, Device.wf_iff]
  exact ⟨hw h.1, hv h.2.1, h.2.2⟩

/-- A block written keeps the canonical form. -/
theorem Device.wf_putBlock {d : Device} (pte : Option Word) (lo n : Nat) (v : Nat → Option Byte) (h : d.wf = true) :
    (d.putBlock pte lo n v).wf = true := by
  unfold Device.putBlock
  split
  · have h1 := Device.wf_rekey pte (lo / 4096 * 4096) 4096 h
    refine Device.repack_keeps (fun e => e.wf = true) (fun _ _ _ h => Device.wf_setPois _ _ h) _ _ _ _ ?_
    rw [Device.wf_iff] at h1 ⊢
    generalize d.rekey pte (lo / 4096 * 4096) 4096 = e at h1 ⊢
    generalize encodeBlock _ _ = c
    exact ⟨upTo_keeps (fun m => Memory.wf m = true)
      (f := fun i m => tset 0 m (lo / 4096 * 4096 + i) (c.2.getD i 0)) (fun i m hm => twf_tset 0 _ _ hm) c.2.length h1.1, h1.2⟩
  · have h1 := Device.wf_rekey pte lo n h
    unfold Device.patch
    dsimp only
    rw [Device.wf_iff] at h1 ⊢
    refine ⟨upTo_keeps (fun m => Memory.wf m = true) (fun i m hm => ?_) _ h1.1, h1.2⟩
    split
    · exact twf_tset 0 _ _ hm
    · exact hm

/-- A write keeps the canonical form. -/
theorem Device.wf_write {d : Device} (pte : Option Word) (a : Nat) (b : List Byte) (bad : Nat → Bool) (h : d.wf = true) :
    (d.write pte a b bad).wf = true := by
  unfold Device.write
  refine Device.sideWrite_keeps (fun e => e.wf = true) (fun _ _ _ h => Device.wf_tag _ _ h) (fun _ _ _ h => Device.wf_setPois _ _ h)
    _ a b.length bad ?_
  split
  · exact h
  · exact upTo_keeps (fun e : Device => e.wf = true) (fun i e he => Device.wf_putBlock _ _ _ _ he) _ h

/-- So does a write that comes through no page. -/
theorem Device.wf_put {d : Device} (a : Nat) (b : List Byte) (h : d.wf = true) : (d.put a b).wf = true :=
  Device.wf_write none a b _ h

/-- Writing back a line of the L1 keeps the canonical form. -/
theorem Device.wf_l1Push {d : Device} (l : L1Line) (h : d.wf = true) : (d.l1Push l).wf = true := by
  unfold Device.l1Push
  split
  · exact h
  · have h1 := Device.wf_putBlock (some l.pte) (64 * l.line) 64 (fun i => if l.dirty.getLsbD i then some (l.byte i) else none) h
    have h2 := upTo_keeps (fun d : Device => d.wf = true)
      (f := fun k d =>
        let dirt := bfld l.dirty (16 * k) 16
        if dirt = 0 then d
        else { d with tag := tset false d.tag (4 * l.line + k) (l.tag.getLsbD k && dirt = 0xFFFF) })
      (fun k d hd => by
        dsimp only
        split
        · exact hd
        · exact Device.wf_tag _ _ hd) 4 h1
    dsimp only at h2 ⊢
    split
    · exact h2
    · exact Device.wf_setPois _ _ h2

/-- Setting D in a PTE keeps the canonical form. -/
theorem Device.wf_setD {d : Device} (a : Nat) (h : d.wf = true) : (d.setD a).wf = true := Device.wf_put _ _ h

/-- The memory after reset is in canonical form. -/
theorem reset_wf : State.reset.wf = true := by decide

/-! ### The pool -/

theorem Pool.side_keeps (P : Pool → Prop) (h : ∀ (p : Pool) t q w f o, P p → P { p with tag := t, pois := q, wrec := w, full := f, own := o })
    (p : Pool) (a : Nat) (b : List Byte) (bad : Nat → Bool) (w : BitVec 3 × BitVec 8) (full : Bool)
    (hp : P { p with bytes := upTo b.length (fun i m => tset 0 m (a + i) (b.getD i 0)) p.bytes }) :
    P (p.write a b bad w full) := by
  unfold Pool.write
  dsimp only
  exact upTo_keeps P (fun i p hp => h p _ _ _ _ _ hp) _ hp

/-- The bytes of a pool write. -/
theorem Pool.write_bytes (p : Pool) (a : Nat) (b : List Byte) (bad : Nat → Bool) (w : BitVec 3 × BitVec 8) (full : Bool) :
    (p.write a b bad w full).bytes = upTo b.length (fun i m => tset 0 m (a + i) (b.getD i 0)) p.bytes :=
  Pool.side_keeps (fun e => e.bytes = upTo b.length (fun i m => tset 0 m (a + i) (b.getD i 0)) p.bytes)
    (fun _ _ _ _ _ _ h => h) p a b bad w full rfl

/-- Read after write in the pool (R198). -/
theorem Pool.byte_write (p : Pool) (a : Nat) (b : List Byte) (bad : Nat → Bool) (w : BitVec 3 × BitVec 8) (full : Bool)
    (j : Nat) :
    (p.write a b bad w full).byte j = if a ≤ j ∧ j < a + b.length then b.getD (j - a) 0 else p.byte j := by
  unfold Pool.byte
  rw [Pool.write_bytes]
  exact tget_writes 0 (fun i => b.getD i 0) a p.bytes b.length j

/-- A pool write keeps the canonical form. -/
theorem Pool.wf_write {p : Pool} (a : Nat) (b : List Byte) (bad : Nat → Bool) (w : BitVec 3 × BitVec 8) (full : Bool)
    (h : Memory.wf p.bytes = true) : Memory.wf (p.write a b bad w full).bytes = true := by
  rw [Pool.write_bytes]
  exact twf_writes 0 (fun i => b.getD i 0) a b.length h

/-- Clearing a span of the pool keeps the canonical form. -/
theorem Pool.wf_clear {p : Pool} (lo hi : Nat) (h : Memory.wf p.bytes = true) : Memory.wf (p.clear lo hi).bytes = true :=
  twf_tclear 0 lo hi h

/-- A cleared span reads as zeros, and the rest as before (R38, R195). -/
theorem Pool.byte_clear (p : Pool) (lo hi j : Nat) :
    (p.clear lo hi).byte j = if lo ≤ j ∧ j < hi then 0 else p.byte j :=
  tget_tclear 0 p.bytes lo hi j

/-! ### Registers are tables too -/

/-- A scalar register after a write of one. -/
theorem Quarter.rdS_put (x : Quarter) (d i : Reg) (v : Word) :
    (x.put (.s d.toNat v)).rdS i = if i = d then v else x.rdS i := by
  simp only [Quarter.rdS, Quarter.put_s_s, tget_tset]
  exact if_congr (by simp [BitVec.toNat_inj]) rfl rfl

end Sys2Proof.Machine
end

