-- ==== Sys2Proof/Laws/PerInstr.lean ====
section
/-! SUPPORT. For every instruction by itself: what the encoder writes, the decoder reads back.  For a syllable this is said
of its fields (R64 to R69, R72), for an engine command of its 224 bits (R75 to R80); an event has neither. -/

namespace Sys2Proof.Laws.Encoding

/-- The fields of a well-formed syllable suit its form and are those of no other instruction, and the bits of a well-formed
command are taken as that command by its engine. -/
def Statement (i : Instr) : Prop :=
  i.wf = true → (∀ r, i.toRaw = some r → r.ok ∧ ofRaw r = .ok i) ∧
    ∀ e c, encodeCommand i = some c → i.engine = some e → decodeCommand e c = i

/-- An instruction that is no engine command, whose fields name it as the candidate. -/
theorem of_cand {i : Instr} {r : Raw} (hr : i.toRaw = some r) (hc : encodeCommand i = none) (hk : i.wf = true → r.ok)
    (hn : normRaw r = r) (hd : i.wf = true → cand r = some i) : Statement i := by
  intro hw
  refine ⟨fun r' h' => ?_, fun e c h => by rw [hc] at h; exact absurd h (by simp)⟩
  rw [hr, Option.some.injEq] at h'
  subst h'
  exact ⟨hk hw, by simp [ofRaw, hn, hd hw, hw, hr]⟩

/-- An event: it has no encoding. -/
theorem of_event {i : Instr} (hr : i.toRaw = none) (hc : encodeCommand i = none) : Statement i := by
  intro _
  exact ⟨fun r h => by rw [hr] at h; exact absurd h (by simp), fun e c h => by rw [hc] at h; exact absurd h (by simp)⟩

/-- The number in a command word, below 2^224. -/
theorem cmdWord_toNat (op : BitVec 8) (h : CmdHdr) (n : Nat) (hn : n < 2 ^ 160) :
    (cmdWord op h n).toNat = pushBv op (pushCmdHdr h n) := by
  unfold cmdWord
  rw [BitVec.toNat_ofNat]
  refine Nat.mod_eq_of_lt ?_
  have : pushCmdHdr h n < 2 ^ (56 + 160) := by
    unfold pushCmdHdr
    exact pushB_lt _ (pushB_lt _ (pushB_lt _ (pushB_lt _ (pushB_lt _ (pushBv_lt _ (pushBv_lt _ (pushBv_lt _
      (pushBv_lt _ (pushBv_lt _ (pushBv_lt _ (pushBv_lt _ (pushBv_lt _ hn))))))))))))
  exact pushBv_lt _ this

@[simp] theorem takeCmdHdr_push (h : CmdHdr) (n : Nat) : takeCmdHdr (pushCmdHdr h n) = (h, n) := by
  simp [takeCmdHdr, pushCmdHdr]

/-- A command whose opcode and fields are taken as they were put. -/
theorem of_command {i : Instr} {e : Eng} {c : CmdWord} (hr : i.toRaw = none) (he : i.engine = some e)
    (hc : encodeCommand i = some c) (hd : i.wf = true → decodeCommand e c = i) : Statement i := by
  intro hw
  refine ⟨fun r h => by rw [hr] at h; exact absurd h (by simp), fun e' c' h1 h2 => ?_⟩
  rw [hc, Option.some.injEq] at h1
  rw [he, Option.some.injEq] at h2
  subst h1 h2
  exact hd hw

@[simp] theorem takeCeCommon_push (o : CeCommon) (n : Nat) : takeCeCommon (pushCeCommon o n) = (o, n) := by
  simp [takeCeCommon, pushCeCommon]
theorem pushCeCommon_lt (o : CeCommon) {n k : Nat} (h : n < 2 ^ k) : pushCeCommon o n < 2 ^ (32 + k) := by
  unfold pushCeCommon
  refine Nat.lt_of_lt_of_eq (pushBv_lt _ (pushBv_lt _ (pushB_lt _ (pushBv_lt _ (pushB_lt _ (pushBv_lt _ (pushBv_lt _ h))))))) ?_
  congr 1; omega
@[simp] theorem takeCopyOp_push (o : CopyOp) (n : Nat) : takeCopyOp (pushCopyOp o n) = (o, n) := by
  simp [takeCopyOp, pushCopyOp]
theorem pushCopyOp_lt (o : CopyOp) : pushCopyOp o 0 < 2 ^ 160 := by
  unfold pushCopyOp
  exact (pushCeCommon_lt _ (pushBv_lt _ (pushBv_lt _ (pushBv_lt _ (Nat.two_pow_pos 0)))))
@[simp] theorem takeCopy2dOp_push (o : Copy2dOp) (n : Nat) : takeCopy2dOp (pushCopy2dOp o n) = (o, n) := by
  simp [takeCopy2dOp, pushCopy2dOp]
theorem pushCopy2dOp_lt (o : Copy2dOp) : pushCopy2dOp o 0 < 2 ^ 160 := by
  unfold pushCopy2dOp
  exact (pushCeCommon_lt _ (pushBv_lt _ (pushBv_lt _ (pushBv_lt _ (pushBv_lt _ (pushBv_lt _ (pushBv_lt _ (Nat.two_pow_pos 0))))))))
@[simp] theorem takeCopy3dOp_push (o : Copy3dOp) (n : Nat) : takeCopy3dOp (pushCopy3dOp o n) = (o, n) := by
  simp [takeCopy3dOp, pushCopy3dOp]
theorem pushCopy3dOp_lt (o : Copy3dOp) : pushCopy3dOp o 0 < 2 ^ 160 := by
  unfold pushCopy3dOp
  exact (pushCeCommon_lt _ (pushBv_lt _ (pushBv_lt _ (pushBv_lt _ (pushBv_lt _ (pushBv_lt _ (pushBv_lt _ (pushBv_lt _ (pushBv_lt _ (pushBv_lt _ (Nat.two_pow_pos 0)))))))))))
@[simp] theorem takeFillOp_push (o : FillOp) (n : Nat) : takeFillOp (pushFillOp o n) = (o, n) := by
  simp [takeFillOp, pushFillOp]
theorem pushFillOp_lt (o : FillOp) : pushFillOp o 0 < 2 ^ 160 := by
  unfold pushFillOp
  exact (pushCeCommon_lt _ (pushBv_lt _ (pushBv_lt _ (pushBv_lt _ (pushBv_lt _ (Nat.two_pow_pos 0))))))
@[simp] theorem takeTileOp_push (o : TileOp) (n : Nat) : takeTileOp (pushTileOp o n) = (o, n) := by
  simp [takeTileOp, pushTileOp]
theorem pushTileOp_lt (o : TileOp) : pushTileOp o 0 < 2 ^ 160 := by
  unfold pushTileOp
  exact (pushBv_lt _ (pushBv_lt _ (pushBv_lt _ (pushB_lt _ (pushBv_lt _ (pushB_lt _ (pushBv_lt _ (pushBv_lt _ (pushBv_lt _ (pushB_lt _ (pushBv_lt _ (pushBv_lt _ (pushBv_lt _ (pushBv_lt _ (pushBv_lt _ (pushBv_lt _ (pushBv_lt _ (pushBv_lt _ (pushBv_lt _ (pushBv_lt _ (Nat.two_pow_pos 0)))))))))))))))))))))
@[simp] theorem takeNiCommon_push (o : NiCommon) (n : Nat) : takeNiCommon (pushNiCommon o n) = (o, n) := by
  simp [takeNiCommon, pushNiCommon]
theorem pushNiCommon_lt (o : NiCommon) {n k : Nat} (h : n < 2 ^ k) : pushNiCommon o n < 2 ^ (32 + k) := by
  unfold pushNiCommon
  refine Nat.lt_of_lt_of_eq (pushBv_lt _ (pushBv_lt _ (pushBv_lt _ (pushB_lt _ (pushBv_lt _ (pushBv_lt _ (pushBv_lt _ h))))))) ?_
  congr 1; omega
@[simp] theorem takeRrwOp_push (o : RrwOp) (n : Nat) : takeRrwOp (pushRrwOp o n) = (o, n) := by
  simp [takeRrwOp, pushRrwOp]
theorem pushRrwOp_lt (o : RrwOp) : pushRrwOp o 0 < 2 ^ 160 := by
  unfold pushRrwOp
  exact (pushNiCommon_lt _ (pushBv_lt _ (pushBv_lt _ (pushBv_lt _ (pushBv_lt _ (pushBv_lt _ (Nat.two_pow_pos 0)))))))
@[simp] theorem takeRsendOp_push (o : RsendOp) (n : Nat) : takeRsendOp (pushRsendOp o n) = (o, n) := by
  simp [takeRsendOp, pushRsendOp]
theorem pushRsendOp_lt (o : RsendOp) : pushRsendOp o 0 < 2 ^ 160 := by
  unfold pushRsendOp
  exact (pushNiCommon_lt _ (pushBv_lt _ (pushBv_lt _ (pushBv_lt _ (pushB_lt _ (pushBv_lt _ (pushB_lt _ (pushBv_lt _ (pushBv_lt _ (pushBv_lt _ (Nat.two_pow_pos 0)))))))))))
@[simp] theorem takeTaperevOp_push (o : TaperevOp) (n : Nat) : takeTaperevOp (pushTaperevOp o n) = (o, n) := by
  simp [takeTaperevOp, pushTaperevOp]
theorem pushTaperevOp_lt (o : TaperevOp) : pushTaperevOp o 0 < 2 ^ 160 := by
  unfold pushTaperevOp
  exact (pushBv_lt _ (pushBv_lt _ (pushB_lt _ (pushBv_lt _ (pushBv_lt _ (pushBv_lt _ (pushBv_lt _ (pushBv_lt _ (pushBv_lt _ (Nat.two_pow_pos 0))))))))))
@[simp] theorem takeCmuOp_push (o : CmuOp) (n : Nat) : takeCmuOp (pushCmuOp o n) = (o, n) := by
  simp [takeCmuOp, pushCmuOp]
theorem pushCmuOp_lt (o : CmuOp) : pushCmuOp o 0 < 2 ^ 160 := by
  unfold pushCmuOp
  exact (pushBv_lt _ (pushBv_lt _ (pushBv_lt _ (pushBv_lt _ (pushBv_lt _ (pushBv_lt _ (pushBv_lt _ (pushBv_lt _ (pushBv_lt _ (pushBv_lt _ (pushBv_lt _ (pushBv_lt _ (pushB_lt _ (pushBv_lt _ (Nat.two_pow_pos 0)))))))))))))))
@[simp] theorem takeAccOp_push (o : AccOp) (n : Nat) : takeAccOp (pushAccOp o n) = (o, n) := by
  simp [takeAccOp, pushAccOp]
theorem pushAccOp_lt (o : AccOp) : pushAccOp o 0 < 2 ^ 160 := by
  unfold pushAccOp
  exact (pushBv_lt _ (pushBv_lt _ (pushBv_lt _ (pushB_lt _ (pushBv_lt _ (pushBv_lt _ (pushBv_lt _ (pushBv_lt _ (pushB_lt _ (pushBv_lt _ (pushBv_lt _ (pushBv_lt _ (pushBv_lt _ (pushBv_lt _ (Nat.two_pow_pos 0)))))))))))))))
@[simp] theorem takeMmaOp_push (o : MmaOp) (n : Nat) : takeMmaOp o.fmt o.shape (pushMmaOp o n) = (o, n) := by
  simp [takeMmaOp, pushMmaOp]
theorem pushMmaOp_lt (o : MmaOp) : pushMmaOp o 0 < 2 ^ 160 := by
  unfold pushMmaOp
  exact (pushBv_lt _ (pushB_lt _ (pushBv_lt _ (pushBv_lt _ (pushBv_lt _ (pushBv_lt _ (pushBv_lt _ (pushB_lt _ (pushBv_lt _ (pushB_lt _ (pushBv_lt _ (pushBv_lt _ (pushBv_lt _ (pushBv_lt _ (pushBv_lt _ (pushBv_lt _ (pushB_lt _ (pushB_lt _ (pushBv_lt _ (Nat.two_pow_pos 0))))))))))))))))))))

theorem cmpi_short {g : Guard} {d a : Reg} {i : Imm} {c : Cond} {k : Comb} (hw : (Instr.cmpi g d a i c k).wf = true)
    (hl : i.isLong = false) : g = none ∧ k.code ++ c.code = 0 := by
  cases i with
  | long v => exact absurd hl (by simp [Imm.isLong])
  | short v =>
    delta Instr.wf at hw
    simp only [Bool.and_eq_true, Imm.isLong, Bool.false_or, beq_iff_eq] at hw
    obtain ⟨h, rfl, rfl⟩ := hw
    exact ⟨fits_short h.2, rfl⟩

theorem semwait_short {g : Guard} {d a : Reg} {i : Imm} {c : Bool} (hw : (Instr.semwait g d a i c).wf = true)
    (hl : i.isLong = false) : g = none ∧ q1 c = 0 := by
  cases i with
  | long v => exact absurd hl (by simp [Imm.isLong])
  | short v =>
    delta Instr.wf at hw
    simp only [Bool.and_eq_true, Imm.isLong, Bool.false_or] at hw
    obtain ⟨⟨h, h2⟩, h3⟩ := hw
    cases c
    · exact ⟨fits_short h.2, rfl⟩
    · exact absurd h2 (by decide)

/-- A command of the MMA family, taken by its opcode. -/
theorem mma_taken (fam : BitVec 2) (h : CmdHdr) (o : MmaOp) {i : Instr} (h0 : 0 < fam.toNat) (h4 : fam.toNat < 4)
    (ha : mmaAdmitted fam.toNat o.fmt.toNat o.shape.toNat = true)
    (hi : ∀ k, k = fam.toNat → (match k with | 1 => Instr.mma h o | 2 => Instr.mmaSp h o | _ => Instr.mmaD h o) = i) :
    decodeCommand .me (cmdWord (mmaOpcode fam o) h (pushMmaOp o 0)) = i := by
  have hf := o.fmt.isLt
  have hs := o.shape.isLt
  have hn := mmaOpcode_toNat fam o
  have hk : (mmaOpcode fam o).toNat / 64 = fam.toNat := by omega
  simp only [decodeCommand, cmdWord_toNat _ _ _ (pushMmaOp_lt o), takeBv_pushBv, takeCmdHdr_push, mmaOpcode_fmt,
    mmaOpcode_shape, takeMmaOp_push]
  split <;> first
    | (rename_i hx; exfalso; omega)
    | (rw [hk, if_pos ha]; exact hi _ rfl)
    | contradiction


/-! ### The instructions -/

theorem add (g : Guard) (d : Reg) (a : Reg) (b : Reg) (w : Bool) : Statement (.add g d a b w) := by
  exact of_cand rfl rfl (fun _ => by simp [Raw.ok]) rfl fun _ => rfl
theorem sub (g : Guard) (d : Reg) (a : Reg) (b : Reg) (w : Bool) : Statement (.sub g d a b w) := by
  exact of_cand rfl rfl (fun _ => by simp [Raw.ok]) rfl fun _ => rfl
theorem mul (g : Guard) (d : Reg) (a : Reg) (b : Reg) (w : Bool) : Statement (.mul g d a b w) := by
  exact of_cand rfl rfl (fun _ => by simp [Raw.ok]) rfl fun _ => rfl
theorem mulh (g : Guard) (d : Reg) (a : Reg) (b : Reg) : Statement (.mulh g d a b) := by
  exact of_cand rfl rfl (fun _ => by simp [Raw.ok]) rfl fun _ => rfl
theorem mulhu (g : Guard) (d : Reg) (a : Reg) (b : Reg) : Statement (.mulhu g d a b) := by
  exact of_cand rfl rfl (fun _ => by simp [Raw.ok]) rfl fun _ => rfl
theorem div (g : Guard) (d : Reg) (a : Reg) (b : Reg) (w : Bool) : Statement (.div g d a b w) := by
  exact of_cand rfl rfl (fun _ => by simp [Raw.ok]) rfl fun _ => rfl
theorem divu (g : Guard) (d : Reg) (a : Reg) (b : Reg) (w : Bool) : Statement (.divu g d a b w) := by
  exact of_cand rfl rfl (fun _ => by simp [Raw.ok]) rfl fun _ => rfl
theorem rem (g : Guard) (d : Reg) (a : Reg) (b : Reg) (w : Bool) : Statement (.rem g d a b w) := by
  exact of_cand rfl rfl (fun _ => by simp [Raw.ok]) rfl fun _ => rfl
theorem remu (g : Guard) (d : Reg) (a : Reg) (b : Reg) (w : Bool) : Statement (.remu g d a b w) := by
  exact of_cand rfl rfl (fun _ => by simp [Raw.ok]) rfl fun _ => rfl
theorem and (g : Guard) (d : Reg) (a : Reg) (b : Reg) : Statement (.and g d a b) := by
  exact of_cand rfl rfl (fun _ => by simp [Raw.ok]) rfl fun _ => rfl
theorem or (g : Guard) (d : Reg) (a : Reg) (b : Reg) : Statement (.or g d a b) := by
  exact of_cand rfl rfl (fun _ => by simp [Raw.ok]) rfl fun _ => rfl
theorem xor (g : Guard) (d : Reg) (a : Reg) (b : Reg) : Statement (.xor g d a b) := by
  exact of_cand rfl rfl (fun _ => by simp [Raw.ok]) rfl fun _ => rfl
theorem andn (g : Guard) (d : Reg) (a : Reg) (b : Reg) : Statement (.andn g d a b) := by
  exact of_cand rfl rfl (fun _ => by simp [Raw.ok]) rfl fun _ => rfl
theorem shl (g : Guard) (d : Reg) (a : Reg) (b : Reg) (w : Bool) : Statement (.shl g d a b w) := by
  exact of_cand rfl rfl (fun _ => by simp [Raw.ok]) rfl fun _ => rfl
theorem shr (g : Guard) (d : Reg) (a : Reg) (b : Reg) (w : Bool) : Statement (.shr g d a b w) := by
  exact of_cand rfl rfl (fun _ => by simp [Raw.ok]) rfl fun _ => rfl
theorem sra (g : Guard) (d : Reg) (a : Reg) (b : Reg) (w : Bool) : Statement (.sra g d a b w) := by
  exact of_cand rfl rfl (fun _ => by simp [Raw.ok]) rfl fun _ => rfl
theorem rot (g : Guard) (d : Reg) (a : Reg) (b : Reg) (w : Bool) : Statement (.rot g d a b w) := by
  exact of_cand rfl rfl (fun _ => by simp [Raw.ok]) rfl fun _ => rfl
theorem min (g : Guard) (d : Reg) (a : Reg) (b : Reg) : Statement (.min g d a b) := by
  exact of_cand rfl rfl (fun _ => by simp [Raw.ok]) rfl fun _ => rfl
theorem max (g : Guard) (d : Reg) (a : Reg) (b : Reg) : Statement (.max g d a b) := by
  exact of_cand rfl rfl (fun _ => by simp [Raw.ok]) rfl fun _ => rfl
theorem minu (g : Guard) (d : Reg) (a : Reg) (b : Reg) : Statement (.minu g d a b) := by
  exact of_cand rfl rfl (fun _ => by simp [Raw.ok]) rfl fun _ => rfl
theorem maxu (g : Guard) (d : Reg) (a : Reg) (b : Reg) : Statement (.maxu g d a b) := by
  exact of_cand rfl rfl (fun _ => by simp [Raw.ok]) rfl fun _ => rfl
theorem clz (g : Guard) (d : Reg) (a : Reg) : Statement (.clz g d a) := by
  exact of_cand rfl rfl (fun _ => by simp [Raw.ok]) rfl fun _ => rfl
theorem ctz (g : Guard) (d : Reg) (a : Reg) : Statement (.ctz g d a) := by
  exact of_cand rfl rfl (fun _ => by simp [Raw.ok]) rfl fun _ => rfl
theorem popc (g : Guard) (d : Reg) (a : Reg) : Statement (.popc g d a) := by
  exact of_cand rfl rfl (fun _ => by simp [Raw.ok]) rfl fun _ => rfl
theorem sext (g : Guard) (d : Reg) (a : Reg) (b : Reg) : Statement (.sext g d a b) := by
  exact of_cand rfl rfl (fun _ => by simp [Raw.ok]) rfl fun _ => rfl
theorem zext (g : Guard) (d : Reg) (a : Reg) (b : Reg) : Statement (.zext g d a b) := by
  exact of_cand rfl rfl (fun _ => by simp [Raw.ok]) rfl fun _ => rfl
theorem mov (g : Guard) (d : Reg) (a : Reg) : Statement (.mov g d a) := by
  exact of_cand rfl rfl (fun _ => by simp [Raw.ok]) rfl fun _ => rfl
theorem movFromPredicate (g : Guard) (d : Reg) (a : Reg) : Statement (.movFromPredicate g d a) := by
  exact of_cand rfl rfl (fun _ => by simp [Raw.ok]) rfl fun _ => rfl
theorem sel (g : Guard) (d : Reg) (a : Reg) (b : Reg) (inv : Bool) : Statement (.sel g d a b inv) := by
  exact of_cand rfl rfl (fun _ => by simp [Raw.ok]) rfl fun _ => rfl
theorem cmp (g : Guard) (d : Reg) (a : Reg) (b : Reg) (w : Bool) (c : Cond) (k : Comb) : Statement (.cmp g d a b w c k) := by
  exact of_cand rfl rfl (fun _ => by simp [Raw.ok]) rfl fun _ => by 
    show (do let c0 ← Cond.ofCode ((k.code ++ c.code).extractLsb' 0 4); let k0 ← Comb.ofCode ((k.code ++ c.code).extractLsb' 4 2); some (.cmp g d a b w c0 k0) : Option Instr) = _
    simp only [q_24_lo, q_24_hi, q_42_lo, q_42_hi, q_33_lo, q_33_hi, Comb.ofCode_code, Cond.ofCode_code, Option.bind_eq_bind, Option.bind_some]
theorem pand (g : Guard) (d : Reg) (a : Reg) (b : Reg) : Statement (.pand g d a b) := by
  exact of_cand rfl rfl (fun _ => by simp [Raw.ok]) rfl fun _ => rfl
theorem por (g : Guard) (d : Reg) (a : Reg) (b : Reg) : Statement (.por g d a b) := by
  exact of_cand rfl rfl (fun _ => by simp [Raw.ok]) rfl fun _ => rfl
theorem pxor (g : Guard) (d : Reg) (a : Reg) (b : Reg) : Statement (.pxor g d a b) := by
  exact of_cand rfl rfl (fun _ => by simp [Raw.ok]) rfl fun _ => rfl
theorem pandn (g : Guard) (d : Reg) (a : Reg) (b : Reg) : Statement (.pandn g d a b) := by
  exact of_cand rfl rfl (fun _ => by simp [Raw.ok]) rfl fun _ => rfl
theorem pnot (g : Guard) (d : Reg) (a : Reg) : Statement (.pnot g d a) := by
  exact of_cand rfl rfl (fun _ => by simp [Raw.ok]) rfl fun _ => rfl
theorem pmov (g : Guard) (d : Reg) (a : Reg) : Statement (.pmov g d a) := by
  exact of_cand rfl rfl (fun _ => by simp [Raw.ok]) rfl fun _ => rfl
theorem pmovFromScalar (g : Guard) (d : Reg) (a : Reg) : Statement (.pmovFromScalar g d a) := by
  exact of_cand rfl rfl (fun _ => by simp [Raw.ok]) rfl fun _ => rfl
theorem cand (g : Guard) (d : Reg) (a : Reg) (b : Reg) : Statement (.cand g d a b) := by
  exact of_cand rfl rfl (fun _ => by simp [Raw.ok]) rfl fun _ => rfl
theorem candLen (g : Guard) (d : Reg) (a : Reg) (b : Reg) : Statement (.candLen g d a b) := by
  exact of_cand rfl rfl (fun _ => by simp [Raw.ok]) rfl fun _ => rfl
theorem cget (g : Guard) (d : Reg) (a : Reg) (f : CapField) : Statement (.cget g d a f) := by
  exact of_cand rfl rfl (fun _ => by simp [Raw.ok]) rfl fun _ => by 
    show ((CapField.ofCode f.code).map (.cget g d a ·) : Option Instr) = _
    simp only [CapField.ofCode_code, Option.map_some]
theorem cmove (g : Guard) (d : Reg) (a : Reg) : Statement (.cmove g d a) := by
  exact of_cand rfl rfl (fun _ => by simp [Raw.ok]) rfl fun _ => rfl
theorem cmoveInc (g : Guard) (d : Reg) (a : Reg) (b : Reg) : Statement (.cmoveInc g d a b) := by
  exact of_cand rfl rfl (fun _ => by simp [Raw.ok]) rfl fun _ => rfl
theorem ctag (g : Guard) (d : Reg) (a : Reg) (b : Reg) : Statement (.ctag g d a b) := by
  exact of_cand rfl rfl (fun _ => by simp [Raw.ok]) rfl fun _ => rfl
theorem ctagClr (g : Guard) (d : Reg) (a : Reg) : Statement (.ctagClr g d a) := by
  exact of_cand rfl rfl (fun _ => by simp [Raw.ok]) rfl fun _ => rfl
theorem ptbr (g : Guard) (d : Reg) (a : Reg) : Statement (.ptbr g d a) := by
  exact of_cand rfl rfl (fun _ => by simp [Raw.ok]) rfl fun _ => rfl
theorem ptbrRd (g : Guard) (d : Reg) (a : Reg) : Statement (.ptbrRd g d a) := by
  exact of_cand rfl rfl (fun _ => by simp [Raw.ok]) rfl fun _ => rfl
theorem br (g : Guard) (a : Reg) (b : Reg) (inv : Bool) (r : Bool) : Statement (.br g a b inv r) := by
  exact of_cand rfl rfl (fun _ => by simp [Raw.ok]) rfl fun _ => by 
    show (some (if false then .brUnconditional g a else .br g a b (qb (0#4 ++ (BitVec.ofBool r) ++ (BitVec.ofBool inv)) 0) (qb (0#4 ++ (BitVec.ofBool r) ++ (BitVec.ofBool inv)) 1)) : Option Instr) = _
    simp only [qb, q_411_0_0, q_411_0_1, if_true, if_false, Bool.false_eq_true, reduceIte]
theorem brUnconditional (g : Guard) (a : Reg) : Statement (.brUnconditional g a) := by
  exact of_cand rfl rfl (fun _ => by simp [Raw.ok]) rfl fun _ => rfl
theorem brl (g : Guard) (a : Reg) (b : Reg) (inv : Bool) : Statement (.brl g a b inv) := by
  exact of_cand rfl rfl (fun _ => by simp [Raw.ok]) rfl fun _ => by 
    show (some (if false then .brlUnconditional g a else .brl g a b (qb (q1 inv) 0)) : Option Instr) = _
    simp only [qb, q1_bit, if_true, if_false, Bool.false_eq_true, reduceIte]
theorem brlUnconditional (g : Guard) (a : Reg) : Statement (.brlUnconditional g a) := by
  exact of_cand rfl rfl (fun _ => by simp [Raw.ok]) rfl fun _ => rfl
theorem lend (g : Guard) (a : Reg) (r : Bool) : Statement (.lend g a r) := by
  exact of_cand rfl rfl (fun _ => by simp [Raw.ok]) rfl fun _ => rfl
theorem lbreak (g : Guard) (a : Reg) (b : Reg) : Statement (.lbreak g a b) := by
  exact of_cand rfl rfl (fun _ => by simp [Raw.ok]) rfl fun _ => rfl
theorem join (g : Guard) (a : Reg) : Statement (.join g a) := by
  exact of_cand rfl rfl (fun _ => by simp [Raw.ok]) rfl fun _ => rfl
theorem halt (g : Guard) : Statement (.halt g) := by
  exact of_cand rfl rfl (fun _ => by simp [Raw.ok]) rfl fun _ => rfl
theorem nop (g : Guard) : Statement (.nop g) := by
  exact of_cand rfl rfl (fun _ => by simp [Raw.ok]) rfl fun _ => rfl
theorem yield (g : Guard) : Statement (.yield g) := by
  exact of_cand rfl rfl (fun _ => by simp [Raw.ok]) rfl fun _ => rfl
theorem addi (g : Guard) (d : Reg) (a : Reg) (i : Imm) : Statement (.addi g d a i) := by
  cases i <;> exact of_cand rfl rfl (fun hw => ⟨by decide, by decide, fun hl => ⟨by first | (cases hl; done) | (delta Instr.wf at hw; simp only [Bool.and_eq_true] at hw; exact fits_short (by tauto)), rfl⟩⟩) (by first | rfl | simp [normRaw]) fun _ => rfl
theorem andi (g : Guard) (d : Reg) (a : Reg) (i : Imm) : Statement (.andi g d a i) := by
  cases i <;> exact of_cand rfl rfl (fun hw => ⟨by decide, by decide, fun hl => ⟨by first | (cases hl; done) | (delta Instr.wf at hw; simp only [Bool.and_eq_true] at hw; exact fits_short (by tauto)), rfl⟩⟩) (by first | rfl | simp [normRaw]) fun _ => rfl
theorem ori (g : Guard) (d : Reg) (a : Reg) (i : Imm) : Statement (.ori g d a i) := by
  cases i <;> exact of_cand rfl rfl (fun hw => ⟨by decide, by decide, fun hl => ⟨by first | (cases hl; done) | (delta Instr.wf at hw; simp only [Bool.and_eq_true] at hw; exact fits_short (by tauto)), rfl⟩⟩) (by first | rfl | simp [normRaw]) fun _ => rfl
theorem xori (g : Guard) (d : Reg) (a : Reg) (i : Imm) : Statement (.xori g d a i) := by
  cases i <;> exact of_cand rfl rfl (fun hw => ⟨by decide, by decide, fun hl => ⟨by first | (cases hl; done) | (delta Instr.wf at hw; simp only [Bool.and_eq_true] at hw; exact fits_short (by tauto)), rfl⟩⟩) (by first | rfl | simp [normRaw]) fun _ => rfl
theorem shli (g : Guard) (d : Reg) (a : Reg) (i : Imm) : Statement (.shli g d a i) := by
  cases i <;> exact of_cand rfl rfl (fun hw => ⟨by decide, by decide, fun hl => ⟨by first | (cases hl; done) | (delta Instr.wf at hw; simp only [Bool.and_eq_true] at hw; exact fits_short (by tauto)), rfl⟩⟩) (by first | rfl | simp [normRaw]) fun _ => rfl
theorem shri (g : Guard) (d : Reg) (a : Reg) (i : Imm) : Statement (.shri g d a i) := by
  cases i <;> exact of_cand rfl rfl (fun hw => ⟨by decide, by decide, fun hl => ⟨by first | (cases hl; done) | (delta Instr.wf at hw; simp only [Bool.and_eq_true] at hw; exact fits_short (by tauto)), rfl⟩⟩) (by first | rfl | simp [normRaw]) fun _ => rfl
theorem srai (g : Guard) (d : Reg) (a : Reg) (i : Imm) : Statement (.srai g d a i) := by
  cases i <;> exact of_cand rfl rfl (fun hw => ⟨by decide, by decide, fun hl => ⟨by first | (cases hl; done) | (delta Instr.wf at hw; simp only [Bool.and_eq_true] at hw; exact fits_short (by tauto)), rfl⟩⟩) (by first | rfl | simp [normRaw]) fun _ => rfl
theorem movi (g : Guard) (d : Reg) (i : Imm) : Statement (.movi g d i) := by
  cases i <;> exact of_cand rfl rfl (fun hw => ⟨by decide, by decide, fun hl => ⟨by first | (cases hl; done) | (delta Instr.wf at hw; simp only [Bool.and_eq_true] at hw; exact fits_short (by tauto)), rfl⟩⟩) (by first | rfl | simp [normRaw]) fun _ => rfl
theorem cmpi (g : Guard) (d : Reg) (a : Reg) (i : Imm) (c : Cond) (k : Comb) : Statement (.cmpi g d a i c k) := by
  cases i <;> exact of_cand rfl rfl (fun hw => ⟨by decide, by decide, fun hl => cmpi_short hw hl⟩) (by first | rfl | simp [normRaw]) fun _ => by simp only [Sys2Proof.cand, candB, qb, q1_bit, q_24_lo, q_24_hi, Cond.ofCode_code, Comb.ofCode_code, Option.bind_eq_bind, Option.bind_some]
theorem bfx (g : Guard) (d : Reg) (a : Reg) (i : Imm) : Statement (.bfx g d a i) := by
  cases i <;> exact of_cand rfl rfl (fun hw => ⟨by decide, by decide, fun hl => ⟨by first | (cases hl; done) | (delta Instr.wf at hw; simp only [Bool.and_eq_true] at hw; exact fits_short (by tauto)), rfl⟩⟩) (by first | rfl | simp [normRaw]) fun _ => rfl
theorem bfxu (g : Guard) (d : Reg) (a : Reg) (i : Imm) : Statement (.bfxu g d a i) := by
  cases i <;> exact of_cand rfl rfl (fun hw => ⟨by decide, by decide, fun hl => ⟨by first | (cases hl; done) | (delta Instr.wf at hw; simp only [Bool.and_eq_true] at hw; exact fits_short (by tauto)), rfl⟩⟩) (by first | rfl | simp [normRaw]) fun _ => rfl
theorem bfi (g : Guard) (d : Reg) (a : Reg) (i : Imm) : Statement (.bfi g d a i) := by
  cases i <;> exact of_cand rfl rfl (fun hw => ⟨by decide, by decide, fun hl => ⟨by first | (cases hl; done) | (delta Instr.wf at hw; simp only [Bool.and_eq_true] at hw; exact fits_short (by tauto)), rfl⟩⟩) (by first | rfl | simp [normRaw]) fun _ => rfl
theorem cinc (g : Guard) (d : Reg) (a : Reg) (i : Imm) : Statement (.cinc g d a i) := by
  cases i <;> exact of_cand rfl rfl (fun hw => ⟨by decide, by decide, fun hl => ⟨by first | (cases hl; done) | (delta Instr.wf at hw; simp only [Bool.and_eq_true] at hw; exact fits_short (by tauto)), rfl⟩⟩) (by first | rfl | simp [normRaw]) fun _ => rfl
theorem csetb (g : Guard) (d : Reg) (a : Reg) (i : Imm) : Statement (.csetb g d a i) := by
  cases i <;> exact of_cand rfl rfl (fun hw => ⟨by decide, by decide, fun hl => ⟨by first | (cases hl; done) | (delta Instr.wf at hw; simp only [Bool.and_eq_true] at hw; exact fits_short (by tauto)), rfl⟩⟩) (by first | rfl | simp [normRaw]) fun _ => rfl
theorem mfs (g : Guard) (d : Reg) (i : Imm) : Statement (.mfs g d i) := by
  cases i <;> exact of_cand rfl rfl (fun hw => ⟨by decide, by decide, fun hl => ⟨by first | (cases hl; done) | (delta Instr.wf at hw; simp only [Bool.and_eq_true] at hw; exact fits_short (by tauto)), rfl⟩⟩) (by first | rfl | simp [normRaw]) fun _ => rfl
theorem mts (g : Guard) (a : Reg) (i : Imm) : Statement (.mts g a i) := by
  cases i <;> exact of_cand rfl rfl (fun hw => ⟨by decide, by decide, fun hl => ⟨by first | (cases hl; done) | (delta Instr.wf at hw; simp only [Bool.and_eq_true] at hw; exact fits_short (by tauto)), rfl⟩⟩) (by first | rfl | simp [normRaw]) fun _ => rfl
theorem ptb (g : Guard) (d : Reg) (i : Imm) : Statement (.ptb g d i) := by
  cases i <;> exact of_cand rfl rfl (fun hw => ⟨by decide, by decide, fun hl => ⟨by first | (cases hl; done) | (delta Instr.wf at hw; simp only [Bool.and_eq_true] at hw; exact fits_short (by tauto)), rfl⟩⟩) (by first | rfl | simp [normRaw]) fun _ => rfl
theorem larm (g : Guard) (d : Reg) (a : Reg) (i : Imm) : Statement (.larm g d a i) := by
  cases i <;> exact of_cand rfl rfl (fun hw => ⟨by decide, by decide, fun hl => ⟨by first | (cases hl; done) | (delta Instr.wf at hw; simp only [Bool.and_eq_true] at hw; exact fits_short (by tauto)), rfl⟩⟩) (by first | rfl | simp [normRaw]) fun _ => rfl
theorem lstream (g : Guard) (d : Reg) (a : Reg) (i : Imm) : Statement (.lstream g d a i) := by
  cases i <;> exact of_cand rfl rfl (fun hw => ⟨by decide, by decide, fun hl => ⟨by first | (cases hl; done) | (delta Instr.wf at hw; simp only [Bool.and_eq_true] at hw; exact fits_short (by tauto)), rfl⟩⟩) (by first | rfl | simp [normRaw]) fun _ => rfl
theorem fork (g : Guard) (a : Reg) (i : Imm) : Statement (.fork g a i) := by
  cases i <;> exact of_cand rfl rfl (fun hw => ⟨by decide, by decide, fun hl => ⟨by first | (cases hl; done) | (delta Instr.wf at hw; simp only [Bool.and_eq_true] at hw; exact fits_short (by tauto)), rfl⟩⟩) (by first | rfl | simp [normRaw]) fun _ => rfl
theorem role (g : Guard) (i : Imm) : Statement (.role g i) := by
  cases i <;> exact of_cand rfl rfl (fun hw => ⟨by decide, by decide, fun hl => ⟨by first | (cases hl; done) | (delta Instr.wf at hw; simp only [Bool.and_eq_true] at hw; exact fits_short (by tauto)), rfl⟩⟩) (by first | rfl | simp [normRaw]) fun _ => rfl
theorem semwait (g : Guard) (d : Reg) (a : Reg) (i : Imm) (c : Bool) : Statement (.semwait g d a i c) := by
  cases i <;> exact of_cand rfl rfl (fun hw => ⟨by decide, by decide, fun hl => semwait_short hw hl⟩) (by first | rfl | simp [normRaw]) fun _ => by simp only [Sys2Proof.cand, candB, qb, q1_bit, q_24_lo, q_24_hi, Cond.ofCode_code, Comb.ofCode_code, Option.bind_eq_bind, Option.bind_some]
theorem semsig (g : Guard) (a : Reg) (i : Imm) : Statement (.semsig g a i) := by
  cases i <;> exact of_cand rfl rfl (fun hw => ⟨by decide, by decide, fun hl => ⟨by first | (cases hl; done) | (delta Instr.wf at hw; simp only [Bool.and_eq_true] at hw; exact fits_short (by tauto)), rfl⟩⟩) (by first | rfl | simp [normRaw]) fun _ => rfl
theorem semadd (g : Guard) (d : Reg) (a : Reg) (i : Imm) : Statement (.semadd g d a i) := by
  cases i <;> exact of_cand rfl rfl (fun hw => ⟨by decide, by decide, fun hl => ⟨by first | (cases hl; done) | (delta Instr.wf at hw; simp only [Bool.and_eq_true] at hw; exact fits_short (by tauto)), rfl⟩⟩) (by first | rfl | simp [normRaw]) fun _ => rfl
theorem semrd (g : Guard) (d : Reg) (i : Imm) : Statement (.semrd g d i) := by
  cases i <;> exact of_cand rfl rfl (fun hw => ⟨by decide, by decide, fun hl => ⟨by first | (cases hl; done) | (delta Instr.wf at hw; simp only [Bool.and_eq_true] at hw; exact fits_short (by tauto)), rfl⟩⟩) (by first | rfl | simp [normRaw]) fun _ => rfl
theorem bararrive (g : Guard) (d : Reg) (a : Reg) (i : Imm) : Statement (.bararrive g d a i) := by
  cases i <;> exact of_cand rfl rfl (fun hw => ⟨by decide, by decide, fun hl => ⟨by first | (cases hl; done) | (delta Instr.wf at hw; simp only [Bool.and_eq_true] at hw; exact fits_short (by tauto)), rfl⟩⟩) (by first | rfl | simp [normRaw]) fun _ => rfl
theorem barwait (g : Guard) (a : Reg) : Statement (.barwait g a) := by
  cases g <;> exact of_cand rfl rfl (fun _ => by simp [Raw.ok, Instr.toRaw.fixedImm, Imm.isLong]) (by first | rfl | simp [normRaw]) fun _ => by first | rfl | simp [Sys2Proof.cand, candB, Instr.toRaw.fixedImm, Imm.raw, Scope.code, Scope.ofCode, TapeFile.code, TapeFile.ofCode]
theorem fenceAcq (g : Guard) (s : Scope) : Statement (.fenceAcq g s) := by
  cases g <;> cases s <;> exact of_cand rfl rfl (fun _ => by simp [Raw.ok, Instr.toRaw.fixedImm, Imm.isLong]) (by first | rfl | simp [normRaw]) fun _ => by first | rfl | simp [Sys2Proof.cand, candB, Instr.toRaw.fixedImm, Imm.raw, Scope.code, Scope.ofCode, TapeFile.code, TapeFile.ofCode]
theorem fenceRel (g : Guard) (s : Scope) : Statement (.fenceRel g s) := by
  cases g <;> cases s <;> exact of_cand rfl rfl (fun _ => by simp [Raw.ok, Instr.toRaw.fixedImm, Imm.isLong]) (by first | rfl | simp [normRaw]) fun _ => by first | rfl | simp [Sys2Proof.cand, candB, Instr.toRaw.fixedImm, Imm.raw, Scope.code, Scope.ofCode, TapeFile.code, TapeFile.ofCode]
theorem fenceFull (g : Guard) (s : Scope) : Statement (.fenceFull g s) := by
  cases g <;> cases s <;> exact of_cand rfl rfl (fun _ => by simp [Raw.ok, Instr.toRaw.fixedImm, Imm.isLong]) (by first | rfl | simp [normRaw]) fun _ => by first | rfl | simp [Sys2Proof.cand, candB, Instr.toRaw.fixedImm, Imm.raw, Scope.code, Scope.ofCode, TapeFile.code, TapeFile.ofCode]
theorem fenceSettle (g : Guard) : Statement (.fenceSettle g) := by
  cases g <;> exact of_cand rfl rfl (fun _ => by simp [Raw.ok, Instr.toRaw.fixedImm, Imm.isLong]) (by first | rfl | simp [normRaw]) fun _ => by first | rfl | simp [Sys2Proof.cand, candB, Instr.toRaw.fixedImm, Imm.raw, Scope.code, Scope.ofCode, TapeFile.code, TapeFile.ofCode]
theorem trap (g : Guard) (a : Reg) (i : Imm) : Statement (.trap g a i) := by
  cases i <;> exact of_cand rfl rfl (fun hw => ⟨by decide, by decide, fun hl => ⟨by first | (cases hl; done) | (delta Instr.wf at hw; simp only [Bool.and_eq_true] at hw; exact fits_short (by tauto)), rfl⟩⟩) (by first | rfl | simp [normRaw]) fun _ => rfl
theorem taperec (g : Guard) (f : TapeFile) (a : Reg) : Statement (.taperec g f a) := by
  cases g <;> cases f <;> exact of_cand rfl rfl (fun _ => by simp [Raw.ok, Instr.toRaw.fixedImm, Imm.isLong]) (by first | rfl | simp [normRaw]) fun _ => by first | rfl | simp [Sys2Proof.cand, candB, Instr.toRaw.fixedImm, Imm.raw, Scope.code, Scope.ofCode, TapeFile.code, TapeFile.ofCode]
theorem tread (g : Guard) (d : Reg) (i : Imm) : Statement (.tread g d i) := by
  cases i <;> exact of_cand rfl rfl (fun hw => ⟨by decide, by decide, fun hl => ⟨by first | (cases hl; done) | (delta Instr.wf at hw; simp only [Bool.and_eq_true] at hw; exact fits_short (by tauto)), rfl⟩⟩) (by first | rfl | simp [normRaw]) fun _ => rfl
theorem ld (g : Guard) (d : Reg) (a : Reg) (b : Reg) (sz : Size) (sy : LdSync) (m : Bool) : Statement (.ld g d a b sz sy m) := by
  exact of_cand rfl rfl (fun _ => by simp [Raw.ok]) rfl fun _ => by 
    show ((LdSync.ofCode ((sy.code ++ sz.code).extractLsb' 2 4)).map (.ld g d a b (Size.ofCode ((sy.code ++ sz.code).extractLsb' 0 2)) · m) : Option Instr) = _
    simp only [q_24_lo, q_24_hi, q_42_lo, q_42_hi, q_33_lo, q_33_hi, LdSync.ofCode_code, Size.ofCode_code, Option.map_some]
theorem st (g : Guard) (d : Reg) (a : Reg) (b : Reg) (sz : Size) (sy : StSync) (m : Bool) : Statement (.st g d a b sz sy m) := by
  exact of_cand rfl rfl (fun _ => by simp [Raw.ok]) rfl fun _ => by 
    show ((StSync.ofCode ((sy.code ++ sz.code).extractLsb' 2 4)).map (.st g d a b (Size.ofCode ((sy.code ++ sz.code).extractLsb' 0 2)) · m) : Option Instr) = _
    simp only [q_24_lo, q_24_hi, q_42_lo, q_42_hi, q_33_lo, q_33_hi, Size.ofCode_code, StSync.ofCode_code, Option.map_some]
theorem vld (g : Guard) (d : Reg) (a : Reg) (b : Reg) (sy : LdSync) : Statement (.vld g d a b sy) := by
  exact of_cand rfl rfl (fun _ => by simp [Raw.ok]) rfl fun _ => by 
    show ((LdSync.ofCode ((sy.code ++ 0#2).extractLsb' 2 4)).map (.vld g d a b ·) : Option Instr) = _
    simp only [q_24_lo, q_24_hi, q_42_lo, q_42_hi, q_33_lo, q_33_hi, LdSync.ofCode_code, Option.map_some]
theorem vst (g : Guard) (d : Reg) (a : Reg) (b : Reg) (sy : StSync) : Statement (.vst g d a b sy) := by
  exact of_cand rfl rfl (fun _ => by simp [Raw.ok]) rfl fun _ => by 
    show ((StSync.ofCode ((sy.code ++ 0#2).extractLsb' 2 4)).map (.vst g d a b ·) : Option Instr) = _
    simp only [q_24_lo, q_24_hi, q_42_lo, q_42_hi, q_33_lo, q_33_hi, StSync.ofCode_code, Option.map_some]
theorem vadd (g : Guard) (d : Reg) (a : Reg) (b : Reg) (t : ElType) (rm : Rm) : Statement (.vadd g d a b t rm) := by
  exact of_cand rfl rfl (fun _ => by simp [Raw.ok]) rfl fun _ => by 
    show (do let t0 ← ElType.ofCode ((0#4 ++ t.q).extractLsb' 0 2) t.m; let r0 ← Rm.ofCode rm.code; some (.vadd g d a b t0 r0) : Option Instr) = _
    simp only [q_42_lo, ElType.ofCode_code, Rm.ofCode_code, Option.bind_eq_bind, Option.bind_some]
theorem vsub (g : Guard) (d : Reg) (a : Reg) (b : Reg) (t : ElType) (rm : Rm) : Statement (.vsub g d a b t rm) := by
  exact of_cand rfl rfl (fun _ => by simp [Raw.ok]) rfl fun _ => by 
    show (do let t0 ← ElType.ofCode ((0#4 ++ t.q).extractLsb' 0 2) t.m; let r0 ← Rm.ofCode rm.code; some (.vsub g d a b t0 r0) : Option Instr) = _
    simp only [q_42_lo, ElType.ofCode_code, Rm.ofCode_code, Option.bind_eq_bind, Option.bind_some]
theorem vmul (g : Guard) (d : Reg) (a : Reg) (b : Reg) (t : ElType) (rm : Rm) : Statement (.vmul g d a b t rm) := by
  exact of_cand rfl rfl (fun _ => by simp [Raw.ok]) rfl fun _ => by 
    show (do let t0 ← ElType.ofCode ((0#4 ++ t.q).extractLsb' 0 2) t.m; let r0 ← Rm.ofCode rm.code; some (.vmul g d a b t0 r0) : Option Instr) = _
    simp only [q_42_lo, ElType.ofCode_code, Rm.ofCode_code, Option.bind_eq_bind, Option.bind_some]
theorem vfma (g : Guard) (d : Reg) (a : Reg) (b : Reg) (t : ElType) (rm : Rm) : Statement (.vfma g d a b t rm) := by
  exact of_cand rfl rfl (fun _ => by simp [Raw.ok]) rfl fun _ => by 
    show (do let t0 ← ElType.ofCode ((0#4 ++ t.q).extractLsb' 0 2) t.m; let r0 ← Rm.ofCode rm.code; some (.vfma g d a b t0 r0) : Option Instr) = _
    simp only [q_42_lo, ElType.ofCode_code, Rm.ofCode_code, Option.bind_eq_bind, Option.bind_some]
theorem vfms (g : Guard) (d : Reg) (a : Reg) (b : Reg) (t : ElType) (rm : Rm) : Statement (.vfms g d a b t rm) := by
  exact of_cand rfl rfl (fun _ => by simp [Raw.ok]) rfl fun _ => by 
    show (do let t0 ← ElType.ofCode ((0#4 ++ t.q).extractLsb' 0 2) t.m; let r0 ← Rm.ofCode rm.code; some (.vfms g d a b t0 r0) : Option Instr) = _
    simp only [q_42_lo, ElType.ofCode_code, Rm.ofCode_code, Option.bind_eq_bind, Option.bind_some]
theorem vmin (g : Guard) (d : Reg) (a : Reg) (b : Reg) (t : ElType) : Statement (.vmin g d a b t) := by
  exact of_cand rfl rfl (fun _ => by simp [Raw.ok]) rfl fun _ => by 
    show ((ElType.ofCode ((0#4 ++ t.q).extractLsb' 0 2) t.m).map (.vmin g d a b ·) : Option Instr) = _
    simp only [q_42_lo, ElType.ofCode_code, Option.map_some]
theorem vmax (g : Guard) (d : Reg) (a : Reg) (b : Reg) (t : ElType) : Statement (.vmax g d a b t) := by
  exact of_cand rfl rfl (fun _ => by simp [Raw.ok]) rfl fun _ => by 
    show ((ElType.ofCode ((0#4 ++ t.q).extractLsb' 0 2) t.m).map (.vmax g d a b ·) : Option Instr) = _
    simp only [q_42_lo, ElType.ofCode_code, Option.map_some]
theorem viadd (g : Guard) (d : Reg) (a : Reg) (b : Reg) (h : Bool) : Statement (.viadd g d a b h) := by
  exact of_cand rfl rfl (fun _ => by simp [Raw.ok]) rfl fun _ => rfl
theorem visub (g : Guard) (d : Reg) (a : Reg) (b : Reg) (h : Bool) : Statement (.visub g d a b h) := by
  exact of_cand rfl rfl (fun _ => by simp [Raw.ok]) rfl fun _ => rfl
theorem vand (g : Guard) (d : Reg) (a : Reg) (b : Reg) : Statement (.vand g d a b) := by
  exact of_cand rfl rfl (fun _ => by simp [Raw.ok]) rfl fun _ => rfl
theorem vsel (g : Guard) (d : Reg) (a : Reg) (b : Reg) (inv : Bool) : Statement (.vsel g d a b inv) := by
  exact of_cand rfl rfl (fun _ => by simp [Raw.ok]) rfl fun _ => rfl
theorem vmov (g : Guard) (d : Reg) (a : Reg) : Statement (.vmov g d a) := by
  exact of_cand rfl rfl (fun _ => by simp [Raw.ok]) rfl fun _ => rfl
theorem ext (x : BitVec 20) : Statement (.ext x) := by
  exact of_cand rfl rfl (fun _ => by simp [Raw.ok]) rfl fun _ => congrArg (fun v => some (Instr.ext v)) (low_append _)
theorem capx (ci : BitVec 4) : Statement (.capx ci) := by
  exact of_cand rfl rfl (fun _ => by simp [Raw.ok]) rfl fun _ => congrArg (fun v => some (Instr.capx v)) (low_append _)
theorem cmdCe (g : Guard) (c : CmdWord) : Statement (.cmdCe g c) := by
  exact of_cand rfl rfl (fun _ => by simp [Raw.ok]) rfl fun _ => rfl
theorem cmdMe (g : Guard) (c : CmdWord) : Statement (.cmdMe g c) := by
  exact of_cand rfl rfl (fun _ => by simp [Raw.ok]) rfl fun _ => rfl
theorem cmdNi (g : Guard) (c : CmdWord) : Statement (.cmdNi g c) := by
  exact of_cand rfl rfl (fun _ => by simp [Raw.ok]) rfl fun _ => rfl
theorem cmdTape (g : Guard) (c : CmdWord) : Statement (.cmdTape g c) := by
  exact of_cand rfl rfl (fun _ => by simp [Raw.ok]) rfl fun _ => rfl
theorem cmdCmu (g : Guard) (c : CmdWord) : Statement (.cmdCmu g c) := by
  exact of_cand rfl rfl (fun _ => by simp [Raw.ok]) rfl fun _ => rfl
theorem rte (g : Guard) : Statement (.rte g) := by
  exact of_cand rfl rfl (fun _ => by simp [Raw.ok]) rfl fun _ => rfl
theorem trapen (g : Guard) : Statement (.trapen g) := by
  exact of_cand rfl rfl (fun _ => by simp [Raw.ok]) rfl fun _ => rfl
theorem trapdis (g : Guard) : Statement (.trapdis g) := by
  exact of_cand rfl rfl (fun _ => by simp [Raw.ok]) rfl fun _ => rfl
theorem ckpt (g : Guard) (d : Reg) : Statement (.ckpt g d) := by
  exact of_cand rfl rfl (fun _ => by simp [Raw.ok]) rfl fun _ => rfl
theorem ctxsave (g : Guard) (a : Reg) : Statement (.ctxsave g a) := by
  exact of_cand rfl rfl (fun _ => by simp [Raw.ok]) rfl fun _ => rfl
theorem ctxload (g : Guard) (a : Reg) : Statement (.ctxload g a) := by
  exact of_cand rfl rfl (fun _ => by simp [Raw.ok]) rfl fun _ => rfl
theorem scrub (g : Guard) (m : BitVec 16) : Statement (.scrub g m) := by
  exact of_cand rfl rfl (fun _ => by simp [Raw.ok]) rfl fun _ => rfl
theorem vor (g : Guard) (d : Reg) (a : Reg) (b : Reg) : Statement (.vor g d a b) := by
  exact of_cand rfl rfl (fun _ => by simp [Raw.ok]) rfl fun _ => by 
    show (some (.vor g d a (rbOf (rbrc b 0))) : Option Instr) = _
    simp only [rbOf_rbrc]
theorem vxor (g : Guard) (d : Reg) (a : Reg) (b : Reg) : Statement (.vxor g d a b) := by
  exact of_cand rfl rfl (fun _ => by simp [Raw.ok]) rfl fun _ => by 
    show (some (.vxor g d a (rbOf (rbrc b 0))) : Option Instr) = _
    simp only [rbOf_rbrc]
theorem vcmp (g : Guard) (d : Reg) (a : Reg) (b : Reg) (t : VCmpType) (c : VCond) (hi : Bool) : Statement (.vcmp g d a b t c hi) := by
  exact of_cand rfl rfl (fun _ => by simp [Raw.ok]) rfl fun _ => by 
    show ((VCond.ofCode ((t.code ++ c.code).extractLsb' 0 4)).map (.vcmp g d a (rbOf (rbrc b 0)) (VCmpType.ofCode ((t.code ++ c.code).extractLsb' 4 2)) · hi) : Option Instr) = _
    simp only [rbOf_rbrc, q_24_lo, q_24_hi, q_42_lo, q_42_hi, q_33_lo, q_33_hi, Cond.ofCode_code, VCmpType.ofCode_code, VCond.ofCode_code, Option.map_some]
theorem vimul (g : Guard) (d : Reg) (a : Reg) (b : Reg) (t : ElType) (hi : Bool) : Statement (.vimul g d a b t hi) := by
  exact of_cand rfl rfl (fun _ => by simp [Raw.ok]) rfl fun _ => by 
    show ((ElType.ofCode ((0#3 ++ BitVec.ofBool hi ++ t.q).extractLsb' 0 2) t.m).map (.vimul g d a (rbOf (rbrc b 0)) · (qb (0#3 ++ BitVec.ofBool hi ++ t.q) 2)) : Option Instr) = _
    simp only [qb, rbOf_rbrc, q_312_lo, q_312_bit, ElType.ofCode_code, Option.map_some]
theorem vabs (g : Guard) (d : Reg) (a : Reg) (t : ElType) : Statement (.vabs g d a t) := by
  exact of_cand rfl rfl (fun _ => by simp [Raw.ok]) rfl fun _ => by 
    show ((ElType.ofCode ((0#4 ++ t.q).extractLsb' 0 2) t.m).map (.vabs g d a ·) : Option Instr) = _
    simp only [q_42_lo, ElType.ofCode_code, Option.map_some]
theorem vneg (g : Guard) (d : Reg) (a : Reg) (t : ElType) : Statement (.vneg g d a t) := by
  exact of_cand rfl rfl (fun _ => by simp [Raw.ok]) rfl fun _ => by 
    show ((ElType.ofCode ((0#4 ++ t.q).extractLsb' 0 2) t.m).map (.vneg g d a ·) : Option Instr) = _
    simp only [q_42_lo, ElType.ofCode_code, Option.map_some]
theorem vrcp (g : Guard) (d : Reg) (a : Reg) (t : ElType) : Statement (.vrcp g d a t) := by
  exact of_cand rfl rfl (fun _ => by simp [Raw.ok]) rfl fun _ => by 
    show ((ElType.ofCode ((0#4 ++ t.q).extractLsb' 0 2) t.m).map (.vrcp g d a ·) : Option Instr) = _
    simp only [q_42_lo, ElType.ofCode_code, Option.map_some]
theorem vrsq (g : Guard) (d : Reg) (a : Reg) (t : ElType) : Statement (.vrsq g d a t) := by
  exact of_cand rfl rfl (fun _ => by simp [Raw.ok]) rfl fun _ => by 
    show ((ElType.ofCode ((0#4 ++ t.q).extractLsb' 0 2) t.m).map (.vrsq g d a ·) : Option Instr) = _
    simp only [q_42_lo, ElType.ofCode_code, Option.map_some]
theorem vexp2 (g : Guard) (d : Reg) (a : Reg) (t : ElType) : Statement (.vexp2 g d a t) := by
  exact of_cand rfl rfl (fun _ => by simp [Raw.ok]) rfl fun _ => by 
    show ((ElType.ofCode ((0#4 ++ t.q).extractLsb' 0 2) t.m).map (.vexp2 g d a ·) : Option Instr) = _
    simp only [q_42_lo, ElType.ofCode_code, Option.map_some]
theorem vlog2 (g : Guard) (d : Reg) (a : Reg) (t : ElType) : Statement (.vlog2 g d a t) := by
  exact of_cand rfl rfl (fun _ => by simp [Raw.ok]) rfl fun _ => by 
    show ((ElType.ofCode ((0#4 ++ t.q).extractLsb' 0 2) t.m).map (.vlog2 g d a ·) : Option Instr) = _
    simp only [q_42_lo, ElType.ofCode_code, Option.map_some]
theorem vtanh (g : Guard) (d : Reg) (a : Reg) (t : ElType) : Statement (.vtanh g d a t) := by
  exact of_cand rfl rfl (fun _ => by simp [Raw.ok]) rfl fun _ => by 
    show ((ElType.ofCode ((0#4 ++ t.q).extractLsb' 0 2) t.m).map (.vtanh g d a ·) : Option Instr) = _
    simp only [q_42_lo, ElType.ofCode_code, Option.map_some]
theorem vcvt (g : Guard) (d : Reg) (a : Reg) (dst : CvtType) (src : CvtType) (half : Bool) (rm : Rm) (ovs : Bool) : Statement (.vcvt g d a dst src half rm ovs) := by
  exact of_cand rfl rfl (fun _ => by simp [Raw.ok]) rfl fun _ => by 
    show (do let dst0 ← CvtType.ofCode ((dst.code ++ src.code).extractLsb' 3 3); let src0 ← CvtType.ofCode ((dst.code ++ src.code).extractLsb' 0 3); let r0 ← Rm.ofCode rm.code; some (.vcvt g d a dst0 src0 half r0 ovs) : Option Instr) = _
    simp only [q_24_lo, q_24_hi, q_42_lo, q_42_hi, q_33_lo, q_33_hi, CvtType.ofCode_code, Rm.ofCode_code, Option.bind_eq_bind, Option.bind_some]
theorem vrand (g : Guard) (d : Reg) : Statement (.vrand g d) := by
  exact of_cand rfl rfl (fun _ => by simp [Raw.ok]) rfl fun _ => rfl
theorem vprune (g : Guard) (d : Reg) (a : Reg) (b : Reg) : Statement (.vprune g d a b) := by
  exact of_cand rfl rfl (fun _ => by simp [Raw.ok]) rfl fun _ => by 
    show (some (.vprune g d a (rbOf (rbrc b 0))) : Option Instr) = _
    simp only [rbOf_rbrc]
theorem vshl (g : Guard) (d : Reg) (a : Reg) (b : Reg) (h : Bool) : Statement (.vshl g d a b h) := by
  exact of_cand rfl rfl (fun _ => by simp [Raw.ok]) rfl fun _ => by 
    show (some (.vshl g d a (rbOf (rbrc b 0)) h) : Option Instr) = _
    simp only [rbOf_rbrc]
theorem vshr (g : Guard) (d : Reg) (a : Reg) (b : Reg) (h : Bool) : Statement (.vshr g d a b h) := by
  exact of_cand rfl rfl (fun _ => by simp [Raw.ok]) rfl fun _ => by 
    show (some (.vshr g d a (rbOf (rbrc b 0)) h) : Option Instr) = _
    simp only [rbOf_rbrc]
theorem vsra (g : Guard) (d : Reg) (a : Reg) (b : Reg) (h : Bool) : Statement (.vsra g d a b h) := by
  exact of_cand rfl rfl (fun _ => by simp [Raw.ok]) rfl fun _ => by 
    show (some (.vsra g d a (rbOf (rbrc b 0)) h) : Option Instr) = _
    simp only [rbOf_rbrc]
theorem vimin (g : Guard) (d : Reg) (a : Reg) (b : Reg) (t : ElType) : Statement (.vimin g d a b t) := by
  exact of_cand rfl rfl (fun _ => by simp [Raw.ok]) rfl fun _ => by 
    show ((ElType.ofCode ((0#4 ++ t.q).extractLsb' 0 2) t.m).map (.vimin g d a (rbOf (rbrc b 0)) ·) : Option Instr) = _
    simp only [rbOf_rbrc, q_42_lo, ElType.ofCode_code, Option.map_some]
theorem vimax (g : Guard) (d : Reg) (a : Reg) (b : Reg) (t : ElType) : Statement (.vimax g d a b t) := by
  exact of_cand rfl rfl (fun _ => by simp [Raw.ok]) rfl fun _ => by 
    show ((ElType.ofCode ((0#4 ++ t.q).extractLsb' 0 2) t.m).map (.vimax g d a (rbOf (rbrc b 0)) ·) : Option Instr) = _
    simp only [rbOf_rbrc, q_42_lo, ElType.ofCode_code, Option.map_some]
theorem vadds (g : Guard) (d : Reg) (a : Reg) (b : Reg) (t : ElType) (s : Bool) : Statement (.vadds g d a b t s) := by
  exact of_cand rfl rfl (fun _ => by simp [Raw.ok]) rfl fun _ => by 
    show ((ElType.ofCode ((0#3 ++ BitVec.ofBool s ++ t.q).extractLsb' 0 2) t.m).map (.vadds g d a (rbOf (rbrc b 0)) · (qb (0#3 ++ BitVec.ofBool s ++ t.q) 2)) : Option Instr) = _
    simp only [qb, rbOf_rbrc, q_312_lo, q_312_bit, ElType.ofCode_code, Option.map_some]
theorem vdot4 (g : Guard) (d : Reg) (a : Reg) (b : Reg) (k : DotKind) (s : Bool) : Statement (.vdot4 g d a b k s) := by
  exact of_cand rfl rfl (fun _ => by simp [Raw.ok]) rfl fun _ => by 
    show ((DotKind.ofCode ((0#3 ++ BitVec.ofBool s ++ k.code).extractLsb' 0 2)).map (.vdot4 g d a (rbOf (rbrc b 0)) · (qb (0#3 ++ BitVec.ofBool s ++ k.code) 2)) : Option Instr) = _
    simp only [qb, rbOf_rbrc, q_312_lo, q_312_bit, DotKind.ofCode_code, Option.map_some]
theorem vbcast (g : Guard) (d : Reg) (a : Reg) (h : Bool) : Statement (.vbcast g d a h) := by
  exact of_cand rfl rfl (fun _ => by simp [Raw.ok]) rfl fun _ => rfl
theorem vbcastV (g : Guard) (d : Reg) (a : Reg) (k : BitVec 16) (h : Bool) : Statement (.vbcastV g d a k h) := by
  exact of_cand rfl rfl (fun _ => by simp [Raw.ok]) rfl fun _ => by first | rfl | simp [Sys2Proof.cand, candL, qb]
theorem vmovs (g : Guard) (d : Reg) (a : Reg) (b : Reg) : Statement (.vmovs g d a b) := by
  exact of_cand rfl rfl (fun _ => by simp [Raw.ok]) rfl fun _ => by 
    show (some (if false then .vmovsFrom g d a (rbOf (rbrc b 0)) else .vmovs g d a (rbOf (rbrc b 0))) : Option Instr) = _
    simp only [rbOf_rbrc, if_true, if_false, Bool.false_eq_true, reduceIte]
theorem vmovsFrom (g : Guard) (d : Reg) (a : Reg) (b : Reg) : Statement (.vmovsFrom g d a b) := by
  exact of_cand rfl rfl (fun _ => by simp [Raw.ok]) rfl fun _ => by 
    show (some (if true then .vmovsFrom g d a (rbOf (rbrc b 0)) else .vmovs g d a (rbOf (rbrc b 0))) : Option Instr) = _
    simp only [rbOf_rbrc, if_true, if_false, Bool.false_eq_true, reduceIte]
theorem vperm (g : Guard) (d : Reg) (a : Reg) (b : Reg) (h : Bool) : Statement (.vperm g d a b h) := by
  exact of_cand rfl rfl (fun _ => by simp [Raw.ok]) rfl fun _ => by 
    show (some (.vperm g d a (rbOf (rbrc b 0)) h) : Option Instr) = _
    simp only [rbOf_rbrc]
theorem vshuf (g : Guard) (d : Reg) (a : Reg) (b : Reg) (pat : ShufPat) (h : Bool) : Statement (.vshuf g d a b pat h) := by
  exact of_cand rfl rfl (fun _ => by simp [Raw.ok]) rfl fun _ => by 
    show (some (.vshuf g d a (rbOf (rbrc b 0)) (ShufPat.ofCode ((0#4 ++ pat.code).extractLsb' 0 2)) h) : Option Instr) = _
    simp only [rbOf_rbrc, q_42_lo, ShufPat.ofCode_code]
theorem vslide (g : Guard) (d : Reg) (a : Reg) (amt : SlideAmt) (rot : Bool) (up : Bool) : Statement (.vslide g d a amt rot up) := by
  cases amt with
  | reg b =>
    exact of_cand rfl rfl (fun _ => by simp [Raw.ok]) rfl fun _ => by
      show some (Instr.vslide g d a (slideOf (0#4 ++ BitVec.ofBool rot ++ BitVec.ofBool up) (rbrc b 0)) (qb (0#4 ++ BitVec.ofBool rot ++ BitVec.ofBool up) 1) (qb (0#4 ++ BitVec.ofBool rot ++ BitVec.ofBool up) 0)) = _
      simp only [slideOf, qb, q_411_0_0, q_411_0_1, q_411_0_2, rbOf_rbrc, if_true, if_false, Bool.false_eq_true, reduceIte]
  | imm k =>
    exact of_cand rfl rfl (fun _ => by simp [Raw.ok]) rfl fun _ => by
      show some (Instr.vslide g d a (slideOf (1#4 ++ BitVec.ofBool rot ++ BitVec.ofBool up) k) (qb (1#4 ++ BitVec.ofBool rot ++ BitVec.ofBool up) 1) (qb (1#4 ++ BitVec.ofBool rot ++ BitVec.ofBool up) 0)) = _
      simp only [slideOf, qb, q_411_1_0, q_411_1_1, q_411_1_2, rbOf_rbrc, if_true, if_false, Bool.false_eq_true, reduceIte]
theorem vred (g : Guard) (d : Reg) (a : Reg) (t : ElType) (op : RedOp) (rm : Rm) : Statement (.vred g d a t op rm) := by
  exact of_cand rfl rfl (fun _ => by simp [Raw.ok]) rfl fun _ => by 
    show (do let t0 ← ElType.ofCode ((0#2 ++ op.code ++ t.q).extractLsb' 0 2) t.m; let o0 ← RedOp.ofCode ((0#2 ++ op.code ++ t.q).extractLsb' 2 2); let r0 ← Rm.ofCode rm.code; some (.vred g d a t0 o0 r0) : Option Instr) = _
    simp only [q_222_lo, q_222_hi, ElType.ofCode_code, RedOp.ofCode_code, Rm.ofCode_code, Option.bind_eq_bind, Option.bind_some]
theorem vscan (g : Guard) (d : Reg) (a : Reg) (t : ElType) (op : RedOp) (e : Bool) (rm : Rm) : Statement (.vscan g d a t op e rm) := by
  exact of_cand rfl rfl (fun _ => by simp [Raw.ok]) rfl fun _ => by 
    show (do let t0 ← ElType.ofCode ((0#1 ++ BitVec.ofBool e ++ op.code ++ t.q).extractLsb' 0 2) t.m; let o0 ← RedOp.ofCode ((0#1 ++ BitVec.ofBool e ++ op.code ++ t.q).extractLsb' 2 2); let r0 ← Rm.ofCode rm.code; some (.vscan g d a t0 o0 (qb (0#1 ++ BitVec.ofBool e ++ op.code ++ t.q) 4) r0) : Option Instr) = _
    simp only [qb, q_1122_lo, q_1122_hi, q_1122_bit, ElType.ofCode_code, RedOp.ofCode_code, Rm.ofCode_code, Option.bind_eq_bind, Option.bind_some]
theorem vcompact (g : Guard) (d : Reg) (a : Reg) (b : Reg) : Statement (.vcompact g d a b) := by
  exact of_cand rfl rfl (fun _ => by simp [Raw.ok]) rfl fun _ => by 
    show (some (.vcompact g d a (rbOf (rbrc b 0))) : Option Instr) = _
    simp only [rbOf_rbrc]
theorem vexpand (g : Guard) (d : Reg) (a : Reg) (b : Reg) : Statement (.vexpand g d a b) := by
  exact of_cand rfl rfl (fun _ => by simp [Raw.ok]) rfl fun _ => by 
    show (some (.vexpand g d a (rbOf (rbrc b 0))) : Option Instr) = _
    simp only [rbOf_rbrc]
theorem vlds (g : Guard) (d : Reg) (a : Reg) (b : Reg) (c : Reg) (h : Bool) : Statement (.vlds g d a b c h) := by
  exact of_cand rfl rfl (fun _ => by simp [Raw.ok]) rfl fun _ => by 
    show (some (.vlds g d a (rbOf (rbrc b c)) (rcOf (rbrc b c)) (qb (q1 h) 0)) : Option Instr) = _
    simp only [qb, q1_bit, rbOf_rbrc, rcOf_rbrc]
theorem vsts (g : Guard) (d : Reg) (a : Reg) (b : Reg) (c : Reg) (h : Bool) : Statement (.vsts g d a b c h) := by
  exact of_cand rfl rfl (fun _ => by simp [Raw.ok]) rfl fun _ => by 
    show (some (.vsts g d a (rbOf (rbrc b c)) (rcOf (rbrc b c)) (qb (q1 h) 0)) : Option Instr) = _
    simp only [qb, q1_bit, rbOf_rbrc, rcOf_rbrc]
theorem vgath (g : Guard) (d : Reg) (a : Reg) (b : Reg) (c : Reg) (x : Bool) : Statement (.vgath g d a b c x) := by
  exact of_cand rfl rfl (fun _ => by simp [Raw.ok]) rfl fun _ => by 
    show (some (.vgath g d a (rbOf (rbrc b c)) (rcOf (rbrc b c)) (qb (q1 x) 0)) : Option Instr) = _
    simp only [qb, q1_bit, rbOf_rbrc, rcOf_rbrc]
theorem vscat (g : Guard) (d : Reg) (a : Reg) (b : Reg) (c : Reg) (x : Bool) : Statement (.vscat g d a b c x) := by
  exact of_cand rfl rfl (fun _ => by simp [Raw.ok]) rfl fun _ => by 
    show (some (.vscat g d a (rbOf (rbrc b c)) (rcOf (rbrc b c)) (qb (q1 x) 0)) : Option Instr) = _
    simp only [qb, q1_bit, rbOf_rbrc, rcOf_rbrc]
theorem pref (g : Guard) (a : Reg) (b : Reg) (c : Reg) (l2 : Bool) : Statement (.pref g a b c l2) := by
  exact of_cand rfl rfl (fun _ => by simp [Raw.ok]) rfl fun _ => by 
    show (some (.pref g a (rbOf (rbrc b c)) (rcOf (rbrc b c)) (qb (q1 l2) 0)) : Option Instr) = _
    simp only [qb, q1_bit, rbOf_rbrc, rcOf_rbrc]
theorem clean (g : Guard) (a : Reg) (b : Reg) (c : Reg) : Statement (.clean g a b c) := by
  exact of_cand rfl rfl (fun _ => by simp [Raw.ok]) rfl fun _ => by 
    show (some (.clean g a (rbOf (rbrc b c)) (rcOf (rbrc b c))) : Option Instr) = _
    simp only [rbOf_rbrc, rcOf_rbrc]
theorem inval (g : Guard) (a : Reg) (b : Reg) (c : Reg) : Statement (.inval g a b c) := by
  exact of_cand rfl rfl (fun _ => by simp [Raw.ok]) rfl fun _ => by 
    show (some (.inval g a (rbOf (rbrc b c)) (rcOf (rbrc b c))) : Option Instr) = _
    simp only [rbOf_rbrc, rcOf_rbrc]
theorem pin (g : Guard) (d : Reg) (a : Reg) (b : Reg) (c : Reg) : Statement (.pin g d a b c) := by
  exact of_cand rfl rfl (fun _ => by simp [Raw.ok]) rfl fun _ => by 
    show (some (.pin g d a (rbOf (rbrc b c)) (rcOf (rbrc b c))) : Option Instr) = _
    simp only [rbOf_rbrc, rcOf_rbrc]
theorem unpin (g : Guard) (d : Reg) (a : Reg) (b : Reg) (c : Reg) : Statement (.unpin g d a b c) := by
  exact of_cand rfl rfl (fun _ => by simp [Raw.ok]) rfl fun _ => by 
    show (some (.unpin g d a (rbOf (rbrc b c)) (rcOf (rbrc b c))) : Option Instr) = _
    simp only [rbOf_rbrc, rcOf_rbrc]
theorem vamo (g : Guard) (d : Reg) (a : Reg) (b : Reg) (c : Reg) (op : AmoOp) (u : Bool) (nr : Bool) : Statement (.vamo g d a b c op u nr) := by
  exact of_cand rfl rfl (fun _ => by simp [Raw.ok]) rfl fun _ => by 
    show ((AmoOp.ofCode ((0#1 ++ BitVec.ofBool nr ++ BitVec.ofBool u ++ op.code).extractLsb' 0 3)).map (.vamo g d a (rbOf (rbrc b c)) (rcOf (rbrc b c)) · (qb (0#1 ++ BitVec.ofBool nr ++ BitVec.ofBool u ++ op.code) 3) (qb (0#1 ++ BitVec.ofBool nr ++ BitVec.ofBool u ++ op.code) 4)) : Option Instr) = _
    simp only [qb, rbOf_rbrc, rcOf_rbrc, q_1113_lo, q_1113_3, q_1113_4, AmoOp.ofCode_code, Option.map_some]
theorem accrd (g : Guard) (d : Reg) (a : Reg) (b : Reg) (s : Bool) : Statement (.accrd g d a b s) := by
  exact of_cand rfl rfl (fun _ => by simp [Raw.ok]) rfl fun _ => by 
    show (some (.accrd g d a (rbOf (rbrc b 0)) (qb (q1 s) 0)) : Option Instr) = _
    simp only [qb, q1_bit, rbOf_rbrc]
theorem accwr (g : Guard) (d : Reg) (a : Reg) (b : Reg) : Statement (.accwr g d a b) := by
  exact of_cand rfl rfl (fun _ => by simp [Raw.ok]) rfl fun _ => by 
    show (some (.accwr g d a (rbOf (rbrc b 0))) : Option Instr) = _
    simp only [rbOf_rbrc]
theorem acccvt (g : Guard) (d : Reg) (a : Reg) (b : Reg) (c : Reg) (fmt : Fmt) (s : Bool) (rm : Rm) (ovs : Bool) : Statement (.acccvt g d a b c fmt s rm ovs) := by
  exact of_cand rfl rfl (fun _ => by simp [Raw.ok]) rfl fun _ => by 
    show (do let f0 ← Fmt.ofCode ((0#1 ++ BitVec.ofBool s ++ fmt.code).extractLsb' 0 4); let r0 ← Rm.ofCode rm.code; some (.acccvt g d a (rbOf (rbrc b c)) (rcOf (rbrc b c)) f0 (qb (0#1 ++ BitVec.ofBool s ++ fmt.code) 4) r0 ovs) : Option Instr) = _
    simp only [qb, rbOf_rbrc, rcOf_rbrc, q_114_lo, q_114_bit, Fmt.ofCode_code, Rm.ofCode_code, Option.bind_eq_bind, Option.bind_some]
theorem acccommit (g : Guard) (d : Reg) (a : Reg) : Statement (.acccommit g d a) := by
  exact of_cand rfl rfl (fun _ => by simp [Raw.ok]) rfl fun _ => rfl
theorem accdiscard (g : Guard) (d : Reg) : Statement (.accdiscard g d) := by
  exact of_cand rfl rfl (fun _ => by simp [Raw.ok]) rfl fun _ => rfl
theorem accpoison (g : Guard) (d : Reg) (a : Reg) (b : Reg) (k : PoisSel) (clr : Bool) : Statement (.accpoison g d a b k clr) := by
  exact of_cand rfl rfl (fun _ => by simp [Raw.ok]) rfl fun _ => by 
    show ((PoisSel.ofCode ((0#3 ++ BitVec.ofBool clr ++ k.code).extractLsb' 0 2)).map (.accpoison g d a (rbOf (rbrc b 0)) · (qb (0#3 ++ BitVec.ofBool clr ++ k.code) 2)) : Option Instr) = _
    simp only [qb, rbOf_rbrc, q_312_lo, q_312_bit, PoisSel.ofCode_code, Option.map_some]
theorem tapeonRec (g : Guard) (a : Reg) (b : Reg) (ring : Bool) : Statement (.tapeonRec g a b ring) := by
  exact of_cand rfl rfl (fun _ => by simp [Raw.ok]) rfl fun _ => by 
    show (some (if qb (0#4 ++ BitVec.ofBool ring ++ 0#1) 0 then .tapeonRep g a (rbOf (rbrc b 0)) else .tapeonRec g a (rbOf (rbrc b 0)) (qb (0#4 ++ BitVec.ofBool ring ++ 0#1) 1)) : Option Instr) = _
    simp only [qb, rbOf_rbrc, q_411_ring_0, q_411_ring_1, if_true, if_false, Bool.false_eq_true, reduceIte]
theorem tapeonRep (g : Guard) (a : Reg) (b : Reg) : Statement (.tapeonRep g a b) := by
  exact of_cand rfl rfl (fun _ => by simp [Raw.ok]) rfl fun _ => by first | rfl | simp [Sys2Proof.cand, candL, qb]
theorem tapeoff (g : Guard) : Statement (.tapeoff g) := by
  exact of_cand rfl rfl (fun _ => by simp [Raw.ok]) rfl fun _ => rfl
theorem tapemark (g : Guard) : Statement (.tapemark g) := by
  exact of_cand rfl rfl (fun _ => by simp [Raw.ok]) rfl fun _ => rfl
theorem tapepop (g : Guard) (f : TapeFile) (d : Reg) : Statement (.tapepop g f d) := by
  exact of_cand rfl rfl (fun _ => by simp [Raw.ok]) rfl fun _ => by 
    show ((TapeFile.ofCode ((0#4 ++ f.code).extractLsb' 0 2)).map (.tapepop g · d) : Option Instr) = _
    simp only [q_42_lo, TapeFile.ofCode_code, Option.map_some]
theorem brtape (g : Guard) (a : Reg) : Statement (.brtape g a) := by
  exact of_cand rfl rfl (fun _ => by simp [Raw.ok]) rfl fun _ => rfl
theorem tapestat (g : Guard) (d : Reg) (n : BitVec 16) : Statement (.tapestat g d n) := by
  exact of_cand rfl rfl (fun _ => by simp [Raw.ok]) rfl fun _ => rfl
theorem submit (g : Guard) (d : Reg) (a : Reg) (b : Reg) : Statement (.submit g d a b) := by
  exact of_cand rfl rfl (fun _ => by simp [Raw.ok]) rfl fun _ => by 
    show (some (.submit g d a (rbOf (rbrc b 0))) : Option Instr) = _
    simp only [rbOf_rbrc]
theorem qclaim (g : Guard) (d : Reg) (a : Reg) (b : Reg) (h : Bool) : Statement (.qclaim g d a b h) := by
  exact of_cand rfl rfl (fun _ => by simp [Raw.ok]) rfl fun _ => by 
    show (some (.qclaim g d a (rbOf (rbrc b 0)) (qb (q1 h) 0)) : Option Instr) = _
    simp only [qb, q1_bit, rbOf_rbrc]
theorem qpublish (g : Guard) (d : Reg) (a : Reg) (b : Reg) (c : Reg) (h : Bool) : Statement (.qpublish g d a b c h) := by
  exact of_cand rfl rfl (fun _ => by simp [Raw.ok]) rfl fun _ => by 
    show (some (.qpublish g d a (rbOf (rbrc b c)) (rcOf (rbrc b c)) (qb (q1 h) 0)) : Option Instr) = _
    simp only [qb, q1_bit, rbOf_rbrc, rcOf_rbrc]
theorem qstat (g : Guard) (d : Reg) (a : Reg) (n : BitVec 16) : Statement (.qstat g d a n) := by
  refine of_cand rfl rfl (fun _ => by simp [Raw.ok]) rfl fun hw => ?_
  have h : n.toNat ≤ 5 := by
    have e : (d.isS && a.isS && decide (n.toNat ≤ 5)) = true := hw
    exact of_decide_eq_true (Bool.and_eq_true _ _ ▸ e).2
  have h6 : n ≠ 6 := by rintro rfl; exact absurd h (by decide)
  have h7 : n ≠ 7 := by rintro rfl; exact absurd h (by decide)
  show some (if n = 6 then Instr.qstatReload g d a else if n = 7 then Instr.qstatDisable g d a else Instr.qstat g d a n) = _
  rw [if_neg h6, if_neg h7]
theorem qstatReload (g : Guard) (d : Reg) (a : Reg) : Statement (.qstatReload g d a) := by
  exact of_cand rfl rfl (fun _ => by simp [Raw.ok]) rfl fun _ => rfl
theorem qstatDisable (g : Guard) (d : Reg) (a : Reg) : Statement (.qstatDisable g d a) := by
  exact of_cand rfl rfl (fun _ => by simp [Raw.ok]) rfl fun _ => rfl
theorem link (g : Guard) (d : Reg) (b : Reg) (e : Eng) : Statement (.link g d b e) := by
  exact of_cand rfl rfl (fun _ => by simp [Raw.ok]) rfl fun _ => by 
    show ((Eng.ofCode ((0#3 ++ e.code).extractLsb' 0 3)).map (.link g d (rbOf (rbrc b 0)) ·) : Option Instr) = _
    simp only [rbOf_rbrc, q_33_lo, Eng.ofCode_code, Option.map_some]
theorem kick (g : Guard) (d : Reg) (a : Reg) (b : Reg) (e : Eng) : Statement (.kick g d a b e) := by
  exact of_cand rfl rfl (fun _ => by simp [Raw.ok]) rfl fun _ => by 
    show ((Eng.ofCode ((0#3 ++ e.code).extractLsb' 0 3)).map (.kick g d a (rbOf (rbrc b 0)) ·) : Option Instr) = _
    simp only [rbOf_rbrc, q_33_lo, Eng.ofCode_code, Option.map_some]
theorem chainstat (g : Guard) (d : Reg) (n : BitVec 16) (e : Eng) : Statement (.chainstat g d n e) := by
  exact of_cand rfl rfl (fun _ => by simp [Raw.ok]) rfl fun _ => by 
    show ((Eng.ofCode ((0#3 ++ e.code).extractLsb' 0 3)).map (.chainstat g d n ·) : Option Instr) = _
    simp only [q_33_lo, Eng.ofCode_code, Option.map_some]
theorem tlbinv (g : Guard) (d : Reg) (a : Reg) (b : Reg) (c : Reg) (f : Bool) : Statement (.tlbinv g d a b c f) := by
  exact of_cand rfl rfl (fun _ => by simp [Raw.ok]) rfl fun _ => by 
    show (some (.tlbinv g d a (rbOf (rbrc b c)) (rcOf (rbrc b c)) (qb (q1 f) 0)) : Option Instr) = _
    simp only [qb, q1_bit, rbOf_rbrc, rcOf_rbrc]
theorem tlbprobe (g : Guard) (d : Reg) (a : Reg) (b : Reg) : Statement (.tlbprobe g d a b) := by
  exact of_cand rfl rfl (fun _ => by simp [Raw.ok]) rfl fun _ => by 
    show (some (.tlbprobe g d a (rbOf (rbrc b 0))) : Option Instr) = _
    simp only [rbOf_rbrc]
theorem keyprobe (g : Guard) (d : Reg) (a : Reg) (n : BitVec 16) : Statement (.keyprobe g d a n) := by
  exact of_cand rfl rfl (fun _ => by simp [Raw.ok]) rfl fun _ => rfl
theorem swzset (g : Guard) (a : Reg) : Statement (.swzset g a) := by
  exact of_cand rfl rfl (fun _ => by simp [Raw.ok]) rfl fun _ => rfl
theorem thrset (g : Guard) (d : Reg) (a : Reg) (b : Reg) (r : Bool) : Statement (.thrset g d a b r) := by
  exact of_cand rfl rfl (fun _ => by simp [Raw.ok]) rfl fun _ => by 
    show (some (.thrset g d a (rbOf (rbrc b 0)) (qb (q1 r) 0)) : Option Instr) = _
    simp only [qb, q1_bit, rbOf_rbrc]
theorem dltload (g : Guard) (d : Reg) (a : Reg) (b : Reg) : Statement (.dltload g d a b) := by
  exact of_cand rfl rfl (fun _ => by simp [Raw.ok]) rfl fun _ => by 
    show (some (.dltload g d a (rbOf (rbrc b 0))) : Option Instr) = _
    simp only [rbOf_rbrc]
theorem rcbsetLoad (g : Guard) (d : Reg) (a : Reg) : Statement (.rcbsetLoad g d a) := by
  exact of_cand rfl rfl (fun _ => by simp [Raw.ok]) rfl fun _ => rfl
theorem rcbsetFail (g : Guard) (d : Reg) (a : Reg) (b : Reg) : Statement (.rcbsetFail g d a b) := by
  exact of_cand rfl rfl (fun _ => by simp [Raw.ok]) rfl fun _ => by first | rfl | simp [Sys2Proof.cand, candL, qb]
theorem seminit (g : Guard) (a : Reg) (i : BitVec 16) : Statement (.seminit g a i) := by
  exact of_cand rfl rfl (fun _ => by simp [Raw.ok]) rfl fun _ => rfl
theorem semcas (g : Guard) (d : Reg) (a : Reg) (i : BitVec 16) : Statement (.semcas g d a i) := by
  exact of_cand rfl rfl (fun _ => by simp [Raw.ok]) rfl fun _ => rfl
theorem barinit (g : Guard) (a : Reg) (b : Reg) (c : Reg) : Statement (.barinit g a b c) := by
  exact of_cand rfl rfl (fun _ => by simp [Raw.ok]) rfl fun _ => by 
    show (some (.barinit g a (rbOf (rbrc b c)) (rcOf (rbrc b c))) : Option Instr) = _
    simp only [rbOf_rbrc, rcOf_rbrc]
theorem barexp (g : Guard) (a : Reg) (b : Reg) : Statement (.barexp g a b) := by
  exact of_cand rfl rfl (fun _ => by simp [Raw.ok]) rfl fun _ => by 
    show (some (.barexp g a (rbOf (rbrc b 0))) : Option Instr) = _
    simp only [rbOf_rbrc]
theorem tsync (g : Guard) (d : Reg) (a : Reg) : Statement (.tsync g d a) := by
  exact of_cand rfl rfl (fun _ => by simp [Raw.ok]) rfl fun _ => rfl
theorem tsyncStep (g : Guard) (d : Reg) (a : Reg) : Statement (.tsyncStep g d a) := by
  exact of_cand rfl rfl (fun _ => by simp [Raw.ok]) rfl fun _ => rfl
theorem tsyncPtm (g : Guard) (d : Reg) : Statement (.tsyncPtm g d) := by
  exact of_cand rfl rfl (fun _ => by simp [Raw.ok]) rfl fun _ => rfl
theorem pmcrd (g : Guard) (d : Reg) (n : BitVec 16) : Statement (.pmcrd g d n) := by
  exact of_cand rfl rfl (fun _ => by simp [Raw.ok]) rfl fun _ => rfl
theorem copy (h : CmdHdr) (o : CopyOp) : Statement (.copy h o) :=
  of_command (e := .ce) rfl rfl rfl fun _ => by
    simp [decodeCommand, cmdWord_toNat _ _ _ (pushCopyOp_lt o)]
theorem copy2d (h : CmdHdr) (o : Copy2dOp) : Statement (.copy2d h o) :=
  of_command (e := .ce) rfl rfl rfl fun _ => by
    simp [decodeCommand, cmdWord_toNat _ _ _ (pushCopy2dOp_lt o)]
theorem copy3d (h : CmdHdr) (o : Copy3dOp) : Statement (.copy3d h o) :=
  of_command (e := .ce) rfl rfl rfl fun _ => by
    simp [decodeCommand, cmdWord_toNat _ _ _ (pushCopy3dOp_lt o)]
theorem fill (h : CmdHdr) (o : FillOp) : Statement (.fill h o) :=
  of_command (e := .ce) rfl rfl rfl fun _ => by
    simp [decodeCommand, cmdWord_toNat _ _ _ (pushFillOp_lt o)]
theorem mccopy (h : CmdHdr) (o : TileOp) : Statement (.mccopy h o) :=
  of_command (e := .ce) rfl rfl rfl fun _ => by
    simp [decodeCommand, cmdWord_toNat _ _ _ (pushTileOp_lt o)]
theorem tgath (h : CmdHdr) (o : TileOp) : Statement (.tgath h o) :=
  of_command (e := .ce) rfl rfl rfl fun _ => by
    simp [decodeCommand, cmdWord_toNat _ _ _ (pushTileOp_lt o)]
theorem tscat (h : CmdHdr) (o : TileOp) : Statement (.tscat h o) :=
  of_command (e := .ce) rfl rfl rfl fun _ => by
    simp [decodeCommand, cmdWord_toNat _ _ _ (pushTileOp_lt o)]
theorem rread (h : CmdHdr) (o : RrwOp) : Statement (.rread h o) :=
  of_command (e := .ni) rfl rfl rfl fun _ => by
    simp [decodeCommand, cmdWord_toNat _ _ _ (pushRrwOp_lt o)]
theorem rwrite (h : CmdHdr) (o : RrwOp) : Statement (.rwrite h o) :=
  of_command (e := .ni) rfl rfl rfl fun _ => by
    simp [decodeCommand, cmdWord_toNat _ _ _ (pushRrwOp_lt o)]
theorem rsend (h : CmdHdr) (o : RsendOp) : Statement (.rsend h o) :=
  of_command (e := .ni) rfl rfl rfl fun _ => by
    simp [decodeCommand, cmdWord_toNat _ _ _ (pushRsendOp_lt o)]
theorem taperev (h : CmdHdr) (o : TaperevOp) : Statement (.taperev h o) :=
  of_command (e := .tape) rfl rfl rfl fun _ => by
    simp [decodeCommand, cmdWord_toNat _ _ _ (pushTaperevOp_lt o)]
theorem cmscan (h : CmdHdr) (o : CmuOp) : Statement (.cmscan h o) :=
  of_command (e := .cmu) rfl rfl rfl fun _ => by
    simp [decodeCommand, cmdWord_toNat _ _ _ (pushCmuOp_lt o)]
theorem cmreset (h : CmdHdr) (o : CmuOp) : Statement (.cmreset h o) :=
  of_command (e := .cmu) rfl rfl rfl fun _ => by
    simp [decodeCommand, cmdWord_toNat _ _ _ (pushCmuOp_lt o)]
theorem cmstat (h : CmdHdr) (o : CmuOp) : Statement (.cmstat h o) :=
  of_command (e := .cmu) rfl rfl rfl fun _ => by
    simp [decodeCommand, cmdWord_toNat _ _ _ (pushCmuOp_lt o)]
theorem accz (h : CmdHdr) (o : AccOp) : Statement (.accz h o) :=
  of_command (e := .me) rfl rfl rfl fun _ => by
    simp [decodeCommand, cmdWord_toNat _ _ _ (pushAccOp_lt o)]
theorem accld (h : CmdHdr) (o : AccOp) : Statement (.accld h o) :=
  of_command (e := .me) rfl rfl rfl fun _ => by
    simp [decodeCommand, cmdWord_toNat _ _ _ (pushAccOp_lt o)]
theorem accst (h : CmdHdr) (o : AccOp) : Statement (.accst h o) :=
  of_command (e := .me) rfl rfl rfl fun _ => by
    simp [decodeCommand, cmdWord_toNat _ _ _ (pushAccOp_lt o)]
theorem mma (h : CmdHdr) (o : MmaOp) : Statement (.mma h o) :=
  of_command (e := .me) rfl rfl rfl fun hw => by
    have hw' : mmaAdmitted 1 o.fmt.toNat o.shape.toNat = true := hw
    exact mma_taken 1 h o (by decide) (by decide) hw' (fun _ hk => by subst hk; rfl)
theorem mmaSp (h : CmdHdr) (o : MmaOp) : Statement (.mmaSp h o) :=
  of_command (e := .me) rfl rfl rfl fun hw => by
    have hw' : mmaAdmitted 2 o.fmt.toNat o.shape.toNat = true := hw
    exact mma_taken 2 h o (by decide) (by decide) hw' (fun _ hk => by subst hk; rfl)
theorem mmaD (h : CmdHdr) (o : MmaOp) : Statement (.mmaD h o) :=
  of_command (e := .me) rfl rfl rfl fun hw => by
    have hw' : mmaAdmitted 3 o.fmt.toNat o.shape.toNat = true := hw
    exact mma_taken 3 h o (by decide) (by decide) hw' (fun _ hk => by subst hk; rfl)
theorem engineCommandComplete (e : Eng) : Statement (.engineCommandComplete e) := of_event rfl rfl
theorem reservedEngineOpcode (e : Eng) (h : CmdHdr) (op : BitVec 8) : Statement (.reservedEngineOpcode e h op) := of_event rfl rfl
theorem chainFetch (e : Eng) : Statement (.chainFetch e) := of_event rfl rfl
theorem niInboundAccess (target : Nat) (fromKs : BitVec 8) (a : Inbound) : Statement (.niInboundAccess target fromKs a) := of_event rfl rfl
theorem tapeDrain (q : BitVec 2) : Statement (.tapeDrain q) := of_event rfl rfl
theorem waitlong (q : BitVec 2) : Statement (.waitlong q) := of_event rfl rfl
theorem mcheck (unit : Word) (synd : Word) : Statement (.mcheck unit synd) := of_event rfl rfl
theorem cardRead (qid : Nat) : Statement (.cardRead qid) := of_event rfl rfl
theorem dispatchCore (n : Nat) : Statement (.dispatchCore n) := of_event rfl rfl
theorem checkpoint (n : Nat) : Statement (.checkpoint n) := of_event rfl rfl
theorem kill (n : Nat) : Statement (.kill n) := of_event rfl rfl
theorem hostTailWrite (off : Nat) (v : BitVec 32) : Statement (.hostTailWrite off v) := of_event rfl rfl
theorem bar2Write (addr : Nat) (bytes : List Byte) : Statement (.bar2Write addr bytes) := of_event rfl rfl
theorem codecInputChunk (slot : Nat) : Statement (.codecInputChunk slot) := of_event rfl rfl
theorem codecFramePost (slot : Nat) (f : DecodedFrame) : Statement (.codecFramePost slot f) := of_event rfl rfl
theorem distillerLaneEntry (k : Nat) : Statement (.distillerLaneEntry k) := of_event rfl rfl
theorem distillerLaneCompletion (k : Nat) : Statement (.distillerLaneCompletion k) := of_event rfl rfl
theorem pageWalk (rcb : Nat) (va : Nat) (kind : BitVec 2) (agent : Nat) (core : Nat) : Statement (.pageWalk rcb va kind agent core) := of_event rfl rfl
theorem bootRom (a : FlashImage) (b : FlashImage) : Statement (.bootRom a b) := of_event rfl rfl
theorem fwifWrite (v : BitVec 32) : Statement (.fwifWrite v) := of_event rfl rfl
theorem poolLayoutWrite (n : BitVec 8) (v : Word) : Statement (.poolLayoutWrite n v) := of_event rfl rfl
theorem tcutAccess (e : Eng) : Statement (.tcutAccess e) := of_event rfl rfl
theorem modeWrite (v : Word) : Statement (.modeWrite v) := of_event rfl rfl
theorem registerWrite (off : Nat) (v : Word) : Statement (.registerWrite off v) := of_event rfl rfl
theorem bar2Read (addr : Nat) (len : Nat) : Statement (.bar2Read addr len) := of_event rfl rfl
theorem rreadReply (elem : Nat) (bytes : List Byte) (poisoned : Bool) : Statement (.rreadReply elem bytes poisoned) := of_event rfl rfl
theorem hostReadTimeout (addr : OuterAddr) (len : Nat) : Statement (.hostReadTimeout addr len) := of_event rfl rfl
theorem tapeReplayPrefetch (q : BitVec 2) : Statement (.tapeReplayPrefetch q) := of_event rfl rfl
theorem strandPromotion (q : BitVec 2) : Statement (.strandPromotion q) := of_event rfl rfl
theorem keyReservation (qid : Nat) (ctr : Nat) : Statement (.keyReservation qid ctr) := of_event rfl rfl
theorem tokenRefill (rcb : Nat) (cycles : Nat) : Statement (.tokenRefill rcb cycles) := of_event rfl rfl
theorem queueCounterWriteback (qid : Nat) : Statement (.queueCounterWriteback qid) := of_event rfl rfl
theorem clockThrottle (r : Reading) : Statement (.clockThrottle r) := of_event rfl rfl
theorem timeAdvance (ns : Nat) : Statement (.timeAdvance ns) := of_event rfl rfl
theorem preemptionDecision (qid : Nat) (ctr : Nat) : Statement (.preemptionDecision qid ctr) := of_event rfl rfl
theorem drainTimeout (n : Nat) : Statement (.drainTimeout n) := of_event rfl rfl
theorem spec : Statement (.spec) := by
  exact of_cand rfl rfl (fun _ => by simp [Raw.ok]) rfl fun _ => rfl
theorem tape : Statement (.tape) := by
  exact of_cand rfl rfl (fun _ => by simp [Raw.ok]) rfl fun _ => rfl
theorem latencyModeSwitch : Statement (.latencyModeSwitch) := of_event rfl rfl
theorem trapEntry : Statement (.trapEntry) := of_event rfl rfl
theorem dispatchRound : Statement (.dispatchRound) := of_event rfl rfl
theorem runEnd : Statement (.runEnd) := of_event rfl rfl
theorem pageQueueEntry : Statement (.pageQueueEntry) := of_event rfl rfl
theorem coldReset : Statement (.coldReset) := of_event rfl rfl
theorem modeChange : Statement (.modeChange) := of_event rfl rfl
theorem mailboxAttest : Statement (.mailboxAttest) := of_event rfl rfl
theorem mailboxKeyprov : Statement (.mailboxKeyprov) := of_event rfl rfl
theorem mailboxKeyrevoke : Statement (.mailboxKeyrevoke) := of_event rfl rfl
theorem mailboxUnknownOp : Statement (.mailboxUnknownOp) := of_event rfl rfl
theorem thermalShutdown : Statement (.thermalShutdown) := of_event rfl rfl
theorem d3hotEntry : Statement (.d3hotEntry) := of_event rfl rfl
theorem resultDelivery : Statement (.resultDelivery) := of_event rfl rfl
theorem d3hotExit : Statement (.d3hotExit) := of_event rfl rfl
theorem d3coldEntry : Statement (.d3coldEntry) := of_event rfl rfl
theorem reservedEncoding : Statement (.reservedEncoding) := of_event rfl rfl

end Sys2Proof.Laws.Encoding
end

