-- ==== Sys2Proof/Laws/Step.lean ====
section
/-! SUPPORT. How a line of one group is issued, and how an engine carries out a command, each in one equation: what the
statements about a step and about the engines' commands go through. -/

namespace Sys2Proof.Machine

/-! ### A line -/

/-- A result put in its register leaves all that is no general, b or vector register. -/
theorem Quarter.put_frame (x : Quarter) (d : Dest) : ({ x.put d with s := x.s, p := x.p, c := x.c, v := x.v, b := x.b } : Quarter) = x := by
  cases d <;> rfl
/-- So does a list of them. -/
theorem Quarter.put_all_frame (l : List Pending) (x : Quarter) : ({ l.foldl (fun y e => y.put e.dest) x with s := x.s, p := x.p, c := x.c, v := x.v, b := x.b } : Quarter) = x := by
  induction l generalizing x with
  | nil => rfl
  | cons a l ih =>
    rw [List.foldl_cons]
    have h1 := ih (x.put a.dest)
    have h2 := Quarter.put_frame x a.dest
    generalize l.foldl (fun y e => y.put e.dest) (x.put a.dest) = z at *
    generalize x.put a.dest = w at *
    cases z; cases w; cases x
    simp only [Quarter.mk.injEq] at h1 h2 ⊢
    simp_all
/-- Delivery of results moves neither the pc nor the latency mode (R32, R133). -/
theorem Quarter.deliverBy_frame (x : Quarter) (t) : (x.deliverBy t).pc = x.pc ∧ (x.deliverBy t).lat = x.lat := by
  unfold Quarter.deliverBy
  split
  · exact ⟨rfl, rfl⟩
  · have h := Quarter.put_all_frame (pendSort (x.pend.filter fun e => e.due ≤ t)) x
    have h1 := congrArg Quarter.pc h
    have h2 := congrArg Quarter.lat h
    exact ⟨h1, h2⟩
/-- The same of a core. -/
theorem Core.deliverDue_frame (c : Core) (k) : (c.deliverDue.quarter k).pc = (c.quarter k).pc ∧ (c.deliverDue.quarter k).lat = (c.quarter k).lat := by
  unfold Core.deliverDue Core.mapQuarters Core.quarter
  split <;> simp [Quarter.deliverBy_frame]

/-- A bundle of one whole group with its stop is placed and shares nothing. -/
theorem Bundle.placed_single {b : Bundle} {g : Group} (hs : b.groups = [g]) (hw : g.whole = true) (ht : g.stop = true)
    (j : Bool) (hsl : j = false → g.slot = 0) : b.placed j = true ∧ b.shares = true := by
  have hc : g.cut = false := by simp [Group.cut, hw]
  constructor
  · cases j <;> simp [Bundle.placed, hs, hc, hw, ht, slotsAscend]
    exact hsl rfl
  · simp only [Bundle.shares, hs, List.length_singleton]
    have : ((List.filterMap Group.instr [g]).filter Instr.redirects).length ≤ 1 :=
      Nat.le_trans (List.length_filter_le _ _) (List.length_filterMap_le _ _)
    simp [this]

/-- Its one group runs as the instruction alone. -/
theorem runGroups_single (x : Exec) {g : Group} {y : Syllable} (hp : g.pre = []) (hw : g.whole = true) (hd : decodeSyllable g.words = .ok y) (s : State) (hx : s.core.issue.stop = none) :
    runGroups x [g] s = andThen (x y.instr (s.modIssue (groupIssue g))) (fun s => .next s) := by
  have hgi : g.instr = some y.instr := by simp [Group.instr, hd]
  have h2 : (s.modIssue (groupIssue g)).core.issue.stop = none := by simp [State.modIssue, groupIssue, hx]
  simp only [runGroups, runGroup, Group.prefixFault, Group.cut, hw, hp]
  simp only [List.head?_nil, badPrefix, runPrefixes, runTarget, hgi, andThen, Bool.not_true, Bool.false_and, Bool.false_eq_true, if_false, h2, Option.isSome_none]

/-- Nothing follows. -/
theorem andThen_id (o : Out) : andThen o (fun s => .next s) = o := by
  cases o <;> simp [andThen]

/-- A line whose bundle at the pc is that group: the instruction is carried out and the bundle settled. -/
theorem issueLine_single (k : BitVec 2) (pc : Word) (l : BitVec 512) (s : State) (b g y)
  (ho : lineOk (if s.core.joint then 4 else k.toNat) l = true) (hf : lineEmpty l = false)
  (hb : (bundlesOf l).find? (fun b => 4 + 4 * b.pos = pc.toNat % 64) = some b) (hs : b.groups = [g])
  (hp : g.pre = []) (hw : g.whole = true) (ht : g.stop = true) (hsl : s.core.joint = false → g.slot = 0)
  (hd : decodeSyllable g.words = .ok y) (hm : s.core.otherMode k (latOf l) = true → s.core.enginesEmpty = true) :
  issueLine exec k pc l s =
    let n := s.contOf (if s.core.joint then 4 else k.toNat) (BitVec.ofNat 64 (pc.toNat / 64 * 64)) l b.next
    let c := s.core.settled k (latOf l)
    let s1 : State := { s with core := { c with issue := { issueOf k c.joint (latOf l) pc n with perf := c.perf } } }
    settleBundle s1 k 1 n.via (exec y.instr (s1.modIssue (groupIssue g))) := by
  obtain ⟨h1, h2⟩ := Bundle.placed_single hs hw ht s.core.joint hsl
  have hmw : s.core.modeWaits k l = false := by
    simp only [Core.modeWaits, Bool.and_eq_false_iff, Bool.not_eq_false']
    cases hq : s.core.otherMode k (latOf l) with
    | true => exact .inr (hm hq)
    | false => exact .inl rfl
  unfold issueLine
  simp only [ho, passes, hf]
  rw [if_neg (by simp), if_neg (by simp)]
  simp only [hb]
  rw [if_neg (by simp [hmw]), if_neg (by simp [h1, h2])]
  simp only [hs, List.length_singleton]
  rw [runGroups_single exec hp hw hd _ rfl, andThen_id]

/-! ### An engine at a command -/

/-- A command that begins and whose work answers is done with it. -/
theorem runCommand_ok {e : Eng} {op : Nat} {h : CmdHdr} {body : Ctx → M Unit} {s s1 s2 : State} {x : Ctx} {u : Unit}
    (hb : s.begins e op h = some (x, s1)) (hm : body x s1 = .ok u s2) : runCommand e op h body s = .next (s2.finished e) := by
  unfold State.begins at hb
  unfold runCommand State.finished
  dsimp only at hb ⊢
  rcases hq : (s.core.eng e).queue with _ | ⟨c, r⟩ <;> rw [hq] at hb <;> dsimp only at hb ⊢
  · simp at hb
  · split at hb
    · simp at hb
    · rename_i hn
      simp only [Bool.or_eq_true, not_or, Bool.not_eq_true, decide_eq_false_iff_not, decide_eq_true_eq] at hn
      obtain ⟨h1, h2⟩ := hn
      split at hb
      · rename_i hw
        split at hb
        · simp at hb
        · rename_i hs
          simp only [Bool.or_eq_true, Bool.not_eq_true', not_or, Bool.not_eq_true, Bool.not_eq_false] at hs
          simp only [Option.some.injEq, Prod.mk.injEq] at hb
          obtain ⟨rfl, rfl⟩ := hb
          simp [h1, hw, hs.1, hs.2, hm]
      · rename_i hw
        simp only [Option.some.injEq, Prod.mk.injEq] at hb
        obtain ⟨rfl, rfl⟩ := hb
        simp [h1, h2, hw, hm]

end Sys2Proof.Machine
end

