-- ==== Sys2Proof/Tests/Slice0.lean ====
section
/-! SUPPORT. Tests: words written out from the spec's encodings and the instructions they stand for; a term that each
check of WellFormed refuses; for every statement states and operands that meet its hypotheses; single steps. -/

namespace Sys2Proof.Tests
open Sys2Proof Sys2Proof.Machine
-- The proofs run one after another: each would take a thread of its own.
set_option Elab.async false

/-! ### Decoding

Each word is composed by hand from the spec's own bit positions: form A and B of R64, form L of R65, images of R68,
prefixes of R72, CMD of R74. -/

/-- What a list of words decodes to. -/
def dec (ws : List (BitVec 32)) : Option Instr :=
  match decodeSyllable ws with
  | .ok y => some y.instr
  | .error _ => none
/-- Words and the instruction they stand for, item by item. -/
def decodesTo (l : List (List (BitVec 32) × Instr)) : Bool := l.all fun x => dec x.1 == some x.2

/-- R64, R78, R98. -/
theorem test_decode_scalarA : decodesTo [
    ([0x80008206], .add none 1 2 3 false),
    ([0x80008207], .add none 1 2 3 true),
    ([0x8042050C], .sub none 4 5 6 false),
    ([0x80838813], .mul none 7 8 9 true),
    ([0x80C08206], .mulh none 1 2 3),
    ([0x81008206], .mulhu none 1 2 3),
    ([0x81408206], .div none 1 2 3 false),
    ([0x81808207], .divu none 1 2 3 true),
    ([0x81C08206], .rem none 1 2 3 false),
    ([0x82008206], .remu none 1 2 3 false),
    ([0x825FBE7A], .and none 63 62 61),
    ([0x82808206], .or none 1 2 3),
    ([0x82C08206], .xor none 1 2 3),
    ([0x83008206], .andn none 1 2 3),
    ([0x83408206], .shl none 1 2 3 false),
    ([0x83808207], .shr none 1 2 3 true),
    ([0x83C08206], .sra none 1 2 3 false),
    ([0x84008206], .rot none 1 2 3 false)
    ] = true := by decide

/-- R64, R78, R98, R104. -/
theorem test_decode_scalarA2 : decodesTo [
    ([0x84408206], .min none 1 2 3),
    ([0x84808206], .max none 1 2 3),
    ([0x84C08206], .minu none 1 2 3),
    ([0x85008206], .maxu none 1 2 3),
    ([0x85408200], .clz none 1 2),
    ([0x85808200], .ctz none 1 2),
    ([0x85C40700], .popc none 8 7),
    ([0x86008206], .sext none 1 2 3),
    ([0x86408206], .zext none 1 2 3),
    ([0x86808200], .mov none 1 2),
    ([0x86838101], .movFromPredicate none 7 1),
    ([0x86C08206], .sel none 1 2 3 false),
    ([0x9F9B03F8, 0x02081801], .sel (some 63) 1 2 3 true),
    ([0x87008207], .cmp none 1 2 3 true .eq .set),
    ([0x9F9CA400, 0x02081800], .cmp none 1 2 3 false .gtu .or),
    ([0x87408206], .pand none 1 2 3),
    ([0x87808206], .por none 1 2 3),
    ([0x87C08206], .pxor none 1 2 3),
    ([0x88008206], .pandn none 1 2 3),
    ([0x88408200], .pnot none 1 2),
    ([0x88808200], .pmov none 1 2),
    ([0x88808201], .pmovFromScalar none 1 2)
    ] = true := by decide

/-- R105, R106, R107. -/
theorem test_decode_capabilities : decodesTo [
    ([0x88C08206], .cand none 1 2 3),
    ([0x88C08207], .candLen none 1 2 3),
    ([0x89008200], .cget none 1 2 .base),
    ([0x9FA41400, 0x02080000], .cget none 1 2 .tag),
    ([0x89408200], .cmove none 1 2),
    ([0x89408207], .cmoveInc none 1 2 3),
    ([0x89808206], .ctag none 1 2 3),
    ([0x89808201], .ctagClr none 1 2),
    ([0x8F0203FF], .cinc none 4 3 (.short 0xFF)),
    ([0x9FBC0000, 0x080C0400], .cinc none 4 3 (.long 0x100)),
    ([0x8F420440], .csetb none 4 4 (.short 0x40))
    ] = true := by decide

/-- R116. -/
theorem test_decode_control : decodesTo [
    ([0x89C08200], .ptbr none 1 2),
    ([0x89C08201], .ptbrRd none 1 2),
    ([0x8A000104], .br none 1 2 false false),
    ([0x9FA80C00, 0x00041000], .br none 1 2 true true),
    ([0x8A000101], .brUnconditional none 1),
    ([0x8A400104], .brl none 1 2 false),
    ([0x8A400101], .brlUnconditional none 1),
    ([0x8A800301], .lend none 3 true),
    ([0x8AC0030E], .lbreak none 3 7),
    ([0x8B000100], .join none 1),
    ([0x8B400000], .halt none),
    ([0x8B800000], .nop none),
    ([0x8BC00000], .yield none),
    ([0x900080FE], .ptb none 1 (.short 0xFE)),
    ([0x90408209], .larm none 1 2 (.short 9)),
    ([0x90808209], .lstream none 1 2 (.short 9)),
    ([0x90C0010F], .fork none 1 (.short 15)),
    ([0x91000002], .role none (.short 2))
    ] = true := by decide

/-- R101, R102, R103, R108. -/
theorem test_decode_scalarB : decodesTo [
    ([0x8C020401], .addi none 4 4 (.short 1)),
    ([0x8C408203], .andi none 1 2 (.short 3)),
    ([0x8C808203], .ori none 1 2 (.short 3)),
    ([0x8CC08203], .xori none 1 2 (.short 3)),
    ([0x8D00823F], .shli none 1 2 (.short 63)),
    ([0x8D408203], .shri none 1 2 (.short 3)),
    ([0x8D808203], .srai none 1 2 (.short 3)),
    ([0x9FB70000, 0x0A000320], .movi none 5 (.long 200)),
    ([0x9FB81400, 0x041401FC], .cmpi none 2 5 (.long 127) .gt .set),
    ([0x8E010501], .cmpi none 2 5 (.short 1) .eq .set),
    ([0x8E4082C3], .bfx none 1 2 (.short 0xC3)),
    ([0x9FBA0000, 0x02083F00], .bfxu none 1 2 (.long 0xFC0)),
    ([0x8EC082C3], .bfi none 1 2 (.short 0xC3)),
    ([0x8F808020], .mfs none 1 (.short 0x20)),
    ([0x8FC00212], .mts none 2 (.short 0x12)),
    ([0x93000207], .trap none 2 (.short 7)),
    ([0x93406401], .taperec none .v 100),
    ([0x93808002], .tread none 1 (.short 2))
    ] = true := by decide

/-- R221, R323. -/
theorem test_decode_counters : decodesTo [
    ([0x91400001], .semwait none 0 0 (.short 1) false),
    ([0x9FC50400, 0x020803FC], .semwait none 1 2 (.long 255) true),
    ([0x91800003], .semsig none 0 (.short 3)),
    ([0x91C08203], .semadd none 1 2 (.short 3)),
    ([0x92008003], .semrd none 1 (.short 3)),
    ([0x92430701], .bararrive none 6 7 (.short 1)),
    ([0x92800600], .barwait none 6),
    ([0x92C00006], .fenceAcq none .device),
    ([0x92C00009], .fenceRel none .core),
    ([0x92C0000E], .fenceFull none .device),
    ([0x92C00001], .fenceSettle none),
    ([0x9DC00000, 0x00140024], .seminit none 5 9),
    ([0x9DC10000, 0x08140024], .semcas none 4 5 9),
    ([0x9DC20000, 0x00041030], .barinit none 1 2 3),
    ([0x9DC30000, 0x00041000], .barexp none 1 2),
    ([0x9DC40000, 0x02080000], .tsync none 1 2),
    ([0x9DC40400, 0x02080000], .tsyncStep none 1 2),
    ([0x9DC40800, 0x02000000], .tsyncPtm none 1),
    ([0x9DC50000, 0x02000080], .pmcrd none 1 32)
    ] = true := by decide

/-- R232, R238, R243. -/
theorem test_decode_memory : decodesTo [
    ([0x94028210], .ld none 5 2 8 .d .none false),
    ([0x9FD09400, 0x0A082000], .ld none 5 2 4 .w (.acq .device) false),
    ([0x9FD03C00, 0x0A082001], .ld none 5 2 4 .b .fec true),
    ([0x94428209], .st none 5 2 4 .d .none true),
    ([0x9FD1D800, 0x0A082000], .st none 5 2 4 .h (.rel .system) false),
    ([0x9FD12000, 0x0A082000], .st none 5 2 4 .d .sf false),
    ([0x94BF8208], .vld none 127 2 4 .none),
    ([0x9FD22000, 0x02082000], .vld none 1 2 4 .fe),
    ([0x94C08208], .vst none 1 2 4 .none),
    ([0x9C800400, 0x02081840], .vlds none 1 2 3 4 true),
    ([0x9C810000, 0x02081840], .vsts none 1 2 3 4 false),
    ([0x9C820400, 0x02081840], .vgath none 1 2 3 4 true),
    ([0x9C830000, 0x02081840], .vscat none 1 2 3 4 false),
    ([0x9C840400, 0x00081840], .pref none 2 3 4 true),
    ([0x9C850000, 0x00081840], .clean none 2 3 4),
    ([0x9C860000, 0x00081840], .inval none 2 3 4),
    ([0x9C870000, 0x02081840], .pin none 1 2 3 4),
    ([0x9C880000, 0x02081840], .unpin none 1 2 3 4),
    ([0x9C896800, 0x02081E40], .vamo none 1 2 3 100 .max true true),
    ([0x9C891A18, 0x02081840], .vamo (some 3) 1 2 3 4 .cas false false)
    ] = true := by decide

/-- R134, R135. -/
theorem test_decode_vectorA : decodesTo [
    ([0x9FD40219, 0x0A183800], .vadd (some 3) 5 6 7 .f32 .rtz),
    ([0x9502860F], .vadd none 5 6 7 .bf16 .rne),
    ([0x9FD50402, 0x0A183800], .vsub none 5 6 7 .f16 .rup),
    ([0x9FD60003, 0x0A183800], .vmul none 5 6 7 .f32 .rdn),
    ([0x95C50B18], .vfma none 10 11 12 .f32 .rne),
    ([0x96050B18], .vfms none 10 11 12 .f32 .rne),
    ([0x96408207], .vmin none 1 2 3 .bf16),
    ([0x9FDA0400, 0x02081800], .vmax none 1 2 3 .f16),
    ([0x96C08207], .viadd none 1 2 3 true),
    ([0x97008206], .visub none 1 2 3 false),
    ([0x974082FE], .vand none 1 2 127),
    ([0x97808207], .vsel none 1 2 3 true),
    ([0x97C08200], .vmov none 1 2)
    ] = true := by decide

/-- R134, R135, R139, R141. -/
theorem test_decode_vectorL : decodesTo [
    ([0x9C400000, 0x02081800], .vor none 1 2 3),
    ([0x9C410000, 0x02081800], .vxor none 1 2 3),
    ([0x9C42D000, 0x02081800], .vcmp none 1 2 3 .s32 .gt false),
    ([0x9C42A000, 0x02080001], .vcmp none 1 2 0 .f16 .nonfin true),
    ([0x9C431C00, 0x02081801], .vimul none 1 2 3 .z16 true),
    ([0x9C440800, 0x02080001], .vabs none 1 2 .s16),
    ([0x9C450000, 0x02080000], .vneg none 1 2 .f32),
    ([0x9C460000, 0x02080000], .vrcp none 1 2 .f32),
    ([0x9C470000, 0x02080001], .vrsq none 1 2 .bf16),
    ([0x9C480000, 0x02080000], .vexp2 none 1 2 .f32),
    ([0x9C490000, 0x02080000], .vlog2 none 1 2 .f32),
    ([0x9C4A0000, 0x02080000], .vtanh none 1 2 .f32),
    ([0x9C4B2004, 0x02080003], .vcvt none 1 2 .bf16 .f32 true .sr true),
    ([0x9C4B8800, 0x02080000], .vcvt none 1 2 .z32 .f16 false .rne false),
    ([0x9C4C0000, 0x02000000], .vrand none 1),
    ([0x9C4D0000, 0x02081800], .vprune none 1 2 3),
    ([0x9C4E0000, 0x02081801], .vshl none 1 2 3 true),
    ([0x9C4F0000, 0x02081800], .vshr none 1 2 3 false),
    ([0x9C500000, 0x02081800], .vsra none 1 2 3 false),
    ([0x9C510C00, 0x02081800], .vimin none 1 2 3 .z32),
    ([0x9C520800, 0x02081800], .vimax none 1 2 3 .s32),
    ([0x9C531800, 0x02081801], .vadds none 1 2 3 .s16 true),
    ([0x9C541400, 0x02081800], .vdot4 none 1 2 3 .zs true)
    ] = true := by decide

/-- R135, R142, R143, R145, R146. -/
theorem test_decode_vectorL2 : decodesTo [
    ([0x9C550000, 0x02100000], .vbcast none 1 4 false),
    ([0x9C550400, 0x020800FD], .vbcastV none 1 2 63 true),
    ([0x9C560000, 0x02081800], .vmovs none 1 2 3),
    ([0x9C560000, 0x02081801], .vmovsFrom none 1 2 3),
    ([0x9C570000, 0x02081801], .vperm none 1 2 3 true),
    ([0x9C580800, 0x02081800], .vshuf none 1 2 3 .even false),
    ([0x9C590C00, 0x02081800], .vslide none 1 2 (.reg 3) true true),
    ([0x9C591000, 0x0208007C], .vslide none 1 2 (.imm 31) false false),
    ([0x9C5A0800, 0x0C100000], .vred none 6 4 .s32 .add .rne),
    ([0x9C5A0002, 0x0C100001], .vred none 6 4 .bf16 .add .rup),
    ([0x9C5B0800, 0x04040000], .vscan none 2 1 .s32 .add false .rne),
    ([0x9C5B5000, 0x04040000], .vscan none 2 1 .f32 .max true .rne),
    ([0x9C5C0000, 0x08080800], .vcompact none 4 2 1),
    ([0x9C5D0000, 0x08080800], .vexpand none 4 2 1)
    ] = true := by decide

/-- R168, R186, R263. -/
theorem test_decode_system : decodesTo [
    ([0x9C000000, 0x00000000], .rte none),
    ([0x9C010000, 0x00000000], .trapen none),
    ([0x9C020228, 0x00000000], .trapdis (some 5)),
    ([0x9C030000, 0x0E000000], .ckpt none 7),
    ([0x9C040000, 0x00080000], .ctxsave none 2),
    ([0x9C050000, 0x00080000], .ctxload none 2),
    ([0x9C060000, 0x0000007C], .scrub none 31),
    ([0x9CC00400, 0x021C1800], .accrd none 1 7 3 true),
    ([0x9CC10000, 0x0E041800], .accwr none 7 1 3),
    ([0x9CC24801, 0x02081842], .acccvt none 1 2 3 4 .e4m3 true .rtz true),
    ([0x9CC30000, 0x02080000], .acccommit none 1 2),
    ([0x9CC40000, 0x02000000], .accdiscard none 1),
    ([0x9CC51800, 0x02081800], .accpoison none 1 2 3 .flg true),
    ([0x9D000800, 0x00041000], .tapeonRec none 1 2 true),
    ([0x9D000400, 0x00041000], .tapeonRep none 1 2),
    ([0x9D010000, 0x00000000], .tapeoff none),
    ([0x9D020000, 0x00000000], .tapemark none),
    ([0x9D030800, 0x06000000], .tapepop none .p 3),
    ([0x9D040000, 0x000C0000], .brtape none 3),
    ([0x9D050000, 0x0600001C], .tapestat none 3 7)
    ] = true := by decide

/-- R277, R281, R300. -/
theorem test_decode_queues : decodesTo [
    ([0x9D400000, 0x100C4800], .submit none 8 3 9),
    ([0x9D410400, 0x02081800], .qclaim none 1 2 3 true),
    ([0x9D420000, 0x02081840], .qpublish none 1 2 3 4 false),
    ([0x9D430000, 0x02080014], .qstat none 1 2 5),
    ([0x9D430000, 0x02080018], .qstatReload none 1 2),
    ([0x9D430000, 0x0208001C], .qstatDisable none 1 2),
    ([0x9D440800, 0x02001000], .link none 1 2 .ni),
    ([0x9D451000, 0x02081800], .kick none 1 2 3 .cmu),
    ([0x9D460C00, 0x0200000C], .chainstat none 1 3 .tape),
    ([0x9D800400, 0x02081840], .tlbinv none 1 2 3 4 true),
    ([0x9D810000, 0x02081800], .tlbprobe none 1 2 3),
    ([0x9D820000, 0x08140004], .keyprobe none 4 5 1),
    ([0x9D830000, 0x00140000], .swzset none 5),
    ([0x9D840000, 0x02081800], .thrset none 1 2 3 false),
    ([0x9D840400, 0x02080000], .thrset none 1 2 0 true),
    ([0x9D850000, 0x02081800], .dltload none 1 2 3),
    ([0x9D860000, 0x02080000], .rcbsetLoad none 1 2),
    ([0x9D860400, 0x02081800], .rcbsetFail none 1 2 3)
    ] = true := by decide

/-- R72, R74. -/
theorem test_decode_prefixesCmd : decodesTo [
    ([0x1B0ABCDE], .ext 0xABCDE),
    ([0x1B400009], .capx 9),
    ([0x1B800000], .spec),
    ([0x1BC00000], .tape),
    ([0x98000000, 0x77777777, 0x66666666, 0x55555555, 0x44444444, 0x33333333, 0x22222222, 0x11111111], .cmdCe none 0x11111111222222223333333344444444555555556666666677777777),
    ([0x98628000, 0x77777777, 0x66666666, 0x55555555, 0x44444444, 0x33333333, 0x22222222, 0x11111111], .cmdMe (some 5) 0x11111111222222223333333344444444555555556666666677777777),
    ([0x98800000, 0x77777777, 0x66666666, 0x55555555, 0x44444444, 0x33333333, 0x22222222, 0x11111111], .cmdNi none 0x11111111222222223333333344444444555555556666666677777777),
    ([0x98C00000, 0x77777777, 0x66666666, 0x55555555, 0x44444444, 0x33333333, 0x22222222, 0x11111111], .cmdTape none 0x11111111222222223333333344444444555555556666666677777777),
    ([0x99000000, 0x77777777, 0x66666666, 0x55555555, 0x44444444, 0x33333333, 0x22222222, 0x11111111], .cmdCmu none 0x11111111222222223333333344444444555555556666666677777777)
    ] = true := by decide

/-- The words the spec itself writes out: R86 (worked encoding), R110, R147, R232, R277, R300, R323, R221. -/
theorem test_decode_spec_examples : decodesTo [
    ([0x0C020401], .addi none 4 4 (.short 1)),
    ([0xD5C50B18], .vfma none 10 11 12 .f32 .rne),
    ([0xBFD40219, 0x0A183800], .vadd (some 3) 5 6 7 .f32 .rtz),
    ([0x8B400000], .halt none),
    ([0x0DC280FD], .movi none 5 (.short 0xFD)),
    ([0xBFB70000, 0x0A000320], .movi none 5 (.long 200)),
    ([0x1FB80800, 0x04140000], .cmpi none 2 5 (.long 0) .lt .set),
    ([0xBFB81400, 0x041401FC], .cmpi none 2 5 (.long 127) .gt .set),
    ([0x1FB70210, 0x0A000000], .movi (some 2) 5 (.long 0)),
    ([0x9C550000, 0x02100000], .vbcast none 1 4 false),
    ([0x9C5B0800, 0x04040000], .vscan none 2 1 .s32 .add false .rne),
    ([0x9C42D000, 0x02081800], .vcmp none 1 2 3 .s32 .gt false),
    ([0x9C5C0000, 0x08080800], .vcompact none 4 2 1),
    ([0x9C5A0800, 0x0C100000], .vred none 6 4 .s32 .add .rne),
    ([0x86838101], .movFromPredicate none 7 1),
    ([0x85C40700], .popc none 8 7),
    ([0x9FD09400, 0x0A082000], .ld none 5 2 4 .w (.acq .device) false),
    ([0x94028208], .ld none 5 2 4 .d .none false),
    ([0x9D400000, 0x100C4800], .submit none 8 3 9),
    ([0x9D820000, 0x08140004], .keyprobe none 4 5 1),
    ([0x91400001], .semwait none 0 0 (.short 1) false),
    ([0x91800003], .semsig none 0 (.short 3)),
    ([0x92430701], .bararrive none 6 7 (.short 1)),
    ([0x92800600], .barwait none 6),
    ([0x9DC10000, 0x08140024], .semcas none 4 5 9),
    ([0x92C00009], .fenceRel none .core),
    ([0x92C0000E], .fenceFull none .device),
    ([0x92C00001], .fenceSettle none)
    ] = true := by decide

/-- The header that the commands below share: WC, SE, WE, WIDX 0xA5, WTHR 0x1234, SIDX 0x5A, SINC 3, core scope, CQ 2. -/
def hdr0 : CmdHdr :=
  { rsvA := 0, wc := true, s := false, f := false, se := true, we := true, widx := 0xA5, wthr := 0x1234,
    sidx := 0x5A, sinc := 3, scope := 1, cq := 2, rsvB := 0 }

/-- copy (R245, R76). -/
theorem test_decode_copy : decodeCommand .ce 0xDEADBEEFFEDCBA987654123456789ABC02AACF2109035A1234A51301 =
    .copy hdr0
      { c := { cs := 1, cd := 2, swe := true, sw := 7, be := true, bidx := 0x555, rsv := 0 }, soff :=
        0x123456789abc, doff := 0xfedcba987654, len := 0xdeadbeef } := by decide

/-- copy2d (R245, R76). -/
theorem test_decode_copy2d : decodeCommand .ce 0x44443333222211119ABCDEF01234567802AACF2109035A1234A51302 =
    .copy2d hdr0
      { c := { cs := 1, cd := 2, swe := true, sw := 7, be := true, bidx := 0x555, rsv := 0 }, soff := 0x12345678,
        doff := 0x9abcdef0, rowb := 0x1111, nrow := 0x2222, sstr := 0x3333, dstr := 0x4444 } := by decide

/-- copy3d (R245, R76). -/
theorem test_decode_copy3d : decodeCommand .ce 0xBCD89AAA955674512389ABCDE123456702AACF2109035A1234A51303 =
    .copy3d hdr0
      { c := { cs := 1, cd := 2, swe := true, sw := 7, be := true, bidx := 0x555, rsv := 0 }, soff := 0x1234567,
        doff := 0x89abcde, rowb := 0x123, nrow := 0x45, npl := 0x67, sstr := 0x155, dstr := 0x2aa, sps := 0x89a, dps
        := 0xbcd } := by decide

/-- fill (R245, R76). -/
theorem test_decode_fill : decodeCommand .ce 0xCAFEF00DDEADBEEF123456789ABC02AACF2109035A1234A51307 =
    .fill hdr0
      { c := { cs := 1, cd := 2, swe := true, sw := 7, be := true, bidx := 0x555, rsv := 0 }, doff :=
        0x123456789abc, len := 0xdeadbeef, pat := 0xcafef00d, rsv := 0 } := by decide

/-- mccopy (R248, R76). -/
theorem test_decode_mccopy : decodeCommand .ce 0xABCDEF65CAFEBEEF6543211234566B1555332109035A1234A51304 =
    .mccopy hdr0
      { cb := 1, cl := 2, cs := 3, swe := true, sw := 9, be := true, bidx := 0x2aa, rsvA := 0, layer := 0x2b, slot
        := true, rsvB := 0, rpoff := 0x123456, enoff := 0x654321, first := 0xbeef, count := 0xcafe, modes := 5, halo
        := 6, rsvC := 0, soff := 0xabcdef, rsvD := 0 } := by decide

/-- tgath (R248, R76). -/
theorem test_decode_tgath : decodeCommand .ce 0xABCDEF65CAFEBEEF6543211234566B1555332109035A1234A51305 =
    .tgath hdr0
      { cb := 1, cl := 2, cs := 3, swe := true, sw := 9, be := true, bidx := 0x2aa, rsvA := 0, layer := 0x2b, slot
        := true, rsvB := 0, rpoff := 0x123456, enoff := 0x654321, first := 0xbeef, count := 0xcafe, modes := 5, halo
        := 6, rsvC := 0, soff := 0xabcdef, rsvD := 0 } := by decide

/-- tscat (R248, R76). -/
theorem test_decode_tscat : decodeCommand .ce 0xABCDEF65CAFEBEEF6543211234566B1555332109035A1234A51306 =
    .tscat hdr0
      { cb := 1, cl := 2, cs := 3, swe := true, sw := 9, be := true, bidx := 0x2aa, rsvA := 0, layer := 0x2b, slot
        := true, rsvB := 0, rpoff := 0x123456, enoff := 0x654321, first := 0xbeef, count := 0xcafe, modes := 5, halo
        := 6, rsvC := 0, soff := 0xabcdef, rsvD := 0 } := by decide

/-- rread (R253, R76). -/
theorem test_decode_rread : decodeCommand .ni 0x24681357909ABCDEF01234567002AAB32109035A1234A51301 =
    .rread hdr0
      { c := { cl := 1, cr := 2, cx := 3, be := true, bidx := 0x555, esz := 2, rsv := 0 }, loff := 0x12345670,
        roff := 0x9abcdef0, xoff := 0x135790, count := 0x2468, rsv := 0 } := by decide

/-- rwrite (R253, R76). -/
theorem test_decode_rwrite : decodeCommand .ni 0x24681357909ABCDEF01234567002AAB32109035A1234A51302 =
    .rwrite hdr0
      { c := { cl := 1, cr := 2, cx := 3, be := true, bidx := 0x555, esz := 2, rsv := 0 }, loff := 0x12345670,
        roff := 0x9abcdef0, xoff := 0x135790, count := 0x2468, rsv := 0 } := by decide

/-- rsend (R253, R76). -/
theorem test_decode_rsend : decodeCommand .ni 0x110EF557135709ABCDEF01234567002AAB32109035A1234A51303 =
    .rsend hdr0
      { c := { cl := 1, cr := 2, cx := 3, be := true, bidx := 0x555, esz := 2, rsv := 0 }, loff := 0x12345670,
        roff := 0x9abcdef0, len := 0x13570, rbe := true, rbidx := 0x2ab, rse := true, rsidx := 0x77, rsinc := 0x88,
        rsv := 0 } := by decide

/-- taperev (R268, R76). -/
theorem test_decode_taperev : decodeCommand .tape 0xDEADBEE0123456A5000AAB2109035A1234A51301 =
    .taperev hdr0
      { ct := 1, cd := 2, be := true, bidx := 0x555, rsvA := 0, seg := 0xa5, doff := 0x123456, len := 0xdeadbee0,
        rsvB := 0 } := by decide

/-- cmscan (R331, R76). -/
theorem test_decode_cmscan : decodeCommand .cmu 0x144433332222211111BCDEF6789A12345B9A32109035A1234A51301 =
    .cmscan hdr0
      { cf := 1, cc := 2, cl := 3, slot := 0x9a, grp := 0xb, foff := 0x12345, coff := 0x6789a, rpoff := 0xbcdef,
        enoff := 0x11111, sumoff := 0x22222, maxent := 0x3333, row0 := 0x444, nd := true, rsv := 0 } := by decide

/-- cmreset (R331, R76). -/
theorem test_decode_cmreset : decodeCommand .cmu 0x144433332222211111BCDEF6789A12345B9A32109035A1234A51302 =
    .cmreset hdr0
      { cf := 1, cc := 2, cl := 3, slot := 0x9a, grp := 0xb, foff := 0x12345, coff := 0x6789a, rpoff := 0xbcdef,
        enoff := 0x11111, sumoff := 0x22222, maxent := 0x3333, row0 := 0x444, nd := true, rsv := 0 } := by decide

/-- cmstat (R331, R76). -/
theorem test_decode_cmstat : decodeCommand .cmu 0x144433332222211111BCDEF6789A12345B9A32109035A1234A51303 =
    .cmstat hdr0
      { cf := 1, cc := 2, cl := 3, slot := 0x9a, grp := 0xb, foff := 0x12345, coff := 0x6789a, rpoff := 0xbcdef,
        enoff := 0x11111, sumoff := 0x22222, maxent := 0x3333, row0 := 0x444, nd := true, rsv := 0 } := by decide

/-- accz (R164, R76). -/
theorem test_decode_accz : decodeCommand .me 0x789A0000001234560350096509035A1234A51301 =
    .accz hdr0
      { acc := 5, rsvA := 0, lfmt := 2, ty := true, rsvB := 0, ca := 9, rsvC := 0, swa := 0x15, swae := true, rsvD
        := 0, offa := 0x123456, rsvE := 0, stra := 0x789a, rsvF := 0 } := by decide

/-- accld (R164, R76). -/
theorem test_decode_accld : decodeCommand .me 0x789A0000001234560350096509035A1234A51302 =
    .accld hdr0
      { acc := 5, rsvA := 0, lfmt := 2, ty := true, rsvB := 0, ca := 9, rsvC := 0, swa := 0x15, swae := true, rsvD
        := 0, offa := 0x123456, rsvE := 0, stra := 0x789a, rsvF := 0 } := by decide

/-- accst (R164, R76). -/
theorem test_decode_accst : decodeCommand .me 0x789A0000001234560350096509035A1234A51303 =
    .accst hdr0
      { acc := 5, rsvA := 0, lfmt := 2, ty := true, rsvB := 0, ca := 9, rsvC := 0, swa := 0x15, swae := true, rsvD
        := 0, offa := 0x123456, rsvE := 0, stra := 0x789a, rsvF := 0 } := by decide

/-- mma (R156, R76). -/
theorem test_decode_mma : decodeCommand .me 0x3FACE2468AC1357DEF0789ABC123456AB56548D09035A1234A51B60 =
    .mma { hdr0 with s := true }
      { fmt := 8, shape := 0, acc := 5, row0 := true, bfmt := 8, ca := 4, cb := 5, cx := 6, swa := 0x15, swae :=
        true, swb := 0xa, swbe := true, offa := 0x123456, offb := 0x789abc, stra := 0xdef0, strb := 0x1357, offx :=
        0x2468ac, strx := 0xface, zpre := true, pb := true, rsv := 0 } := by decide

/-- mmaSp (R156, R76). -/
theorem test_decode_mmaSp : decodeCommand .me 0x3FACE2468AC1357DEF0789ABC123456AB56548D09035A1234A5138D =
    .mmaSp hdr0
      { fmt := 3, shape := 1, acc := 5, row0 := true, bfmt := 8, ca := 4, cb := 5, cx := 6, swa := 0x15, swae :=
        true, swb := 0xa, swbe := true, offa := 0x123456, offb := 0x789abc, stra := 0xdef0, strb := 0x1357, offx :=
        0x2468ac, strx := 0xface, zpre := true, pb := true, rsv := 0 } := by decide

/-- mmaD (R156, R76). -/
theorem test_decode_mmaD : decodeCommand .me 0x3FACE2468AC1357DEF0789ABC123456AB56548D09035A1234A513D9 =
    .mmaD hdr0
      { fmt := 6, shape := 1, acc := 5, row0 := true, bfmt := 8, ca := 4, cb := 5, cx := 6, swa := 0x15, swae :=
        true, swb := 0xa, swbe := true, offa := 0x123456, offb := 0x789abc, stra := 0xdef0, strb := 0x1357, offx :=
        0x2468ac, strx := 0xface, zpre := true, pb := true, rsv := 0 } := by decide

/-- The command the spec writes out: MMA.bf16 acc2 of R173's worked example. -/
theorem test_decode_spec_mma : decodeCommand .me 0x00000000000000040004000100000000000054020101010001000340 =
    .mma { rsvA := 0, wc := false, s := false, f := false, se := true, we := true, widx := 0, wthr := 1, sidx := 1,
           sinc := 1, scope := 1, cq := 0, rsvB := 0 }
      { fmt := 0, shape := 0, acc := 2, row0 := false, bfmt := 0, ca := 4, cb := 5, cx := 0, swa := 0, swae := false,
        swb := 0, swbe := false, offa := 0, offb := 0x100, stra := 4, strb := 4, offx := 0, strx := 0, zpre := false,
        pb := false, rsv := 0 } := by decide

/-- Reserved majors and FN values, undefined Q, RM and OVS where nothing rounds, indices beyond the file, unused fields
(R66, R69, R81). -/
theorem test_decode_reserved : [[0x93C00000], [0x99400000], [0x9AC00000], [0x9E000000, 0], [0x9F400000, 0], [0x9C070000, 0],
    [0x9C5E0000, 0], [0x9C8A0000, 0], [0x9CC60000, 0], [0x9D060000, 0], [0x9D470000, 0], [0x9D870000, 0], [0x9DC60000, 0],
    [0x9FE00000, 0], [0x9F9C2800, 0], [0x9F9C0001, 0], [0x9F800000, 2], [0x80200000], [0x80000080], [0x89000101],
    [0x80C00001], [0x8B400001], [0x92C00002 ||| 0x10], [0x99A00000 ||| 1, 0, 0, 0, 0, 0, 0, 0], [0x9C000000], []].all
    (fun ws => dec ws == none) = true := by decide

/-- Reserved ME opcodes (R80): MMA format 12, MMA.SP format 6, MMA.D format 0, shape 11, and family 00 beyond 0x03. -/
theorem test_decode_reserved_command : [(Eng.me, 0x70), (.me, 0x98), (.me, 0xC0), (.me, 0x43), (.me, 0x04), (.ce, 0x08),
    (.ni, 0x04), (.tape, 0x02), (.cmu, 0x04), (.ce, 0x00)].all (fun (x : Eng × CmdWord) =>
      match decodeCommand x.1 x.2 with | .reservedEngineOpcode .. => true | _ => false) = true := by decide


/-! ### Small states -/

/-- A table of the listed entries. -/
def tab {α : Type} [DecidableEq α] (d : α) (l : List (Nat × α)) : Tab α := l.foldl (fun t e => tset d t e.1 e.2) []
/-- Registers of the issuing quarter: scalars, predicates, capabilities. -/
def regs (s : State) (ss : List (Nat × Word)) (ps : List (Nat × BitVec 32)) (cs : List (Nat × CapWord)) : State :=
  s.modQtr fun x => { x with s := tab 0 ss, p := tab 0 ps, c := tab 0 cs }
/-- The machine at reset, its joint stream in issue. -/
def base : State := .reset
/-- The same in an exposed line. -/
def exposed : State := base.modIssue fun i => { i with exposed := true }
/-- The same with strand 0 in issue, strands 0 and 1 running. -/
def forked : State :=
  { base with core := { base.core with joint := false, pmask := 3, issue := { Issue.idle with joint := false },
                                       q0 := { Quarter.reset with st := .running },
                                       q1 := { Quarter.reset with st := .running } } }
/-- TSTAT of a handler: joint, privileged, depth 1, traps masked. -/
def hm (s : State) : State := s.modCore fun c => { c with tr := { c.tr with tstat := 0x0000000000900600 } }
/-- A service core. -/
def service : State := { base with core := .reset 128 }
/-- Every permission, in the scratchpad and in device memory. -/
def padCap (b n : Nat) : CapWord := mkCap true 0 0 0x3FF n b
def devCap (b n : Nat) : CapWord := mkCap true 0 2 0x3FF n b
/-- Numbers laid into a memory: address, bytes, number. -/
def cells (l : List (Nat × Nat × Nat)) : List Host.Cell :=
  l.foldl (fun m e => upTo e.2.1 (fun i m => tset 0 m (e.1 + i) (BitVec.ofNat 8 (e.2.2 / 256 ^ i))) m) []
/-- A leaf PTE of MK 1 over the frame at 0 that admits everything, and the tables that lead to it: one page of 1 GiB,
virtual as physical. -/
def leaf : Nat := 1 + 2 + 4 + 8 + 2 ^ 9 + 2 ^ 10
def tables (p : Nat) : List (Nat × Nat × Nat) := [(0x1000, 8, 1 + 2 ^ 24 * 0x20), (0x2000, 8, p)]
/-- A device with those tables under RCB 0, slot 0 provisioned, and more cells. -/
def paged (p : Nat) (l : List (Nat × Nat × Nat)) : Device :=
  { Device.reset with mem := cells (tables p ++ l), rcbs := [(0, 0x1000 <<< 256 ||| 0x10000)],
                      slots := [(0, { KeySlot.empty with prov := true })] }
def withDev (s : State) (d : Device) : State := { s with dev := d }
/-- Pool bytes. -/
def withPool (s : State) (l : List (Nat × Nat × Nat)) : State :=
  s.modCore fun c => { c with pool := { c.pool with bytes := cells l } }
/-- A computation that can stop has answered, with this value. -/
def isOk {α : Type} (r : EStateM.Result Stop State α) : Bool := match r with | .ok .. => true | _ => false
def answers {α : Type} [DecidableEq α] (r : EStateM.Result Stop State α) (a : α) : Bool :=
  match r with | .ok b _ => decide (b = a) | _ => false
/-- A check has passed with this address. -/
def passes (r : Except Nat Nat) (a : Nat) : Bool := match r with | .ok b => decide (b = a) | _ => false
/-- A check has failed with this subcause. -/
def failsWith (r : Except Nat Nat) (a : Nat) : Bool := match r with | .error b => decide (b = a) | _ => false

/-- The instruction goes on to a next state that nothing stopped. -/
def unstopped (i : Instr) (s : State) : Bool :=
  match exec i s with
  | .next t => t.core.issue.stop.isNone
  | _ => false

/-- A line that holds HALT at position 0, the joint stream at it. -/
def atHalt : State := base.withFetchWord 32 0x0B400000
def haltLine : BitVec 512 := lineOf (bundleWords 32 0x0B400000)
def haltGroup : Group := { pos := 0, pre := [], words := [0x8B400000], whole := true }
def haltBundle : Bundle := { pos := 0, groups := [haltGroup], next := 1 }

/-! ### Well-formedness: one term that each check refuses -/

theorem test_wf_registers : ([.add none 64 1 2 false, .clz none 1 64, .movFromPredicate none 1 64, .sel none 1 2 64 false,
    .cmp none 64 1 2 false .eq .set, .pand none 1 64 2, .cand none 16 1 2, .cget none 1 16 .base, .cmove none 16 1, .ptbr none 8 1,
    .ptbrRd none 1 8, .br none 8 1 false false, .lend none 4 false, .lbreak none 1 8, .larm none 4 1 (.long 0), .lstream none 1 16 (.long 0),
    .fork none 8 (.long 1), .taperec none .s 64, .taperec none .p 64, .tapepop none .p 64, .vsel none 1 64 2 false, .vprune none 1 2 64,
    .vbcast none 1 64 false, .vmovs none 1 2 64, .vgath none 1 16 2 3 false, .pin none 1 16 2 3, .accrd none 1 8 2 false,
    .accdiscard none 8, .submit none 1 16 2, .vcompact none 1 2 64, .ld none 16 1 2 .d .none true, .vld none 1 16 2 .none]
    : List Instr).all (fun i => !i.wf) = true := by decide
theorem test_wf_immediates : ([.addi (some 1) 1 2 (.short 3), .shli none 1 2 (.long 64), .cmpi none 1 2 (.short 3) .ne .set,
    .bfx none 1 2 (.long 0x1000), .bfx none 1 2 (.long 0xFC1), .mfs none 1 (.long 256), .semwait none 1 2 (.short 3) true,
    .semwait none 1 2 (.long 256) false, .tread none 1 (.long 3), .scrub none 32, .vbcastV none 1 2 32 false, .vbcastV none 1 2 64 true,
    .vslide none 1 2 (.imm 32) false false, .vslide none 1 2 (.reg 64) false false, .tapestat none 1 8, .qstat none 1 2 6,
    .chainstat none 1 4 .ce, .keyprobe none 1 2 3, .seminit none 1 256, .pmcrd none 1 16, .role (some 1) (.short 1)]
    : List Instr).all (fun i => !i.wf) = true := by decide
theorem test_wf_types : ([.st none 1 2 3 .w .none true, .vadd none 1 2 3 .s32 .rne, .vadd none 1 2 3 .f32 .sr, .vmin none 1 2 3 .z32,
    .vcmp none 1 2 1 .f32 .nan false, .vcmp none 1 2 3 .s32 .un false, .vcmp none 1 2 3 .f32 .eq true, .vimul none 1 2 3 .f32 false,
    .vabs none 1 2 .z16, .vrcp none 1 2 .f16, .vcvt none 1 2 .f32 .f32 false .rne false, .vcvt none 1 2 .bf16 .f16 true .rne false,
    .vcvt none 1 2 .f16 .f32 false .sr false, .vred none 1 2 .f32 .max .rtz, .vscan none 1 2 .s32 .add false .rup,
    .vamo none 1 2 3 4 .add true false, .acccvt none 1 2 3 0 .fp32 false .rne false, .acccvt none 1 2 3 4 .int8 false .rne false,
    .acccvt none 1 2 3 0 .e4m3 false .sr false, .accpoison none 1 2 3 .pois false, .thrset none 1 2 3 true]
    : List Instr).all (fun i => !i.wf) = true := by decide

/-! ### One step: values that the spec's tables give -/

/-- Scalar register `r` after an instruction in a line at reset, with s1 and s2 given. -/
def after (i : Instr) (a b : Word) (r : Reg) : Word :=
  match exec i (regs base [(1, a), (2, b)] [] []) with
  | .next t => t.rdS r
  | _ => 0
/-- R98: a sum wraps; the 32-bit form extends its result with its sign (R97). -/
theorem test_add_wraps : after (.add none 3 1 2 false) 0xFFFFFFFFFFFFFFFF 2 3 = 1 := by decide +kernel
theorem test_add_w : after (.add none 3 1 2 true) 0x7FFFFFFF 1 3 = 0xFFFFFFFF80000000 := by decide +kernel
/-- R99: by zero, and the one quotient that does not fit. -/
theorem test_div_zero : after (.div none 3 1 2 false) 7 0 3 = 0xFFFFFFFFFFFFFFFF := by decide +kernel
theorem test_div_least : after (.div none 3 1 2 false) 0x8000000000000000 0xFFFFFFFFFFFFFFFF 3 = 0x8000000000000000 := by decide +kernel
theorem test_rem_sign : after (.rem none 3 1 2 false) 0xFFFFFFFFFFFFFFF9 2 3 = 0xFFFFFFFFFFFFFFFF := by decide +kernel
/-- R98: the high half of a signed and of an unsigned product. -/
theorem test_mulh : after (.mulh none 3 1 2) 0xFFFFFFFFFFFFFFFF 2 3 = 0xFFFFFFFFFFFFFFFF := by decide +kernel
theorem test_mulhu : after (.mulhu none 3 1 2) 0xFFFFFFFFFFFFFFFF 2 3 = 1 := by decide +kernel
/-- R102: bits 4 to 11, as a signed number. -/
theorem test_bfx : after (.bfx none 3 1 (.long 0x1C4)) 0xFF0 0 3 = 0xFFFFFFFFFFFFFFFF := by decide +kernel
/-- R100: 32-bit shifts by 32 to 63 give 0 or the sign. -/
theorem test_shr_w : after (.shr none 3 1 2 true) 0x80000000 32 3 = 0 := by decide +kernel
theorem test_sra_w : after (.sra none 3 1 2 true) 0x80000000 63 3 = 0xFFFFFFFFFFFFFFFF := by decide +kernel
/-! ### Witnesses: states and operands that meet the hypotheses of each statement -/

theorem witness_SyllablesRoundTrip : (Instr.add (some 3) 63 63 63 true).wf = true
    ∧ encode (.add (some 3) 63 63 63 true) 3 true ≠ [] ∧ encode (.coldReset) 0 true = [] := by decide +kernel
theorem witness_CommandsRoundTrip : ∃ o : AccOp, (Instr.accz hdr0 o).wf = true
    ∧ (Instr.accz hdr0 o).engine = some .me ∧ (Instr.accz hdr0 o).isEvent = false :=
  ⟨{ acc := 7, rsvA := 0, lfmt := 0, ty := true, rsvB := 0, ca := 0, rsvC := 0, swa := 0, swae := false, rsvD := 0,
     offa := 0, rsvE := 0, stra := 0, rsvF := 0 }, by decide +kernel⟩
theorem witness_ReservedRefused : majorOf 0x93C00000 = 0x4F ∧ majorOf 0x99400000 = 0x65 ∧ majorOf 0x9AC00000 = 0x6B
    ∧ majorOf 0x9E000000 = 0x78 ∧ majorOf 0x9F400000 = 0x7D ∧ (dec [0x8B400000]).isSome = true := by decide +kernel
theorem witness_StepRunsDecoded : CoreActs atHalt ∧ atHalt.core.joint = true ∧ atHalt.core.q0.st = .running
    ∧ StandsAt atHalt 0 haltLine haltBundle haltGroup ⟨.halt none, 0, true, 1⟩ :=
  ⟨by constructor <;> decide +kernel, by decide +kernel, by decide +kernel, by constructor <;> decide +kernel⟩
/-- The line of a strand that holds HALT, strand 1 at it. -/
def strandLine : BitVec 512 := haltLine ^^^ 0x50000000
def strandAtHalt : State :=
  { base with core := { base.core with joint := false, pmask := 2, lines := [(1, strandLine)],
                                       q1 := { Quarter.reset with st := .running, pc := 68 } } }
theorem witness_StreamRunsDecoded : CoreActs strandAtHalt ∧ strandAtHalt.core.joint = false
    ∧ strandAtHalt.core.streams = [1] ∧ StandsAt strandAtHalt 1 strandLine haltBundle haltGroup ⟨.halt none, 0, true, 1⟩ :=
  ⟨by constructor <;> decide +kernel, by decide +kernel, by decide +kernel, by constructor <;> decide +kernel⟩
theorem witness_BundleSettles : base.core.issue.stop = none ∧ base.core.issue.redirect = .none
    ∧ (base.held .other).core.issue.stop = some (.hold .other)
    ∧ (base.trapped { cause := .illegal }).core.issue.stop = some (.trap { cause := .illegal }) ∧ (2 : Nat) ≠ 1
    ∧ ((base.branch 0).core.issue.redirect = .to 0 3) := by decide +kernel
theorem witness_StepStopsOnlyWhenDown : ∃ f, ({ base with dev := { Device.reset with plat := { Plat.reset with power := .d3cold } } } : State).dev.down
    = some f ∧ f = .poweredOff ∧ (∀ r, base.agenda ≠ .coldReset :: r) := ⟨_, by decide +kernel, rfl, nofun⟩
theorem witness_StepKeepsCanonical : ∃ t, step { base with agenda := [.nop none] } = .next t ∧ base.wf = true :=
  ⟨_, rfl, by decide +kernel⟩
theorem witness_StepStopsOnlyWhenDown_off : (Instr.add (some 1) 3 1 2 false).guard = some (some 1)
    ∧ (Instr.add (some 1) 3 1 2 false).byLanes = false ∧ State.reset.executes (some 1) = false
    ∧ (Instr.vmov (some 1) 3 4).byLanes = true ∧ State.reset.lanes (some 1) = 0 := by decide +kernel
theorem witness_RegisterNamesAndDelivery : base.core.issue.exposed = false ∧ exposed.core.issue.exposed = true
    ∧ (1 : Reg) ≠ 63 := by decide +kernel
/-- s1 = 7, s2 = 0, p1 = 1, p2 = 0: unguarded, guarded by p1, not guarded by p2; also the full divisions' free divider. -/
def some1 : State := regs base [(1, 7)] [(1, 1)] []
theorem witness_ScalarResults : some1.executes none = true ∧ some1.executes (some 1) = true ∧ some1.taping = false
    ∧ some1.rdS 2 = 0 ∧ some1.rdS 1 ≠ 0 := by decide +kernel
theorem witness_ShiftResults : some1.executes (some 1) = true ∧ some1.taping = false := by decide +kernel
theorem witness_DivisionResults : some1.executes none = true ∧ some1.taping = false
    ∧ some1.qtr.divBusy = some1.core.clock := by decide +kernel
theorem witness_ImmediateResults : some1.executes none = true ∧ some1.taping = false ∧ (immBits some1 (.short 63)).1 = 63
    ∧ (immBits some1 (.short 64)).1 = 64 ∧ (immBits some1 (.long 4032)).1 / 64 % 64 + 1 = 64
    ∧ 64 < (immBits some1 (.long 4033)).1 % 64 + ((immBits some1 (.long 4033)).1 / 64 % 64 + 1)
    ∧ (immBits some1 (.long 4096)).1 = 4096 := by decide +kernel
theorem witness_PredicateResults : some1.executes (some 1) = true ∧ some1.taping = false := by decide +kernel
/-- c1 a tagged capability of 16 bytes, c2 untagged; s1 = 16, s2 = 17. -/
def caps : State := regs base [(1, 16), (2, 17)] [] [(1, padCap 0x10000 16), (2, mkCap false 0 0 3 0 0x10000)]
theorem witness_CapabilityResults : caps.executes none = true ∧ capTag (caps.rdC 1) = true
    ∧ (caps.rdS 1).toNat = capLen (caps.rdC 1) ∧ capLen (caps.rdC 1) < (caps.rdS 2).toNat
    ∧ (immBits caps (.short 16)).1 = 16 ∧ (immBits caps (.short 17)).1 = 17 ∧ capTag (caps.rdC 2) = false := by decide +kernel
theorem witness_TagResults : caps.executes none = true ∧ capTag (caps.rdC 1) = true
    ∧ capBase (caps.rdC 1) ≤ capBase (caps.rdC 2) ∧ capPerm (caps.rdC 2) < 1024 := by decide +kernel
theorem witness_CapabilitiesNeverWiden : ∃ t, exec (.cmove none 3 1) caps = .next t ∧ t.core.issue.stop = none
    ∧ capTag (t.rdC 3) = true ∧ caps.core.issue.exposed = false ∧ capBase (caps.rdC 1) + capLen (caps.rdC 1) ≤ 2 ^ 57 :=
  ⟨_, rfl, by decide +kernel⟩
theorem witness_ScalarFrame : ∃ t, (Instr.add none 3 1 2 false).scalarDst = some (.s 3) ∧ (Instr.add none 3 1 2 false).wf = true
    ∧ exec (.add none 3 1 2 false) caps = .next t ∧ t.core.issue.stop = none := ⟨_, rfl, by decide +kernel, rfl, by decide +kernel⟩
theorem witness_BranchResults : some1.executes none = true ∧ some1.qtr.tape.phase ≠ .record := by decide +kernel
/-- Loop registers: l0 idle, l1 before its last trip, l2 in it, l3 at its maximum and not at its limit; c1 names row
pointers 1 and 6 in the scratchpad. -/
def loops : State :=
  withPool ((regs base [(1, 3)] [] [(1, padCap 0x10000 4), (2, devCap 0x10000 4)]).modQtr fun x => { x with l := [
    (1, { act := true, start := 68, max := 5, trip := 1, limit := 2 }),
    (2, { act := true, start := 68, max := 5, trip := 2, limit := 2 }),
    (3, { act := true, start := 68, max := 2, trip := 2, limit := 3 })] }) [(0x10000, 4, 0x60001)]
theorem witness_LoopResults : loops.executes none = true ∧ (immBits loops (.long 1)).1 = 1
    ∧ (immBits { loops with core := { loops.core with issue := { Issue.idle with ext := some 0xFFFF } } } (.long 0xFFFE)).1
        = 2 ^ 32 - 2
    ∧ (immBits { loops with core := { loops.core with issue := { Issue.idle with ext := some 0xFFFF } } } (.long 0xFFFF)).1
        = 2 ^ 32 - 1
    ∧ (immBits loops (.long 0)).1 = 0 := by decide +kernel
theorem witness_LoopResults_stream : passes (capCheck loops.core loops.dev (loops.qtr.rdC 1) 0 4 permR [0, 2]) 0x10000 = true
    ∧ capSpace (loops.qtr.rdC 1) = 0 ∧ loops.core.raceAt 0 0x10000 4 = none
    ∧ (∀ k < 4, tget false loops.core.pool.pois ((0x10000 + k) / 16) = false)
    ∧ answers (rowPointers 1 loops) (1, 6) = true
    ∧ answers (rowPointers 2 (withDev loops (paged leaf [(0x10000, 4, 0x60001)]))) (1, 6) = true := by decide +kernel
theorem witness_LoopResults_end : (loops.rdL 0).act = false
    ∧ ((loops.rdL 1).act = true ∧ (loops.rdL 1).trip.toNat < (loops.rdL 1).limit.toNat ∧ (loops.rdL 1).trip ≠ (loops.rdL 1).max)
    ∧ ((loops.rdL 2).act = true ∧ (loops.rdL 2).limit.toNat ≤ (loops.rdL 2).trip.toNat)
    ∧ (loops.rdL 3).act = true ∧ (loops.rdL 3).trip.toNat < (loops.rdL 3).limit.toNat
    ∧ (loops.rdL 3).trip = (loops.rdL 3).max := by decide +kernel
/-- Strand 0 in issue, strand 1 at its JOIN. -/
def joined : State := { forked with core := { forked.core with jsync := 2 } }
theorem witness_StrandResults : base.executes none = true ∧ base.core.issue.joint = true ∧ (immBits base (.short 15)).1 = 15
    ∧ (immBits base (.short 1)).1 = 1 ∧ (immBits base (.short 2)).1 = 2 ∧ base.core.isService = false
    ∧ joined.core.issue.joint = false ∧ (∀ k : BitVec 2, k ≠ joined.core.issue.q → joined.core.pmask.getLsbD k.toNat = true →
        joined.core.jsync.getLsbD k.toNat = true) ∧ joined.core.pmask.getLsbD joined.core.issue.q.toNat = true
    ∧ (∀ k : BitVec 2, k < joined.core.issue.q → joined.core.pmask.getLsbD k.toNat = false)
    ∧ ∃ k : BitVec 2, k ≠ forked.core.issue.q ∧ forked.core.pmask.getLsbD k.toNat = true
        ∧ forked.core.jsync.getLsbD k.toNat = false := by decide +kernel
theorem witness_TrapInstructions : base.core.priv = false ∧ (hm base).core.priv = true ∧ (hm base).executes none = true := by
  decide +kernel
/-- A machine whose trap vector table at 0x4000 sends every cause to a joint line at 0x8004. -/
def vectored (s : State) : State :=
  withDev { s with core := { s.core with lines := [(0x200, haltLine)] } }
    { paged leaf [(0x4000, 8, 0x8004)] with
        rcbs := [(0, 0x4000 <<< 320 ||| 0x1000 <<< 256 ||| 0x10000)]
        disp := { Disp.empty with rcbs := [(0, 0x4000 <<< 320 ||| 0x1000 <<< 256 ||| 0x10000)] } }
/-- A tile core with a run. -/
def aRun : Run := { qid := 0, ctr := 0, region := 0, ks := 0, first := 0, count := 1, order := 0, round := 0, drain := none, taker := none, pbase := 0, plen := 0, charged := 0 }
def running : State := { base with core := { base.core with run := some aRun } }
theorem witness_TrapEntry : (vectored base).core.trapEn = true ∧ (vectored base).core.depth < 7
    ∧ { (vectored base) with dev := (vectored base).dev.dropQuarterHolds 0 }.handlerFor Cause.illegal.code = some 0x8004
    ∧ ({ (vectored base) with dev := (vectored base).dev.dropQuarterHolds 0 }.lineNow 0x8004).map ownerOf = some 4 := by
  decide +kernel
theorem witness_TrapEntry_escalates : (hm service).core.trapEn = false ∧ (hm service).core.isService = true
    ∧ (hm running).core.trapEn = false ∧ (hm running).core.isService = false ∧ (hm running).core.num < 128
    ∧ (hm running).core.run.isSome = true
    ∧ (base.modCore fun c => { c with tr := { c.tr with tstat := 0x0000000000F00700 } }).core.depth = 7 := by decide +kernel
theorem witness_TrapReturn : (hm base).executes none = true ∧ (hm base).core.priv = true ∧ (hm base).core.depth ≠ 0
    ∧ (hm base).core.enginesStopped = true ∧ ∀ e, (hm base).chainHeld e = none :=
  ⟨by decide +kernel, by decide +kernel, by decide +kernel, by decide +kernel, by intro e; cases e <;> rfl⟩
theorem witness_SystemRegisters : base.executes none = true ∧ (∀ n ∈ [0, 4, 7, 0x0C, 0x0D, 0x10, 0x17, 0x1F, 0x20, 0x25, 0x29,
    0x2F, 0x34, 0x35], (immBits base (.short (BitVec.ofNat 8 n))).1 = n) ∧ base.core.priv = false
    ∧ (hm base).core.priv = true ∧ (hm base).core.isService = false := by decide +kernel
/-- Semaphores: 0 at 0 of 65535, 1 at 3 of 3, 2 at 2 of 5; s1 = 3, s2 = 1, s3 = (2, 5), s4 = (3, 2), s5 = (3, 2): compare 3,
replace 2; s6 = (2, 6); s7 = -4. -/
def sems : State :=
  (regs base [(1, 3), (2, 1), (3, 0x50002), (4, 0x20003), (6, 0x60002), (7, -4)] [] []).modCore fun c =>
    { c with sems := [(1, { v := 3, ceil := 3 }), (2, { v := 2, ceil := 5 })] }
theorem witness_SemaphoreResults :
    let v := fun n => (tget Sem.init sems.core.sems n).v.toNat
    let ceil := fun n => (tget Sem.init sems.core.sems n).ceil.toNat
    let lo := fun a => (sems.rdS a).toNat % 65536
    let hi := fun a => (sems.rdS a).toNat / 65536 % 65536
    sems.executes none = true ∧ (immBits sems (.short 255)).1 = 255 ∧ (immBits sems (.long 256)).1 = 256
      ∧ (v 0 < 1 ∧ v 2 < (sems.rdS 1).toNat) ∧ ((sems.rdS 1).toNat ≤ v 1) ∧ v 2 + (sems.rdS 1).toNat ≤ ceil 2
      ∧ ceil 1 < v 1 + 1 ∧ (0 : Int) ≤ v 2 + (sems.rdS 1).toInt ∧ v 2 + (sems.rdS 1).toInt ≤ ceil 2
      ∧ (v 1 + (sems.rdS 7).toInt < 0) ∧ (ceil 1 : Int) < v 1 + (sems.rdS 2).toInt
      ∧ lo 3 ≤ hi 3 ∧ hi 4 < lo 4 ∧ (v 2 = lo 3 ∧ hi 3 ≤ ceil 2) ∧ (v 2 = lo 6 ∧ ceil 2 < hi 6) ∧ v 2 ≠ lo 4 := by
  decide +kernel
/-- Barrier 0 at pool offset 0x10000 with ARR 2, phase 0; barrier 1 not bound; s1 = token (0, phase 0), s2 = token (0,
phase 1); s3 = index 1; c1 a place for a barrier. -/
def barred : State :=
  (withPool (regs base [(2, 0x10000), (3, 1)] [] [(1, padCap 0x10000 16)]) [(0x10000, 8, 0x100020002000)]).modCore fun c =>
    { c with bars := [(0, 0x80001000)] }
theorem witness_BarrierResults : barred.executes none = true ∧ barred.core.barAt 0 = some 0x10000
    ∧ barred.core.barGet 0x10000 = { bytes := 0, reload := 2, arr := 2, phase := 0, valid := true }
    ∧ (immBits barred (.short 2)).1 = 2 ∧ (immBits barred (.short 0)).1 = 0 ∧ (immBits barred (.long 65535)).1 = 65535
    ∧ barred.core.issue.ext = none ∧ (barred.rdS 1).toNat / 65536 % 4096 = 0 ∧ (barred.rdS 2).toNat / 65536 % 4096 = 1
    ∧ barred.core.barAt ((barred.rdS 3).toNat % 2048) = none
    ∧ passes (capCheck barred.core barred.dev (barred.rdC 1) 0 16 (permW + permFE) [0]) 0x10000 = true := by decide +kernel
theorem witness_SignalThenWaitOrders : (0 : Nat) ≠ 3
    ∧ tget (0, 0) { base.core.pool with wrec := [(5, (0, 1))] }.wrec 5 = (BitVec.ofNat 3 0, base.core.race.curOf 0)
    ∧ ∀ e ∈ [tget 1 base.core.race.sem (8 * 255 + 0), base.core.race.acqOf 3 0], (base.core.race.curOf 0 - e).toNat < 128 := by
  decide +kernel
theorem witness_FenceResults : base.executes none = true ∧ base.core.issue.ext = none ∧ base.core.issue.joint = true
    ∧ base.core.enginesEmpty = true ∧ forked.core.issue.joint = false
    ∧ (base.modCore fun c => c.enqueue .me 0x40 true 0 [] none 0).core.enginesEmpty = false
    ∧ twf (0, 0) base.core.pool.wrec = true := by decide +kernel
theorem witness_TimeResults : base.executes none = true ∧ (∀ n ∈ [0, 1, 2, 3], (immBits base (.short (BitVec.ofNat 8 n))).1 = n)
    ∧ (∀ n ∈ [0, 15, 16, 32], (immBits base (.long (BitVec.ofNat 16 n))).1 = n) ∧ base.core.priv = false
    ∧ (hm base).core.priv = true := by decide +kernel
/-- Every check of a capability in turn: the scratchpad's first byte and its last, the row before, and one past. -/
theorem witness_CapabilityAccess :
    let chk := fun (x : CapWord) (off : Int) (n perm : Nat) => capCheck base.core base.dev x off n perm [0, 2]
    passes (chk (padCap 0x10000 1) 0 1 3) 0x10000 = true ∧ passes (chk (padCap 0x4BFFFF 1) 0 1 3) 0x4BFFFF = true
      ∧ failsWith (chk (mkCap false 0 0 3 1 0x10000) 0 1 3) 1 = true ∧ failsWith (chk (mkCap true 0 1 3 1 0) 0 1 3) 2 = true
      ∧ failsWith (chk (mkCap true 1 0 3 1 0x10000) 0 1 3) 3 = true ∧ failsWith (chk (mkCap true 0 0 1 1 0x10000) 0 1 3) 4 = true
      ∧ failsWith (chk (padCap 0x10000 1) 1 1 3) 5 = true ∧ failsWith (chk (padCap 0x10000 1) (-1) 1 3) 5 = true
      ∧ failsWith (chk (padCap 0xFFFF 1) 0 1 3) 6 = true ∧ failsWith (chk (padCap 0x4BFFFF 2) 0 2 3) 6 = true
      ∧ passes (chk (padCap 0x4C0000 0) 0 0 3) 0x4C0000 = true := by decide +kernel
theorem witness_CapabilityAccess_place : let s := withDev (regs base [] [] [(1, padCap 0x10001 8), (2, devCap 0x10000 8)]) (paged leaf [])
    failsWith (capCheck s.core s.dev (s.qtr.rdC 0) 0 8 1 [0, 2]) 1 = true
    ∧ passes (capCheck s.core s.dev (s.qtr.rdC 1) 0 8 1 [0, 2]) 0x10001 = true ∧ 0x10001 % 8 ≠ 0 ∧ 0x10001 % 1 = 0
    ∧ passes (capCheck s.core s.dev (s.qtr.rdC 2) 0 8 1 [0, 2]) 0x10000 = true
    ∧ (s.xlate 0 0x10000 0).1 = .ok 0x10000 (BitVec.ofNat 64 leaf)
    ∧ (base.xlate 0 0x10000 0).1 = .fail 0 0
    ∧ ((withDev base { paged (leaf + 16) [] with queues := [(faultQ, { Queue.off with en := true })] }).xlate 0 0 0).1 = .held := by
  decide +kernel
/-- c1 in the scratchpad, c2 in device memory through MK 1; the granule at 0x10000 is full. -/
def mems : State :=
  withDev ((regs base [] [(1, 1)] [(1, padCap 0x10000 0x1000), (2, devCap 0x10000 0x1000)]).modCore fun c =>
    { c with pool := { c.pool with full := [(0x1000, true)] } }) (paged leaf [])
theorem witness_LoadResults : mems.executes none = true ∧ mems.taping = false
    ∧ answers (quarterPlace 1 (mems.offB 0 8) 8 (permR + permFE) 8 false [0] mems) (.pool 0x10000) = true
    ∧ answers (quarterPlace 1 0xFF0 16 permR 16 false [0, 2] mems) (.pool 0x10FF0) = true
    ∧ mems.core.raceAt 0 0x10FF0 16 = none ∧ (∀ i < 8, tget false mems.core.pool.pois ((0x10000 + i) / 16) = false)
    ∧ tget false mems.core.pool.full (0x10000 / 16) = true ∧ tget false mems.core.pool.full (0x10FF0 / 16) = false
    ∧ answers (quarterPlace 2 0 8 permR 8 false [0, 2] mems) (.dev 0x10000 0x10000 (BitVec.ofNat 64 leaf)) = true
    ∧ ∀ i < 8, (mems.l1Read (BitVec.ofNat 64 leaf) 0x10000 8 false).1.2.1 i = false := by decide +kernel
theorem witness_StoreResults : answers (quarterPlace 1 (mems.offB 0 16) 16 (permW + permSC) 16 true [0, 2] mems) (.pool 0x10000) = true
    ∧ answers (quarterPlace 1 0 4 (permW + permFE) 4 true [0] mems) (.pool 0x10000) = true
    ∧ mems.core.raceAt 0 0x10000 16 = none ∧ capPerm (mems.rdC 1) &&& permG = permG
    ∧ answers (quarterPlace 2 0xFFF 1 permW 1 true [0, 2] mems) (.dev 0x10FFF 0x10FFF (BitVec.ofNat 64 leaf)) = true
    ∧ mems.core.useL1 (BitVec.ofNat 64 leaf) = false := by decide +kernel
theorem witness_MemoryFrame : ∀ i ∈ [Instr.ld none 1 1 0 .w .none false, .ld none 1 1 0 .d .none true, .st none 1 1 0 .w .none false,
    .vld (some 1) 1 1 0 .none, .vst (some 1) 1 1 0 .none], unstopped i mems = true := by decide +kernel
/-- One lane, lane 0. -/
theorem witness_VectorMemoryResults : mems.vexecutes (some 1) = true
    ∧ answers (lanePlaces 1 0 (permR + permFE) false [0] [0] mems) [(0, .pool 0x10000)] = true
    ∧ answers (readPlaces 4 true [(0, .pool 0x10000)] mems) [(0, 0)] = true
    ∧ answers (lanePlaces 1 0 permW true [0, 2] [0] mems) [(0, .pool 0x10000)] = true
    ∧ mems.core.raceAt 0 0x10000 4 = none
    ∧ answers (placeEach (fun e => quarterPlace 1 (2 * e : Nat) 2 permR 2 false [0, 2]) [0, 1] mems)
        [(0, .pool 0x10000), (1, .pool 0x10002)] = true
    ∧ answers (readPlaces 2 false [(0, .pool 0x10000), (1, .pool 0x10002)] mems) [(0, 0), (1, 0)] = true
    ∧ answers (placeEach (fun _ => quarterPlace 1 0xFFC 4 permW 4 true [0, 2]) [0] mems) [(0, .pool 0x10FFC)] = true := by
  decide +kernel
/-- Lengths: s1 = 0x1000 within c2, s2 = 2^24 + 1 within c3; RCB 0 is the tenant; pages of c2 may be pinned. -/
def ranges : State := withDev (regs base [(1, 0x1000), (2, 0x1000001)] [] [(2, devCap 0x10000 0x1000), (3, devCap 0 0x1000001)])
  (paged (leaf + 256) [])
theorem witness_MaintenanceResults : ranges.executes none = true ∧ (ranges.rdS 0).toNat = 0 ∧ (ranges.rdS 1).toNat ≠ 0
    ∧ answers (quarterRange 2 0 0x1000 (permR + permPIN) ranges) (0x10000, [(0x10000, BitVec.ofNat 64 (leaf + 256), 0x1000)]) = true
    ∧ 0x1000 ≤ 2 ^ 24 ∧ 2 ^ 24 < (ranges.rdS 2).toNat
    ∧ passes (capCheck ranges.core ranges.dev (ranges.qtr.rdC 3) 0 0x1000001 (permR + permPIN) [2]) 0 = true
    ∧ answers (quarterRange 2 0 0x1000 (permR + permPIN) (ranges.modDev fun v => v.clearStale 0 0x10000 0x1000))
        (0x10000, [(0x10000, BitVec.ofNat 64 (leaf + 256), 0x1000)]) = true := by decide +kernel
theorem witness_AtomicResults : mems.vexecutes (some 1) = true
    ∧ (vamoLanes 2 0 (fun _ w => w + 1) [0] 0 [] mems).1 = none
    ∧ passes (capCheck mems.core mems.dev (mems.qtr.rdC 2) 0xFFC 4 (permR + permW + permAMO) [2]) 0x10FFC = true
    ∧ (mems.xlate 0 0x10FFC 3).1 = .ok 0x10FFC (BitVec.ofNat 64 leaf) ∧ (mems.xlate 0 0x10FFC 3).2.core.l1 = []
    ∧ ∀ i < 4, ((mems.xlate 0 0x10FFC 3).2.dev.read1 (some (BitVec.ofNat 64 leaf)) (0x10FFC + i)).2 = false := by decide +kernel
theorem witness_FormatsRoundTrip : fp32.val 0x7F800001 = .nan ∧ fp32.val 0xFFFFFFFF = .nan ∧ 0xFFFFFFFF < 2 ^ fp32.width
    ∧ fp32.val 0x00000001 ≠ .nan ∧ fp32.val 0xFF800000 ≠ .nan ∧ e4m3.val 0xFF = .nan ∧ e2m1.val 0xF ≠ .nan
    ∧ e2m3.val 0x3F ≠ .nan ∧ 0x3F < 2 ^ e2m3.width := by decide +kernel
theorem witness_VectorArithmetic : mems.vexecutes none = true ∧ mems.vexecutes (some 1) = true ∧ mems.taping = false
    ∧ ElType.bf16.isFloat = true ∧ ElType.z16.isFloat = false := by decide +kernel
theorem witness_VectorMoves : mems.vexecutes none = true ∧ mems.taping = false ∧ (∀ n ∈ [0, 31, 32, 63, 64],
    (immBits mems (.long (BitVec.ofNat 16 n))).1 = n) ∧ mems.qtr.scanBusy = mems.core.clock
    ∧ (mems.modQtr fun x => { x with scanBusy := 1 }).core.clock < (mems.modQtr fun x => { x with scanBusy := 1 }).qtr.scanBusy := by
  decide +kernel
theorem witness_VectorFrame : ∃ t, (Instr.vmov (some 1) 3 4).vectorDst = some (some 1, .v 3) ∧ (Instr.vmov (some 1) 3 4).wf = true
    ∧ exec (.vmov (some 1) 3 4) mems = .next t ∧ t.core.issue.stop = none := ⟨_, rfl, by decide +kernel, rfl, by decide +kernel⟩
/-- A context-free header, and one that waits, and one that signals. -/
def hdrZ : CmdHdr := { rsvA := 0, wc := false, s := false, f := false, se := false, we := false, widx := 0, wthr := 0,
                       sidx := 0, sinc := 0, scope := 0, cq := 0, rsvB := 0 }
/-- A command by its bits, with its capabilities; the focused core with it at the head of a queue. -/
def cmd (bits : CmdWord) (caps : List (Nat × CapWord)) : Cmd :=
  { bits, seq := 1, inline := true, q := 0, caps := tab 0 caps, swz := [], epoch := 1, follow := none, line := 0 }
def queued (s : State) (e : Eng) (c : Cmd) : State := s.modEng e fun x => { x with queue := [c] }
/-- Accesses that the page queue has answered: the walk is made again. -/
def answered (agent core : Nat) (l : List (Nat × Nat)) : List Held :=
  l.map fun x => { fid := 0, rcb := 0, va := x.1, kind := x.2, agent, core, pte := 0, op := 0, failed := some false, posted := true }
/-- An engine takes the command, and `f` holds of its context and the state it begins in. -/
def taken (e : Eng) (op : Nat) (h : CmdHdr) (s : State) (f : Ctx → State → Bool) : Bool :=
  match s.begins e op h with
  | some (x, s1) => f x s1
  | none => false
/-- The first of two computations answers, and so does the second from where the first ended. -/
def thenOk {α β : Type} (m : EStateM.Result Stop State α) (f : α → State → EStateM.Result Stop State β) : Bool :=
  match m with
  | .ok a s => isOk (f a s)
  | _ => false
/-- The command MMA.bf16 of R173's worked example, on accumulator 2. -/
def mma2 : CmdWord := 0x00000000000000040004000100000000000054020101010001000340
/-- Accumulators: 1 has a poisoned row 5, 3 a shadow; p1 = 1. -/
def accs : State := (regs base [(1, 5)] [(1, 1)] []).modAcc fun _ => { elems := [], flg := [(3, 0x10)], pois := [(1, 32)] }
theorem witness_AccumulatorResults : accs.core.isService = false ∧ accs.vexecutes none = true ∧ accs.executes none = true
    ∧ accs.core.accBusy 0 = none ∧ (accs.core.acc.poison false 0).getLsbD 5 = false ∧ (accs.core.acc.poison false 1).getLsbD 5 = true
    ∧ accs.core.acc.isInt false 0 = false ∧ accs.core.acc.sv 0 = false ∧ accs.core.acc.sv 3 = true
    ∧ (accs.rdP 1).getLsbD 0 = true ∧ (accs.rdP 2).getLsbD 0 = false ∧ twf 0 accs.core.acc.elems = true
    ∧ (∀ i < Fmt.rows .bf16, (accs.core.acc.poison false 0).getLsbD ((5 + i) % 64) = false) := by decide +kernel
theorem witness_AccumulatorResults_busy : (queued base .me (cmd mma2 [])).core.accBusy 2 = some 1
    ∧ (queued base .me (cmd mma2 [])).core.accBusy 1 = none ∧ service.core.isService = true := by decide +kernel
/-- A tape at 0x10000 whose one segment holds the value 5 and the decision "taken". -/
def tapeCells : List (Nat × Nat × Nat) := [(0x10000, 8, 0x1000), (0x10008, 8, 48), (0x10019, 1, 2), (0x11000, 8, 5),
  (0x1100C, 4, 0x11000000), (0x11010, 8, 1), (0x1101C, 4, 0x41000001), (0x11020, 4, 1), (0x11024, 4, 1), (0x1102C, 4, 0x51000000)]
def tapeDev (l : List (Nat × Nat)) : Device := { paged leaf tapeCells with holds := answered 7 0 l }
def tapeCap : CapWord := devCap 0x10000 0x3000
/-- A machine with c1 the tape's capability, a tape in the issuing quarter, and its device. -/
def withTape (t : Tape) (l : List (Nat × Nat)) : State :=
  withDev ((regs base [] [] [(1, tapeCap)]).modQtr fun x => { x with tape := t }) (tapeDev l)
def recTape : Tape := { Tape.none with phase := .record, cap := tapeCap, size := 0x1000 }
def repTape : Tape := { Tape.none with phase := .replay, cap := tapeCap, size := 0x1000, head := 48, cursor := 48 }
theorem witness_TapeResults : base.core.isService = false ∧ base.core.issue.ext = none ∧ base.qtr.tape.phase = .unbound
    ∧ recTape.failed = false ∧ recTape.head + (recS 7).length - recTape.tail ≤ recTape.size
    ∧ { recTape with head := 4080 }.head + (recP 7).length - recTape.tail = recTape.size ∧ recTape.held + 16 ≤ 4096
    ∧ { recTape with seg := 254 }.seg < 255 ∧ isOk (closeTape (withTape recTape [(0x11000, 1)])) = true
    ∧ isOk (replayMark repTape (withTape repTape [(0x11020, 0)])) = true
    ∧ isOk (replayMark { repTape with rstate := .lost } (withTape repTape [])) = true
    ∧ (immBits base (.long 7)).1 = 7 := by decide +kernel
theorem witness_TapeResults_on : let s := withTape .none []
    passes (capCheck s.core s.dev (s.rdC 1) 0 (4096 + 0x2000) (permR + permW) [2]) 0x10000 = true
    ∧ isOk (tapeXlate (capBase (s.rdC 1)) 264 1 1 s) = true
    ∧ passes (capCheck s.core s.dev (s.rdC 1) 0 0x900 permR [2]) 0x10000 = true
    ∧ (match tapeXlate 0x10000 0x900 0 1 s with
       | .ok parts s1 =>
         (match cleanOrPoison 0x10000 (s1.readParts parts) s1 with
          | .ok desc _ => closedFlag desc && passes (capCheck s1.core s1.dev (s1.qtr.rdC 1) 0
              (4096 + (Tape.ofDescriptor (s.rdC 1) desc).size) permR [2]) 0x10000
          | _ => false)
       | _ => false) = true := by decide +kernel
theorem witness_TapeResults_pop : let t := { repTape with cursor := 16, rstate := .inside }
    let s := withTape t [(0x11000, 0)]
    answers (trailerAt t s) 0x11000000 = true ∧ 0x11000000 / 2 ^ 28 = 1 ∧ t.dleft = 0 ∧ t.cursor ≠ t.start t.cur
    ∧ thenOk (trailerAt t s) (fun _ s1 => regionBytes t (backBy t.cursor 16) 1 s1) = true := by decide +kernel
theorem witness_TapeResults_br : let t := { repTape with cursor := 32, rstate := .inside }
    let s := withTape t [(0x11010, 0)]
    answers (trailerAt t s) 0x41000001 = true ∧ 0x41000001 / 2 ^ 28 = 4 ∧ 0x41000001 % 256 ≠ 0
    ∧ thenOk (trailerAt t s) (fun _ s1 => regionBytes t (backBy t.cursor 16) 1 s1) = true := by decide +kernel
theorem witness_TapeResults_div : let t := { repTape with cursor := 32, rstate := .inside }
    answers (trailerAt t (withTape t [(0x1101C, 0)])) 0x41000001 = true ∧ 0x41000001 / 2 ^ 28 ≠ 1
    ∧ t.cursor ≠ t.start t.cur ∧ answers (trailerAt Tape.none (withTape Tape.none [])) 0 = true
    ∧ ({ repTape with lost := 1 }.lost.getLsbD 0) = true ∧ Tape.none.cursor = Tape.none.start 0 := by decide +kernel
theorem witness_TapeResults_taped : let s := (withTape recTape []).modIssue fun i => { i with tape := true }
    let s1 := s.modQtr fun x => { x with c := tset 0 x.c 5 (mkCap true 0 0 0xFFFF 0x1000 65536) }
    s.core.issue.tape = true ∧ s.qtr.tape.phase = .record ∧ recTape.head + 132 - recTape.tail ≤ recTape.size
    ∧ recTape.held + 132 ≤ 4096 ∧ recTape.openCount = 0 ∧ { recTape with head := 4096 }.size < 4096 + (recS 7).length
    ∧ (match quarterPlace (s1.capIdx 5) (s1.offB 0 8) 8 permR 8 false [0, 2] s1 with
       | .ok p s2 => decide (p = .pool 65536 ∧ s2 = s1)
       | _ => false) = true
    ∧ s1.core.raceAt s1.core.issue.q.toNat 65536 8 = none := by decide +kernel
/-- A context whose pool has no scratchpad rows beyond the first sixteen: c1 an area for its image; TSTAT of a handler. -/
def ctxDev (l : List (Nat × Nat)) : Device :=
  { paged leaf [] with rcbs := [(0, 0x41000 <<< 576 ||| 0x100000 <<< 512 ||| 0x1000 <<< 256 ||| 0x10000)], holds := answered 0 0 l }
def small (s : State) : State := s.modCore fun c => { c with sys := { c.sys with pools := 0x10, poolc := 0x10 } }
def ctxs (l : List (Nat × Nat)) : State := hm (withDev (small (regs base [] [] [(1, devCap 0x100000 0x41000)])) (ctxDev l))
/-- A card that allows a checkpoint, and its run on the focused core. -/
def ckCard : Card :=
  { qid := 0, ctr := 0, bytes := 1 <<< 182, deps := 0, region := 0, st := .ready, refused := 0, kwOrder := 0, rdOrder := 0,
    cap := 1, next := 1, redeal := [], live := 1 }
def ckRun : State := { small running with dev := { ctxDev [] with disp := { Disp.empty with cards := [ckCard] } } }
theorem witness_ContextResults : (ctxs []).executes none = true ∧ (ctxs []).core.priv = true
    ∧ (ctxs []).core.enginesStopped = true ∧ base.core.priv = false
    ∧ passes (capCheck (ctxs []).core (ctxs []).dev ((ctxs []).rdC 1) 0 0x40000 permW [2]) 0x100000 = true
    ∧ isOk (ctxParts 0x100000 0x40000 1 1 (ctxs [(0x110000, 1), (0x120000, 1), (0x130000, 1)])) = true
    ∧ passes (capCheck (ctxs []).core (ctxs []).dev ((ctxs []).rdC 1) 0 0x40000 permR [2]) 0x100000 = true
    ∧ (match ctxRead 0x100000 0x18 1 (ctxs []) with | .ok h _ => decide (imgAt h 0x10 8 = 0) | _ => false) = true
    ∧ ((ctxs []).modEng .ce fun x => { x with queue := [cmd 1 []], phase := .passed }).core.enginesStopped = false
    ∧ ckRun.core.depth = 0 ∧ ckRun.checkpointable ckRun.core = true ∧ base.checkpointable base.core = false := by decide +kernel
/-- A job queue of 2^`n` slots, a frame queue, and the counters that a clause asks for. -/
def jq (n : Nat) : Queue := { Queue.off with en := true, desc := BitVec.ofNat 512 (n * 2 ^ 64) }
def withQ (s : State) (id : Nat) (q : Queue) : State := s.modDev fun d => { d with queues := tset .off d.queues id q }
/-- s1 = 5 a job queue, s2 = 0x2003 a frame queue, s3 = 0x10000 and s4 = 0x1100 no queue, s5 = 4096. -/
def qs (s : State) : State := regs s [(1, 5), (2, 0x2003), (3, 0x10000), (4, 0x1100), (5, 4096), (6, 1)] [] [(1, padCap 0x10000 64)]
def fullQ : Queue := { jq 2 with pclaim := 4, tail := 4 }
def oneClaim : Queue := { jq 2 with pclaim := 1, claimsT := [{ first := 0, count := 1, done := false }] }
def manyClaims : Queue :=
  { jq 6 with pclaim := 32, claimsT := (List.range 32).map fun i => { first := BitVec.ofNat 32 i, count := 1, done := false } }
theorem witness_QueueResults :
    let s := qs (withQ (withQ base 5 (jq 2)) 0x2003 { jq 2 with tail := 1, pclaim := 1 })
    s.executes none = true ∧ s.dev.enabled (s.rdS 3) = none ∧ s.dev.enabled (s.rdS 1) = some (5, jq 2)
      ∧ s.sideOk 5 { jq 2 with desc := 1 <<< 73 } false = false ∧ s.sideOk 5 (jq 2) false = true ∧ s.sideOk 0x2003 (jq 2) true = true
      ∧ ({ jq 2 with pclaim := 3 }.pclaim - (jq 2).head).toNat + 1 = (jq 2).slots
      ∧ ({ jq 2 with tail := 1, pclaim := 1 }.tail - (jq 2).cclaim).toNat = 1
      ∧ fullQ.slots < (fullQ.pclaim - fullQ.head).toNat + 1 ∧ ((jq 2).tail - (jq 2).cclaim).toNat < 1
      ∧ (manyClaims.claimsT.filter fun c => !c.done).length = 32 ∧ (manyClaims.pclaim - manyClaims.head).toNat + 1 ≤ manyClaims.slots
      ∧ oneClaim.claimsT = [{ first := oneClaim.tail, count := (s.rdS 6).toNat, done := false }] ∧ (s.rdS 0).setWidth 32 = oneClaim.tail
      ∧ (oneClaim.publish false 0 1).isSome = true ∧ (oneClaim.publish false 0 2) = none
      ∧ (immBits s (.long 7)).1 = 7 ∧ s.dev.loaded (s.rdS 1) = some (5, jq 2) ∧ s.regionOk (jq 2) = true := by decide +kernel
/-- A walk of a device none of whose key slots is provisioned never ends at an absent page. -/
theorem walkVia_unkeyed (d : Device) (hd : d.slots = []) (up : Nat → Word → Word) (va kind : Nat) (l : List (Nat × Nat × Nat))
    (t : Nat) (p : Word) (a k : Nat) : (d.walkVia up va kind l t).1 ≠ .absent p a k := by
  induction l generalizing t with
  | nil => simp [Device.walkVia]
  | cons x l ih =>
    unfold Device.walkVia
    dsimp only
    split
    · simp
    split
    · simp
    split
    · unfold Device.leafOut Device.provisioned
      split
      · simp
      · rw [hd]; simp [tget, KeySlot.empty]
    · exact ih _
/-- Queue 0x2003 has a good descriptor in memory, queue 5 has not. -/
def descs : State := hm (qs { withQ base 5 (jq 2) with dev := { Device.reset with mem := cells [(64 * 0x2003 + 8, 1, 2)] } })
theorem witness_QueueResults_reload : descs.core.issue.ext = none ∧ descs.core.priv = true ∧ queueId (descs.rdS 3) = none
    ∧ queueId (descs.rdS 4) = none ∧ queueId (descs.rdS 1) = some 5 ∧ queueId (descs.rdS 2) = some 0x2003
    ∧ descOk 5 (BitVec.ofNat 512 (descs.dev.num (64 * 5) 64)) = false
    ∧ descOk 0x2003 (BitVec.ofNat 512 (descs.dev.num (64 * 0x2003) 64)) = true ∧ base.core.priv = false := by decide +kernel
theorem witness_QueueResults_still (op r va kind : Nat) :
    match descs.dev.hwWalk op r va kind with | .absent .. => False | _ => True := by
  split
  · rename_i p a k h
    unfold Device.hwWalk at h
    split at h
    · simp at h
    · unfold Device.walkIn at h
      split at h
      · simp at h
      · unfold Device.walk at h
        split at h
        · simp at h
        · exact walkVia_unkeyed _ rfl _ _ _ _ _ _ _ _ h
  · trivial
theorem witness_QueueResults_submit : let s := qs (withQ base 5 (jq 2))
    isOk (quarterBytes 1 64 s) = true ∧ 4096 ≤ (s.rdS 5).toNat ∧ (s.rdS 1).toNat < 4096 ∧ s.dev.enabled (s.rdS 0) = none
    ∧ s.submitStatus (jq 2) 0 = 0 ∧ s.submitStatus (jq 2) (1 <<< 152) = 3 := by decide +kernel
/-- A chain of four lines with three published; c1 a descriptor in device memory of one line, c2 one of none. -/
def chained : State :=
  ((withDev (regs base [(1, 1), (2, 2)] [] [(1, devCap 0x10000 32), (2, devCap 0x10020 32)])
    (paged leaf [(0x10000, 8, 0x8000), (0x10008, 4, 1)])).modEng .ni fun x =>
      { x with chain := { Chain.none with active := true, nlines := 4, tail := 3 } })
theorem witness_ChainResults : chained.executes none = true ∧ chained.core.isService = false ∧ (immBits chained (.long 3)).1 = 3
    ∧ (chained.core.eng .ce).chain.active = false ∧ (chained.core.eng .ni).chain.active = true
    ∧ (4 : Nat) < (3 : BitVec 32).toNat + (chained.rdS 2).toNat ∧ (3 : BitVec 32).toNat + (chained.rdS 1).toNat ≤ 4
    ∧ passes (capCheck chained.core chained.dev (chained.rdC 1) 0 32 (permR + permW) [2]) 0x10000 = true ∧ 0x10000 % 32 = 0
    ∧ (match quarterPlace 1 0 32 (permR + permW) 32 false [2] chained with
       | .ok p s1 => (match quarterRead p 32 false false s1 with
           | .ok (x, _) _ => decide (ofBytes (x.take 8) % 64 = 0 ∧ ofBytes ((x.drop 8).take 4) = 1
               ∧ ofBytes ((x.drop 12).take 4) ≤ 1 ∧ ofBytes ((x.drop 0x18).take 8) = 0)
           | _ => false)
       | _ => false) = true
    ∧ (match quarterPlace 2 0 32 (permR + permW) 32 false [2] chained with
       | .ok p s1 => (match quarterRead p 32 false false s1 with
           | .ok (x, _) _ => decide (ofBytes ((x.drop 8).take 4) = 0)
           | _ => false)
       | _ => false) = true := by decide +kernel
/-- Operands of the table instructions: s1 = 0x10000, s2 = 2^32, s3 = 4095, s4 = 4096, s5 = 3, s6 = 2, s7 the largest swizzle,
s8 one with K = 9, s9 a threshold with a reserved bit, s10 one with SSH 7, s11 = 1; c1 a table of 64 KiB. -/
def tbl : State :=
  regs { withQ (withQ base 0x1000 (jq 2)) 0x3000 (jq 2) with dev := { paged leaf [] with
      queues := [(0x1000, jq 2), (0x3000, jq 2)], busy := [(256, true)],
      pins := [{ line := 0, region := 0, ctx := 0, va := 0x10000 }] } }
    [(1, 0x10000), (2, 0x100000000), (3, 4095), (4, 4096), (5, 3), (6, 2), (7, 0x8040F), (8, 0x9040F), (9, 0x10000000000),
     (10, 0x70000000), (11, 1), (12, 256), (13, 0x101)] [] [(1, devCap 0x10000 65536)]
theorem witness_TableResults : (hm tbl).executes none = true ∧ (hm tbl).core.priv = true ∧ tbl.core.priv = false
    ∧ ((hm tbl).rdS 1).toNat % 65536 = 0 ∧ ((hm tbl).rdS 0).toNat + 65536 * ((hm tbl).rdS 2).toNat = 2 ^ 48
    ∧ ((hm tbl).rdS 1).toNat + 65536 * ((hm tbl).rdS 2).toNat > 2 ^ 48
    ∧ rcbValid tbl.dev.rcbs 0 = true ∧ rcbValid tbl.dev.rcbs 1 = false ∧ tbl.dev.pinsIn 0 0x20000 65536 = []
    ∧ tbl.dev.pinsIn 0 0x10000 65536 ≠ [] ∧ (tbl.rdS 3).toNat = 4095 ∧ (tbl.rdS 4).toNat = 4096 ∧ (tbl.rdS 5).toNat % 256 = 3
    ∧ (tbl.rdS 6).toNat % 256 ≠ 1 ∧ (tbl.rdS 6).toNat % 256 ≠ 3 ∧ (immBits tbl (.long 2)).1 = 2
    ∧ tbl.rdS 7 &&& ~~~0x1F0F1F1F = 0 ∧ (bfld (tbl.rdS 7) 16 4, bfld (tbl.rdS 7) 8 5, bfld (tbl.rdS 7) 0 5) = (8, 4, 15)
    ∧ bfld (tbl.rdS 8) 16 4 = 9 ∧ bfld (tbl.rdS 9) 40 24 ≠ 0 ∧ 6 < bfld (tbl.rdS 10) 28 4 ∧ tbl.slotTest 0 = 0 ∧ tbl.slotTest 1 = 6
    ∧ tget false tbl.dev.busy 0 = false ∧ tget false tbl.dev.busy (tbl.rdS 12).toNat = true ∧ (tbl.rdS 12).toNat % 256 = 0
    ∧ passes (capCheck tbl.core tbl.dev (tbl.rdC 1) 0 65536 permR [2]) 0x10000 = true ∧ tbl.laneTest 0 = 0 ∧ tbl.laneTest 1 = 6 := by
  decide +kernel
theorem witness_CommandEntry : base.executes none = true ∧ base.core.isService = false ∧ base.core.depth = 0
    ∧ (base.core.eng .me).queue.length < bfld base.core.sys.slip 0 7
    ∧ (let s := base.modCore fun c => { c with sys := { c.sys with slip := 1 } }
       bfld s.core.sys.slip 0 7 ≤ ((queued s .me (cmd 0 [])).core.eng .me).queue.length) ∧ (hm base).core.depth ≠ 0 := by decide +kernel
/-- The ME at a command that signals semaphore 1 by 1; semaphore 1 at 0 of 1, or at 1 of 1. -/
def finishing (bits : CmdWord) (v : Nat) : State :=
  ((queued base .me (cmd bits [])).modEng .me fun x => { x with phase := .done }).modCore fun c =>
    { c with sems := [(1, { v := BitVec.ofNat 16 v, ceil := 1 })] }
/-- Operands of the CMU, all zeros. -/
def cmu0 : CmuOp :=
  { cf := 0, cc := 0, cl := 0, slot := 0, grp := 0, foff := 0, coff := 0, rpoff := 0, enoff := 0, sumoff := 0, maxent := 0, row0 := 0,
    nd := false, rsv := 0 }
theorem witness_EngineSequencing : ((queued base .me (cmd 1 [])).modEng .me fun x => { x with flt := true }).core.me.flt = true
    ∧ (finishing 1 0).core.me.phase = .done ∧ (finishing 1 0).core.me.flt = false ∧ (finishing 1 0).core.me.sig = false
    ∧ (finishing 1 0).core.me.fault = none ∧ (cmd 1 []).follow = none ∧ (cmd 1 []).hdr.se = false
    ∧ (queued base .me (cmd 1 [])).core.me.phase ≠ .done
    ∧ taken .me 0xC0 hdrZ (queued base .me (cmd 0xC0 [])) (fun _ _ => true) = true
    ∧ (Instr.cmstat hdrZ cmu0).engine = some .cmu := by decide +kernel
theorem witness_EngineSequencing_signal : (cmd mma2 []).hdr.se = true ∧ (cmd mma2 []).hdr.sidx = 1 ∧ (cmd mma2 []).hdr.sinc = 1
    ∧ ((finishing mma2 0).core.semOf 1).v.toNat + 1 ≤ ((finishing mma2 0).core.semOf 1).ceil.toNat
    ∧ ((finishing mma2 1).core.semOf 1).ceil.toNat < ((finishing mma2 1).core.semOf 1).v.toNat + 1 := by decide +kernel
/-- A chain of the copy engine whose one published line, at 0x10000, holds one command. -/
def fetching : State :=
  (withDev base (paged leaf [(0x10000, 4, 0x54000000), (0x10004, 8, 1)])).modEng .ce fun x =>
    { x with chain := { Chain.none with active := true, base := 0x10000, nlines := 1, tail := 1 } }
theorem witness_EngineSequencing_chain : fetching.core.ce.flt = false ∧ fetching.core.frozen = false ∧ fetching.core.stopsNow = false
    ∧ fetching.core.ce.lpend = none ∧ fetching.core.ce.chain.active = true ∧ fetching.core.ce.chain.fidx ≠ fetching.core.ce.chain.tail
    ∧ (match fetching.xlateRange (agentNo .ce) 0x10000 64 0 with
       | (.ok parts, s1) =>
         let l := BitVec.ofNat 512 (ofBytes ((s1.readParts parts).map (·.1)))
         decide (lineBad .ce l = none ∧ kindOf l = 2 ∧ l.extractLsb' 32 224 ≠ 0 ∧ l.extractLsb' 256 224 = 0
           ∧ (s1.core.eng .ce).queue.length < s1.core.slipLimit)
       | _ => false) = true := by decide +kernel
/-- A computation answers, and `f` holds of its value and the state it leaves. -/
def andOk {α : Type} (r : EStateM.Result Stop State α) (f : α → State → Bool) : Bool := match r with | .ok a s => f a s | _ => false
/-- A computation answers with this value and changes nothing. -/
def stays {α : Type} [DecidableEq α] (m : M α) (a : α) (s : State) : Bool := andOk (m s) fun b u => decide (b = a ∧ u = s)
/-- Space 0 through c1 and c2, from 0x11000 and from 0x12000; space 2 through c3. -/
def ceCaps : List (Nat × CapWord) := [(1, padCap 0x11000 4096), (2, padCap 0x12000 4096), (3, devCap 0x10000 0x30000)]
def ceC : CeCommon := { cs := 1, cd := 2, swe := false, sw := 0, be := false, bidx := 0, rsv := 0 }
def copyO : CopyOp := { c := ceC, soff := 8, doff := 16, len := 24 }
def atCe (s : State) : State := queued s .ce (cmd 1 ceCaps)
/-- The premises of a copy of rows. -/
def rowsOk (c : CeCommon) (a b : Nat) (rs : List Row) (x : Ctx) (s : State) : Bool :=
  stays (x.header (CeCommon.ok c)) () s && andOk (x.copyPlan c a b (rs.filter fun r => r.ns ≠ 0) s) fun l u =>
    isOk (x.doMoves (barOf c.be c.bidx) [] l u)
theorem witness_CopyEngineResults : taken .ce 1 hdrZ (atCe base) (fun x s => (s.gcmUse x copyO).isNone
    && rowsOk ceC 8 16 [{ s := 0, d := 0, ns := 24, nd := 24 }] x s && !copyO.c.swe && !copyO.c.be && 0 < copyO.len.toNat
    && passes (capCheck s.core s.dev (x.cap 1) 8 24 (permR + permENG) [0, 2, 3, 4]) 0x11008
    && passes (capCheck s.core s.dev (x.cap 2) 16 24 (permW + permENG) s.dstSpaces) 0x12010
    && x.space 1 = 0 && x.space 2 = 0 && (0x11008 : Nat) + 24 ≤ 0x12010) = true := by decide +kernel
theorem witness_CopyEngineResults_race (g : Nat) : (atCe base).core.raceOk 4 g = true := by
  have h : tget (0, 0) (atCe base).core.pool.wrec g = (0, 0) := rfl
  unfold Core.raceOk; rw [h]; decide +kernel
def copy2O : Copy2dOp := { c := ceC, soff := 0, doff := 0, rowb := 8, nrow := 2, sstr := 1, dstr := 2 }
def copy3O : Copy3dOp := { c := ceC, soff := 0, doff := 0, rowb := 8, nrow := 2, npl := 2, sstr := 1, dstr := 2, sps := 1, dps := 1 }
def fillO : FillOp := { c := { ceC with cs := 0 }, doff := 3, len := 30, pat := 0x44332211, rsv := 0 }
theorem witness_CopyEngineResults_rows :
    taken .ce 2 hdrZ (atCe base) (fun x s => rowsOk ceC 0 0 (Copy2dOp.rows copy2O) x s)
      && taken .ce 3 hdrZ (atCe base) (fun x s => rowsOk ceC 0 0 (Copy3dOp.rows copy3O) x s) = true := by decide +kernel
theorem witness_CopyEngineResults_fill : taken .ce 7 hdrZ (atCe base) (fun x s =>
    stays (x.header (CeCommon.ok fillO.c && fillO.c.cs = 0 && fillO.rsv = 0)) () s && !fillO.c.swe && !fillO.c.be
      && passes (capCheck s.core s.dev (x.cap 2) 3 30 (permW + permENG) s.dstSpaces) 0x12003 && x.space 2 = 0) = true := by
  decide +kernel
/-- A service core at a COPY of a frame from a host-backed page at 0x10000 to host memory. -/
def sealing : State :=
  queued { service with dev := paged (leaf + 16 + 32) [] } .ce
    (cmd 1 [(1, devCap 0x10000 0x20000), (2, mkCap true 0 3 0x3FF 0x20000 0)])
def sealO : CopyOp := { c := ceC, soff := 0, doff := 0, len := 65568 }
theorem witness_CopyEngineResults_gcm : taken .ce 1 hdrZ sealing (fun x s =>
    match s.gcmUse x sealO with
    | some u => isOk (x.gcmCopy sealO u s)
    | none => false) = true := by decide +kernel
/-- A base-note store at 0x10000 of one tile of 32 channels, its slots at 0x11000 and 0x12000; a list at 0x11000 of the
scratchpad with one entry; the walks that are made after the first. -/
def tiled (l : List (Nat × Nat)) : State :=
  queued { withPool base [(0x11000, 4, 0x10000)] with dev :=
      { paged leaf [(0x10000, 8, 0x2000010001), (0x10008, 8, 0x1000), (0x10010, 8, 0x2000)] with holds := answered 4 0 l } } .ce
    (cmd 1 ceCaps)
def tileO : TileOp :=
  { cb := 3, cl := 1, cs := 0, swe := false, sw := 0, be := false, bidx := 0, rsvA := 0, layer := 0, slot := false, rsvB := 0,
    rpoff := 0, enoff := 1, first := 0, count := 1, modes := 1, halo := 0, rsvC := 0, soff := 0, rsvD := 0 }
def tileS : TileOp := { tileO with cs := 2 }
/-- The walks of 64 positions from an address. -/
def walks (a kind : Nat) : List (Nat × Nat) := (List.range 64).map fun p => (a + 64 * p, kind)
theorem witness_CopyEngineResults_mccopy : taken .ce 4 hdrZ (tiled (walks 0x12000 0 ++ walks 0x11000 1)) (fun x s =>
    let perm := permR + permW + permENG
    andOk (x.tiles tileO (tileO.cs = 0 && tileO.soff = 0 && tileO.halo = 0) perm none s) fun r s =>
      andOk (r.2.2.mapM (fun e => x.mcMoves tileO r.1 perm e) s) fun ls s =>
        r.2.2.length = 1 && isOk (x.doMoves none r.2.1.rngs ls.flatten s)) = true := by decide +kernel
theorem witness_CopyEngineResults_tgath : taken .ce 5 hdrZ (tiled (walks 0x11000 0)) (fun x s =>
    andOk (x.tiles tileS true (permR + permENG) (some (permW + permENG)) s) fun r s =>
      andOk (x.capAt 2 0 (r.2.2.length * r.1.gsize 64) (permW + permENG) 1 [0] s) fun a s =>
        andOk ((r.2.2.mapIdx fun k e => (k, e)).mapM (fun p => x.tgMove tileS r.1 a p.1 p.2) s) fun l s =>
          isOk (x.doMoves none r.2.1.rngs l s)) = true := by decide +kernel
theorem witness_CopyEngineResults_tscat : taken .ce 6 hdrZ (tiled (walks 0x11000 1)) (fun x s =>
    andOk (x.tiles tileS (tileS.halo = 0) (permR + permW + permENG) (some (permR + permENG)) s) fun r s =>
      andOk (x.capAt 2 0 (r.2.2.length * (r.1.tile + r.1.tileSc)) (permR + permENG) 1 [0] s) fun a s =>
        andOk ((r.2.2.mapIdx fun k e => (k, e)).mapM (fun p => x.tsMoves tileS r.1 (permR + permW + permENG) a p.1 p.2) s) fun ls s =>
          isOk (x.doMoves none r.2.1.rngs ls.flatten s)) = true := by decide +kernel
/-- A machine whose cores 0 and 1 run work of one key slot; space 1 through c3 is core 1's scratchpad. -/
def niCaps : List (Nat × CapWord) := [(1, padCap 0x11000 4096), (2, padCap 0x12000 4096), (3, mkCap true 0 1 0x3FF 4096 0x811000)]
def paired : State :=
  withPool { running with others := [(1, { Core.reset 1 with run := some aRun })] } [(0x12004, 4, 1)]
def atNi (s : State) : State := queued s .ni (cmd 1 niCaps)
def niC : NiCommon := { cl := 1, cr := 3, cx := 2, be := false, bidx := 0, esz := 0, rsv := 0 }
def rrwO : RrwOp := { c := niC, loff := 0, roff := 0, xoff := 0, count := 2, rsv := 0 }
def rsendO : RsendOp :=
  { c := { niC with cx := 0 }, loff := 0, roff := 0, len := 32, rbe := false, rbidx := 0, rse := false, rsidx := 0, rsinc := 0, rsv := 0 }
theorem witness_TransferResults : (taken .ni 1 hdrZ (atNi paired) fun x s => andOk (x.rrwCheck rrwO true s) fun l s =>
      l.length = 2 && l.all fun e => (s.refusal (remoteCore e.r) s.issuerKs (remoteOff e.r) 16).isNone) = true
    ∧ (taken .ni 2 hdrZ (atNi paired) fun x s => andOk (x.rrwCheck rrwO false s) fun l s =>
      l.length = 2 && l.all fun e => (s.refusal (remoteCore e.r) s.issuerKs (remoteOff e.r) 16).isNone) = true := by decide +kernel
/-- RSEND that passes its checks, its target admitting (`why` none) or refusing it. -/
def sends (why : Option Nat) (s : State) : Bool :=
  taken .ni 3 hdrZ (atNi s) fun x s => stays (x.header (RsendOp.ok rsendO)) () s
    && stays (x.capAt 1 0 32 (permR + permENG) 1 [0]) 0x11000 s && stays (x.capAt 3 0 32 (permW + permENG) 1 [1]) 0x811000 s
    && remoteCore 0x811000 = 1 && stays (x.race false { space := 0, a := 0x11000, n := 32, sw := none }) () s
    && s.refusal 1 s.issuerKs (remoteOff 0x811000) 32 = why
theorem witness_TransferResults_rsend : sends none paired = true ∧ sends (some 8) running = true := by decide +kernel
/-- Tape engine: the tape of the issuing quarter, bound; its segment 0 into c2. -/
def revO : TaperevOp := { ct := 1, cd := 2, be := false, bidx := 0, rsvA := 0, seg := 0, doff := 0, len := 48, rsvB := 0 }
theorem witness_TransferResults_taperev : taken .tape 1 hdrZ
    (queued (withTape repTape []) .tape (cmd 1 [(1, tapeCap), (2, padCap 0x12000 4096)])) (fun x s =>
      stays (x.header (TaperevOp.ok revO)) () s && stays (x.capAt 1 0 0x900 (permR + permENG) 1 [2]) 0x10000 s
        && stays (x.capAt 2 0 48 (permW + permENG) 1 [0]) 0x12000 s && stays (x.bound false 0) () s
        && s.core.boundTape 0x10000 = some repTape && stays (x.capAt 1 0 (4096 + 0x1000) (permR + permENG) 1 [2]) 0x10000 s
        && andOk (x.revTape repTape 0 false s) fun out u =>
          out.length = 48 && stays (x.race true { space := 0, a := 0x12000, n := 48, sw := none }) () u) = true := by decide +kernel
/-- A frame of 16 by 16 pixels at 0x10000 of device memory, its three side tensors, and stream slot 0 in use. -/
def framed (b : Bool) (l : List (Nat × Nat)) : State :=
  queued (withQ { base with dev :=
      { paged leaf [(0x10004, 2, 16), (0x10006, 2, 16), (0x10009, 1, 4), (0x10020, 8, 0x13000), (0x10028, 8, 0x13100),
                    (0x10030, 8, 0x13200)] with holds := answered 8 0 l, busy := [(0, b)].filter (·.2) } } 0x1000 (jq 2))
    .cmu (cmd 1 ceCaps)
def scanO : CmuOp := { cmu0 with cf := 3, cc := 3, cl := 1, coff := 0x100, enoff := 1, sumoff := 2, maxent := 4 }
def scans (b : Bool) : Bool :=
  taken .cmu 1 hdrZ (framed b [(0x11000, 1), (0x13000, 0), (0x13100, 0), (0x13200, 0)]) fun x s =>
    andOk (x.scanCheck scanO s) fun p u => p.g.rows = 2 && tget false u.dev.busy 0 = b
theorem witness_TransferResults_cmscan : scans false = true ∧ scans true = true := by decide +kernel
def resetO : CmuOp := { cmu0 with cc := 3, coff := 0x100, row0 := 4, maxent := 4097 }
theorem witness_TransferResults_cmreset : taken .cmu 2 hdrZ (framed false []) (fun x s =>
    stays (x.header (resetOk resetO)) () s && stays (x.capAt 3 0x1000 16 (permR + permW + permENG) 1 [2]) 0x11000 s
      && stays (x.slotTest resetO) () s && andOk (x.span 2 0x11000 16 1 s) fun _ u => !tget false u.dev.busy 0) = true := by
  decide +kernel
def statO : CmuOp := { cmu0 with cl := 1 }
theorem witness_TransferResults_cmstat : taken .cmu 3 hdrZ (framed false []) (fun x s =>
    stays (x.header (statOk statO)) () s && stays (x.capAt 1 0 32 (permW + permENG) 1 [0, 2]) 0x11000 s
      && stays (x.slotTest statO) () s && isOk (x.span 0 0x11000 32 1 s)) = true := by decide +kernel
/-- Operands of the accumulator commands and of products (the dense one of shape 2, the others of shape 1); X is at 0x12000, full. -/
def accO : AccOp :=
  { acc := 1, rsvA := 0, lfmt := 0, ty := false, rsvB := 0, ca := 0, rsvC := 0, swa := 0, swae := false, rsvD := 0, offa := 0, rsvE := 0,
    stra := 0, rsvF := 0 }
def mmaO : MmaOp :=
  { fmt := 4, shape := 2, acc := 0, row0 := false, bfmt := 4, ca := 1, cb := 1, cx := 0, swa := 0, swae := false, swb := 0, swbe := false,
    offa := 0, offb := 0, stra := 0, strb := 0, offx := 0, strx := 0, zpre := true, pb := false, rsv := 0 }
def spO : MmaOp := { mmaO with fmt := 0, shape := 1, bfmt := 0, cx := 2 }
def dO : MmaOp := { mmaO with fmt := 6, shape := 1, cx := 2, zpre := false }
def atMe : State :=
  queued (base.modCore fun c => { c with pool := { c.pool with full := (List.range 8).map fun g => (0x1200 + g, true) } }) .me (cmd 1 ceCaps)
theorem witness_MatrixResults : (taken .me 1 hdrZ atMe fun x s => !s.core.acc.sv 1 && stays (x.header (AccOp.rsvOk accO
      && accO.lfmt = 0 && accO.ca = 0 && accO.swa = 0 && !accO.swae && accO.offa = 0 && accO.stra = 0)) () s) = true
    ∧ (let o := { accO with ca := 1 }
       let rows := AccOp.ranges o 0 0x11000 none
       taken .me 2 hdrZ atMe (fun x s => stays (x.accMove o permR) 0x11000 s && !s.core.acc.sv 1 && andOk (x.placeAll 0 rows s) fun _ u =>
         stays (rows.forM fun r => x.race false r) () u) = true
       ∧ taken .me 3 hdrZ atMe (fun x s => stays (x.accMove o permW) 0x11000 s && !s.core.acc.isInt false 1 && s.core.acc.poison false 1 = 0
           && andOk (x.placeAll 1 rows s) fun _ u => stays (rows.forM fun r => x.race true r) () u) = true) := by decide +kernel
/-- The premises of a product. -/
def productOk (kind : MmaKind) (code : Nat) (o : MmaOp) : Bool :=
  taken .me (code + 4 * o.fmt.toNat + o.shape.toNat) hdrZ atMe fun x s =>
    match mmaOf kind hdrZ o with
    | none => false
    | some c => (s.core.eng .me).part.isNone && andOk (x.mmaStart c s) fun p s =>
      let res := s.core.resumeAt x
      let sh := if res.isNone then s.modAcc c.shadowed else s
      andOk (x.mmaB c p (res.getD 0) sh) fun bs s => isOk (x.mmaBlocks c p bs (c.m / 8 - res.getD 0) (res.getD 0) 0 [] s)
/-- The same of the blocks that are left of a command whose last block waited. -/
def partOk (kind : MmaKind) (code : Nat) (o : MmaOp) : Bool :=
  let rows := List.replicate 32 (List.replicate 64 ((0 : Byte), false), List.replicate 2 ((0 : Byte), false))
  let part : MePart := { blk := 7, a := 0x11000, b := 0x11000, x := 0x11000, rows }
  taken .me (code + 4 * o.fmt.toNat + o.shape.toNat) hdrZ (atMe.modEng .me fun y => { y with part := some part }) fun x s =>
    match mmaOf kind hdrZ o with
    | none => false
    | some c => (s.core.eng .me).part = some part && isOk (x.mmaBlocks c { a := part.a, b := part.b, x := part.x }
        (part.rows.map fun e => { data := e.1, scales := e.2 }) (c.m / 8 - 7) 7 0 [] s)
theorem witness_MatrixResults_mma : (Instr.mma hdrZ mmaO).wf && (Instr.mmaSp hdrZ spO).wf && (Instr.mmaD hdrZ dO).wf && productOk .dense 0x40 mmaO = true := by decide +kernel
theorem witness_MatrixResults_sp : productOk .sparse 0x80 spO = true := by decide +kernel
theorem witness_MatrixResults_d : productOk .delta 0xC0 dO = true := by decide +kernel
theorem witness_MatrixResults_part : partOk .dense 0x40 mmaO = true := by decide +kernel
/-- A wait of strand 1 past the limit, and under it. -/
def waited (n : Nat) : State := base.modCore fun c => { c with q1 := { c.q1 with waitAt := some (.slot 3 7), waitCtr := BitVec.ofNat 32 n } }
/-- An engine with a fault. -/
def faulty : State := (queued base .me (cmd 1 [])).modEng .me fun x => { x with flt := true, fault := some { cause := .command } }
theorem witness_CoreEvents : faulty.core.pendingTrap.isSome = true ∧ base.core.pendingTrap = none
    ∧ ((waited 0x800000).core.quarter 1).waitAt = some (.slot 3 7) ∧ (waited 0).core.sys.wdog.getLsbD 31 = true
    ∧ 256 * max 1 (bfld (waited 0).core.sys.wdog 0 24) = 0x800000 ∧ ((waited 0x800000).core.quarter 1).waitCtr.toNat = 0x800000
    ∧ ((waited 0x7FFFFF).core.quarter 1).waitCtr.toNat = 0x7FFFFF
    ∧ (base.modCore fun c => { c with sys := { c.sys with wdog := 0 } }).core.sys.wdog.getLsbD 31 = false
    ∧ base.core.enginesEmpty = true ∧ faulty.core.enginesEmpty = false ∧ forked.core.joint = false
    ∧ (forked.core.quarter 1).st = .running ∧ (forked.core.quarter 2).st ≠ .running ∧ base.core.joint = true
    ∧ (hm base).core.priv = true ∧ (hm base).core.enginesStopped = true ∧ base.core.priv = false
    ∧ ((hm base).modEng .ce fun x => { x with queue := [cmd 1 []], phase := .passed }).core.enginesStopped = false
    ∧ bfld base.core.sys.poolc 0 11 - 0x540 = 128 ∧ bfld base.core.sys.poolc 0 11 - 0x541 = 127
    ∧ base.core.frozen = false ∧ (base.modCore fun c => { c with frozen := true }).core.frozen = true
    ∧ (((hm base).modEng .ce fun x => { x with queue := [cmd 1 []], phase := .passed }).core.eng .ce).stopped = false := by
  decide +kernel
/-- Core 1 with semaphore 1 at 0 of 1 and barrier 0 bound. -/
def landed : State :=
  { running with others := [(1, { Core.reset 1 with run := some aRun, sems := [(1, { v := 0, ceil := 1 })], bars := [(0, 0x80001000)] })] }
/-- The NI at a RREAD whose wait has passed. -/
def reading : State :=
  (queued paired .ni (cmd ((encodeCommand (.rread hdrZ rrwO)).getD 0) niCaps)).modEng .ni fun x => { x with phase := .passed }
def drainTape : Tape := { recTape with head := 16, buf := (List.range 16).map (BitVec.ofNat 8) }
theorem witness_UnitEvents : landed.refusal 1 0 0x11000 16 = none ∧ landed.refusal 1 1 0x11000 16 = some 8 ∧ landed.refusal 1 0 0 0 = none
    ∧ ((landed.coreAt 1).semOf 1).v.toNat + 1 = ((landed.coreAt 1).semOf 1).ceil.toNat
    ∧ ((landed.coreAt 1).semOf 1).ceil.toNat < ((landed.coreAt 1).semOf 1).v.toNat + 2
    ∧ (landed.coreAt 1).barAt 1 = none ∧ (landed.coreAt 1).barAt 0 ≠ none
    ∧ base.core.ni.queue = [] ∧ reading.core.ni.phase = .passed
    ∧ (match reading.core.ni.queue with
       | c :: _ => decide (decodeCommand .ni c.bits = .rread hdrZ rrwO)
           && andOk ((ctxOf reading .ni 1 hdrZ c).replies rrwO reading) fun p s =>
             match p.left.find? fun z => z.1 = 1 with
             | some e => s.refusal (remoteCore e.2.r) s.issuerKs (remoteOff e.2.r) 16 = none
                 && s.refusal (remoteCore e.2.r) 1 (remoteOff e.2.r) 16 = some 8 && (p.left.all fun z => z.1 ≠ 2)
             | none => false
       | [] => false) = true
    ∧ drainTape.buf ≠ [] ∧ drainTape.size ≠ 0
    ∧ (match (withTape drainTape []).xlateRange 7 (capBase tapeCap + (4096 + 0)) drainTape.chunk.length 1 with
       | (.ok _, _) => true | _ => false) = true := by decide +kernel
/-- Walks: a leaf with D, one without, one whose page is absent, none. -/
def walked (p : Nat) : State := { base with dev := { paged p [] with queues := [(faultQ, jq 2)] } }
/-- How a walk of VA 0x10000 for a write ends: 0 OK, 1 dirty, 2 absent, 3 a failure. -/
def walkEnd (p : Nat) : Nat :=
  match (walked p).dev.walk (ptrootOf (walked p).dev.rcbs 0) 0x10000 1 with
  | .ok .. => 0 | .dirty .. => 1 | .absent .. => 2 | .fail .. => 3
/-- The page queue with one entry, that fails FID 7; held under that number is one access. -/
def paging (h : List Held) : State :=
  { base with dev := { paged leaf [(0, 4, 7), (4, 1, 1)] with queues := [(pageQ, { jq 2 with tail := 1 })], holds := h } }
def held7 : Held := { fid := 7, rcb := 0, va := 0x10000, kind := 1, agent := 4, core := 0, pte := 0, op := 0, failed := none, posted := true }
/-- Lane 2 with an entry of no input, or busy with one. -/
def laneAt (b : Option LaneJob) : State :=
  { landed with dev := { paged leaf [] with queues := [(3 * 4096 + 2, { jq 2 with tail := 1 })],
                                            lanes := tab .idle [(2, { Lane.idle with busy := b })] } }
theorem witness_UnitEvents_walk : (walkEnd leaf, walkEnd (leaf - 2 ^ 9), walkEnd (leaf + 16), walkEnd 0) = (0, 1, 2, 3)
    ∧ (walked leaf).dev.stale 0 0x10000 = false ∧ (walked (leaf + 16)).dev.faultRoom = true ∧ (walked leaf).dev.holds = []
    ∧ (base.modDev fun d => { d with rcbs := [(0, 1 <<< (8 * 0xA0 + 63))] }).dev.stale 0 0 = true
    ∧ (walked leaf).dev.walkIn 0 0x10000 1 = (walked leaf).dev.walk (ptrootOf (walked leaf).dev.rcbs 0) 0x10000 1
    ∧ ((walked leaf).coreAt 0).num = 0 ∧ ((walked leaf).coreAt 5).num = 5 := by decide +kernel
theorem witness_UnitEvents_queues : (walked leaf).dev.queues ≠ [] ∧ (tget .off base.dev.queues pageQ).en = false
    ∧ (let s := paging [held7]
       (s.dev.hwWaits opPage [(0, 0, 0)]).1 = false ∧ (s.dev.hwRead 0 0 16).isSome = true ∧ (s.dev.hwWaits opPage [(0, 0, 0)]).2.holds = [held7] ∧ held7.op ≠ opPage
       ∧ s.dev.disp.owed = [] ∧ s.dev.disp.toCheck = [] ∧ s.dev.disp.cards = []
       ∧ ((s.dev.hwRead 0 0 16).getD []).map BitVec.toNat = [7, 0, 0, 0, 1, 0, 0, 0, 0, 0, 0, 0, 0, 0, 0, 0])
    ∧ ((paging []).dev.hwWaits opPage [(0, 0, 0)]).2.holds = []
    ∧ (let d := (laneAt none).dev
       (d.hwWaits (opLane 2) [(0, 0, 0)]).1 = false ∧ (d.hwRead 0 0 64).isSome = true ∧ (d.hwWaits (opLane 2) (laneAccess 0 0)).1 = false
       ∧ (tget Lane.idle d.lanes 2).busy = none)
    ∧ (paging [held7]).dev.walkIn 0 0x10000 1 ≠ .absent 0 0 0 ∧ held7.posted = true := by decide +kernel
/-- An entry of lane 2 whose DONE is the given word. -/
def jobOf (done va : Nat) : LaneJob := { ctr := 0, region := 0, va, bytes := BitVec.ofNat 512 (done * 2 ^ 192) }
/-- What the completion of an entry rests on: its accesses wait for nothing, RESULT can be written; the word DONE stands for. -/
def jobDone (done : Nat) : Bool × Bool × Nat :=
  let s := laneAt (some (jobOf done 0))
  let w := if doneOk (laneDone (jobOf done 0).bytes) then laneDone (jobOf done 0).bytes else 0
  ((s.dev.hwWaits (opLane 2) ((0, 0x38, 1) :: doneAccess 0 w)).1, (s.dev.hwWrite 0 0x38 (bytesOf 8 0)).isSome, w)
theorem witness_UnitEvents_done : jobDone 0 = (false, true, 0) ∧ jobDone (3 * 2 ^ 62) = (false, true, 0)
    ∧ jobDone (2 ^ 62 + 0x10101) = (false, true, 2 ^ 62 + 0x10101) ∧ jobDone (2 ^ 62 + 0x20101) = (false, true, 2 ^ 62 + 0x20101)
    ∧ jobDone (2 ^ 63 + 0x1000) = (false, true, 2 ^ 63 + 0x1000) ∧ jobDone (2 ^ 63 + 2 ^ 47) = (false, true, 2 ^ 63 + 2 ^ 47)
    ∧ (let d := (laneAt (some (jobOf 0 (2 ^ 47)))).dev
       (d.hwWaits (opLane 2) [(0, 2 ^ 47 + 0x38, 1)]).1 = false ∧ d.hwWrite 0 (2 ^ 47 + 0x38) (bytesOf 8 0) = none)
    ∧ (let d := (laneAt none).dev
       (d.hwWrite 0 0x1000 (bytesOf 8 0)).isSome = true ∧ (d.hwWrite 0 (2 ^ 47) (bytesOf 8 0)) = none)
    ∧ (let c := (laneAt none).coreAt 1
       c.run.map Run.ks = some (BitVec.ofNat 8 (ksOf (laneAt none).dev.rcbs 0)) ∧ (c.semOf 1).v.toNat + 1 ≤ (c.semOf 1).ceil.toNat
         ∧ ¬ (c.semOf 1).v.toNat + 2 ≤ (c.semOf 1).ceil.toNat)
    ∧ (let q := { (laneAt none).dev.jobQ (3 * 4096 + 2) with cclaim := 1 }
       q.head = (jobOf 0 0).ctr ∧ q.head ≠ q.cclaim ∧ { q with head := 1 }.head ≠ (jobOf 0 0).ctr) := by decide +kernel
/-- A host queue with room for three, the platform's register file open. -/
def hosted : State :=
  { base with dev := { Device.reset with plat := { Plat.reset with fwif := 1 },
                                         queues := [(5, { jq 2 with desc := 2 <<< 64 ||| 1 <<< 73, tail := 1 }), (6, jq 2)] } }
theorem witness_HostEvents : base.dev.plat.fwif = 0 ∧ hosted.dev.plat.fwif ≠ 0 ∧ hosted.dev.plat.linkUp = true
    ∧ (hosted.dev.jobQ 5).en = true ∧ (hosted.dev.jobQ 5).host = true ∧ (hosted.dev.jobQ 6).host = false ∧ (hosted.dev.jobQ 7).en = false
    ∧ (hosted.dev.jobQ 5).slots - ((hosted.dev.jobQ 5).tail - (hosted.dev.jobQ 5).head).toNat = 3
    ∧ { Plat.reset with linkUp := false }.linkUp = false ∧ Plat.reset.mode.getLsbD 2 = false ∧ bfld (1 : Word) 0 2 ≠ bfld Plat.reset.mode 0 2
    ∧ bfld (8 : Word) 0 2 = bfld Plat.reset.mode 0 2 ∧ base.idle = true ∧ { Plat.reset with mode := 4 }.mode.getLsbD 2 = true
    ∧ ckRun.idle = false ∧ Plat.reset.mbStatus.getLsbD 0 = false ∧ { Plat.reset with mbStatus := 1 }.mbStatus.getLsbD 0 = true := by
  decide +kernel
/-- Slot 0: an input queue of one chunk of no bytes, whose frames may be 64 by 64, and a frame queue. -/
def slotted : State :=
  { base with dev := { paged leaf [] with queues :=
      [(4096, { jq 2 with desc := 2 <<< 64 ||| 64 <<< 288 ||| 64 <<< 304, tail := 1 }), (8192, jq 2)] } }
def aFrame (w h : Nat) : DecodedFrame :=
  { w := BitVec.ofNat 16 w, h := BitVec.ofNat 16 h, eos := false, chunk := 0, intra := true, key := true, ref := none, pic := [],
    blocks := List.replicate 25 { decoded := true, intra := false, coefs := [] }, units := [] }
/-- A chunk of one byte, and a codec that has taken it. -/
def aChunk : BitVec 512 := 1 <<< 64
def fed : Codec := { Codec.idle with chunks := [aChunk] }
theorem witness_HostEvents_codec : let d := slotted.dev
    (d.jobQ 4096).en = true ∧ (d.jobQ 4096).cclaim ≠ (d.jobQ 4096).tail ∧ (d.hwRead 0 0 64).isSome = true
    ∧ (d.hwWaits (opChunk 0) (chunkAccess 0 0)).1 = false ∧ slotMode (d.jobQ 4096).desc ≠ 1
    ∧ (streamPost (d.jobQ 4096).desc (d.store (d.jobQ 4096)) fed (aFrame 64 64)).isSome = true
    ∧ fed.chunkOf (aFrame 64 64) = some aChunk ∧ fed.dropping = false ∧ frameWhole (aFrame 64 64) = true
    ∧ Codec.idle.chunkOf (aFrame 64 64) = none ∧ (aFrame 64 64).w.toNat ≤ slotMaxW (d.jobQ 4096).desc ∧ slotMaxW (d.jobQ 4096).desc < (aFrame 65 64).w.toNat
    ∧ (d.jobQ 8192).en = true ∧ (d.jobQ 8192).room ≠ 0 ∧ (match d.walkIn 0 0 1 with | .ok .. => true | _ => false) = true
    ∧ (base.dev.jobQ 4096).en = false := by decide +kernel
theorem witness_HostEvents_still : slotted.dev.hwWaits (opChunk 0) [(0, 0, 0)] = (false, slotted.dev) := by
  decide +kernel
def goodImage : FlashImage :=
  { readable := true, version := 1, floor := 1, image := [], config := [], vendorKey := [], imageSig := [], configSig := [], qtBase := 0, rcbBase := 0,
    dsched := 0, wdog := 0x80008000, plimit := 600, peers := [] }
/-- The boot ROM's finding of an image, as PlatformEvents names it. -/
def imageFails (f : FlashImage) : Nat :=
  if f.readable = false then 4 else if FlashImage.vouched f f.image f.imageSig = false then 1
  else if FlashImage.vouched f f.config f.configSig = false then 3
  else if f.version < f.floor then 2 else 0
/-- A booted device with a mailbox command. -/
def mailed (op k : Nat) : State :=
  { base with dev := { Device.reset with
      plat := { Plat.reset with bootstat := 1, mbStatus := 1, mbCmd := BitVec.ofNat 32 op, mbIn := tset 0 [] 0 (BitVec.ofNat 8 k) },
      slots := [(3, { KeySlot.empty with prov := true })] } }
theorem witness_PlatformEvents : bfld base.dev.plat.bootstat 0 2 = 0 ∧ bfld (mailed 1 0).dev.plat.bootstat 0 2 = 1
    ∧ imageFails { goodImage with readable := false } = 4
    ∧ base.noCard = true ∧ running.noCard = false ∧ base.dev.plat.power = .d0 ∧ { Plat.reset with power := .d3hot }.power = .d3hot
    ∧ bfld base.dev.plat.telem 32 8 = 22 ∧ bfld (14 <<< 32 : Word) 32 8 = 14
    ∧ (mailed 1 0).dev.plat.mbStatus.getLsbD 0 = true ∧ bfld (mailed 2 3).dev.plat.mbCmd 0 8 = 2
    ∧ (tget 0 (mailed 2 3).dev.plat.mbIn 0).toNat = 3 ∧ (tget KeySlot.empty (mailed 2 3).dev.slots 3).prov = true
    ∧ (tget 0 (mailed 2 4).dev.plat.mbIn 0).toNat = 4 ∧ (tget KeySlot.empty (mailed 2 4).dev.slots 4).prov = false
    ∧ bfld (mailed 0 0).dev.plat.mbCmd 0 8 = 0 ∧ bfld (mailed 4 0).dev.plat.mbCmd 0 8 = 4 := by decide +kernel
/-- The tree: the root of class 7, region 1 of class 2 and 3 tokens, regions 2 and 3 of class 0 and pre-emption class 1 and 3. -/
def tree : Rcbs :=
  [(0, 0x1000 <<< 256 ||| 7 <<< 48 ||| 128 <<< 64 ||| 0x10000),
   (1, 3 <<< 240 ||| 8 <<< 224 ||| 65536 <<< 192 ||| 2 <<< 48 ||| 128 <<< 64 ||| 0x10000), (2, 1 <<< 52 ||| 128 <<< 64 ||| 0x10000),
   (3, 3 <<< 52 ||| 128 <<< 64 ||| 0x10000)]
/-- A card of 4 records for service cores that may be killed and holds key 0; a device with cards, a queue of one more, its
round begun. -/
def aCard (st : CardSt) : Card :=
  { qid := 5, ctr := 0, bytes := 4 <<< 128 ||| 0x30 <<< 176 ||| 1 <<< 186, deps := 0, region := 1, st, refused := 0, kwOrder := 0,
    rdOrder := 0, cap := 4, next := 0, redeal := [], live := 0 }
def withCards (s : State) (l : List Card) (keys : Tab Key) : State :=
  { s with dev := { paged leaf [(0x20, 1, 1)] with
      rcbs := tree, queues := [(5, { jq 2 with tail := 1, desc := 2 <<< 64 ||| 0x10000 <<< 256 })],
      disp := { Disp.empty with cards := l, keys, rcbs := tree } } }
/-- Service cores that all run work of a region. -/
def allBusy (region : Nat) : State :=
  withCards { base with others := (List.range 4).map fun k => (128 + k, { Core.reset (128 + k) with run := some { aRun with region, order := k } }) }
    [aCard .ready] []
theorem witness_DispatcherEvents_read : let s := withCards base [] []
    let q := s.dev.jobQ 5
    (s.dev.jobQ 6).en = false ∧ q.en = true ∧ q.cclaim ≠ q.tail ∧ s.dev.hwWaits (opCard 5) [(q.region, q.entryVa 5 q.cclaim, 0)] = (false, s.dev)
    ∧ (match s.dev.hwRead q.region (q.entryVa 5 q.cclaim) 64 with
       | some b =>
         let w := BitVec.ofNat 512 (ofBytes b)
         decide (s.dev.hwWaits (opCard 5) (Device.depsAccess q.region w ++ s.dev.sideAccess 5 0) = (false, s.dev) ∧ s.dev.sideRead 5 0 = some 0
           ∧ s.dev.readCheck 5 q w = (0, (aCard .waiting).deps) ∧ s.dev.disp.doomed = [] ∧ s.dev.findCard 5 q.cclaim = none
           ∧ s.dev.disp.toCheck = [] ∧ s.dev.disp.owed = []
           ∧ cardNpred w = 1 ∧ (s.dev.sideWriteTo 5 0 1).sideRead 5 0 = some 1
           ∧ (let d := s.dev.setQueue 5 { q with cclaim := q.cclaim + 1 }
              (d.sideWriteTo 5 0 (2 ^ 31 + 0)).sideRead 5 0 = some (2 ^ 31)
                ∧ (d.sideWriteTo 5 0 (2 ^ 31 + 1)).sideRead 5 0 ≠ some (2 ^ 31))
           ∧ (s.dev.hwWrite 0 (f512 q.desc 0x20 0 64) []).isSome = true
           ∧ (let r : PubRange := { qid := 5, first := 0, count := 2 }
              (q.cclaim - r.first).toNat + 1 < r.count ∧ (q.cclaim - r.first).toNat + 1 = { r with count := 1 }.count))
       | none => false) = true := by decide +kernel
theorem witness_DispatcherEvents_zero : let s := withCards base [aCard .waiting] []
    let d := (s.dev.sideWriteTo 5 0 (2 ^ 31))
    d.disp.cards = [aCard .waiting] ∧ d.disp.owed = [] ∧ d.rangeOpen 5 0 = false
      ∧ d.sideRead 5 ((aCard .waiting).ctr.toNat % (d.jobQ 5).slots) = some (2 ^ 31) := by decide +kernel
theorem witness_DispatcherEvents : let s := withCards base [aCard .keyWait] []
    let c := aCard .keyWait
    (withCards base [] []).dev.disp.cards = [] ∧ s.dev.disp.cards = [c] ∧ s.dev.disp.owed = [] ∧ cardCount c.bytes ≠ 0
    ∧ s.dev.keysFree c = true ∧ (withCards base [c] [(0, { Key.free with held := true })]).dev.keysFree c = false
    ∧ c.refused + 1 < max 1 (bfld s.dev.plat.dsched 40 8) ∧ s.dev.findCard 5 1 = none ∧ s.dev.findCard 5 0 = some c
    ∧ s.dev.disp.due = false ∧ c.refused < s.dev.kage ∧ s.dev.kage ≤ { c with refused := 64 }.refused
    ∧ rcbValid s.dev.rcbs 4 = false ∧ rcbValid s.dev.rcbs 1 = true := by decide +kernel
theorem witness_DispatcherEvents_preempt : let s := allBusy 2
    let c := aCard .ready
    s.preempting c = true ∧ s.dev.tokens 1 ≠ 0 ∧ (withCards base [c] []).preempting c = false
    ∧ (match s.candidate c (effClass s.dev.disp.rcbs 1) with
       | some (n, r) => n = 131 && (s.preempt c n r).isSome
       | none => false) = true := by decide +kernel
/-- Core 128 free. -/
def freed : State := withCards base [aCard .ready] []
theorem witness_DispatcherEvents_deal : (freed.coreAt 128).run = none ∧ (freed.coreAt 128).num = 128 ∧ freed.dev.disp.reservedFor = []
    ∧ freed.dev.disp.ckpts = [] ∧ freed.chooseCard true = some (aCard .ready) ∧ freed.placeFor 128 (aCard .ready) = 128
    ∧ (running.coreAt 0).run ≠ none := by decide +kernel
/-- Core 0 with a run of the card, drained from cycle 0, and a clock; being killed or checkpointed, in a window. -/
def taking (n : Nat) (region : Nat) (h : Option Halting) : State :=
  withCards { base with core := { base.core with
      run := some { aRun with qid := 5, region, drain := if h.isNone then some (0, 5, 0) else none }, clock := n, stopping := h,
      tr := { base.core.tr with tstat := base.core.tr.tstat ||| 0x100 } } }
    [{ aCard .ready with bytes := (aCard .ready).bytes ||| 1 <<< 181, region }] []
theorem witness_DispatcherEvents_stop : let n := 2 * base.dev.drainMax
    (taking n 3 none).core.run.isSome = true ∧ (taking n 3 none).mayCkpt (taking n 3 none).core { aRun with qid := 5, region := 3 } = false
    ∧ (taking n 3 none).dev.mayKill { aRun with qid := 5, region := 3 } = true
    ∧ (taking n 2 none).dev.mayKill { aRun with qid := 5, region := 2 } = false ∧ 0 < n
    ∧ (taking n 3 (some .kill)).killNow = true
    ∧ (hm (taking n 3 (some .kill))).killNow = false
    ∧ ({ taking n 3 (some (.ckpt none)) with dev := paged leaf [] }).checkpointNow = true
    ∧ (hm (taking n 3 (some (.ckpt none)))).checkpointNow = false
    ∧ (taking n 3 (some (.fail none))).failNow = true
    ∧ ((taking n 3 (some (.fail none))).modEng .ce fun x => { x with queue := [cmd 1 []], phase := .passed }).failNow = false
    ∧ ((taking n 3 none).dev.cardOf { aRun with qid := 5, region := 3 }).any Card.finished = false
    ∧ ((withCards base [aCard .cancelled] []).dev.cardOf { aRun with qid := 5 }).any Card.finished = true
    ∧ (taking n 3 none).core.runOver = false
    ∧ (taking n 3 none |>.modCore fun c => { c with q0 := { c.q0 with st := .ended } }).core.runOver = true
    ∧ (∀ e ∈ engs, ((taking n 3 none).core.eng e).chain.active = false)
    ∧ ∀ i < 4, ((taking n 3 none).core.quarter (BitVec.ofNat 2 i)).tape.phase ≠ .record := by decide +kernel
/-- A run that may be checkpointed: class 3, an area, a card that says so. -/
theorem witness_DispatcherEvents_ckpt : let s := { ckRun with dev := { ckRun.dev with disp := { ckRun.dev.disp with rcbs := [(0, 2 <<< 52)] } } }
    s.mayCkpt s.core aRun = true := by decide +kernel
/-! ### Witnesses of further clauses -/

/-- Strands 0 and 1 run; strand 0 waits at its JOIN through b3, strand 1 is in issue. -/
def half : State :=
  { forked with core := { forked.core with jsync := 1, q0 := { forked.core.q0 with joinB := some 3 },
                                           issue := { forked.core.issue with q := 1 } } }
theorem witness_StrandResults_last : half.core.issue.joint = false ∧ half.core.issue.q = 1
    ∧ (∀ k : BitVec 2, k ≠ 1 → half.core.pmask.getLsbD k.toNat = true → half.core.jsync.getLsbD k.toNat = true)
    ∧ half.core.pmask.getLsbD 0 = true ∧ (half.core.quarter 0).joinB = some 3 ∧ setBit half.core.pmask 1 false = 1
    ∧ setBit (half.modCore fun c => { c with pmask := 2 }).core.pmask 1 false = 0
    ∧ setBit (joined.modCore fun c => { c with jsync := 0 }).core.pmask 0 false = 2 := by decide +kernel
theorem witness_BarrierResults_far : barred.executes none = true
    ∧ (immBits { barred with core := { barred.core with issue := { barred.core.issue with ext := some 1 } } } (.long 0)).1 = 65536 := by
  decide +kernel
/-- A command of the ME on its way since cycle 5. -/
def onWay : Core := { base.core with entering := [(5, .me, cmd 0x40 [])] }
theorem witness_CommandEntry_way : onWay.entering = [(5, .me, cmd 0x40 [])] ∧ (5 : Nat) ≤ 5 ∧ 5 < 6 := by decide +kernel
/-- The CMU at a command that is done; a fault that a command has left behind. -/
def scanned : State := (queued base .cmu (cmd 2 [])).modEng .cmu fun x => { x with phase := .done }
theorem witness_EngineSequencing_turn : scanned.core.cmu.phase = .done ∧ scanned.dev.cmuTurn scanned.core.num = true
    ∧ (scanned.modDev fun d => { d with served := [1, 0] }).dev.cmuTurn 0 = false
    ∧ ((finishing 1 0).modEng .me fun x => { x with pend := some { cause := .command } }).core.me.pend = some { cause := .command } := by
  decide +kernel
/-- The same chain in code space, its line in the core's buffer. -/
def buffered : State :=
  (fetching.modEng .ce fun x => { x with chain := { x.chain with code := true } }).modCore fun c =>
    { c with lines := [(0x400, BitVec.ofNat 512 (0x54000000 + 2 ^ 32))] }
theorem witness_EngineSequencing_code : buffered.core.ce.chain.code = true ∧ buffered.core.ce.held = none
    ∧ (match tfind buffered.core.lines (0x10000 / 64) with
       | some l => decide (lineBad .ce l = none ∧ kindOf l = 2 ∧ l.extractLsb' 32 224 ≠ 0 ∧ l.extractLsb' 256 224 = 0)
       | none => false) = true := by decide +kernel
theorem witness_QueueResults_none : let s := qs (withQ base 5 (jq 2))
    s.dev.enabled (s.rdS 1) = some (5, jq 2) ∧ (s.rdS 0).toNat = 0 ∧ s.sideOk 5 (jq 2) false = true := by decide +kernel
theorem witness_SystemRegisters_far : 255 < (immBits (base.modIssue fun x => { x with ext := some 1 }) (.short 0)).1
    ∧ base.executes (some 1) = false ∧ (immBits base (.short 0x35)).1 = 0x35 := by decide +kernel
/-- A pipe whose pair is busy. -/
theorem witness_TransferResults_pipe : let d := (base.dev.toPipe 0 0).serve 0 0
    (d.toPipe 0 0).pipeFree 0 0 = false ∧ (base.dev.toPipe 0 0).pipeFree 0 0 = true := by decide +kernel
/-- Core 1 with semaphore 1 at `v` of 1 and barrier 0 bound at 0x10000. -/
def partner (v : Nat) : State :=
  { paired with others := [(1, { Core.reset 1 with run := some aRun, sems := [(1, { v := BitVec.ofNat 16 v, ceil := 1 })],
                                                   bars := [(0, 0x80001000)] })] }
/-- RSEND passes its checks and is admitted, and `f` holds of the target. -/
def sendsTo (o : RsendOp) (s : State) (f : Core → Bool) : Bool :=
  taken .ni 3 hdrZ (atNi s) fun x s => stays (x.header (RsendOp.ok o)) () s
    && stays (x.capAt 1 0 32 (permR + permENG) 1 [0]) 0x11000 s && stays (x.capAt 3 0 32 (permW + permENG) 1 [1]) 0x811000 s
    && remoteCore 0x811000 = 1 && stays (x.race false { space := 0, a := 0x11000, n := 32, sw := none }) () s
    && (s.refusal 1 s.issuerKs (remoteOff 0x811000) 32).isNone && f (s.coreAt 1)
def rsendSem : RsendOp := { rsendO with rse := true, rsidx := 1, rsinc := 1 }
theorem witness_TransferValues_rsend : sendsTo rsendO paired (fun _ => true) = true
    ∧ sendsTo rsendSem (partner 0) (fun k => (k.semOf 1).v.toNat + 1 ≤ (k.semOf 1).ceil.toNat) = true
    ∧ sendsTo rsendSem (partner 1) (fun k => (k.semOf 1).ceil.toNat < (k.semOf 1).v.toNat + 1) = true
    ∧ sendsTo { rsendO with rbe := true } (partner 0) (fun k => k.barAt 0 = some 0x10000
        ∧ 0x10000 + 16 ≤ remoteOff 0x811000) = true := by decide +kernel
/-- The records of the one segment of the tape. -/
def tapeRecs : List (List Byte × List Byte × List Bool) := [(recS 5, bytesOf 16 5, []), (recD 1 1, [], [true])]
theorem witness_TransferValues_segment : taken .tape 1 hdrZ
    (queued (withTape repTape []) .tape (cmd 1 [(1, tapeCap), (2, padCap 0x12000 4096)])) (fun x s =>
      let b := tapeRecs.flatMap (fun r => r.1) ++ recMark 0 1 1
      b.length = 48 && andOk (x.segment repTape 0 48 s) fun l _ => l = b.map fun v => (v, false)) = true
    ∧ repTape.lost.getLsbD 0 = false ∧ repTape.buf = [] ∧ repTape.start 0 = 0 ∧ repTape.head = 48 ∧ repTape.seg = 0 := by
  decide +kernel
theorem witness_TransferValues_values : (tapeRecs.filter fun r => r.2.1 ≠ []).length = 1
    ∧ (tapeRecs.flatMap fun r => r.2.2) = [true] := by decide +kernel
theorem witness_TransferValues_scan :
    taken .cmu 1 hdrZ (framed false [(0x11000, 1), (0x13000, 0), (0x13100, 0), (0x13200, 0)]) (fun x s =>
      andOk (x.scanCheck scanO s) fun p _ =>
        decide (p.rt.r.space = 0 ∧ p.et.r.space = 0 ∧ p.st.r.space = 0 ∧ p.rt.r.sw = none ∧ p.et.r.sw = none ∧ p.st.r.sw = none
          ∧ p.rt.r.n = 2 * (p.g.th + 1) ∧ p.et.r.n = 4 * (p.g.rows * p.g.tw) ∧ p.st.r.n = 16
          ∧ p.rt.r.a + p.rt.r.n ≤ p.et.r.a ∧ p.et.r.a + p.et.r.n ≤ p.st.r.a ∧ p.g.rows * p.g.tw < 65536)) = true := by
  decide +kernel
/-- The ME before its commands: c1 from 0x11000, c2 from 0x20000, whose granules are full. -/
def meCaps : List (Nat × CapWord) := [(1, padCap 0x11000 0x8000), (2, padCap 0x20000 0x8000)]
def meAt : State :=
  queued (base.modCore fun c => { c with pool := { c.pool with full := (List.range 32).map fun g => (0x2000 + g, true) } }) .me
    (cmd 1 meCaps)
/-- The premises of MatrixCompletes that its commands share. -/
def meReady (op : Nat) (f : Ctx → State → Bool) : Bool :=
  taken .me op hdrZ meAt fun x s => (s.core.resumeAt x).isNone && (s.core.eng .me).part.isNone && !s.core.acc.sv 0
    && s.core.pool.wrec.isEmpty && s.core.pool.pois.isEmpty && s.core.race.acqOf 6 0 = 1 && f x s
def mays (x : Ctx) (s : State) (ci : BitVec 4) (n perm a : Nat) : Bool :=
  passes (capCheck (x.under s.core) s.dev (x.cap ci) 0 n perm [0, 2]) a && x.space ci = 0
theorem witness_MatrixCompletes (inl : Bool) : CmdHdr.plain hdrZ inl := by cases inl <;> exact ⟨rfl, rfl, rfl, by decide, by decide, by decide⟩
theorem witness_MatrixCompletes_calm (c : Core) (hw : c.pool.wrec = []) (hp : c.pool.pois = []) (hr : c.race.acqOf 6 0 = 1)
    (g : Nat) : c.raceOk 6 g = true ∧ tget false c.pool.pois g = false := by
  have h : tget (0, 0) c.pool.wrec g = (0, 0) := by rw [hw]; rfl
  refine ⟨?_, by rw [hp]; rfl⟩
  unfold Core.raceOk
  rw [h]
  simp [hr]
theorem witness_MatrixCompletes_moves : let o := { AccOp.empty with ca := 1 }
    meReady 1 (fun _ _ => true) = true ∧ AccOp.rsvOk o = true
    ∧ meReady 2 (fun x s => mays x s 1 128 (permR + permENG) 0x11000) = true
    ∧ meReady 3 (fun x s => mays x s 1 (16 * 8 * 63 + 128) (permW + permENG) 0x11000 && s.core.acc.poison false 0 = 0
        && !s.core.acc.isInt false 0) = true := by decide +kernel
theorem witness_MatrixCompletes_products :
    meReady (0x40 + 4 * 4) (fun x s => mays x s 1 64 (permR + permENG) 0x11000 && !s.core.acc.isInt false 0) = true
    ∧ meReady 0x40 (fun x s => mays x s 1 64 (permR + permENG) 0x11000) = true
    ∧ meReady (0x80 + 4 * 4) (fun x s => mays x s 1 32 (permR + permENG) 0x11000
        && mays x s 2 512 (permR + permENG + permFE) 0x20000
        && (List.range 32).all fun g => tget false s.core.pool.full (0x2000 + g)) = true
    ∧ meReady (0xC0 + 4 * 6) (fun x s => mays x s 1 64 (permR + permENG) 0x11000 && mays x s 2 256 (permR + permENG) 0x20000) = true := by
  decide +kernel
/-- A machine check that waits behind an engine's fault, and after it. -/
def checked (s : State) : State := s.modCore fun c => { c with mcheck := some (1, 2) }
/-- A stream before a line of scoreboard mode, having run in the other. -/
def before (s : State) (lat : Option Bool) : State :=
  s.modCore fun c => { c with lines := [(0, haltLine)], q0 := { c.q0 with pc := 4, lat, st := .running } }
/-- Strand 0 runs alone. -/
def alone : State := { forked with core := { forked.core with q1 := { forked.core.q1 with st := .parked }, pmask := 1 } }
theorem witness_CoreEvents_checks : faulty.core.engineTrap.isSome = true ∧ base.core.engineTrap = none
    ∧ (checked base).core.engineTrap = none ∧ (checked base).core.mcheck = some (1, 2) ∧ (checked base).core.trapEn = true
    ∧ (hm (checked base)).core.trapEn = false ∧ (hm (checked base)).core.engineTrap = none
    ∧ (base.core.q0.waitAt = none ∧ base.core.q1.waitAt = none ∧ base.core.q2.waitAt = none ∧ base.core.q3.waitAt = none)
    ∧ (waited 0x800000).core.engineTrap = none
    ∧ (faulty.modCore fun c => { c with q1 := (waited 0x800000).core.q1 }).core.engineTrap.isSome = true := by decide +kernel
theorem witness_CoreEvents_mode : let l := haltLine
    (∀ m, (before base m).core.enginesEmpty = true ∧ (before base m).core.joint = true
      ∧ (before base m).core.q0.issues (before base m).core.clock = true ∧ (before base m).lineNow 4 = some l
      ∧ (before alone m).core.streams = [0] ∧ (before alone m).lineNow 4 = some l ∧ (before alone m).core.enginesEmpty = true
      ∧ (before base m).core.q0.lat = m) ∧ alone.core.joint = false := by
  refine ⟨fun m => ?_, by decide +kernel⟩
  exact ⟨rfl, rfl, by rfl, by rfl, by rfl, by rfl, rfl, rfl⟩
theorem witness_CoreEvents_denied : bfld forked.core.sys.age 0 16 - 4 = 252 ∧ forked.core.q0.denial.toNat < 252
    ∧ ({ forked.core.q0 with denial := 252 }).denial.toNat = 252 := by decide +kernel
/-- A host job queue of four slots with one card of no records at its head, or of too many and a DONE of no form. -/
def posted (n : Nat) : State :=
  { base with dev := { paged leaf [(0x10, 4, n), (0x37, 1, if n = 0 then 0 else 0xC0)] with
      plat := { Plat.reset with fwif := 1 }, rcbs := tree, disp := { Disp.empty with rcbs := tree }
      queues := [(5, { jq 2 with desc := 2 <<< 64 ||| 1 <<< 73 })] } }
def entry0 (s : State) : BitVec 512 := BitVec.ofNat 512 (ofBytes ((s.dev.hwRead 0 0 64).getD []))
def moved1 (s : State) : Device :=
  { s.dev with queues := tset .off s.dev.queues 5 { s.dev.jobQ 5 with tail := 1, pclaim := 1 } }
theorem witness_HostEvents_cards : ∀ n ∈ [0, 2 ^ 24],
    (posted n).dev.plat.mode.getLsbD 0 = false ∧ ((posted n).dev.jobQ 5).en = true ∧ ((posted n).dev.jobQ 5).host = true
    ∧ ((posted n).dev.jobQ 5).slots = 4 ∧ (posted n).dev.disp.toCheck = [] ∧ (posted n).dev.disp.cards = []
    ∧ ((posted n).dev.jobQ 5).head = ((posted n).dev.jobQ 5).cclaim
    ∧ (moved1 (posted n)).hwWaits (opCheck 5 0) [(0, 0, 0)] = (false, moved1 (posted n))
    ∧ ((moved1 (posted n)).hwRead 0 0 64).isSome = true
    ∧ (moved1 (posted n)).hwWaits (opCheck 5 0) (Device.depsAccess 0 (entry0 (posted n))) = (false, moved1 (posted n))
    ∧ (n = 0 → ((moved1 (posted n)).cardCheck 0 (entry0 (posted n))).1 = 0)
    ∧ (n ≠ 0 → ((moved1 (posted n)).cardCheck 0 (entry0 (posted n))).1 = 3 ∧ doneOk (cardDone (entry0 (posted n))) = false) := by
  decide +kernel
theorem witness_HostEvents_fwif : bfld (mailed 1 0).dev.plat.bootstat 0 2 = 1 ∧ (mailed 1 0).dev.plat.fwif = 0
    ∧ bfld base.dev.plat.bootstat 0 2 ≠ 1 ∧ service.core.num = 128 ∧ base.core.num ≠ 128 := by decide +kernel
theorem witness_DispatcherEvents_kept : ({ taking (2 * base.dev.drainMax) 3 (some .kill) with agenda := [] }).backsHeld = none
    ∧ (taking 0 3 (some .kill)).dev.findCard 5 0 = some { aCard .ready with bytes := (aCard .ready).bytes ||| 1 <<< 181, region := 3 } := by
  decide +kernel
/-- The queue's next card in a published range of two, the first of them. -/
def ranged : State := (withCards base [] []).modDev fun d =>
  { d with disp := { d.disp with ranges := [{ qid := 5, first := 0, count := 2 }] } }
theorem witness_DispatcherEvents_range : ranged.dev.disp.cards = [] ∧ (ranged.dev.hwWrite 0 0x10000 []).isSome = true
    ∧ (ranged.dev.jobQ 5).cclaim = 0 ∧ f512 (ranged.dev.jobQ 5).desc 0x20 0 64 = 0x10000
    ∧ (ranged.dev.jobQ 5).region = 0 := by decide +kernel
/-- The two capabilities of a copy of rows in the scratchpad, from their starts. -/
def capsOk (x : Ctx) (s : State) (n m : Nat) : Bool :=
  stays (x.header (CeCommon.ok ceC)) () s && passes (capCheck (x.under s.core) s.dev (x.cap 1) 0 n (permR + permENG) [0, 2, 3, 4]) 0x11000
    && passes (capCheck (x.under s.core) s.dev (x.cap 2) 0 m (permW + permENG) s.dstSpaces) 0x12000 && x.space 1 = 0 && x.space 2 = 0
theorem witness_CopyEngineResults_placed : taken .ce 2 hdrZ (atCe base) (fun x s => capsOk x s 24 40) = true
    ∧ taken .ce 3 hdrZ (atCe base) (fun x s => capsOk x s 280 296) = true
    ∧ ([(0, 0), (16, 32)] : List (Nat × Nat)).map (fun r => r.1 + 8) = [8, 24] ∧ (0x11000 : Nat) + 280 ≤ 0x12000 := by decide +kernel
theorem witness_CopyEngineResults_select : (∀ n < [0].length, [0].getD n 0 % 4096 < 1 ∧ 0 < 1
    ∧ ∀ r < 1, ([0, 1].getD r 0 ≤ 0 + n ∧ 0 + n < [0, 1].getD (r + 1) 0) ↔ r = 0) := by decide
theorem witness_CopyEngineResults_moves : taken .ce 4 hdrZ (tiled []) (fun x s =>
    let e : Sel := { tx := 0, ty := 0, dx := 3, dy := -2 }
    let ly : Layer := { tw := 1, th := 1, ch := 64, fmt := 6, slot := fun k => if k then 0x2000 else 0x1000, scale := fun _ => 0x4000 }
    isOk (x.mcMoves tileO ly (permR + permW + permENG) e s) && isOk (x.tgMove tileS ly 0x12000 0 e s)
      && isOk (x.tsMoves tileS ly (permR + permW + permENG) 0x12000 0 e s)) = true := by decide +kernel
theorem witness_BundleSettles_trap : (base.modIssue fun i => { i with stop := some (.trap { cause := .illegal }) }).core.issue.stop =
    some (.trap { cause := .illegal }) ∧ base.core.isService = false ∧ forked.core.issue.joint = false := by decide +kernel
theorem witness_CapabilityAccess_peers :
    let d := base.modDev fun d => { d with plat := { d.plat with peers := [(0, 1), (1, 3)] } }
    d.dev.peerOk 0x1000 = true ∧ d.dev.peerOk (2 ^ 52 - 8) = true ∧ d.dev.peerOk (2 ^ 52 + 7) = false := by decide +kernel
theorem witness_StoreResults_canonical : Pool.zero.canonical ∧ Quarter.reset.canonical ∧ base.core.pool.canonical := by
  unfold Pool.canonical Quarter.canonical; decide
theorem witness_VectorMemoryResults_lanes : (∀ e ∈ laneWrites (mems.rdV 1) ((List.range 32).map fun i => (i, .pool (0x10000 + 4 * i))),
    ∀ p, e.1 = .pool p → mems.core.raceAt 0 p e.2.length = none) := by
  intro e he p hp
  have h : (laneWrites (mems.rdV 1) ((List.range 32).map fun i => (i, .pool (0x10000 + 4 * i)))).all (fun e =>
      match e.1 with | .pool p => (mems.core.raceAt 0 p e.2.length).isNone | _ => true) = true := by decide +kernel
  have := List.all_eq_true.mp h e he
  rw [hp] at this
  simpa using this
/-- Operands of the named floating-point functions: 2 between its bounds, values past the ranges of EXP2 and TANH. -/
theorem witness_FormatsRoundTrip_bounds : let one := FVal.fin false 1 0
    fp32.val 0x40000000 ≠ .nan ∧ (one.lt ((FVal.fin false 1 (-1)).mul (fp32.val 0x40000000))) = false
    ∧ (((FVal.fin false 1 (-1)).mul (fp32.val 0x40000000)).lt one) = false
    ∧ (one.lt (((FVal.fin false 1 (-1)).mul (.fin false 1 (-1))).mul (fp32.val 0x40000000))) = false
    ∧ (fp32.val 0x43000000).lt (ofInt 128) = false ∧ (fp32.val 0xC3800000).lt (ofInt (-150)) = true
    ∧ (fp32.val 0x39000000).lt (.fin false 1 (-12)) = true ∧ (fp32.val 0x41200000).lt (ofInt 10) = false
    ∧ fp32.val 0x7FC00000 = .nan ∧ (FVal.fin false 0 0).lt (fp32.val 0x3F800000) = true
    ∧ (fp32.val 0x3F000000).lt (fp32.val 0x3F800000) = true ∧ ElType.isFloat .s32 = false := by decide +kernel
/-- The levels of a pairwise tree, and the running values of a list, as the statement names them. -/
def levOf (f : Nat → Nat → Nat) (l : List Nat) : Nat → Nat → Nat
  | 0, i => l.getD i 0
  | j + 1, i => f (levOf f l j (2 * i)) (levOf f l j (2 * i + 1))
def runOf (f : Nat → Nat → Nat) (y : Nat) (l : List Nat) : Nat → Nat
  | 0 => y
  | e + 1 => f (runOf f y l e) (l.getD e 0)
theorem witness_FormatsRoundTrip_tree : (∀ i, levOf (· + ·) [1, 2] 0 i = [1, 2].getD i 0)
    ∧ (∀ j i, levOf (· + ·) [1, 2] (j + 1) i = levOf (· + ·) [1, 2] j (2 * i) + levOf (· + ·) [1, 2] j (2 * i + 1))
    ∧ runOf (· + ·) 0 [1, 2] 0 = 0 ∧ ∀ e, runOf (· + ·) 0 [1, 2] (e + 1) = runOf (· + ·) 0 [1, 2] e + [1, 2].getD e 0 :=
  ⟨fun _ => rfl, fun _ _ => rfl, rfl, fun _ => rfl⟩
/-- Accumulator 1 holds INT32; its row 5 is the first poisoned one of those from row 3 on. -/
theorem witness_AccumulatorResults_cvt : let s := accs.modAcc fun a => { a with flg := [(1, 1)] }
    s.core.acc.isInt false 1 = true ∧ s.core.accBusy 1 = none ∧ (accs.core.acc.poison false 1).getLsbD ((3 + 2) % 64) = true
    ∧ ∀ j < 2, (accs.core.acc.poison false 1).getLsbD ((3 + j) % 64) = false := by decide +kernel
theorem witness_ContextResults_image : 0x40000 ≤ (List.replicate 0x40000 (0 : Byte)).length := by rw [List.length_replicate]
/-- A queue that another instruction waits for, and one with as many claims of its consumer. -/
theorem witness_QueueResults_turn : let s := qs (withQ base 5 (jq 2))
    s.dev.queueBusy 5 s.qcOp = false ∧ (s.dev.qcWaits 5 (opQuarter 1 0)).queueBusy 5 s.qcOp = true
    ∧ (let q := { jq 6 with tail := 33, pclaim := 33, cclaim := 32,
                            claimsH := (List.range 32).map fun i => { first := BitVec.ofNat 32 i, count := 1, done := false } }
       (q.claimsH.filter fun c => !c.done).length = 32 ∧ (q.tail - q.cclaim).toNat = 1)
    ∧ jq 2 ≠ .off ∧ queueId (s.rdS 3) = none ∧ base.dev.loaded (s.rdS 1) = some (5, .off)
    ∧ (s.modCore fun c => { c with run := some { aRun with region := 1 } }).regionOk (jq 2) = false := by decide +kernel
theorem witness_QueueResults_order : descOk 5 (jq 2).desc = true ∧ (jq 2).log2n ≤ 20 ∧ (jq 2).inOrder ∧ oneClaim.inOrder
    ∧ ((jq 2).claim false 1).1 = 0 ∧ (({ jq 2 with tail := 1, pclaim := 1 } : Queue).claim true 1).1 = 0
    ∧ (oneClaim.publish false 0 1).isSome = true ∧ ((jq 2).pclaim - (jq 2).head).toNat < (jq 2).slots ∧ (jq 2).claimsT = []
    ∧ (jq 2).pclaim = (jq 2).tail := by
  refine ⟨by decide +kernel, by decide +kernel, ?_, ?_, by decide +kernel, by decide +kernel, by decide +kernel, by decide +kernel, rfl, rfl⟩
  · simp [Queue.inOrder, jq, Queue.off, claimsWithin]
  · refine ⟨by decide, by decide +kernel, by decide +kernel, ?_, ?_⟩
    · exact ⟨by decide +kernel, trivial⟩
    · trivial
theorem witness_ChainResults_misaligned : let s := chained.modQtr fun x => { x with c := tset 0 x.c 3 (devCap 0x10008 64) }
    passes (capCheck s.core s.dev (s.rdC 3) 0 32 (permR + permW) [2]) 0x10008 = true ∧ (0x10008 : Nat) % 32 ≠ 0 := by decide +kernel
/-- TLBINV.force over one pinned page, whose region has room among its stale ranges, or has none. -/
def staleFull : Nat := (List.range 8).foldl (fun n k => n + 2 ^ (8 * (0xA0 + 8 * k) + 63)) 0
theorem witness_TableResults_force : let d := tbl.dev
    d.pinsIn 0 0x10000 65536 ≠ [] ∧ (d.staleAt 0 0).isSome = false ∧ ¬ 65536 < (tbl.rdS 11).toNat
    ∧ ∀ k < 8, (({ d with rcbs := [(0, BitVec.ofNat 2048 staleFull ||| 0x10000)] } : Device).staleAt 0 k).isSome = true := by
  decide +kernel
/-- A chain of the copy engine that stands within the line it holds; a line of KIND 00 or 01 with a command in each slot, a line of
another engine, and one of the matrix engine. -/
def heldAt (l : BitVec 512) (n : Nat) : State :=
  ((queued base .ce (cmd 1 [])).modCore fun c => { c with sys := { c.sys with slip := BitVec.ofNat 32 n } }).modEng .ce fun x =>
    { x with held := some l, chain := { Chain.none with active := true, base := 0x10000, nlines := 1, tail := 1, line := 0x10000,
                                                        inEntry := true } }
def lineAs (owner kind : Nat) : BitVec 512 := BitVec.ofNat 512 (owner * 2 ^ 28 + kind * 2 ^ 25 + 2 ^ 32 + 2 ^ 256)
theorem witness_EngineSequencing_held : let s := heldAt (lineAs 5 0) 64
    s.core.ce.held = some (lineAs 5 0) ∧ s.core.ce.lpend = none ∧ s.core.ce.chain.active = true ∧ s.core.ce.chain.inEntry = true
    ∧ lineBad .ce (lineAs 5 0) = none ∧ kindOf (lineAs 5 0) = 0 ∧ lineBad .ce (lineAs 5 1) = none ∧ kindOf (lineAs 5 1) = 1
    ∧ lineBad .ce (lineAs 6 0) = some 2 ∧ ownerOf (lineAs 6 0) = 6 ∧ service.core.isService = true
    ∧ 2 ≤ s.core.slipLimit - s.core.ce.queue.length
    ∧ (heldAt (lineAs 5 0) 2).core.slipLimit - (heldAt (lineAs 5 0) 2).core.ce.queue.length = 1
    ∧ (∀ e, s.backHeld e = none ∨ e = .ce) := by
  refine ⟨by decide +kernel, by decide +kernel, by decide +kernel, by decide +kernel, by decide +kernel, by decide +kernel,
    by decide +kernel, by decide +kernel, by decide +kernel, by decide +kernel, by decide +kernel, by decide +kernel,
    by decide +kernel, fun e => ?_⟩
  cases e <;> first | exact .inr rfl | exact .inl rfl
theorem witness_TransferResults_replies : let p : Replies := { left := [(1, { l := 0x11010, r := 0x811000, off := 0 })], why := none }
    taken .ni 1 hdrZ ((atNi paired).modEng .ni fun y => { y with rest := some p }) (fun _ s =>
      (s.core.eng .ni).rest = some p && s.refusal 1 s.issuerKs 0x11000 16 = none) = true := by decide +kernel
theorem witness_CoreEvents_order : let y := { Quarter.reset with pend := [{ due := 3, dest := .s 1 5 }, { due := 1, dest := .s 1 6 }] }
    let order : List Pending := [{ due := 1, dest := .s 1 6 }, { due := 3, dest := .s 1 5 }]
    (order.map Pending.due).Pairwise (· ≤ ·) ∧ ∀ n, order.filter (fun p => p.due = n) =
      (y.pend.filter fun p => p.due ≤ 3).filter (fun p => p.due = n) := by
  refine ⟨by decide, fun n => ?_⟩
  rcases Decidable.em (n = 1) with rfl | h1
  · decide
  · rcases Decidable.em (n = 3) with rfl | h3
    · decide
    · simp [List.filter, Ne.symm h1, Ne.symm h3]
/-- The completion words that R377 tables for the failed region's card and for the paging card, and its status OK. -/
theorem test_r377_words : doneWord 10 3 512 = 0x0A03000000000200 ∧ doneWord 0 0 77 = 0x4D ∧ qword 0 0 = 0 := by decide
end Sys2Proof.Tests
end

section
/-! PROOFS. The scalar divisions, the narrowing of capabilities and the rebuilding of tags (R99, R105 to R107). -/

namespace Sys2Proof.Machine

/-! ### Division as an operation on integers (R99) -/

/-- The quotient of R99: towards zero, and -1 where the divisor is 0. -/
def quotient (p q : Int) : Int := if q = 0 then -1 else p.tdiv q

/-- The remainder of R99: what the quotient towards zero leaves, and the dividend where the divisor is 0. -/
def remainder (p q : Int) : Int := if q = 0 then p else p - q * p.tdiv q

theorem ofInt_neg_one (n : Nat) : BitVec.ofInt n (-1) = BitVec.allOnes n := by
  rw [BitVec.ofInt_neg]
  exact BitVec.neg_one_eq_allOnes

theorem toInt_eq_zero_iff {n : Nat} (x : BitVec n) : x.toInt = 0 ↔ x = 0 := by
  rw [← BitVec.toInt_inj]
  simp

theorem toNat_eq_zero_iff {n : Nat} (x : BitVec n) : (x.toNat : Int) = 0 ↔ x = 0 := by
  rw [← BitVec.toNat_inj]
  simp

theorem ofInt_toNat {n : Nat} (x : BitVec n) : BitVec.ofInt n x.toNat = x := by
  rw [BitVec.ofInt_natCast, BitVec.ofNat_toNat, BitVec.setWidth_eq]

theorem divS_eq_quotient {n : Nat} (x y : BitVec n) :
    divS n x y = BitVec.ofInt n (quotient x.toInt y.toInt) := by
  simp only [divS, quotient, toInt_eq_zero_iff]
  split
  · exact (ofInt_neg_one n).symm
  · exact BitVec.eq_of_toInt_eq (by rw [BitVec.toInt_sdiv, BitVec.toInt_ofInt])

theorem divU_eq_quotient {n : Nat} (x y : BitVec n) :
    divU n x y = BitVec.ofInt n (quotient x.toNat y.toNat) := by
  simp only [divU, quotient, toNat_eq_zero_iff]
  split
  · exact (ofInt_neg_one n).symm
  · rw [← Int.ofNat_tdiv, ← BitVec.toNat_udiv, ofInt_toNat, BitVec.udiv_eq]

theorem remS_eq_remainder {n : Nat} (x y : BitVec n) :
    remS n x y = BitVec.ofInt n (remainder x.toInt y.toInt) := by
  simp only [remS, remainder, toInt_eq_zero_iff]
  split
  · exact BitVec.ofInt_toInt.symm
  · rw [← Int.tmod_def, ← BitVec.toInt_srem, BitVec.ofInt_toInt]

theorem remU_eq_remainder {n : Nat} (x y : BitVec n) :
    remU n x y = BitVec.ofInt n (remainder x.toNat y.toNat) := by
  simp only [remU, remainder, toNat_eq_zero_iff]
  split
  · exact (ofInt_toNat x).symm
  · rw [← Int.tmod_def, ← Int.ofNat_tmod, ← BitVec.toNat_umod, ofInt_toNat, BitVec.umod_eq]

/-! ### A division that executes -/

/-- The state after a division: the result on its way to its register and the divider busy until then (R99, R109). -/
def State.divided (s : State) (d : Reg) (lat : Nat) (v : Word) : State :=
  (s.wrS lat d v).modQtr fun x => { x with divBusy := s.core.clock + lat }

section
variable {g : Guard} {d a b : Reg} {s : State} (f : (n : Nat) → BitVec n → BitVec n → BitVec n)

theorem divide_on (w : Bool) (hg : s.executes g = true) (ht : s.taping = false)
    (hb : s.qtr.divBusy ≤ s.core.clock) :
    divide g d a b w f s = .next (s.divided d (if w then 18 else 34) (atW w f (s.rdS a) (s.rdS b))) := by
  rw [divide, guarded_on _ hg]
  refine finish_ok (u := ()) ?_
  simp [Nat.not_lt.mpr hb, ht, State.divided]

/-- At 64 bits, `r` being the integer whose low bits the operation gives: the result is `r` modulo 2^64. -/
theorem divide_long {r : Int} (hf : f 64 (s.rdS a) (s.rdS b) = BitVec.ofInt 64 r) (hg : s.executes g = true)
    (ht : s.taping = false) (hb : s.qtr.divBusy ≤ s.core.clock) :
    divide g d a b false f s = .next (s.divided d 34 (BitVec.ofInt 64 r)) := by
  rw [divide_on f false hg ht hb, ← hf]
  rfl

/-- At 32 bits both operands are cut to their low words and the result is sign-extended (R97). -/
theorem divide_word {r : Int} (hf : f 32 ((s.rdS a).setWidth 32) ((s.rdS b).setWidth 32) = BitVec.ofInt 32 r)
    (hg : s.executes g = true) (ht : s.taping = false) (hb : s.qtr.divBusy ≤ s.core.clock) :
    divide g d a b true f s = .next (s.divided d 18 ((BitVec.ofInt 32 r).signExtend 64)) := by
  rw [divide_on f true hg ht hb, ← hf]
  rfl

end

/-- Settles O14: with a free divider the division completes, and each operation of R99 is that on integers. -/
theorem divisionResults : Obligations.DivisionResults := by
  unfold Obligations.DivisionResults
  intro g d a b s hg ht hb
  refine ⟨?div, ?divu, ?rem, ?remu, ?divW, ?divuW, ?remW, ?remuW⟩
  case div => exact divide_long divS (divS_eq_quotient _ _) hg ht hb
  case divu => exact divide_long divU (divU_eq_quotient _ _) hg ht hb
  case rem => exact divide_long remS (remS_eq_remainder _ _) hg ht hb
  case remu => exact divide_long remU (remU_eq_remainder _ _) hg ht hb
  case divW => exact divide_word divS (divS_eq_quotient _ _) hg ht hb
  case divuW => exact divide_word divU (divU_eq_quotient _ _) hg ht hb
  case remW => exact divide_word remS (remS_eq_remainder _ _) hg ht hb
  case remuW => exact divide_word remU (remU_eq_remainder _ _) hg ht hb

/-! ### Capabilities of given fields (R90) -/

theorem bfld_zero {n : Nat} (x : BitVec n) (w : Nat) : bfld x 0 w = x.toNat % 2 ^ w := by
  simp [bfld]

/-- A capability takes its length and its base modulo the width of their fields. -/
theorem mkCap_congr {tag : Bool} {ver space perm len len' base base' : Nat} (hl : len % 2 ^ 48 = len' % 2 ^ 48)
    (hb : base % 2 ^ 57 = base' % 2 ^ 57) :
    mkCap tag ver space perm len base = mkCap tag ver space perm len' base' := by
  rw [mkCap, hl, hb, mkCap]

/-- R105: the length falls modulo 2^48 and the base rises modulo 2^57. -/
theorem capInc_eq (c : CapWord) (n : Nat) :
    capInc c n = mkCap (capTag c) (capVer c) (capSpace c) (capPerm c) (((capLen c : Int) - n) % 2 ^ 48).toNat
      ((capBase c + n) % 2 ^ 57) :=
  mkCap_congr (by omega) (by omega)

theorem capSetLen_eq (c : CapWord) (n : Nat) :
    capSetLen c n = mkCap (capTag c) (capVer c) (capSpace c) (capPerm c) (n % 2 ^ 48) (capBase c) :=
  mkCap_congr (by omega) rfl

/-! ### Narrowing (R105) -/

/-- CAPFAULT BOUNDS of a narrowing by `n`: its info words are the subcause, the register and `n` (R105). -/
def boundsTrap (a : Reg) (n : Nat) (q : BitVec 2) : TrapRec :=
  { cause := .capfault, sub := 5, info0 := 5, info1 := a.setWidth 64, info2 := BitVec.ofNat 64 n, fq := q }

section
variable {g : Guard} {a : Reg} {s : State} {n : Nat} (d : Reg) (f : CapWord → Nat → CapWord)

/-- An untagged source is not checked, and a tagged one is narrowed up to its length. -/
theorem narrow_within (hg : s.executes g = true) (h : capTag (s.rdC a) = true → n ≤ capLen (s.rdC a)) :
    guarded g (narrow d a n f) s = .next (s.wrC 1 d (f (s.rdC a) n)) := by
  have hfits : ¬ (capTag (s.rdC a) = true ∧ capLen (s.rdC a) < n) := fun ⟨ht, hlt⟩ => absurd (h ht) (by omega)
  rw [guarded_on _ hg]
  refine finish_ok (u := ()) ?_
  simp [narrow, hfits]

/-- Beyond the length of a tagged source the trap comes before the write. -/
theorem narrow_beyond (hg : s.executes g = true) (h : capTag (s.rdC a) = true ∧ capLen (s.rdC a) < n) :
    guarded g (narrow d a n f) s = .next (s.trapped (boundsTrap a n s.core.issue.q)) := by
  have htrap : narrow d a n f s = .error (.trap (boundsTrap a n s.core.issue.q)) s := by
    simp [narrow, h, boundsTrap]
  rw [guarded_on _ hg, finish_trap htrap, keepWalks_self]

end

/-- Settles O17: CINC, CSETB and CMOVE.inc are `narrow` by their operand, with the two cases of R105; the others complete
with the fields they name. -/
theorem capabilityResults : Obligations.CapabilityResults := by
  unfold Obligations.CapabilityResults
  intro g d a b i f s hg
  simp only [← immZ_eq, ← capInc_eq, ← capSetLen_eq]
  refine ⟨fun h => ⟨narrow_within d _ hg h, narrow_within d _ hg h⟩, fun h => narrow_within d _ hg h,
    fun h => ⟨narrow_beyond d _ hg h, narrow_beyond d _ hg h⟩, fun h => narrow_beyond d _ hg h, ?cand, ?candLen,
    ?cmove, ?cget⟩
  case cand =>
    show execCand g d a b s = _
    have hm : bfld (s.rdS b) 0 16 = (s.rdS b).toNat % 65536 := bfld_zero _ 16
    rw [← hm]
    exact pureOp_on _ hg
  case candLen =>
    show execCandLen g d a b s = _
    exact pureOp_on _ hg
  case cmove =>
    show execCmove g d a s = _
    exact pureOp_on _ hg
  case cget =>
    show execCget g d a f s = _
    refine (pureOp_on _ hg).trans ?_
    cases f
    case tag => simp [Bool.toNat, Bool.cond_eq_ite]
    all_goals rfl

/-! ### Tags (R106) -/

theorem getLsbD_ofNat_toNat_shiftLeft {n i j : Nat} (t : Bool) (hj : j < n) :
    (BitVec.ofNat n t.toNat <<< i).getLsbD j = (t && decide (j = i)) := by
  rw [BitVec.getLsbD_shiftLeft, BitVec.getLsbD_ofNat, Nat.testBit_bool_toNat]
  grind

theorem getLsbD_setBit {n i j : Nat} (x : BitVec n) (t : Bool) (hj : j < n) :
    (setBit x i t).getLsbD j = if j = i then t else x.getLsbD j := by
  have hbit : setBit x i t = (x &&& ~~~(BitVec.ofNat n true.toNat <<< i)) ||| (BitVec.ofNat n t.toNat <<< i) := by
    cases t <;> rfl
  rw [hbit, BitVec.getLsbD_or, BitVec.getLsbD_and, BitVec.getLsbD_not, getLsbD_ofNat_toNat_shiftLeft _ hj,
    getLsbD_ofNat_toNat_shiftLeft _ hj]
  by_cases h : j = i <;> simp [h, hj]

theorem capTag_capWithTag (c : CapWord) (t : Bool) : capTag (capWithTag c t) = t := by
  rw [capTag, capWithTag, getLsbD_setBit _ _ (by decide), if_pos rfl]

/-- The fields of R90 do not change with the tag. -/
theorem setWidth_capWithTag (c : CapWord) (t : Bool) : (capWithTag c t).setWidth 128 = c.setWidth 128 := by
  apply BitVec.eq_of_getLsbD_eq
  intro i hi
  have hbit : (capWithTag c t).getLsbD i = c.getLsbD i := by
    rw [capWithTag, getLsbD_setBit c t (by omega), if_neg (by omega)]
  rw [BitVec.getLsbD_setWidth, BitVec.getLsbD_setWidth, hbit]

theorem mayTag_iff (x y : CapWord) : mayTag x y = true ↔
    capTag x = true ∧ capSpace y = capSpace x ∧ capVer y = capVer x ∧ capPerm y &&& capPerm x = capPerm y
      ∧ capPerm y < 1024 ∧ capBase x ≤ capBase y ∧ capBase y + capLen y ≤ capBase x + capLen x := by
  simp [mayTag, and_assoc]

/-- Settles O18: CTAG puts `mayTag` in the tag of the pattern and CTAG.clr puts 0 in that of its source. -/
theorem tagResults : Obligations.TagResults := by
  unfold Obligations.TagResults
  intro g d a b s hg
  refine ⟨capWithTag (s.rdC b) (mayTag (s.rdC a) (s.rdC b)), capWithTag (s.rdC a) false, ?ctag, ?ctagClr,
    ?tag, setWidth_capWithTag _ _, capTag_capWithTag _ _, setWidth_capWithTag _ _⟩
  case ctag =>
    show execCtag g d a b s = _
    exact pureOp_on _ hg
  case ctagClr =>
    show execCtagClr g d a s = _
    exact pureOp_on _ hg
  case tag =>
    rw [capTag_capWithTag]
    exact mayTag_iff _ _

end Sys2Proof.Machine
end
